-- ==== Sys2Proof/Word.lean ====
section
/-! DEFINITION. The words of the part: bytes of the port frames and of values, and keys (01, section 1.1). -/

namespace Sys2Proof

/-- A byte of a port frame or of a record value. -/
abbrev Byte := BitVec 8

/-- A key: 16 bits (01, section 1.1). -/
abbrev Key := BitVec 16

/-- Key 0000h, the access record (R2). -/
abbrev accessKey : Key := 0x0000#16

/-- FFFFh: not a key; the key field of a seal (01, section 1.1). -/
abbrev noKey : Key := 0xFFFF#16

end Sys2Proof
end

