-- ==== Sys2Proof/Syntax.lean ====
section
/-! DEFINITION. The commands of the block: one constructor of `Instr` per row of spec/opcode_table.json. -/

namespace Sys2Proof

/-- The four ports (00_scope.md, section 1). -/
inductive PortId
  | A
  | B
  | C
  | D
deriving DecidableEq, Repr

/-- One of four numbered things: a handle 1 to 4 of a port (R65), or a staging buffer (R69). -/
inductive Four
  | n1
  | n2
  | n3
  | n4
deriving DecidableEq, Repr

abbrev HandleNo := Four
abbrev BufferNo := Four

/-- The supply state (R157). -/
inductive Supply
  | good
  | low
deriving DecidableEq, Repr

/-- The causes of a device reset (R160). -/
inductive Cause
  | powerOn
  | supply
  | pin
deriving DecidableEq, Repr

/-- What a mark of a segment header reads as (R163): whole, absent (blank), or malformed. -/
inductive MarkRead
  | absent
  | malformed
  | whole
deriving DecidableEq, Repr

/-- What a frame reads as whose programming was abandoned or failed its verify (R31; 11, section 11.3:
"malformed, or whole with a bad check or a blank mark", or blank). -/
inductive FrameLeft
  | blank
  | malformed
  | badCheck
  | asMeant
deriving DecidableEq, Repr

/-- How the step in flight leaves the array when it is cut short (R31): `left` for a frame step, `mark` for an
open, seal, erase or retire step. -/
structure Cut where
  left : FrameLeft
  mark : MarkRead
deriving DecidableEq, Repr

/-- The end of a frame step: verified good, or failed with what the frame then reads as (R32). -/
inductive ProgramResult
  | good
  | bad (left : FrameLeft)
deriving DecidableEq, Repr

/-- The end of an open or seal step: verified good, or failed with what the mark then reads as (R35, R36). -/
inductive MarkResult
  | good
  | bad (mark : MarkRead)
deriving DecidableEq, Repr

/-- The end of an erase step: verified good, or failed (R40) with what the ERASED mark and the RETIRED mark
then read as. -/
inductive EraseResult
  | good
  | bad (erased retired : MarkRead)
deriving DecidableEq, Repr

/-- A lease that runs out: the handle, and the moment, in ms, at which the port unit takes the expiry (R83; log 2). -/
structure LeaseEnd where
  handle : HandleNo
  moment : Nat
deriving DecidableEq, Repr

/-- The commands. A request carries the port and its parameter bytes as received (R179); a frame row the port and
the bytes received between the fall and the rise of SEL (R173). -/
inductive Instr
  | nop (p : PortId) (ps : List Byte)
  | storeInfo (p : PortId) (ps : List Byte)
  | openRead (p : PortId) (ps : List Byte)
  | openWrite (p : PortId) (ps : List Byte)
  | read (p : PortId) (ps : List Byte)
  | seek (p : PortId) (ps : List Byte)
  | write (p : PortId) (ps : List Byte)
  | truncate (p : PortId) (ps : List Byte)
  | markDelete (p : PortId) (ps : List Byte)
  | close (p : PortId) (ps : List Byte)
  | commit (p : PortId) (ps : List Byte)
  | renew (p : PortId) (ps : List Byte)
  | setLease (p : PortId) (ps : List Byte)
  | watch (p : PortId) (ps : List Byte)
  | unwatch (p : PortId) (ps : List Byte)
  | watchList (p : PortId) (ps : List Byte)
  | nextNotice (p : PortId) (ps : List Byte)
  | enumerate (p : PortId) (ps : List Byte)
  | reclaim (p : PortId) (ps : List Byte)
  | portReset (p : PortId) (ps : List Byte)
  | unknownKindRequest (p : PortId) (kind : Byte) (ps : List Byte)
  | portFrameStart (p : PortId)
  | idleFrame (p : PortId) (bytes : List Byte)
  | malformedFrame (p : PortId) (bytes : List Byte)
  | badCheckFrame (p : PortId) (bytes : List Byte)
  | busyFrame (p : PortId) (bytes : List Byte)
  | handlingEnd (p : PortId)
  | readingLeaseExpiry (p : PortId) (e : LeaseEnd)
  | writingLeaseExpiry (p : PortId) (e : LeaseEnd)
  | frameProgramDone (r : ProgramResult)
  | commitMarkDone (verified : Bool)
  | segmentOpenDone (r : MarkResult)
  | segmentSealDone (r : MarkResult)
  | segmentEraseDone (r : EraseResult)
  | segmentRetireDone (mark : MarkRead)
  | supplyFall (cut : Cut)
  | supplyRise
  | deviceReset (cause : Cause) (cut : Cut)
  | powerLossInReset
  | resetRelease (supply : Supply)
  | mountScanDone
  | mountEraseDone (r : EraseResult)
deriving DecidableEq, Repr

end Sys2Proof
end

