-- ==== Sys2Proof/Decode.lean ====
section
/-! DEFINITION. From bytes to commands. No row of the opcode table gives bits, so `decodeTableWord` answers none;
the bytes of a port frame spell a command by R173, R178 and R179, and `encodeRequest` writes them. -/

namespace Sys2Proof

/-- The command a word spells by the table's bits: no row gives bits (98_reader.md: n_rows_with_fixed 0). -/
def decodeTableWord (_nbits _w : Nat) : Option Instr := none

/-- The check byte of a request, and of a reply: the sum modulo 256 (R173, R177). -/
def checkSum (bytes : List Byte) : Byte :=
  bytes.foldl (· + ·) 0

/-- The classes of R173 that depend on the bytes received alone. -/
inductive FrameClass
  | idle
  | malformed
  | cutShort
  | badCheck
  | complete (kind : Byte) (ps : List Byte)
deriving DecidableEq, Repr

/-- R173's rows after the first, in order, for the bytes received in a frame. -/
def classifyFrame : List Byte → FrameClass
  | [] => .idle
  | kind :: rest =>
    if kind = 0xFF#8 then .idle
    else
      match rest with
      | [] => .malformed
      | len :: body =>
        if 66 < len.toNat then .malformed
        else
          match body[len.toNat]? with
          | none => .cutShort
          | some check =>
            if check = checkSum (kind :: len :: body.take len.toNat) then
              .complete kind (body.take len.toNat)
            else .badCheck

/-- The request of a complete frame, by the kind codes of R179. -/
def decodeRequest (p : PortId) (kind : Byte) (ps : List Byte) : Instr :=
  match kind.toNat with
  | 0x01 => .nop p ps
  | 0x02 => .storeInfo p ps
  | 0x03 => .openRead p ps
  | 0x04 => .openWrite p ps
  | 0x05 => .read p ps
  | 0x06 => .seek p ps
  | 0x07 => .write p ps
  | 0x08 => .truncate p ps
  | 0x09 => .markDelete p ps
  | 0x0A => .close p ps
  | 0x0B => .commit p ps
  | 0x0C => .renew p ps
  | 0x0D => .setLease p ps
  | 0x0E => .watch p ps
  | 0x0F => .unwatch p ps
  | 0x10 => .watchList p ps
  | 0x11 => .nextNotice p ps
  | 0x12 => .enumerate p ps
  | 0x13 => .reclaim p ps
  | 0x14 => .portReset p ps
  | _ => .unknownKindRequest p kind ps

/-- The command that the bytes received in a frame are, at the rise of SEL, when the frame did not begin while a
request was being handled (R173). A cut-short frame is an idle one: "not taken; nothing changes". -/
def decodeFrame (p : PortId) (bytes : List Byte) : Instr :=
  match classifyFrame bytes with
  | .idle => .idleFrame p bytes
  | .cutShort => .idleFrame p bytes
  | .malformed => .malformedFrame p bytes
  | .badCheck => .badCheckFrame p bytes
  | .complete kind ps => decodeRequest p kind ps

/-- Port, kind code and parameter bytes of a request (R179), none for a command that is no request. -/
def requestParts : Instr → Option (PortId × Byte × List Byte)
  | .nop p ps => some (p, 0x01, ps)
  | .storeInfo p ps => some (p, 0x02, ps)
  | .openRead p ps => some (p, 0x03, ps)
  | .openWrite p ps => some (p, 0x04, ps)
  | .read p ps => some (p, 0x05, ps)
  | .seek p ps => some (p, 0x06, ps)
  | .write p ps => some (p, 0x07, ps)
  | .truncate p ps => some (p, 0x08, ps)
  | .markDelete p ps => some (p, 0x09, ps)
  | .close p ps => some (p, 0x0A, ps)
  | .commit p ps => some (p, 0x0B, ps)
  | .renew p ps => some (p, 0x0C, ps)
  | .setLease p ps => some (p, 0x0D, ps)
  | .watch p ps => some (p, 0x0E, ps)
  | .unwatch p ps => some (p, 0x0F, ps)
  | .watchList p ps => some (p, 0x10, ps)
  | .nextNotice p ps => some (p, 0x11, ps)
  | .enumerate p ps => some (p, 0x12, ps)
  | .reclaim p ps => some (p, 0x13, ps)
  | .portReset p ps => some (p, 0x14, ps)
  | .unknownKindRequest p kind ps => some (p, kind, ps)
  | .portFrameStart _ => none
  | .idleFrame _ _ => none
  | .malformedFrame _ _ => none
  | .badCheckFrame _ _ => none
  | .busyFrame _ _ => none
  | .handlingEnd _ => none
  | .readingLeaseExpiry _ _ => none
  | .writingLeaseExpiry _ _ => none
  | .frameProgramDone _ => none
  | .commitMarkDone _ => none
  | .segmentOpenDone _ => none
  | .segmentSealDone _ => none
  | .segmentEraseDone _ => none
  | .segmentRetireDone _ => none
  | .supplyFall _ => none
  | .supplyRise => none
  | .deviceReset _ _ => none
  | .powerLossInReset => none
  | .resetRelease _ => none
  | .mountScanDone => none
  | .mountEraseDone _ => none

/-- The bytes of a frame that carries a request: kind, length, parameters, check (10, section 10.4). -/
def frameBytes (kind : Byte) (ps : List Byte) : List Byte :=
  let head := kind :: BitVec.ofNat 8 ps.length :: ps
  head ++ [checkSum head]

/-- The frame bytes of a request, none for a command that is no request. -/
def encodeRequest (i : Instr) : Option (List Byte) :=
  (requestParts i).map fun r => frameBytes r.2.1 r.2.2

end Sys2Proof
end

