-- ==== Sys2Proof/Version.lean ====
section
/-! DEFINITION. Versions and array frames as the rules tell them: named fields, no bit layout (R4, R5, R18). -/

namespace Sys2Proof

/-- The four kinds of a version (R5). -/
inductive Kind
  | value
  | tombstone
  | damageMark
  | groupSeal
deriving DecidableEq, Repr

/-- The header fields of a version but its check and commit mark (R4). `group` is 0 for a version of no group. -/
structure VersionHeader where
  key : Key
  kind : Kind
  length : Nat
  sequence : Nat
  group : Nat
deriving DecidableEq, Repr

/-- The check a header holds (R4), as what it was computed over: a header and value bytes (log 4). `bad` is a check field
that did not come out as meant and agrees with nothing (R31; log 8). -/
inductive Check
  | over (header : VersionHeader) (bytes : List Byte)
  | bad
deriving DecidableEq, Repr

/-- The first frame of a version: its header fields, whether the commit mark is programmed, its check, and up to 48
value bytes (R4, R6). -/
structure First where
  header : VersionHeader
  committed : Bool
  check : Check
  data : List Byte
deriving DecidableEq, Repr

/-- What an array frame holds, as it reads.
`first` is the first frame of a version.
`more` is a further frame of a version with up to 64 value bytes.
`malformed` is a frame that is neither blank nor a whole header (R121). -/
inductive Cell
  | blank
  | malformed
  | first (f : First)
  | more (data : List Byte)
deriving DecidableEq, Repr

/-- The first frame of a version: segment and frame number (R18, R43). -/
structure Loc where
  seg : Nat
  frame : Nat
deriving DecidableEq, Repr

end Sys2Proof
end

