-- ==== Sys2Proof/Config.lean ====
section
/-! DEFINITION. The part's fixed numbers, and the free values: constants with no body, for what the manual leaves open. -/

namespace Sys2Proof.Config

/-- 32 segments (R18). -/
abbrev segmentCount : Nat := 32

/-- Frames 1 to 127 of a segment hold versions (R18). -/
abbrev lastFrame : Nat := 127

/-- A record value is at most 496 bytes (R3). -/
abbrev maxLength : Nat := 496

/-- The directory's capacity (R45). -/
abbrev directoryCapacity : Nat := 1024

/-- The group table has 32 entries (R116). -/
abbrev groupEntries : Nat := 32

/-- A port's notice queue has 8 slots (R140). -/
abbrev noticeSlots : Nat := 8

/-- A watch list holds up to 16 keys (R131). -/
abbrev watchCapacity : Nat := 16

/-- The highest sequence the counter gives (R11). -/
abbrev lastSequence : Nat := 0xFFFFFFF0

/-- The highest erase count (R19, R39). -/
abbrev maxEraseCount : Nat := 2 ^ 24 - 1

/-- Free value: what the array rots to while the part idles, as (segment, frame, what the frame now reads as), for
the n-th idle step. The manual speaks of versions "found corrupt" (R59, R121, R156) and gives no cause (log 5). -/
opaque rot : Nat → List (Nat × Nat × Cell)

/-- Free value: the 16-bit CRC over a header and value bytes. R4 names no polynomial (log 4). -/
opaque crc : VersionHeader → List Byte → BitVec 16

/-- Free value: what a further frame of a version, with these value bytes, reads as where the first frame of a version
is looked for (R165 after a bad check): none for malformed, else header, commit mark, check and value bytes (log 6). -/
opaque bodyAsFirst : List Byte → Option First

/-- Free value: the value bytes that a first frame of a version reads as where a further frame of another version is
looked for (log 6). -/
opaque firstAsBody : First → List Byte

/-- Free value: the byte read at an offset of a frame that holds no value byte there (log 7). -/
opaque strayByte : Loc → Nat → Byte

end Sys2Proof.Config
end

