-- ==== Sys2Proof/Machine/State.lean ====
section
/-! DEFINITION. The state of the part, as plain data, and its value after reset. -/

namespace Sys2Proof.Machine

/-- One thing for each port. -/
structure PerPort (α : Type) where
  a : α
  b : α
  c : α
  d : α
deriving DecidableEq, Repr

/-- Four numbered things: the handles of a port, the staging buffers of the pool. -/
structure Quad (α : Type) where
  n1 : α
  n2 : α
  n3 : α
  n4 : α
deriving DecidableEq, Repr

/-! ## The array (R18, R19) -/

/-- A segment header (R19). The erase count is written whole with the ERASED mark, the segment sequence with the
OPEN mark (R163); neither means anything unless its mark reads whole. -/
structure SegmentHeader where
  erased : MarkRead
  eraseCount : Nat
  opened : MarkRead
  sequence : Nat
  sealed : MarkRead
  retired : MarkRead
deriving DecidableEq, Repr

/-- A segment of the array: its header and its frames 1 to 127, in order. -/
structure SegmentImage where
  header : SegmentHeader
  frames : List Cell
deriving DecidableEq, Repr

/-! ## The segment table (R22) -/

/-- R22's states. -/
inductive SegmentState
  | erased
  | active
  | sealed
  | reclaiming
  | retired
deriving DecidableEq, Repr

/-- A segment table record (R22). Live and dead frames are views, `Device.liveFrames` and `Device.deadFrames`: R27
says the counts always agree with its rule, so the directory and the group table are their one home (log 12). -/
structure SegmentRecord where
  state : SegmentState
  eraseCount : Nat
  sequence : Option Nat
  appendPoint : Nat
  pins : Nat
  suspect : Bool
deriving DecidableEq, Repr

/-! ## The directory (R43) -/

/-- R43's entry states. -/
inductive EntryState
  | pending
  | live
  | gone
  | damaged
deriving DecidableEq, Repr

/-- A directory entry (R43). -/
structure Entry where
  key : Key
  state : EntryState
  location : Option Loc
  length : Nat
  sequence : Option Nat
  residue : Nat
  claim : Option (PortId × HandleNo)
  pins : Nat
  markPending : Bool
deriving DecidableEq, Repr

/-! ## Handles and staging buffers (R65, R69) -/

/-- The version a READING handle is bound to (R65). -/
structure Bound where
  location : Loc
  length : Nat
  sequence : Nat
deriving DecidableEq, Repr

/-- A handle, with exactly the fields R65 gives each of its states. -/
inductive Handle
  | free
  | reading (key : Key) (bound : Bound) (cursor deadline : Nat)
  | writing (key : Key) (buffer : BufferNo) (cursor deadline : Nat)
  | committing (key : Key) (buffer : BufferNo) (cursor : Nat)
  | expired (key : Key)
  | revoked (key : Key)
deriving DecidableEq, Repr

/-- R69's intent. -/
inductive Intent
  | value
  | delete
deriving DecidableEq, Repr

/-- A staging buffer (R69). -/
structure Buffer where
  owner : Option (PortId × HandleNo)
  intent : Intent
  length : Nat
  bytes : List Byte
deriving DecidableEq, Repr

/-! ## Notices and replies (R135, R177, R180) -/

/-- The outcomes of a commit (R103). -/
inductive CommitOutcome
  | done
  | failedSupply
  | failedVerify
  | storeFull
  | denied
deriving DecidableEq, Repr

/-- A queued notice (R135). RESYNC is never queued. -/
inductive Notice
  | changed (key : Key) (sequence length : Nat)
  | removed (key : Key) (sequence : Nat)
  | damaged (key : Key)
  | commitDone (ticket : Byte) (outcome : CommitOutcome) (sequence : Option Nat)
  | handleExpired (h : HandleNo) (key : Key)
  | handleRevoked (h : HandleNo) (key : Key)
  | supply (s : Supply)
  | started (c : Cause)
deriving DecidableEq, Repr

/-- The result codes (R180). -/
inductive Result
  | ok
  | notReady
  | busy
  | badRequest
  | badHandle
  | noSuchKey
  | denied
  | claimed
  | noHandle
  | noBuffer
  | noEntry
  | tooLong
  | expired
  | revoked
  | queueFull
  | storeFull
  | supplyLow
  | readOnly
  | damaged
  | badTable
deriving DecidableEq, Repr

/-- A reply, but its status byte and check, which are formed when it is shifted out (R177). -/
structure Reply where
  kind : Byte
  count : Byte
  result : Result
  payload : List Byte
deriving DecidableEq, Repr

/-- SEL is low: a port frame in progress, with whether it began while a request was being handled (R175) and the bytes of
the reply it shifts out (R177); or none, SEL having been low in a device reset (R172). -/
structure FrameOut where
  busy : Bool
  discarded : Bool
  out : List Byte
deriving DecidableEq, Repr

/-- A device reset discards what it finds SEL low for, and a fall of SEL while one is held begins no frame (R172). -/
def FrameOut.lost : FrameOut := { busy := false, discarded := true, out := [] }

/-- A port unit (00_scope.md, section 2). The lease period is `2 ^ leaseExp` ms (R82). -/
structure Port where
  handles : Quad Handle
  watch : List Key
  notices : List Notice
  reserved : Nat
  overflow : Bool
  leaseExp : Nat
  ticket : Byte
  count : Byte
  held : Reply
  handling : Option Reply
  frame : Option FrameOut
deriving DecidableEq, Repr

/-! ## The access table (R146) -/

/-- A rights set (R146). -/
structure Rights where
  read : Bool
  write : Bool
  watch : Bool
deriving DecidableEq, Repr

/-- A zone of the access table (R146). -/
structure Zone where
  first : Key
  last : Key
  rights : PerPort Rights
deriving DecidableEq, Repr

/-- A present access table (R146). -/
structure AccessTable where
  defaults : PerPort Rights
  setup : PerPort Bool
  zones : List Zone
deriving DecidableEq, Repr

/-! ## Commits and the group table (R96, R116) -/

/-- A member of a commit (R96). -/
structure Member where
  handle : HandleNo
  key : Key
  buffer : BufferNo
  intent : Intent
  length : Nat
deriving DecidableEq, Repr

/-- R96's commit states. -/
inductive CommitState
  | queued
  | waitingSpace
  | running
deriving DecidableEq, Repr

/-- A commit record (R96). `portReset` says that the port was reset after the commit began (R110). -/
structure CommitRecord where
  port : PortId
  ticket : Byte
  members : List Member
  group : Option Nat
  state : CommitState
  sequence : Option Nat
  portReset : Bool
deriving DecidableEq, Repr

/-- A group table entry (R116). The commit that holds a RESERVED entry is the one whose record names its number. -/
inductive GroupEntry
  | free
  | reserved (sequence : Option Nat)
  | kept (sequence : Nat) (location : Loc) (members : Nat)
deriving DecidableEq, Repr

/-! ## The engine, reclaim and the fix list (R112, R115, R118) -/

/-- What a reclaim copy moves: the current version of a key, or the seal of a group table entry (R123). -/
inductive CopyTarget
  | entry (key : Key)
  | groupSeal (entry : Nat)
deriving DecidableEq, Repr

/-- A reclaim copy (R123): the original's place and frames as read, and what its check reads as. -/
structure Copy where
  target : CopyTarget
  source : Loc
  cells : List Cell
  checkGood : Bool
deriving DecidableEq, Repr

/-- What the engine is writing (R112): the next item of a commit, whose earlier items lie at `placed`; a damage mark,
with its sequence once taken; a reclaim copy. -/
inductive Owner
  | commit (c : CommitRecord) (placed : List Loc)
  | damageMark (key : Key) (sequence : Option Nat)
  | copy (c : Copy)
deriving DecidableEq, Repr

/-- The step in flight of a writing unit (R26, R30, R32). `sealStep` ends the ACTIVE segment, after a failed verify
when `failed`. `frameStep` programs frame number `done` of `cells`, placed at `at_`. -/
inductive WriteStep
  | sealStep (seg : Nat) (failed : Bool)
  | openStep (seg sequence : Nat)
  | frameStep (at_ : Loc) (cells : List Cell) (done : Nat)
  | markStep (at_ : Loc) (cells : List Cell)
deriving DecidableEq, Repr

/-- A unit in flight with its step (R112). `retried` says that the placement is the retry of R34. -/
inductive EngineUnit
  | write (owner : Owner) (retried : Bool) (step : WriteStep)
  | eraseVictim (seg : Nat)
  | retireVictim (seg : Nat)
  | sealFix (seg : Nat)
  | eraseFix (seg : Nat)
  | retireFix (seg : Nat)
deriving DecidableEq, Repr

/-- R115's fixes. -/
inductive Fix
  | sealing (seg : Nat)
  | erasing (seg : Nat)
deriving DecidableEq, Repr

/-- R118's controller states. -/
inductive ReclaimState
  | idle
  | copying
  | holding
  | erasing
deriving DecidableEq, Repr

/-- A version the walk passed and counted as complete: dropped with a good check, or copied as an original (R128).
`tombstone` marks a current tombstone it dropped (R57). -/
structure Passed where
  location : Loc
  key : Key
  sequence : Nat
  group : Nat
  tombstone : Bool
deriving DecidableEq, Repr

/-- The reclaim controller (R118), and `log`, what R55 and R128 count back when the victim is abandoned (log 25). -/
structure Reclaim where
  state : ReclaimState
  victim : Option Nat
  position : Option Nat
  requested : Bool
  log : List Passed
deriving DecidableEq, Repr

/-! ## The store and mount (R12, R14, R169) -/

/-- R14's reasons. -/
inductive Reason
  | worn
  | spent
  | noReserve
deriving DecidableEq, Repr

/-- R12's store states; READ_ONLY holds its reason. -/
inductive StoreState
  | mounting
  | normal
  | readOnly (reason : Reason)
deriving DecidableEq, Repr

/-- What mount rebuilds from the array and the part shows when mount ends: the directory (R43, R167) and the two counters
(R10, R20). -/
structure MountTables where
  directory : List Entry
  seqCounter : Nat
  segCounter : Nat
deriving DecidableEq, Repr

/-- What the scan leaves for the end of mount: the candidates not kept, the unclean segments (each in order of segment
number), whether SPENT was found (R165, R170), and the tables that the part shows when mount ends (R43, R167). -/
structure MountWork where
  sealFixes : List Nat
  unclean : List Nat
  spent : Bool
  tables : MountTables
deriving DecidableEq, Repr

/-- The mount sequencer: off (reset held, or mount ended), reading the array, or erasing an unclean segment (R169). -/
inductive Mount
  | off
  | scanning
  | erasing (seg : Nat) (work : MountWork)
deriving DecidableEq, Repr

/-- Everything the part holds. -/
structure Device where
  ports : PerPort Port
  buffers : Quad Buffer
  directory : List Entry
  heldSlots : List Nat
  table : Option AccessTable
  tableInvalid : Bool
  seqCounter : Nat
  segCounter : Nat
  segments : List SegmentRecord
  groups : List GroupEntry
  commitQueue : List CommitRecord
  flight : Option EngineUnit
  reclaim : Reclaim
  fixes : List Fix
  store : StoreState
  supply : Supply
  cause : Cause
  resetHeld : Bool
  mount : Mount
  array : List SegmentImage
  /-- The model's clock, in ms (log 1). -/
  now : Nat
  /-- The model's count of idle steps, which the free value `Config.rot` is applied to (log 5). -/
  draws : Nat
deriving DecidableEq, Repr

/-- The state: the commands waiting, first in, first out, and the part. -/
structure State where
  pending : List Instr
  dev : Device
deriving DecidableEq, Repr

/-- Faults: none. The manual gives every event an effect on the part and names nothing that stops it. -/
inductive Fault
deriving DecidableEq, Repr

/-- Refusals. -/
inductive Refusal
  /-- Raised by an arm of `exec` whose command has no meaning yet: by none. Safe: the model stops. -/
  | notModelled (mnemonic : String)
deriving DecidableEq, Repr

/-! ## Reset -/

/-- The initial reply (R176): kind echo NOP, count 0, NOT_READY, no payload. -/
def initialReply : Reply :=
  { kind := 0x01, count := 0, result := .notReady, payload := [] }

/-- A port unit after a device reset (R65, R82, R94, R131, R140, R174, R176). -/
def Port.cleared : Port :=
  { handles := ⟨.free, .free, .free, .free⟩
    watch := []
    notices := []
    reserved := 0
    overflow := false
    leaseExp := 10
    ticket := 0
    count := 0
    held := initialReply
    handling := none
    frame := none }

/-- A free staging buffer (R69). -/
def Buffer.cleared : Buffer :=
  { owner := none, intent := .value, length := 0, bytes := List.replicate 496 0 }

/-- The reclaim controller after a device reset (R118). -/
def Reclaim.cleared : Reclaim :=
  { state := .idle, victim := none, position := none, requested := false, log := [] }

/-- A segment as it leaves the factory (R19). -/
def SegmentImage.factory : SegmentImage :=
  { header :=
      { erased := .whole, eraseCount := 0, opened := .absent, sequence := 0, sealed := .absent, retired := .absent }
    frames := List.replicate 127 .blank }

/-- R161: what a device reset with cause `cause` leaves of the part: RAM cleared, MOUNTING, the reset held, the array
and the model's clock as they were. -/
def Device.cleared (array : List SegmentImage) (supply : Supply) (cause : Cause) (now draws : Nat) : Device :=
  { ports := ⟨Port.cleared, Port.cleared, Port.cleared, Port.cleared⟩
    buffers := ⟨Buffer.cleared, Buffer.cleared, Buffer.cleared, Buffer.cleared⟩
    directory := []
    heldSlots := []
    table := none
    tableInvalid := false
    seqCounter := 0
    segCounter := 0
    segments := []
    groups := List.replicate 32 .free
    commitQueue := []
    flight := none
    reclaim := Reclaim.cleared
    fixes := []
    store := .mounting
    supply := supply
    cause := cause
    resetHeld := true
    mount := .off
    array := array
    now := now
    draws := draws }

/-- A part from the factory whose power-on reset has begun and is held (R161; log 17). -/
def State.reset : State :=
  { pending := []
    dev := Device.cleared (List.replicate 32 SegmentImage.factory) .low .powerOn 0 0 }

end Sys2Proof.Machine
end

