-- ==== Sys2Proof/Machine/Operands.lean ====
section
/-! DEFINITION. Bytes and fields: byte order, the parameter forms of R179, the frames of a version, the bytes of a seal. -/

namespace Sys2Proof

/-- The four numbers, in order. -/
def Four.all : List Four := [.n1, .n2, .n3, .n4]

/-- A handle number as a request gives it: 1 to 4 (R67). -/
def Four.ofByte (b : Byte) : Option Four :=
  match b.toNat with
  | 1 => some .n1
  | 2 => some .n2
  | 3 => some .n3
  | 4 => some .n4
  | _ => none

/-- A handle number as a reply or a notice gives it. -/
def Four.toByte : Four → Byte
  | .n1 => 1
  | .n2 => 2
  | .n3 => 3
  | .n4 => 4

/-- The ports, in order. -/
def PortId.all : List PortId := [.A, .B, .C, .D]

end Sys2Proof

namespace Sys2Proof.Machine

/-! ## Byte order: most significant byte first (R177) -/

/-- A 2-byte field. -/
def be16 (n : Nat) : List Byte := [BitVec.ofNat 8 (n / 2 ^ 8), BitVec.ofNat 8 n]

/-- A 3-byte field. -/
def be24 (n : Nat) : List Byte := BitVec.ofNat 8 (n / 2 ^ 16) :: be16 n

/-- A 4-byte field. -/
def be32 (n : Nat) : List Byte := BitVec.ofNat 8 (n / 2 ^ 24) :: be24 n

/-- The number two bytes give. -/
def nat16 (hi lo : Byte) : Nat := hi.toNat * 2 ^ 8 + lo.toNat

/-- The key two bytes give. -/
def keyOf (hi lo : Byte) : Key := BitVec.ofNat 16 (nat16 hi lo)

/-- The bytes of a key. -/
def keyBytes (k : Key) : List Byte := be16 k.toNat

/-! ## The parameter forms of R179: none when the form check of R178 refuses the parameters -/

/-- No parameters. -/
def formNone : List Byte → Option Unit
  | [] => some ()
  | _ => none

/-- A key. -/
def formKey : List Byte → Option Key
  | [hi, lo] => some (keyOf hi lo)
  | _ => none

/-- A from-key: a position, not a key (R1). -/
def formFromKey : List Byte → Option Key
  | [hi, lo] => some (keyOf hi lo)
  | _ => none

/-- Key and options of OPEN_WRITE: bit 0 CREATE, bit 1 PRELOAD; any other bit set fails the form check (R178). -/
def formOpenWrite : List Byte → Option (Key × Bool × Bool)
  | [hi, lo, options] =>
    if options.toNat < 4 then some (keyOf hi lo, options.getLsbD 0, options.getLsbD 1) else none
  | _ => none

/-- A handle number. -/
def formHandle : List Byte → Option Byte
  | [h] => some h
  | _ => none

/-- READ's handle and count. -/
def formRead : List Byte → Option (Byte × Nat)
  | [h, n] => some (h, n.toNat)
  | _ => none

/-- A handle and a 2-byte offset or length: SEEK, TRUNCATE. -/
def formHandleWord : List Byte → Option (Byte × Nat)
  | [h, hi, lo] => some (h, nat16 hi lo)
  | _ => none

/-- WRITE's handle and 1 to 64 bytes. -/
def formWrite : List Byte → Option (Byte × List Byte)
  | h :: data => if 1 ≤ data.length ∧ data.length ≤ 64 then some (h, data) else none
  | [] => none

/-- COMMIT's list of handle numbers: every length of 0 to 66 passes the form check (R179). -/
def formCommit (ps : List Byte) : Option (List Byte) := some ps

/-- SET_LEASE's n. -/
def formLease : List Byte → Option Nat
  | [n] => some n.toNat
  | _ => none

/-! ## Versions in frames (R5, R6) -/

/-- R6: a version occupies ceil((16 + length) / 64) frames. -/
def versionFrames (length : Nat) : Nat := (16 + length + 63) / 64

/-- The frames of a version, commit mark blank: 48 value bytes beside the 16-byte header with the check over header and
value bytes, then 64 a frame (R4, R6, R7). -/
def versionCells (h : VersionHeader) (bytes : List Byte) : List Cell :=
  .first { header := h, committed := false, check := .over h bytes, data := bytes.take 48 } ::
    (List.range (versionFrames h.length - 1)).map fun i => .more ((bytes.drop (48 + 64 * i)).take 64)

/-- A seal's value bytes: the member count, then the member keys in handle order (R5). -/
def sealBytes (keys : List Key) : List Byte :=
  BitVec.ofNat 8 keys.length :: keys.flatMap keyBytes

/-- Up to n keys from the front of some bytes. -/
def takeKeys : Nat → List Byte → List Key
  | n + 1, hi :: lo :: rest => keyOf hi lo :: takeKeys n rest
  | _, _ => []

/-- The keys a seal lists, from its value bytes. -/
def sealKeys : List Byte → List Key
  | [] => []
  | n :: rest => takeKeys n.toNat rest

/-- The seal's length: 1 + 2n (R5). -/
def sealLength (n : Nat) : Nat := 1 + 2 * n

/-- Bytes placed in a buffer from a cursor on, replacing those already there (R77). -/
def placeBytes (bytes : List Byte) (cursor : Nat) (data : List Byte) : List Byte :=
  bytes.take cursor ++ data ++ bytes.drop (cursor + data.length)

end Sys2Proof.Machine
end

