-- ==== Sys2Proof/Machine/Ops.lean ====
section
/-! DEFINITION. The named operations on ports, handles, buffers, notices, leases and the directory. -/

namespace Sys2Proof.Machine

/-! ## One thing for each port, four numbered things -/

def PerPort.get {α : Type} (v : PerPort α) : PortId → α
  | .A => v.a
  | .B => v.b
  | .C => v.c
  | .D => v.d

def PerPort.set {α : Type} (v : PerPort α) (p : PortId) (x : α) : PerPort α :=
  match p with
  | .A => { v with a := x }
  | .B => { v with b := x }
  | .C => { v with c := x }
  | .D => { v with d := x }

def PerPort.map {α β : Type} (f : PortId → α → β) (v : PerPort α) : PerPort β :=
  ⟨f .A v.a, f .B v.b, f .C v.c, f .D v.d⟩

def Quad.get {α : Type} (v : Quad α) : Four → α
  | .n1 => v.n1
  | .n2 => v.n2
  | .n3 => v.n3
  | .n4 => v.n4

def Quad.set {α : Type} (v : Quad α) (i : Four) (x : α) : Quad α :=
  match i with
  | .n1 => { v with n1 := x }
  | .n2 => { v with n2 := x }
  | .n3 => { v with n3 := x }
  | .n4 => { v with n4 := x }

def Quad.map {α β : Type} (f : α → β) (v : Quad α) : Quad β :=
  ⟨f v.n1, f v.n2, f v.n3, f v.n4⟩

/-- The lowest number whose thing passes the test. -/
def Quad.findFirst {α : Type} (v : Quad α) (test : α → Bool) : Option Four :=
  Four.all.find? fun i => test (v.get i)

/-- How many of the four pass the test. -/
def Quad.countIf {α : Type} (v : Quad α) (test : α → Bool) : Nat :=
  (Four.all.filter fun i => test (v.get i)).length

/-! ## Ports -/

def Device.port (d : Device) (p : PortId) : Port := d.ports.get p

def Device.setPort (p : PortId) (q : Port) (d : Device) : Device :=
  { d with ports := d.ports.set p q }

def Device.modPort (p : PortId) (f : Port → Port) (d : Device) : Device :=
  d.setPort p (f (d.port p))

def Device.mapPorts (f : PortId → Port → Port) (d : Device) : Device :=
  { d with ports := d.ports.map f }

def Device.handle (d : Device) (p : PortId) (h : HandleNo) : Handle := (d.port p).handles.get h

def Device.setHandle (p : PortId) (h : HandleNo) (x : Handle) (d : Device) : Device :=
  d.modPort p fun q => { q with handles := q.handles.set h x }

/-! ## The notice queue (R140 to R145) -/

/-- R141: a notice that holds no reservation is offered. -/
def Port.offer (n : Notice) (q : Port) : Port :=
  if q.overflow then q
  else if q.notices.length + q.reserved < Config.noticeSlots then { q with notices := q.notices ++ [n] }
  else { q with overflow := true }

/-- R142: COMMIT_DONE takes its reserved slot, at the tail. -/
def Port.placeDone (n : Notice) (q : Port) : Port :=
  { q with notices := q.notices ++ [n], reserved := q.reserved - 1 }

/-- R145: the attention line is asserted exactly when the queue is non-empty or overflow is set. -/
def Port.attention (q : Port) : Bool := !q.notices.isEmpty || q.overflow

/-- R136: change notices, each offered when its key is watched, in the order given. -/
def Port.offerWatched (changes : List (Key × Notice)) (q : Port) : Port :=
  changes.foldl (fun q c => if q.watch.contains c.1 then q.offer c.2 else q) q

/-- A notice offered to every port. -/
def Device.offerAll (n : Notice) (d : Device) : Device :=
  d.mapPorts fun _ q => q.offer n

/-- A notice about a key offered to every port that has the key in its watch list (R137). -/
def Device.offerWatchers (k : Key) (n : Notice) (d : Device) : Device :=
  d.mapPorts fun _ q => if q.watch.contains k then q.offer n else q

/-! ## Leases (R68, R82, R83) -/

/-- The deadline a renewal sets now: the moment plus the port's period (R68). -/
def Device.deadline (d : Device) (p : PortId) : Nat := d.now + 2 ^ (d.port p).leaseExp

/-- A handle with its lease renewed, when it is READING or WRITING (R68). -/
def Handle.renewed (deadline : Nat) : Handle → Handle
  | .reading k b c _ => .reading k b c deadline
  | .writing k b c _ => .writing k b c deadline
  | h => h

/-- R68: a request renews the lease of a handle it names. -/
def Device.renew (p : PortId) (h : HandleNo) (d : Device) : Device :=
  d.setHandle p h ((d.handle p h).renewed (d.deadline p))

def Handle.isFree : Handle → Bool
  | .free => true
  | _ => false

/-- A handle whose lease runs (R83). -/
def Handle.leaseRuns : Handle → Bool
  | .reading .. => true
  | .writing .. => true
  | _ => false

/-- A handle that holds a claim and a staging buffer: WRITING or COMMITTING (R69). -/
def Handle.holdsBuffer : Handle → Bool
  | .writing .. => true
  | .committing .. => true
  | _ => false

/-! ## The directory (R43, R45) -/

/-- The entry of a key. -/
def Device.lookup (d : Device) (k : Key) : Option Entry := d.directory.find? fun e => e.key == k

/-- An entry put in its place by key. -/
def insertEntry (e : Entry) : List Entry → List Entry
  | [] => [e]
  | x :: rest => if e.key < x.key then e :: x :: rest else x :: insertEntry e rest

def Device.addEntry (e : Entry) (d : Device) : Device :=
  { d with directory := insertEntry e d.directory }

def Device.removeEntry (k : Key) (d : Device) : Device :=
  { d with directory := d.directory.filter fun e => e.key != k }

/-- The entry of a key changed in its fields other than the key. -/
def Entry.changeAt (k : Key) (f : Entry → Entry) (e : Entry) : Entry :=
  if e.key = k then { f e with key := e.key } else e

def Device.modEntry (k : Key) (f : Entry → Entry) (d : Device) : Device :=
  { d with directory := d.directory.map (Entry.changeAt k f) }

/-- R45: entries plus held slots. -/
def Device.entriesUsed (d : Device) : Nat := d.directory.length + d.heldSlots.length

/-- R46: the entry OPEN_WRITE with CREATE creates. -/
def Entry.fresh (k : Key) (claim : PortId × HandleNo) : Entry :=
  { key := k, state := .pending, location := none, length := 0, sequence := none, residue := 0,
    claim := some claim, pins := 0, markPending := false }

/-- R48, R56: a claim ends without a DONE switch; a PENDING entry is freed. -/
def Device.releaseClaim (k : Key) (d : Device) : Device :=
  match d.lookup k with
  | none => d
  | some e =>
    if e.state = .pending then d.removeEntry k
    else d.modEntry k fun e => { e with claim := none }

/-! ## The segment table's records -/

def Device.modSegment (i : Nat) (f : SegmentRecord → SegmentRecord) (d : Device) : Device :=
  { d with segments := d.segments.modify i f }

/-! ## Pins (R25, R49, R125) -/

/-- R72: a handle is bound to a version of key k in segment i. -/
def Device.pin (k : Key) (i : Nat) (d : Device) : Device :=
  (d.modEntry k fun e => { e with pins := e.pins + 1 }).modSegment i fun r => { r with pins := r.pins + 1 }

/-- R125: the event that brings the victim's pin count to 0 moves the controller from HOLDING to ERASING. -/
def Device.endHolding (d : Device) : Device :=
  if d.reclaim.state = .holding ∧ (d.reclaim.victim.bind (d.segments[·]?)).all (fun r => r.pins == 0) then
    { d with reclaim := { d.reclaim with state := .erasing } }
  else d

/-- A READING handle's pin is released (R25, R49). -/
def Device.unpin (k : Key) (i : Nat) (d : Device) : Device :=
  ((d.modEntry k fun e => { e with pins := e.pins - 1 }).modSegment i fun r => { r with pins := r.pins - 1 }).endHolding

/-- A READING handle's life ends: its pin is released and it becomes `x` (R81, R84, R88). -/
def Device.dropReader (p : PortId) (h : HandleNo) (k : Key) (b : Bound) (x : Handle) (d : Device) : Device :=
  (d.unpin k b.location.seg).setHandle p h x

/-! ## Staging buffers (R69, R70) -/

def Device.buffer (d : Device) (b : BufferNo) : Buffer := d.buffers.get b

def Device.setBuffer (b : BufferNo) (x : Buffer) (d : Device) : Device :=
  { d with buffers := d.buffers.set b x }

/-- R70: the buffer becomes free and its contents are discarded. -/
def Device.freeBuffer (b : BufferNo) (d : Device) : Device := d.setBuffer b Buffer.cleared

def Buffer.isFree (b : Buffer) : Bool := b.owner.isNone

/-- A buffer's new value: its first `length` bytes (R69). -/
def Buffer.value (b : Buffer) : List Byte := b.bytes.take b.length

/-- The life of a WRITING or COMMITTING handle ends without a switch: claim and buffer are released and it becomes
`x` (R48, R56, R70). -/
def Device.dropWriter (p : PortId) (h : HandleNo) (k : Key) (b : BufferNo) (x : Handle) (d : Device) : Device :=
  ((d.releaseClaim k).freeBuffer b).setHandle p h x

/-! ## The group table (R116) -/

def Device.setGroup (i : Nat) (g : GroupEntry) (d : Device) : Device :=
  { d with groups := d.groups.set i g }

def Device.freeGroup (g : Option Nat) (d : Device) : Device :=
  match g with
  | none => d
  | some i => d.setGroup i .free

def GroupEntry.isFree : GroupEntry → Bool
  | .free => true
  | _ => false

/-- R116: the entries in use, RESERVED and KEPT together. -/
def Device.groupsUsed (d : Device) : Nat := (d.groups.filter fun g => !g.isFree).length

/-! ## Damage (R59, R60, R137, R151) -/

/-- A version at the current location of a key's entry is found damaged. On an entry already DAMAGED with its mark
pending nothing changes and no second notice is queued (R60). Key 0000h's damage takes the access table away (R151). -/
def Device.detectDamage (k : Key) (d : Device) : Device :=
  match d.lookup k with
  | none => d
  | some e =>
    if e.state = .damaged ∧ e.markPending then d
    else
      let d := (d.modEntry k fun e => { e with state := .damaged, markPending := true }).offerWatchers k (.damaged k)
      if k = accessKey then { d with table := none, tableInvalid := false } else d

end Sys2Proof.Machine
end

