-- ==== Sys2Proof/Machine/Array.lean ====
section
/-! DEFINITION. Reading and programming the array (R7, R18, R19, R31, R121). -/

namespace Sys2Proof

/-! ## Frames -/

def Cell.isBlank : Cell → Bool
  | .blank => true
  | _ => false

/-- Whether a check agrees with a header and value bytes: their CRC is the one it stands for (R4). Of equal contents the
CRCs are equal, so that is asked first. -/
def Check.good (h : VersionHeader) (bytes : List Byte) : Check → Bool
  | .over h' bytes' => decide (h' = h ∧ bytes' = bytes) || Config.crc h' bytes' == Config.crc h bytes
  | .bad => false

/-- A frame read as the first frame of a version; none where no header reads whole (log 6). -/
def Cell.asFirst : Cell → Option First
  | .first f => some f
  | .more data => Config.bodyAsFirst data
  | .blank => none
  | .malformed => none

/-- The value bytes of a frame read as a further frame of a version; none where it reads blank or malformed (log 6,
log 9). -/
def Cell.asMore : Cell → Option (List Byte)
  | .more data => some data
  | .first f => some (Config.firstAsBody f)
  | .blank => none
  | .malformed => none

def Cell.withMark (mark : Bool) : Cell → Cell
  | .first f => .first { f with committed := mark }
  | c => c

/-- A frame that came out other than meant and not blank: a first frame whose check is bad, a further frame that reads
malformed (R31; log 8). -/
def Cell.misread : Cell → Cell
  | .first f => .first { f with check := .bad }
  | .more _ => .malformed
  | c => c

/-! ## Results of steps -/

/-- What the mark reads as at the end of an open or seal step. -/
def MarkResult.mark : MarkResult → MarkRead
  | .good => .whole
  | .bad m => m

def MarkResult.failed : MarkResult → Bool
  | .good => false
  | .bad _ => true

def EraseResult.verified : EraseResult → Bool
  | .good => true
  | .bad _ _ => false

/-! ## Places -/

/-- The frame `i` frames after a version's first. -/
def Loc.plus (l : Loc) (i : Nat) : Loc := ⟨l.seg, l.frame + i⟩

end Sys2Proof

namespace Sys2Proof.Machine

/-- Frame numbers run from 1 (R18). -/
def Device.cell (d : Device) (l : Loc) : Cell :=
  ((d.array[l.seg]?).bind (·.frames[l.frame - 1]?)).getD .blank

def SegmentImage.modFrame (frame : Nat) (f : Cell → Cell) (im : SegmentImage) : SegmentImage :=
  { im with frames := im.frames.modify (frame - 1) f }

def Device.modCell (l : Loc) (f : Cell → Cell) (d : Device) : Device :=
  { d with array := d.array.modify l.seg (SegmentImage.modFrame l.frame f) }

def Device.modHeader (i : Nat) (f : SegmentHeader → SegmentHeader) (d : Device) : Device :=
  { d with array := d.array.modify i fun im => { im with header := f im.header } }

/-! ## Reading a version (R75) -/

/-- The value bytes in frame number `i` of the version at `l`, each frame read as the place calls for (log 6). -/
def Device.part (d : Device) (l : Loc) : Nat → Option (List Byte)
  | 0 => ((d.cell l).asFirst).map (·.data)
  | i + 1 => (d.cell (l.plus (i + 1))).asMore

/-- The frame, of those of a version, that holds byte `i` of its value, and the offset there: 48 bytes in its first frame,
64 in each further one (R6). -/
def partOf (i : Nat) : Nat × Nat := if i < 48 then (0, i) else (1 + (i - 48) / 64, (i - 48) % 64)

/-- Byte `i` of the value of the version at `l`, where its frame holds it. -/
def Device.heldByte (d : Device) (l : Loc) (i : Nat) : Option Byte :=
  (d.part l (partOf i).1).bind (·[(partOf i).2]?)

/-- Byte `i` of the value of the version at `l`, as its frames read (log 6); a free value where its frame holds none
(log 7). -/
def Device.valueByte (d : Device) (l : Loc) (i : Nat) : Byte :=
  (d.heldByte l i).getD (Config.strayByte (l.plus (partOf i).1) (partOf i).2)

/-- `n` bytes of the value of the version at `l`, from byte `from_` on. -/
def Device.valueBytes (d : Device) (l : Loc) (from_ n : Nat) : List Byte :=
  (List.range n).map fun i => d.valueByte l (from_ + i)

/-- The first `n` value bytes of the version at `l`, where its frames hold them all. -/
def Device.heldBytes (d : Device) (l : Loc) (n : Nat) : Option (List Byte) := (List.range n).mapM (d.heldByte l)

/-- R7: the check of the version at `l` is verified over its header and the value bytes of all its frames, read as the place
calls for (log 6); it is bad where a frame does not hold them (log 9). -/
def Device.checkGood (d : Device) (l : Loc) : Bool :=
  match (d.cell l).asFirst with
  | none => false
  | some f =>
    match d.heldBytes l f.header.length with
    | none => false
    | some bytes => f.check.good f.header bytes

/-- The keys the seal at `l` lists. -/
def Device.sealKeysAt (d : Device) (l : Loc) : List Key := sealKeys ((d.part l 0).getD [])

/-! ## Reading a frame as a version header (R121) -/

/-- What a frame is as a version header. -/
inductive HeaderRead
  | blank
  | malformed
  | whole (h : VersionHeader) (committed checkGood : Bool)
deriving DecidableEq, Repr

/-- R121: a header is out of range when its length is above 496, its key is FFFFh on a kind other than SEAL, or its
version would run past frame 127. -/
def headerInRange (h : VersionHeader) (frame : Nat) : Bool :=
  decide (h.length ≤ Config.maxLength) && (h.key != noKey || h.kind == .groupSeal)
    && decide (frame + versionFrames h.length ≤ Config.lastFrame + 1)

/-- The first frame that a frame at frame number `frame` reads as, when its header is whole and in range (R121). -/
def inRangeFirst (c : Cell) (frame : Nat) : Option First := c.asFirst.filter fun f => headerInRange f.header frame

/-- R121's classification of the frame at `l`, with the version's check. -/
def Device.readHeader (d : Device) (l : Loc) : HeaderRead :=
  if (d.cell l).isBlank then .blank
  else
    match inRangeFirst (d.cell l) l.frame with
    | none => .malformed
    | some f => .whole f.header f.committed (d.checkGood l)

/-! ## Programming (R7, R30, R31) -/

/-- Frame number `i` of `cells` is programmed at `l`. -/
def Device.programFrame (l : Loc) (cells : List Cell) (i : Nat) (d : Device) : Device :=
  d.modCell (l.plus i) fun _ => (cells[i]?).getD .blank

/-- Frame number `i` of `cells` as a step that was abandoned or failed its verify leaves it (R31, R32). -/
def Device.leaveFrame (l : Loc) (cells : List Cell) (i : Nat) (left : FrameLeft) (d : Device) : Device :=
  match left with
  | .blank => d
  | .malformed => d.modCell (l.plus i) fun _ => .malformed
  | .badCheck => d.modCell (l.plus i) fun _ => ((cells[i]?).getD .blank).misread
  | .asMeant => d.programFrame l cells i

/-- The commit mark of the version at `l` is programmed (R7). -/
def Device.programMark (l : Loc) (d : Device) : Device := d.modCell l (Cell.withMark true)

def Device.setSealedMark (i : Nat) (m : MarkRead) (d : Device) : Device :=
  d.modHeader i fun h => { h with sealed := m }

/-- The OPEN mark with its segment sequence (R19). -/
def Device.setOpenMark (i sequence : Nat) (m : MarkRead) (d : Device) : Device :=
  d.modHeader i fun h => { h with opened := m, sequence := sequence }

def Device.setRetiredMark (i : Nat) (m : MarkRead) (d : Device) : Device :=
  d.modHeader i fun h => { h with retired := m }

/-- A header that holds an ERASED mark alone, as the erase step programs it (R38). -/
def erasedHeader (count : Nat) (erased retired : MarkRead) : SegmentHeader :=
  { erased := erased, eraseCount := count, opened := .absent, sequence := 0, sealed := .absent, retired := retired }

/-- The erase step on segment `i` with new count `count`: verified, all frames blank and a whole ERASED mark (R38, R39);
failed, the header as the marks then read (R40), and the frames blank where the ERASED mark was programmed, which follows
the blank verify (R38; log 11). -/
def Device.eraseImage (i count : Nat) (r : EraseResult) (d : Device) : Device :=
  match r with
  | .good =>
    { d with array := d.array.modify i fun _ =>
        { header := erasedHeader count .whole .absent, frames := List.replicate Config.lastFrame .blank } }
  | .bad erased retired =>
    { d with array := d.array.modify i fun im =>
        { header := erasedHeader count erased retired
          frames := if erased = .whole then List.replicate Config.lastFrame .blank else im.frames } }

/-- R31: an erase cut short leaves the header blank or malformed (log 10). -/
def Device.cutErase (i : Nat) (m : MarkRead) (d : Device) : Device :=
  d.modHeader i fun _ => erasedHeader 0 (if m = .absent then .absent else .malformed) .absent

end Sys2Proof.Machine
end

