-- ==== Sys2Proof/Machine/Access.lean ====
section
/-! DEFINITION. The access table: validity, decoding, rights, and the effects of a new table (chapter 8). -/

namespace Sys2Proof.Machine

/-! ## The access record's bytes (R147, R148, R183) -/

/-- The byte at an offset of a value. -/
def byteAt (v : List Byte) (i : Nat) : Byte := (v[i]?).getD 0

/-- R183: bit 0 is read, bit 1 is write, bit 2 is watch. -/
def decodeRights (b : Byte) : Rights :=
  { read := b.getLsbD 0, write := b.getLsbD 1, watch := b.getLsbD 2 }

/-- Four rights bytes from an offset on, for ports A, B, C, D. -/
def decodeFourRights (v : List Byte) (i : Nat) : PerPort Rights :=
  ⟨decodeRights (byteAt v i), decodeRights (byteAt v (i + 1)), decodeRights (byteAt v (i + 2)),
    decodeRights (byteAt v (i + 3))⟩

/-- Zone i, at offsets 8 + 8i to 15 + 8i (R183). -/
def decodeZone (v : List Byte) (i : Nat) : Zone :=
  let o := 8 + 8 * i
  { first := keyOf (byteAt v o) (byteAt v (o + 1))
    last := keyOf (byteAt v (o + 2)) (byteAt v (o + 3))
    rights := decodeFourRights v (o + 4) }

/-- R147: decoding a value of key 0000h. -/
def decodeTable (v : List Byte) : AccessTable :=
  let mask := byteAt v 6
  { defaults := decodeFourRights v 2
    setup := ⟨mask.getLsbD 0, mask.getLsbD 1, mask.getLsbD 2, mask.getLsbD 3⟩
    zones := (List.range (byteAt v 1).toNat).map (decodeZone v) }

/-- No bit set above the low n (R148, condition 3). -/
def reservedClear (n : Nat) (b : Byte) : Bool := decide (b.toNat < 2 ^ n)

/-- The two zones include no common key. -/
def zonesApart (x y : Zone) : Bool := decide (x.last < y.first) || decide (y.last < x.first)

/-- Each zone apart from every later one. -/
def allApart : List Zone → Bool
  | [] => true
  | z :: rest => rest.all (zonesApart z) && allApart rest

/-- R148's seven conditions, in order. -/
def validTable (v : List Byte) : Bool :=
  let n := (byteAt v 1).toNat
  let zones := (List.range n).map (decodeZone v)
  decide (8 ≤ v.length) && byteAt v 0 == 0x01
    && decide (n ≤ 8) && decide (v.length = 8 + 8 * n)
    && byteAt v 7 == 0x00 && reservedClear 4 (byteAt v 6)
    && [2, 3, 4, 5].all (fun i => reservedClear 3 (byteAt v i))
    && (List.range n).all (fun i => [4, 5, 6, 7].all fun j => reservedClear 3 (byteAt v (8 + 8 * i + j)))
    && zones.all (fun z => decide (z.first ≤ z.last))
    && zones.all (fun z => decide (0x0001#16 ≤ z.first))
    && allApart zones
    && byteAt v 6 != 0x00

/-! ## Rights (R149) -/

/-- A port's rights for a user key: the zone's that holds the key, else its default rights. -/
def AccessTable.rights (t : AccessTable) (p : PortId) (k : Key) : Rights :=
  match t.zones.find? fun z => decide (z.first ≤ k) && decide (k ≤ z.last) with
  | some z => z.rights.get p
  | none => t.defaults.get p

/-- The read right; key 0000h passes always. -/
def mayRead (table : Option AccessTable) (p : PortId) (k : Key) : Bool :=
  match table with
  | none => true
  | some t => if k = accessKey then true else (t.rights p k).read

/-- The write right, and for key 0000h the SETUP right, which stands in its place. -/
def mayWrite (table : Option AccessTable) (p : PortId) (k : Key) : Bool :=
  match table with
  | none => true
  | some t => if k = accessKey then t.setup.get p else (t.rights p k).write

/-- The watch right; key 0000h passes always. -/
def mayWatch (table : Option AccessTable) (p : PortId) (k : Key) : Bool :=
  match table with
  | none => true
  | some t => if k = accessKey then true else (t.rights p k).watch

/-! ## A new table takes effect (R151 to R155) -/

/-- R152: a WRITING handle whose right the table in force withdraws is revoked, with HANDLE_REVOKED offered. -/
def Device.revokeIfLost (p : PortId) (d : Device) (h : HandleNo) : Device :=
  match d.handle p h with
  | .writing k b _ _ =>
    if mayWrite d.table p k then d
    else (d.dropWriter p h k b (.revoked k)).modPort p fun q => q.offer (.handleRevoked h k)
  | _ => d

/-- R152 on one port, in order of handle number. -/
def Device.revokePort (d : Device) (p : PortId) : Device :=
  Four.all.foldl (Device.revokeIfLost p) d

/-- R153: the watch lists lose the keys whose watch right the table in force withdraws. -/
def Device.pruneWatches (d : Device) : Device :=
  d.mapPorts fun p q => { q with watch := q.watch.filter fun k => mayWatch d.table p k }

/-- R151: a VALUE version of key 0000h becomes current. -/
def Device.installTable (t : AccessTable) (d : Device) : Device :=
  (PortId.all.foldl Device.revokePort { d with table := some t, tableInvalid := false }).pruneWatches

/-- R151, R155: a TOMBSTONE of key 0000h becomes current. -/
def Device.dropTable (d : Device) : Device := { d with table := none, tableInvalid := false }

end Sys2Proof.Machine
end

