-- ==== Sys2Proof/Machine/Segments.lean ====
section
/-! DEFINITION. The segment table's figures: live and dead frames, room, the reserve, candidate victims (R24 to R29, R120). -/

namespace Sys2Proof.Machine

/-! ## Live and dead frames (R27, R28) -/

/-- The entries whose current locations make frames live (R27): the directory's, and during mount's own erase those that
mount has built, which the directory does not show yet (R43, R168; log 43). -/
def Device.liveEntries (d : Device) : List Entry :=
  match d.mount with
  | .erasing _ w => w.tables.directory
  | .scanning => d.directory
  | .off => d.directory

/-- The seal of some KEPT group entry lists the key. No table keeps a seal's keys: they are read from its frame as it then
reads, and a frame that reads blank or malformed lists none (the model's choice: log 45). -/
def Device.keptLists (d : Device) (k : Key) : Bool :=
  d.groups.any fun g =>
    match g with
    | .kept _ l _ => (d.sealKeysAt l).contains k
    | .free => false
    | .reserved _ => false

/-- R27's third clause: what keeps a current tombstone. -/
def Device.tombstoneNeeded (d : Device) (e : Entry) : Bool :=
  decide (0 < e.residue) || e.claim.isSome || decide (0 < e.pins) || d.keptLists e.key

/-- R27: whether the version at an entry's current location is live. -/
def Device.entryLive (d : Device) (e : Entry) : Bool :=
  match e.state with
  | .pending => false
  | .live => true
  | .damaged => true
  | .gone => d.tombstoneNeeded e

/-- The frames of the version at an entry's current location, when it lies in segment i and is live: those of the entry's
length, also where the version's header has rotted to another (the model's choice: log 44). -/
def Device.entryLiveIn (d : Device) (i : Nat) (e : Entry) : Nat :=
  match e.location with
  | none => 0
  | some l => if l.seg = i ∧ d.entryLive e then versionFrames e.length else 0

/-- The frame of a KEPT entry's seal, when it lies in segment i: one, whatever length its header reads (the model's choice:
log 44). -/
def GroupEntry.liveIn (i : Nat) : GroupEntry → Nat
  | .kept _ l _ => if l.seg = i then 1 else 0
  | .free => 0
  | .reserved _ => 0

/-- R27: the live frames of segment i. -/
def Device.liveFrames (d : Device) (i : Nat) : Nat :=
  (d.liveEntries.map (d.entryLiveIn i)).sum + (d.groups.map (GroupEntry.liveIn i)).sum

/-- R22: the used frames of a segment are frames 1 up to one below the append point. -/
def SegmentRecord.used (r : SegmentRecord) : Nat := r.appendPoint - 1

/-- R27: every other used frame is dead. -/
def Device.deadFrames (d : Device) (i : Nat) : Nat :=
  match d.segments[i]? with
  | none => 0
  | some r => r.used - d.liveFrames i

/-! ## Counts and room -/

/-- The numbered records whose state is `st`. -/
def Device.segmentsIn (d : Device) (st : SegmentState) : List (SegmentRecord × Nat) :=
  d.segments.zipIdx.filter fun r => r.1.state == st

def Device.erasedCount (d : Device) : Nat := (d.segmentsIn .erased).length

/-- The ACTIVE segment, of which there is at most one (R23). -/
def Device.active (d : Device) : Option Nat := ((d.segmentsIn .active).head?).map (·.2)

/-- The append point of a segment. -/
def Device.appendPoint (d : Device) (i : Nat) : Nat := ((d.segments[i]?).map (·.appendPoint)).getD 128

/-- The frames left in the ACTIVE segment, or 0 when no segment is ACTIVE (R28, R98). -/
def Device.roomAtHand (d : Device) : Nat :=
  match d.active with
  | none => 0
  | some i => 128 - d.appendPoint i

/-- R28: free frames. -/
def Device.freeFrames (d : Device) : Nat := d.roomAtHand + Config.lastFrame * (d.erasedCount - 1)

/-- R28: dead frames, over all segments that are not RETIRED. -/
def Device.deadTotal (d : Device) : Nat :=
  ((d.segments.zipIdx.filter fun r => r.1.state != .retired).map fun r => d.deadFrames r.2).sum

/-- R28: reclaimable frames, over the SEALED segments whose pin count is 0. -/
def Device.reclaimable (d : Device) : Nat :=
  (((d.segmentsIn .sealed).filter fun r => r.1.pins == 0).map fun r => d.deadFrames r.2).sum

/-! ## Choosing segments -/

/-- The best of a list, the first of equals. -/
def pickBest {α : Type} (better : α → α → Bool) : List α → Option α
  | [] => none
  | x :: rest =>
    match pickBest better rest with
    | none => some x
    | some y => if better y x then some y else some x

/-- R24: the ERASED segment with the lowest erase count, the lowest number among equals. -/
def Device.pickErased (d : Device) : Option Nat :=
  (pickBest (fun y x => decide (y.1.eraseCount < x.1.eraseCount)) (d.segmentsIn .erased)).map (·.2)

def Fix.segment : Fix → Nat
  | .sealing i => i
  | .erasing i => i

/-- R120: the conditions on a candidate victim. -/
def Device.isCandidate (d : Device) (r : SegmentRecord × Nat) : Bool :=
  r.1.state == .sealed && r.1.pins == 0 && (decide (1 ≤ d.deadFrames r.2) || r.1.suspect)
    && !(d.fixes.any fun f => f.segment == r.2)
    && (decide (1 ≤ d.erasedCount) || decide (d.liveFrames r.2 ≤ d.roomAtHand))

def Device.candidates (d : Device) : List (SegmentRecord × Nat) := d.segments.zipIdx.filter d.isCandidate

/-- R120's order of choice: suspect first, then most dead frames, then lowest segment sequence. -/
def Device.betterVictim (d : Device) (y x : SegmentRecord × Nat) : Bool :=
  if y.1.suspect != x.1.suspect then y.1.suspect
  else if d.deadFrames y.2 != d.deadFrames x.2 then decide (d.deadFrames x.2 < d.deadFrames y.2)
  else decide (y.1.sequence.getD 0 < x.1.sequence.getD 0)

/-- R120: the victim chosen. -/
def Device.pickVictim (d : Device) : Option Nat := (pickBest d.betterVictim d.candidates).map (·.2)

/-! ## Records at the ends of steps (R24, R26, R31, R35, R36, R39, R40) -/

/-- The ACTIVE state ends: SEALED, the tail counted dead (R26); a failed verify makes it suspect (R37). -/
def Device.sealRecord (i : Nat) (suspect : Bool) (d : Device) : Device :=
  d.modSegment i fun r => { r with state := .sealed, appendPoint := 128, suspect := r.suspect || suspect }

/-- An open step completes (R24). -/
def Device.openRecord (i sequence : Nat) (d : Device) : Device :=
  d.modSegment i fun r =>
    { r with state := .active, appendPoint := 1, pins := 0, suspect := false, sequence := some sequence }

/-- An open step is abandoned (R31) or fails its verify (R36, suspect): SEALED with 127 dead frames (log 21). -/
def Device.failOpenRecord (i sequence : Nat) (suspect : Bool) (d : Device) : Device :=
  d.modSegment i fun r =>
    { r with state := .sealed, appendPoint := 128, suspect := suspect, sequence := some sequence }

/-- An erase step verifies (R39). -/
def Device.eraseRecord (i count : Nat) (d : Device) : Device :=
  d.modSegment i fun r =>
    { r with state := .erased, eraseCount := count, sequence := none, appendPoint := 1, suspect := false }

/-- The segment sequence a header gives: none unless its OPEN mark reads whole (R163). -/
def SegmentHeader.givenSequence (h : SegmentHeader) : Option Nat := if h.opened = .whole then some h.sequence else none

/-- A segment becomes RETIRED, its erase count kept (R40, R41); no frame of it is counted (log 22), and its segment
sequence is absent where its header gives none (R22). -/
def Device.retireRecord (i : Nat) (d : Device) : Device :=
  d.modSegment i fun r =>
    { r with state := .retired, appendPoint := 1, sequence := (d.array[i]?).bind fun im => im.header.givenSequence }

/-- R58: the held slots recording a segment are released. -/
def Device.releaseHeld (i : Nat) (d : Device) : Device :=
  { d with heldSlots := d.heldSlots.filter fun j => j != i }

/-- The segments that are not RETIRED (R42). -/
def Device.notRetired (d : Device) : Nat := (d.segments.filter fun r => r.state != .retired).length

end Sys2Proof.Machine
end

