-- ==== Sys2Proof/Machine/Commits.lean ====
section
/-! DEFINITION. How commits end: the switch and the other outcomes, and entry into READ_ONLY (R13, R50, R51, R103 to R110). -/

namespace Sys2Proof.Machine

/-- The length of the version a member writes: 0 for a tombstone (R100). -/
def Member.versionLength (m : Member) : Nat :=
  match m.intent with
  | .value => m.length
  | .delete => 0

/-- R92, check 10: the frames of a member. -/
def Member.frames (m : Member) : Nat := versionFrames m.versionLength

/-- The frames of a commit's items in the order they are placed: its members, and a group's seal (R98). -/
def itemFrames (members : List Member) : List Nat :=
  members.map Member.frames ++ if members.length = 1 then [] else [1]

/-! ## The end of a commit with an outcome other than DONE (R103, R105 to R108, R110) -/

/-- A COMMITTING handle returns to WRITING with claim, buffer and cursor, and a fresh lease (R103). -/
def Device.returnWriter (p : PortId) (h : HandleNo) (d : Device) : Device :=
  match d.handle p h with
  | .committing k b c => d.setHandle p h (.writing k b c (d.deadline p))
  | _ => d

/-- One member at the end of its commit: freed after a port reset (R110); revoked when DENIED for want of its right
(R108); else back to WRITING. -/
def Device.endMember (c : CommitRecord) (o : CommitOutcome) (d : Device) (m : Member) : Device :=
  if c.portReset then d.dropWriter c.port m.handle m.key m.buffer .free
  else if o = .denied ∧ mayWrite d.table c.port m.key = false then
    d.dropWriter c.port m.handle m.key m.buffer (.revoked m.key)
  else d.returnWriter c.port m.handle

/-- R103: a commit ends with an outcome other than DONE. Its COMMIT_DONE is discarded after a port reset (R142). -/
def Device.endCommit (o : CommitOutcome) (d : Device) (c : CommitRecord) : Device :=
  let d := (c.members.foldl (Device.endMember c o) d).freeGroup c.group
  if c.portReset then d else d.modPort c.port (Port.placeDone (.commitDone c.ticket o none))

/-- Every commit of the queue ends, in order (R13, R106, R107). -/
def Device.endQueue (o : CommitOutcome) (d : Device) : Device :=
  d.commitQueue.foldl (Device.endCommit o) { d with commitQueue := [] }

/-- R12, R13: the store enters READ_ONLY from NORMAL, and every queued commit ends STORE_FULL. -/
def Device.enterReadOnly (reason : Reason) (d : Device) : Device :=
  if d.store = .normal then Device.endQueue .storeFull { d with store := .readOnly reason } else d

/-- R42: after a segment became RETIRED, fewer than 4 left make the store WORN. -/
def Device.testWorn (d : Device) : Device :=
  if d.notRetired < 4 then d.enterReadOnly .worn else d

/-! ## The switch (R50, R51, R104) -/

/-- R50, step 1: whether the old current version becomes a stale version that is counted. -/
def Entry.leavesStale (e : Entry) : Bool :=
  match e.state with
  | .live => true
  | .gone => true
  | .damaged => !e.markPending
  | .pending => false

/-- R50: an entry switched to a member's new version at `l`. -/
def Entry.switched (sequence : Nat) (m : Member) (l : Loc) (e : Entry) : Entry :=
  { e with
    residue := if e.leavesStale then e.residue + 1 else e.residue
    location := some l
    length := m.versionLength
    sequence := some sequence
    state := match m.intent with
      | .value => .live
      | .delete => .gone
    markPending := false
    claim := none }

def Device.switchMember (sequence : Nat) (d : Device) (x : Member × Loc) : Device :=
  d.modEntry x.1.key (Entry.switched sequence x.1 x.2)

/-- The change notice of a member (R136). -/
def Member.notice (sequence : Nat) (m : Member) : Key × Notice :=
  match m.intent with
  | .value => (m.key, .changed m.key sequence m.length)
  | .delete => (m.key, .removed m.key sequence)

/-- R104, R136, R142: COMMIT_DONE on the committing port while it holds the reservation, change notices in handle order
on every other port. -/
def Device.deliverSwitch (c : CommitRecord) (sequence : Nat) (d : Device) : Device :=
  d.mapPorts fun p q =>
    if p = c.port ∧ c.portReset = false then q.placeDone (.commitDone c.ticket .done (some sequence))
    else q.offerWatched (c.members.map (Member.notice sequence))

/-- A member's handle and buffer at the switch (R104). -/
def Device.releaseMember (p : PortId) (d : Device) (m : Member) : Device :=
  (d.freeBuffer m.buffer).setHandle p m.handle .free

/-- R51, R102: a group's entry becomes KEPT, with its seal, the last item placed. -/
def Device.keepGroup (c : CommitRecord) (places : List Loc) (d : Device) : Device :=
  match c.group, places[c.members.length]? with
  | some i, some l => d.setGroup i (.kept (c.sequence.getD 0) l c.members.length)
  | _, _ => d

/-- R109, R151: what a commit of key 0000h does to the access table. The table is decoded from the member's buffer, whose
bytes are the version's (R93, R148). -/
def Device.replaceTable (written : Option (Intent × List Byte)) (d : Device) : Device :=
  match written with
  | none => d
  | some (.value, v) => d.installTable (decodeTable v)
  | some (.delete, _) => d.dropTable

/-- What a commit writes to key 0000h, if that key is a member. -/
def Device.accessMember (d : Device) (c : CommitRecord) : Option (Intent × List Byte) :=
  (c.members.find? fun m => m.key == accessKey).map fun m => (m.intent, (d.buffer m.buffer).value)

/-- R50, R51, R104: the switch, at which the commit ends DONE. `places` are its items' locations in order. -/
def Device.finishCommit (c : CommitRecord) (places : List Loc) (d : Device) : Device :=
  let sequence := c.sequence.getD 0
  let written := d.accessMember c
  let d := (c.members.zip places).foldl (Device.switchMember sequence) d
  let d := c.members.foldl (Device.releaseMember c.port) d
  let d := (d.keepGroup c places).deliverSwitch c sequence
  d.replaceTable written

/-- R52: the damage-mark switch, at which every watcher is offered DAMAGED (R136). -/
def Device.switchMark (k : Key) (sequence : Nat) (l : Loc) (d : Device) : Device :=
  (d.modEntry k fun e =>
    { e with location := some l, length := 0, sequence := some sequence, state := .damaged, markPending := false }).offerWatchers
      k (.damaged k)

end Sys2Proof.Machine
end

