-- ==== Sys2Proof/Machine/Reclaim.lean ====
section
/-! DEFINITION. The reclaim walk, the copy switch, and the abandonment of a victim (R55, R57, R121 to R128). -/

namespace Sys2Proof.Machine

/-! ## The group table by location and by sequence -/

/-- The number of the KEPT entry whose seal lies at `l`. -/
def Device.keptAt (d : Device) (l : Loc) : Option Nat :=
  d.groups.findIdx? fun g =>
    match g with
    | .kept _ at_ _ => at_ == l
    | .free => false
    | .reserved _ => false

/-- Whether a group field names a KEPT entry. -/
def Device.keptSequence (d : Device) (group : Nat) : Bool :=
  d.groups.any fun g =>
    match g with
    | .kept s _ _ => s == group
    | .free => false
    | .reserved _ => false

/-- R117: the member count of a group's KEPT entry falls by 1; at 0 the entry is freed. -/
def GroupEntry.loseMember (group : Nat) : GroupEntry → GroupEntry
  | .kept s l n => if s = group then (if n ≤ 1 then .free else .kept s l (n - 1)) else .kept s l n
  | .free => .free
  | .reserved s => .reserved s

/-! ## The decision for one version (R122) -/

/-- What the walk does with a version. -/
inductive Decision
  | copy (t : CopyTarget)
  | dropTombstone
  | dropStale
  | skip
deriving DecidableEq, Repr

/-- The third to sixth row of R122: a version at the current location of its key's entry. -/
def Device.decideCurrent (d : Device) (e : Entry) : Decision :=
  match e.state with
  | .pending => .skip
  | .live => .copy (.entry e.key)
  | .damaged => .copy (.entry e.key)
  | .gone => if d.tombstoneNeeded e then .copy (.entry e.key) else .dropTombstone

/-- R122: the first row that matches, for a whole header at `l`. -/
def Device.decideVersion (d : Device) (l : Loc) (h : VersionHeader) (committed : Bool) : Decision :=
  if h.kind = .groupSeal then
    match d.keptAt l with
    | some i => .copy (.groupSeal i)
    | none => .skip
  else
    match d.lookup h.key with
    | none => .skip
    | some e =>
      if e.location = some l then d.decideCurrent e
      else if committed && (h.group == 0 || d.keptSequence h.group) then .dropStale
      else .skip

/-! ## Drops and copies -/

/-- A version counted as complete is passed (R128; log 25). -/
def Device.logPassed (x : Passed) (d : Device) : Device :=
  { d with reclaim := { d.reclaim with log := d.reclaim.log ++ [x] } }

/-- R57: the walk drops the current tombstone of key `k`: the entry is freed, and a held slot records the victim. -/
def Device.dropTombstone (l : Loc) (k : Key) (sequence : Nat) (d : Device) : Device :=
  let d := d.removeEntry k
  { d with heldSlots := d.heldSlots ++ [l.seg] }.logPassed
    { location := l, key := k, sequence := sequence, group := 0, tombstone := true }

/-- R122: a stale version is dropped; with a good check its key's residue falls by 1, and its group's member count. -/
def Device.dropStale (l : Loc) (h : VersionHeader) (checkGood : Bool) (d : Device) : Device :=
  if checkGood then
    let d := d.modEntry h.key fun e => { e with residue := e.residue - 1 }
    let d := if h.group = 0 then d else { d with groups := d.groups.map (GroupEntry.loseMember h.group) }
    d.logPassed { location := l, key := h.key, sequence := h.sequence, group := h.group, tombstone := false }
  else d

/-- The first frame of a copy: header fields, check and value bytes as the original's read, the commit mark blank (R123); a
frame that reads as no header is copied as it is (log 27). -/
def copiedFirst (c : Cell) : Cell :=
  match c.asFirst with
  | some f => .first { f with committed := false }
  | none => c

/-- R123: a copy of the f frames at `l`, verbatim, its commit mark blank. -/
def Device.makeCopy (d : Device) (t : CopyTarget) (l : Loc) (f : Nat) (checkGood : Bool) : Copy :=
  { target := t
    source := l
    cells := ((List.range f).map fun i => d.cell (l.plus i)).modifyHead copiedFirst
    checkGood := checkGood }

/-! ## The walk (R121) -/

/-- Where a KEPT entry's seal lies. -/
def GroupEntry.sealLocation : GroupEntry → Option Loc
  | .kept _ l _ => some l
  | .free => none
  | .reserved _ => none

/-- The locations that the directory and the group table name in segment `v`. -/
def Device.namedIn (d : Device) (v : Nat) : List Loc :=
  (d.directory.filterMap (·.location) ++ d.groups.filterMap GroupEntry.sealLocation).filter fun l => l.seg == v

/-- The frames of the seal at `l`, by the length in its header; one where its header does not read (R6; log 27). -/
def Device.sealFramesAt (d : Device) (l : Loc) : Nat :=
  match inRangeFirst (d.cell l) l.frame with
  | some f => versionFrames f.header.length
  | none => 1

/-- R121: at frame 128, the first location in order of frame that still lies in the victim, with the decision for it and
its frames: the length the directory entry gives, or for a seal the length in its header. -/
def Device.leftover (d : Device) (v : Nat) : Option (Loc × Decision × Nat) :=
  match pickBest (fun y x => decide (y.frame < x.frame)) (d.namedIn v) with
  | none => none
  | some l =>
    match d.directory.find? fun e => e.location == some l with
    | some e => some (l, d.decideCurrent e, versionFrames e.length)
    | none => (d.keptAt l).map fun i => (l, .copy (.groupSeal i), d.sealFramesAt l)

/-- The sequence an entry holds at its current location, for the log. -/
def Device.sequenceAt (d : Device) (l : Loc) : Key × Nat :=
  match d.directory.find? fun e => e.location == some l with
  | some e => (e.key, e.sequence.getD 0)
  | none => (noKey, 0)

def Device.setPosition (n : Nat) (d : Device) : Device :=
  { d with reclaim := { d.reclaim with position := some n } }

/-- R121: the walk from position `pos` of victim `v`: skips and drops, to the first version to copy, or to its end.
The fuel of `walkFuel` is enough for 127 frames and 127 leftovers. A dropped tombstone is logged with the sequence that its
header then reads, at frame 128 with its entry's, and an entry given back takes that one (the model's choice: log 47). -/
def Device.walk (v : Nat) : Nat → Nat → Device → Device × Option Copy
  | 0, _, d => (d, none)
  | fuel + 1, pos, d =>
    if Config.lastFrame < pos then
      match d.leftover v with
      | some (l, .copy t, f) => (d.setPosition 128, some (d.makeCopy t l f (d.checkGood l)))
      | some (l, .dropTombstone, _) =>
        Device.walk v fuel pos (d.dropTombstone l (d.sequenceAt l).1 (d.sequenceAt l).2)
      | some (_, .dropStale, _) => (d.setPosition 128, none)
      | some (_, .skip, _) => (d.setPosition 128, none)
      | none => (d.setPosition 128, none)
    else
      match d.readHeader ⟨v, pos⟩ with
      | .blank => Device.walk v fuel (pos + 1) d
      | .malformed => Device.walk v fuel (pos + 1) d
      | .whole h committed good =>
        let next := pos + versionFrames h.length
        match d.decideVersion ⟨v, pos⟩ h committed with
        | .copy t => (d.setPosition pos, some (d.makeCopy t ⟨v, pos⟩ (versionFrames h.length) good))
        | .dropTombstone => Device.walk v fuel next (d.dropTombstone ⟨v, pos⟩ h.key h.sequence)
        | .dropStale => Device.walk v fuel next (d.dropStale ⟨v, pos⟩ h good)
        | .skip => Device.walk v fuel next d

def walkFuel : Nat := 300

/-- R125: the walk has ended; the controller erases, or holds while the victim is pinned. -/
def Device.endWalk (v : Nat) (d : Device) : Device :=
  let pinned := decide (0 < ((d.segments[v]?).map (·.pins)).getD 0)
  { d with reclaim := { d.reclaim with position := none, state := if pinned then .holding else .erasing } }

/-! ## The copy switch (R53, R60, R123, R124) -/

/-- The walk position passes a copied original; at 128 it stays (R121). -/
def Device.passOriginal (c : Copy) (d : Device) : Device :=
  { d with reclaim := { d.reclaim with
      position := d.reclaim.position.map fun pos => if Config.lastFrame < pos then pos else pos + c.cells.length } }

/-- A copied original is logged when it counts as complete (R128). -/
def Device.logCopied (c : Copy) (d : Device) : Device :=
  match inRangeFirst ((c.cells.head?).getD .blank) c.source.frame with
  | some f =>
    d.logPassed
      { location := c.source, key := f.header.key, sequence := f.header.sequence, group := f.header.group, tombstone := false }
  | none => d

/-- R124: the seal of the group with sequence `s` failed its check: every entry whose sequence is `s` is damaged, in
order of key. -/
def Device.damageGroup (s : Nat) (d : Device) : Device :=
  ((d.directory.filter fun e => e.sequence == some s).map (·.key)).foldl (fun d k => d.detectDamage k) d

/-- R53, R123: the copy at `l` takes the original's place. -/
def Device.copySwitch (c : Copy) (l : Loc) (d : Device) : Device :=
  let d := d.passOriginal c
  match c.target with
  | .entry k =>
    let d := d.modEntry k fun e => { e with location := some l }
    if c.checkGood then d.logCopied c else d.detectDamage k
  | .groupSeal i =>
    match d.groups[i]? with
    | some (.kept s _ n) =>
      let d := d.setGroup i (.kept s l n)
      if c.checkGood then d else d.damageGroup s
    | some .free => d
    | some (.reserved _) => d
    | none => d

/-! ## Abandonment of a victim (R55, R127, R128) -/

/-- R55: how many logged versions of key `k` do not lie at `l`. -/
def countPassed (log : List Passed) (k : Key) (l : Option Loc) : Nat :=
  (log.filter fun x => x.key == k && some x.location != l).length

/-- R55: the residue of an entry is restored. -/
def Entry.restored (log : List Passed) (e : Entry) : Entry :=
  { e with residue := e.residue + countPassed log e.key e.location }

/-- R55: an entry whose tombstone the walk dropped is given back in place of a held slot, when its key has no entry and
another complete version at the passed frames. -/
def Device.giveBack (v : Nat) (log : List Passed) (d : Device) (x : Passed) : Device :=
  let others := countPassed log x.key (some x.location)
  if x.tombstone && (d.lookup x.key).isNone && decide (0 < others) then
    { d with heldSlots := d.heldSlots.erase v }.addEntry
      { key := x.key, state := .gone, location := some x.location, length := 0, sequence := some x.sequence,
        residue := others, claim := none, pins := 0, markPending := false }
  else d

/-- R128: a KEPT entry's member count is restored. -/
def GroupEntry.restored (log : List Passed) : GroupEntry → GroupEntry
  | .kept s l n => .kept s l (n + (log.filter fun x => x.group == s).length)
  | .free => .free
  | .reserved s => .reserved s

/-- R127: the controller abandons its victim. -/
def Device.abandonVictim (d : Device) : Device :=
  match d.reclaim.victim with
  | none => d
  | some v =>
    let log := d.reclaim.log
    let d := { d with
      directory := d.directory.map (Entry.restored log)
      groups := d.groups.map (GroupEntry.restored log)
      reclaim := Reclaim.cleared }
    (log.foldl (Device.giveBack v log) d).modSegment v fun r => { r with state := .sealed }

end Sys2Proof.Machine
end

