-- ==== Sys2Proof/Machine/Engine.lean ====
section
/-! DEFINITION. The array engine: placement, the ends of its steps, the space check and the arbiter (R29, R32 to R37, R98,
R99, R112 to R115, R119, R126). -/

namespace Sys2Proof.Machine

/-! ## What a unit writes (R4, R5, R62, R100, R101, R123) -/

/-- The header of a member's version (R100, R101). -/
def Member.header (m : Member) (sequence group : Nat) : VersionHeader :=
  { key := m.key
    kind := match m.intent with
      | .value => .value
      | .delete => .tombstone
    length := m.versionLength
    sequence := sequence
    group := group }

/-- The value bytes of a member's version, read from its buffer (R100). -/
def Device.memberBytes (d : Device) (m : Member) : List Byte :=
  match m.intent with
  | .value => (d.buffer m.buffer).value
  | .delete => []

/-- The header of a group's seal (R5, R101). -/
def sealHeader (members sequence : Nat) : VersionHeader :=
  { key := noKey, kind := .groupSeal, length := sealLength members, sequence := sequence, group := sequence }

/-- The header of a damage mark (R62). -/
def markHeader (k : Key) (sequence : Nat) : VersionHeader :=
  { key := k, kind := .damageMark, length := 0, sequence := sequence, group := 0 }

/-- The frames of the i-th item of a commit: a member, or after the members the seal. -/
def Device.commitCells (d : Device) (c : CommitRecord) (i : Nat) : List Cell :=
  let s := c.sequence.getD 0
  match c.members[i]? with
  | some m => versionCells (m.header s (if c.members.length = 1 then 0 else s)) (d.memberBytes m)
  | none => versionCells (sealHeader c.members.length s) (sealBytes (c.members.map (·.key)))

/-- The frames to program for an owner that has its sequence. -/
def Device.ownerCells (d : Device) : Owner → List Cell
  | .commit c placed => d.commitCells c placed.length
  | .damageMark k s => versionCells (markHeader k (s.getD 0)) []
  | .copy c => c.cells

/-- How many frames that is. -/
def Owner.frames : Owner → Nat
  | .commit c placed => ((itemFrames c.members)[placed.length]?).getD 1
  | .damageMark _ _ => 1
  | .copy c => c.cells.length

/-! ## Sequences (R10, R11) -/

/-- One sequence is taken; taking FFFFFFF0h sends the store to READ_ONLY(SPENT). -/
def Device.advanceSequence (d : Device) : Device :=
  let d' := { d with seqCounter := d.seqCounter + 1 }
  if d.seqCounter = Config.lastSequence then d'.enterReadOnly .spent else d'

/-- R102: a group's entry records its sequence. -/
def Device.recordSequence (group : Option Nat) (s : Nat) (d : Device) : Device :=
  match group with
  | some i => d.setGroup i (.reserved (some s))
  | none => d

/-- R10: an owner without a sequence takes one when programming of its first frame begins; a copy takes none. -/
def Device.giveSequence (o : Owner) (d : Device) : Owner × Device :=
  match o with
  | .commit c placed =>
    match c.sequence with
    | some _ => (o, d)
    | none =>
      (.commit { c with sequence := some d.seqCounter } placed,
        (d.recordSequence c.group d.seqCounter).advanceSequence)
  | .damageMark k none => (.damageMark k (some d.seqCounter), d.advanceSequence)
  | .damageMark _ (some _) => (o, d)
  | .copy _ => (o, d)

/-! ## Placement (R24, R26, R29, R34) -/

def Device.setFlight (u : Option EngineUnit) (d : Device) : Device := { d with flight := u }

/-- R29: whether a segment may be opened for an owner. In READ_ONLY only the unit in flight can ask, and the reserve rule
does not hold it back (log 19). -/
def Device.mayOpen (d : Device) : Owner → Bool
  | .copy _ => decide (1 ≤ d.erasedCount)
  | .commit _ _ => decide ((if d.store = .normal then 2 else 1) ≤ d.erasedCount)
  | .damageMark _ _ => decide ((if d.store = .normal then 2 else 1) ≤ d.erasedCount)

/-- A unit ends with its version not written: `o` is the outcome of a commit. A damage mark stays pending (R62), a copy
makes the controller abandon its victim (R127). -/
def Device.failOwner (owner : Owner) (o : CommitOutcome) (d : Device) : Device :=
  match owner with
  | .commit c _ => (d.setFlight none).endCommit o c
  | .damageMark _ _ => d.setFlight none
  | .copy _ => (d.setFlight none).abandonVictim

/-- The open step begins (R20, R24); where no segment may be opened, a retry has failed (R34) and a first placement is
refused (R107). -/
def Device.openFor (owner : Owner) (retried : Bool) (d : Device) : Device :=
  match (if d.mayOpen owner then d.pickErased else none) with
  | some i =>
    { d with segCounter := d.segCounter + 1 }.setFlight (some (.write owner retried (.openStep i d.segCounter)))
  | none => d.failOwner owner (if retried then .failedVerify else .storeFull)

/-- Programming of a version begins at the append point of segment i (R26). -/
def Device.beginProgram (owner : Owner) (retried : Bool) (i : Nat) (d : Device) : Device :=
  let at_ : Loc := ⟨i, d.appendPoint i⟩
  let r := d.giveSequence owner
  (r.2.modSegment i fun s => { s with appendPoint := s.appendPoint + owner.frames }).setFlight
    (some (.write r.1 retried (.frameStep at_ (r.2.ownerCells r.1) 0)))

/-- R26: whether f frames fit in the ACTIVE segment. -/
def Device.fits (d : Device) (f : Nat) : Bool :=
  match d.active with
  | some i => decide (d.appendPoint i + f ≤ 128)
  | none => false

/-- R26: an item's first placement: programmed where it fits; else the ACTIVE segment is sealed, if there is one, and a
new one opened. -/
def Device.placeItem (owner : Owner) (d : Device) : Device :=
  match d.active with
  | some i =>
    if d.fits owner.frames then d.beginProgram owner false i
    else d.setFlight (some (.write owner false (.sealStep i false)))
  | none => d.openFor owner false

/-! ## The arbiter (R97 to R99, R113 to R115, R118 to R121) -/

/-- R98: the space check's placement: room at hand, then fresh segments. -/
def placeAll : List Nat → Nat → Nat → Bool
  | [], _, _ => true
  | f :: rest, room, fresh =>
    if f ≤ room then placeAll rest (room - f) fresh
    else
      match fresh with
      | 0 => false
      | n + 1 => placeAll rest (Config.lastFrame - f) n

/-- R98: the space check of a commit. -/
def Device.spaceCheck (d : Device) (members : List Member) : Bool :=
  placeAll (itemFrames members) d.roomAtHand (d.erasedCount - 1)

/-- R97: the rights recheck. -/
def Device.rightsHeld (d : Device) (c : CommitRecord) : Bool :=
  c.members.all fun m => mayWrite d.table c.port m.key

/-- R115: the first fix begins. At the erase-count limit an erase asked for becomes a retire step (R39). -/
def Device.startFix (f : Fix) (d : Device) : Device :=
  match f with
  | .sealing i => d.setFlight (some (.sealFix i))
  | .erasing i =>
    if ((d.segments[i]?).map (·.eraseCount)).getD 0 = Config.maxEraseCount then d.setFlight (some (.retireFix i))
    else d.setFlight (some (.eraseFix i))

/-- R126: the controller's unit in ERASING. -/
def Device.startErase (v : Nat) (d : Device) : Device :=
  match d.segments[v]? with
  | none => d
  | some r =>
    if r.suspect || r.eraseCount == Config.maxEraseCount then d.setFlight (some (.retireVictim v))
    else d.setFlight (some (.eraseVictim v))

/-- R123, R127: a copy begins, or finds no room and the victim is abandoned. -/
def Device.startCopy (c : Copy) (d : Device) : Device × Bool :=
  if d.fits c.cells.length || decide (1 ≤ d.erasedCount) then (d.placeItem (.copy c), false)
  else (d.abandonVictim, true)

/-- A turn in COPYING (R121). The second part says that the arbiter chooses again. -/
def Device.walkTurn (v : Nat) (d : Device) : Device × Bool :=
  let r := d.walk v walkFuel (d.reclaim.position.getD 1)
  match r.2 with
  | some c => r.1.startCopy c
  | none => (r.1.endWalk v, true)

/-- R120: the victim becomes RECLAIMING and the walk stands at frame 1. -/
def Device.takeVictim (v : Nat) (d : Device) : Device :=
  let d := d.modSegment v fun r => { r with state := .reclaiming }
  { d with reclaim := { d.reclaim with state := .copying, victim := some v, position := some 1, log := [] } }

/-- The controller's turn, by its state (R118). -/
def Device.controllerTurn (d : Device) : Device × Bool :=
  match d.reclaim.state, d.reclaim.victim with
  | .idle, _ =>
    match d.pickVictim with
    | some v => (d.takeVictim v).walkTurn v
    | none => (d, false)
  | .copying, some v => d.walkTurn v
  | .erasing, some v => (d.startErase v, false)
  | .copying, none => (d, false)
  | .erasing, none => (d, false)
  | .holding, _ => (d, false)

/-- A reclaim turn: while the fix list holds any fix, its first one instead (R115). -/
def Device.reclaimTurn (d : Device) : Device × Bool :=
  match d.fixes with
  | f :: _ => (d.startFix f, false)
  | [] => d.controllerTurn

/-- R119: reclaim is WANTED. -/
def Device.wanted (d : Device) : Bool :=
  (decide (d.erasedCount < 3) && !d.candidates.isEmpty)
    || d.segments.any (fun r => r.state != .retired && r.suspect)
    || d.reclaim.requested || d.reclaim.state == .copying || d.reclaim.state == .erasing

/-- R114: whether a damage mark can be placed: it fits, or a segment may be opened for it. -/
def Device.markPlaceable (d : Device) : Bool := d.fits 1 || decide (2 ≤ d.erasedCount)

/-- Orders 3, 4 and 5 of R113. -/
def Device.lowerOrders (d : Device) : Device × Bool :=
  match d.directory.find? (·.markPending), d.markPlaceable with
  | some e, true => (d.placeItem (.damageMark e.key none), false)
  | _, _ => if !d.fixes.isEmpty || d.wanted then d.reclaimTurn else (d, false)

/-- Whether reclaim can still make room for the head commit: a victim under way, a candidate, or an erase fix (R99,
R115). -/
def Device.reclaimCanHelp (d : Device) : Bool :=
  d.reclaim.state != .idle || !d.candidates.isEmpty
    || d.fixes.any fun f => match f with
      | .erasing _ => true
      | .sealing _ => false

/-- R99, R114: the turn of the head commit `c`, with `rest` behind it. -/
def Device.headTurn (c : CommitRecord) (rest : List CommitRecord) (d : Device) : Device × Bool :=
  if d.rightsHeld c = false then ({ d with commitQueue := rest }.endCommit .denied c, true)
  else if d.spaceCheck c.members then
    ({ d with commitQueue := rest }.placeItem (.commit { c with state := .running } []), false)
  else if d.reclaim.state = .holding then
    { d with commitQueue := { c with state := .waitingSpace } :: rest }.lowerOrders
  else if d.reclaimCanHelp then { d with commitQueue := { c with state := .queued } :: rest }.reclaimTurn
  else ({ d with commitQueue := rest }.endCommit .storeFull c, true)

/-- R113: one choice. The second part says that the choice goes on. -/
def Device.choose (d : Device) : Device × Bool :=
  match d.commitQueue with
  | [] => d.lowerOrders
  | c :: rest => d.headTurn c rest

/-- R113: the arbiter makes a choice: no unit in flight, supply GOOD, store NORMAL. -/
def Device.mayChoose (d : Device) : Bool :=
  d.flight.isNone && d.supply == .good && d.store == .normal

/-- R113: the arbiter chooses until a unit is in flight or nothing is offered. Its choice is taken after the event that brought
it about, and for the last paragraph of R142 it is no part of that event (the model's choice: log 42). -/
def Device.arbitrate : Nat → Device → Device
  | 0, d => d
  | fuel + 1, d =>
    if d.mayChoose then
      let r := d.choose
      if r.2 then Device.arbitrate fuel r.1 else r.1
    else d

/-- Every repeated choice ends a commit, a walk or a victim, so 64 choices are more than one event can need. -/
def arbiterFuel : Nat := 64

/-- An event that can give the engine work (R113). -/
def Device.arbiter (d : Device) : Device := d.arbitrate arbiterFuel

/-! ## The ends of steps (R30) -/

/-- The next item of a commit, or its switch; the switch of a mark or a copy (R50 to R53, R100, R101). -/
def Device.finishItem (owner : Owner) (at_ : Loc) (d : Device) : Device :=
  match owner with
  | .commit c placed =>
    if placed.length + 1 < (itemFrames c.members).length then d.placeItem (.commit c (placed ++ [at_]))
    else (d.setFlight none).finishCommit c (placed ++ [at_])
  | .damageMark k s => (d.setFlight none).switchMark k (s.getD 0) at_
  | .copy c => (d.setFlight none).copySwitch c at_

/-- R32, R34: after a failed verify: the first attempt is retried in a new segment, a retry has failed. -/
def Device.retry (owner : Owner) (retried : Bool) (d : Device) : Device :=
  if retried then d.failOwner owner .failedVerify else d.openFor owner true

/-- FRAME_PROGRAM_DONE (R26, R32). -/
def Device.frameDone (r : ProgramResult) (d : Device) : Device :=
  match d.flight, r with
  | some (.write o retried (.frameStep at_ cells done)), .good =>
    (d.programFrame at_ cells done).setFlight (some (.write o retried
      (if done + 1 < cells.length then .frameStep at_ cells (done + 1) else .markStep at_ cells)))
  | some (.write o retried (.frameStep at_ cells done)), .bad left =>
    (d.leaveFrame at_ cells done left).setFlight (some (.write o retried (.sealStep at_.seg true)))
  | _, _ => d

/-- COMMIT_MARK_DONE (R7, R32). The arbiter's choice follows the whole switch: the COMMIT_DONEs of the commits it ends stand
behind the notices the switch offered (the model's choice: log 42). -/
def Device.markDone (verified : Bool) (d : Device) : Device :=
  match d.flight with
  | some (.write o retried (.markStep at_ _)) =>
    if verified then ((d.programMark at_).finishItem o at_).arbiter
    else d.setFlight (some (.write o retried (.sealStep at_.seg true)))
  | _ => d

/-- SEGMENT_OPEN_DONE (R24, R36). -/
def Device.openDone (r : MarkResult) (d : Device) : Device :=
  match d.flight, r with
  | some (.write o retried (.openStep i s)), .good =>
    ((d.setOpenMark i s .whole).openRecord i s).beginProgram o retried i
  | some (.write o retried (.openStep i s)), .bad m =>
    (((d.setOpenMark i s m).failOpenRecord i s true).retry o retried).arbiter
  | _, _ => d

/-- A fix leaves the list (R115). -/
def Device.removeFix (d : Device) : Device := { d.setFlight none with fixes := d.fixes.tail }

/-- SEGMENT_SEAL_DONE (R26, R33, R35, R115). -/
def Device.sealDone (r : MarkResult) (d : Device) : Device :=
  match d.flight with
  | some (.write o retried (.sealStep i failed)) =>
    let d := (d.setSealedMark i r.mark).sealRecord i (failed || r.failed)
    (if failed then d.retry o retried else d.openFor o retried).arbiter
  | some (.sealFix i) =>
    (((d.setSealedMark i r.mark).modSegment i fun s =>
      { s with suspect := s.suspect || r.failed }).removeFix).arbiter
  | _ => d

/-- The end of an erase step on segment i that writes count `count` (R39, R40, R42, R58). -/
def Device.endErase (i count : Nat) (r : EraseResult) (d : Device) : Device :=
  let d := (d.eraseImage i count r).releaseHeld i
  if r.verified then d.eraseRecord i count else (d.retireRecord i).testWorn

/-- R126: the controller becomes IDLE and the requested flag is cleared. -/
def Device.endReclaim (d : Device) : Device := { d.setFlight none with reclaim := Reclaim.cleared }

/-- SEGMENT_ERASE_DONE (R39, R40, R115, R126). A fix writes the count mount assigned (R168). -/
def Device.eraseDone (r : EraseResult) (d : Device) : Device :=
  match d.flight with
  | some (.eraseVictim i) =>
    (d.endReclaim.endErase i (((d.segments[i]?).map (·.eraseCount)).getD 0 + 1) r).arbiter
  | some (.eraseFix i) => (d.removeFix.endErase i (((d.segments[i]?).map (·.eraseCount)).getD 0) r).arbiter
  | _ => d

/-- The end of a retire step on segment i (R41, R42, R58). -/
def Device.endRetire (i : Nat) (m : MarkRead) (d : Device) : Device :=
  (((d.setRetiredMark i m).releaseHeld i).retireRecord i).testWorn

/-- SEGMENT_RETIRE_DONE (R41, R126). -/
def Device.retireDone (m : MarkRead) (d : Device) : Device :=
  match d.flight with
  | some (.retireVictim i) => (d.endReclaim.endRetire i m).arbiter
  | some (.retireFix i) => (d.removeFix.endRetire i m).arbiter
  | _ => d

/-! ## A unit cut short (R31, R106, R158) -/

/-- R31: the array as the step in flight leaves it when it is cut short. A commit mark reads blank. -/
def Device.cutArray (cut : Cut) (d : Device) : Device :=
  match d.flight with
  | none => d
  | some (.write _ _ (.sealStep i _)) => d.setSealedMark i cut.mark
  | some (.write _ _ (.openStep i s)) => d.setOpenMark i s cut.mark
  | some (.write _ _ (.frameStep at_ cells done)) => d.leaveFrame at_ cells done cut.left
  | some (.write _ _ (.markStep _ _)) => d
  | some (.eraseVictim i) => d.cutErase i cut.mark
  | some (.eraseFix i) => d.cutErase i cut.mark
  | some (.retireVictim i) => d.setRetiredMark i cut.mark
  | some (.retireFix i) => d.setRetiredMark i cut.mark
  | some (.sealFix i) => d.setSealedMark i cut.mark

/-- R31: the segment table as the abandoned step leaves it. -/
def Device.cutTable (d : Device) : Device :=
  match d.flight with
  | some (.write _ _ (.sealStep i failed)) => d.sealRecord i failed
  | some (.write _ _ (.openStep i s)) => d.failOpenRecord i s false
  | _ => d

/-- The RUNNING commit (R96). -/
def Device.running (d : Device) : Option CommitRecord :=
  match d.flight with
  | some (.write (.commit c _) _ _) => some c
  | _ => none

/-- R106: the RUNNING commit, if there is one, ends FAILED_SUPPLY. -/
def Device.endRunning (d : Device) : Device :=
  match d.running with
  | some c => (d.setFlight none).endCommit .failedSupply c
  | none => d.setFlight none

/-- R158: what a fall does to the engine and the commits, before the SUPPLY notices. -/
def Device.stopEngine (cut : Cut) (d : Device) : Device :=
  (((d.cutArray cut).cutTable).endRunning).endQueue .failedSupply

end Sys2Proof.Machine
end

