-- ==== Sys2Proof/Machine/Flags.lean ====
section
/-! DEFINITION. The codes and bits a master sees: the status byte, result codes, STORE_INFO's encodings, notices in bytes
(R172, R177, R180, R181, R182). -/

namespace Sys2Proof.Machine

/-! ## The status byte (R177) -/

/-- A bit of a byte. -/
def bit (n : Nat) (b : Bool) : Byte := if b then BitVec.ofNat 8 (2 ^ n) else 0

/-- R181's store state; the status byte carries it in bits 4 and 3. -/
def StoreState.code : StoreState → Byte
  | .mounting => 0
  | .normal => 1
  | .readOnly _ => 2

/-- R181's READ_ONLY reason. -/
def StoreState.reasonCode : StoreState → Byte
  | .mounting => 0
  | .normal => 0
  | .readOnly .worn => 1
  | .readOnly .spent => 2
  | .readOnly .noReserve => 3

/-- The status byte of a port, formed at the fall of SEL. -/
def Device.statusByte (d : Device) (p : PortId) : Byte :=
  let q := d.port p
  bit 7 q.handling.isSome ||| bit 6 q.attention ||| bit 5 q.overflow ||| (d.store.code <<< 3) |||
    bit 2 (d.supply == .low)

/-! ## Result codes (R180) -/

def Result.code : Result → Byte
  | .ok => 0x00
  | .notReady => 0x01
  | .busy => 0x02
  | .badRequest => 0x03
  | .badHandle => 0x04
  | .noSuchKey => 0x05
  | .denied => 0x06
  | .claimed => 0x07
  | .noHandle => 0x08
  | .noBuffer => 0x09
  | .noEntry => 0x0A
  | .tooLong => 0x0B
  | .expired => 0x0C
  | .revoked => 0x0D
  | .queueFull => 0x0E
  | .storeFull => 0x0F
  | .supplyLow => 0x10
  | .readOnly => 0x11
  | .damaged => 0x12
  | .badTable => 0x13

/-- R177: the bytes of a reply that begins with this status byte. -/
def Reply.bytes (r : Reply) (status : Byte) : List Byte :=
  let body := [status, r.kind, r.count, r.result.code, BitVec.ofNat 8 r.payload.length] ++ r.payload
  body ++ [checkSum body]

/-! ## Codes of states (R179, R181, R182) -/

def supplyCode : Supply → Byte
  | .good => 0
  | .low => 1

def causeCode : Cause → Byte
  | .powerOn => 1
  | .supply => 2
  | .pin => 3

def EntryState.code : EntryState → Byte
  | .pending => 0
  | .live => 1
  | .gone => 2
  | .damaged => 3

def ReclaimState.code : ReclaimState → Byte
  | .idle => 0
  | .copying => 1
  | .holding => 2
  | .erasing => 3

def CommitOutcome.code : CommitOutcome → Byte
  | .done => 0
  | .failedSupply => 1
  | .failedVerify => 2
  | .storeFull => 3
  | .denied => 4

/-- A handle in STORE_INFO: state, then key, FFFFh when absent. -/
def Handle.info : Handle → List Byte
  | .free => 0 :: keyBytes noKey
  | .reading k _ _ _ => 1 :: keyBytes k
  | .writing k _ _ _ => 2 :: keyBytes k
  | .committing k _ _ => 3 :: keyBytes k
  | .expired k => 4 :: keyBytes k
  | .revoked k => 5 :: keyBytes k

/-! ## Notices (R182) -/

/-- A notice's kind code and fields. -/
def Notice.bytes : Notice → List Byte
  | .changed k s n => 0x01 :: (keyBytes k ++ be32 s ++ be16 n)
  | .removed k s => 0x02 :: (keyBytes k ++ be32 s)
  | .damaged k => 0x03 :: keyBytes k
  | .commitDone t o s => 0x04 :: t :: o.code :: be32 (s.getD 0)
  | .handleExpired h k => 0x05 :: h.toByte :: keyBytes k
  | .handleRevoked h k => 0x06 :: h.toByte :: keyBytes k
  | .supply s => [0x07, supplyCode s]
  | .started c => [0x08, causeCode c]

/-- The kind code of the EMPTY answer. -/
def noneBytes : List Byte := [0x00]

/-- The kind code of RESYNC. -/
def resyncBytes : List Byte := [0x09]

/-! ## SDO (R172) -/

/-- Byte number `i` that a frame shifts out: the reply, and FFh for as long as the master clocks past its end. -/
def FrameOut.sent (f : FrameOut) (i : Nat) : Byte := (f.out[i]?).getD 0xFF

/-- What SDO sends as byte number `i` of the port's frame; none for high impedance or where no frame is in progress. -/
def Device.sdo (d : Device) (p : PortId) (i : Nat) : Option Byte :=
  match (d.port p).frame with
  | some f => if d.resetHeld || f.discarded then none else some (f.sent i)
  | none => none

/-! ## STORE_INFO's flags (R181) -/

/-- Bit 2: the head commit is WAITING_SPACE. -/
def Device.headWaits (d : Device) : Bool :=
  match d.commitQueue with
  | c :: _ => c.state == .waitingSpace
  | [] => false

def Device.infoFlags (d : Device) : Byte :=
  bit 0 d.reclaim.requested ||| bit 1 d.tableInvalid ||| bit 2 d.headWaits

end Sys2Proof.Machine
end

