-- ==== Sys2Proof/Machine/Requests.lean ====
section
/-! DEFINITION. How a request is taken and answered: the frame it comes in, the form check, the store-state check, the reply
(R13, R173 to R178), and requests that name a handle (R67, R68). -/

namespace Sys2Proof.Machine

/-- What a request's rule answers: a result code and a payload. -/
structure Answer where
  result : Result
  payload : List Byte
deriving DecidableEq, Repr

def ok (payload : List Byte) : Answer := ⟨.ok, payload⟩

/-- A refusal carries no payload (R180). -/
def refuse (r : Result) : Answer := ⟨r, []⟩

/-- Whether a request that arrives is taken: not in a busy frame (R175), nor in one that a device reset discarded (R172),
nor while a request is being handled where no frame was begun (log 15, log 16). -/
def Port.takes (q : Port) : Bool :=
  match q.frame with
  | some f => !f.busy && !f.discarded
  | none => q.handling.isNone

/-- SEL rises: the frame is over. -/
def Device.closeFrame (p : PortId) (d : Device) : Device :=
  d.modPort p fun q => { q with frame := none }

/-- R174: the frame is over and the port's count of taken requests advances, from 255 back to 0. -/
def Device.countRequest (p : PortId) (d : Device) : Device :=
  d.modPort p fun q => { q with frame := none, count := q.count + 1 }

/-- R13, R178: the form check, then the store-state check of MOUNTING, then the request's own rule. -/
def Device.answer {α : Type} (form : Option α) (always : Bool) (rule : α → Device → Device × Answer) (d : Device) :
    Device × Answer :=
  match form with
  | none => (d, refuse .badRequest)
  | some x => if !always && d.store == .mounting then (d, refuse .notReady) else rule x d

/-- R174: the request's reply, with the count after the advance; it is held when handling ends. -/
def Device.reply (p : PortId) (kind count : Byte) (r : Device × Answer) : Device :=
  r.1.modPort p fun q =>
    { q with handling := some { kind := kind, count := count, result := r.2.result, payload := r.2.payload } }

/-- READ_ONLY is refused after the checks of parameter values (R13). -/
def StoreState.isReadOnly : StoreState → Bool
  | .readOnly _ => true
  | .normal => false
  | .mounting => false

/-- A request of port `p` that arrives complete. While a device reset is held the port takes nothing (R172). -/
def Device.request {α : Type} (p : PortId) (kind : Byte) (form : Option α) (always : Bool)
    (rule : α → Device → Device × Answer) (d : Device) : Device :=
  if d.resetHeld then d.closeFrame p
  else if (d.port p).takes then
    Device.reply p kind ((d.port p).count + 1) ((d.countRequest p).answer form always rule)
  else d.closeFrame p

/-! ## Requests that name a handle (R67, R68) -/

/-- R67's first stage: the handle number, and the parameters that do not depend on the handle's state; a handle named is
renewed whatever the reply (R68; log 30). -/
def Device.onHandle (p : PortId) (number : Byte) (valuesOk : Bool) (rule : HandleNo → Device → Device × Answer)
    (d : Device) : Device × Answer :=
  match Four.ofByte number with
  | none => (d, refuse .badRequest)
  | some h => if valuesOk then rule h (d.renew p h) else (d.renew p h, refuse .badRequest)

/-- R67's second stage for the requests a WRITING handle alone is served. -/
def Device.onWriter (p : PortId) (h : HandleNo)
    (rule : Key → BufferNo → Nat → Nat → Device → Device × Answer) (d : Device) : Device × Answer :=
  match d.handle p h with
  | .writing k b cursor deadline => rule k b cursor deadline d
  | .free => (d, refuse .badHandle)
  | .reading _ _ _ _ => (d, refuse .badHandle)
  | .committing _ _ _ => (d, refuse .busy)
  | .expired _ => (d, refuse .expired)
  | .revoked _ => (d, refuse .revoked)

end Sys2Proof.Machine
end

