-- ==== Sys2Proof/Machine/Query.lean ====
section
/-! DEFINITION. The requests that only report: NOP, STORE_INFO, ENUMERATE, and a request of unknown kind (R64, R178, R181). -/

namespace Sys2Proof.Machine

/-- The part changed, the queue of commands as it is. -/
def State.onDev (f : Device → Device) (s : State) : State := { s with dev := f s.dev }

/-- Every meaning answers a next state: the manual names nothing that stops the part. -/
def ran (f : Device → Device) (s : State) : Host.Outcome State Fault Refusal := .next (s.onDev f)

/-! ## STORE_INFO (R181) -/

/-- The lowest of some numbers, 0 for none. -/
def lowestOf : List Nat → Nat
  | [] => 0
  | x :: rest => rest.foldl min x

/-- The highest of some numbers, 0 for none. -/
def highestOf (xs : List Nat) : Nat := xs.foldl max 0

/-- A count in one byte. -/
def byteOf (n : Nat) : Byte := BitVec.ofNat 8 n

/-- The segment figures of the record. -/
def Device.segmentInfo (d : Device) : List Byte :=
  [byteOf (d.segmentsIn .erased).length, byteOf (d.segmentsIn .active).length, byteOf (d.segmentsIn .sealed).length,
    byteOf (d.segmentsIn .reclaiming).length, byteOf (d.segmentsIn .retired).length]
  ++ be24 (lowestOf ((d.segments.filter fun r => r.state != .retired).map (·.eraseCount)))
  ++ be24 (highestOf (d.segments.map (·.eraseCount)))
  ++ be16 d.freeFrames ++ be16 d.deadTotal ++ be16 d.reclaimable

/-- This port's handles 1 to 4. -/
def Device.handleInfo (d : Device) (p : PortId) : List Byte := Four.all.flatMap fun h => (d.handle p h).info

/-- R181's record of 40 bytes. -/
def Device.storeInfo (d : Device) (p : PortId) : List Byte :=
  [d.store.code, d.store.reasonCode, supplyCode d.supply, causeCode d.cause]
  ++ d.segmentInfo
  ++ be16 d.entriesUsed
  ++ [byteOf d.groupsUsed, byteOf (d.buffers.countIf Buffer.isFree), byteOf d.commitQueue.length,
    d.reclaim.state.code, d.infoFlags]
  ++ d.handleInfo p

/-- NOP (R181). -/
def execNop (p : PortId) (ps : List Byte) (s : State) : Host.Outcome State Fault Refusal :=
  ran (Device.request p 0x01 (formNone ps) true fun _ d => (d, ok [])) s

/-- STORE_INFO (R181). -/
def execStoreInfo (p : PortId) (ps : List Byte) (s : State) : Host.Outcome State Fault Refusal :=
  ran (Device.request p 0x02 (formNone ps) true fun _ d => (d, ok (d.storeInfo p))) s

/-! ## ENUMERATE (R64) -/

/-- The entry ENUMERATE reports: the lowest LIVE key at or above `from_` that the port may read. -/
def Device.enumerated (d : Device) (p : PortId) (from_ : Key) : Option Entry :=
  d.directory.find? fun e => decide (from_ ≤ e.key) && e.state == .live && mayRead d.table p e.key

/-- R64; END is OK with no payload (R179). -/
def Device.enumerate (p : PortId) (from_ : Key) (d : Device) : Device × Answer :=
  match d.enumerated p from_ with
  | some e => (d, ok (keyBytes e.key ++ be16 e.length ++ be32 (e.sequence.getD 0)))
  | none => (d, ok [])

/-- ENUMERATE. -/
def execEnumerate (p : PortId) (ps : List Byte) (s : State) : Host.Outcome State Fault Refusal :=
  ran (Device.request p 0x12 (formFromKey ps) false (Device.enumerate p)) s

/-- A request whose kind code is no request kind fails the form check, whatever its parameters (R178). -/
def execUnknownKindRequest (p : PortId) (kind : Byte) (_ps : List Byte) (s : State) :
    Host.Outcome State Fault Refusal :=
  ran (Device.request p kind (none : Option Unit) true fun _ d => (d, refuse .badRequest)) s

end Sys2Proof.Machine
end

