-- ==== Sys2Proof/Machine/CommitRequest.lean ====
section
/-! DEFINITION. COMMIT: its checks in order, the revocations of check 6, and acceptance (R89 to R94). -/

namespace Sys2Proof.Machine

/-! ## The list (R89) -/

/-- No handle number appears twice. -/
def noneTwice : List HandleNo → Bool
  | [] => true
  | h :: rest => !rest.contains h && noneTwice rest

/-- R89: the handles of a well-formed list, in handle order. -/
def commitList (ps : List Byte) : Option (List HandleNo) :=
  match ps.mapM Four.ofByte with
  | none => none
  | some hs => if 1 ≤ hs.length ∧ hs.length ≤ 4 ∧ noneTwice hs then some hs else none

/-! ## Checks 5 to 10 (R91, R92) -/

/-- R91: the refusal of a handle that is not WRITING. -/
def Handle.commitRefusal : Handle → Option Result
  | .writing _ _ _ _ => none
  | .free => some .badHandle
  | .reading _ _ _ _ => some .badHandle
  | .committing _ _ _ => some .busy
  | .expired _ => some .expired
  | .revoked _ => some .revoked

/-- Check 5: the first offending handle in handle order, with its refusal. -/
def Device.offender (d : Device) (p : PortId) : List HandleNo → Option (HandleNo × Result)
  | [] => none
  | h :: rest =>
    match (d.handle p h).commitRefusal with
    | some r => some (h, r)
    | none => d.offender p rest

/-- The member a WRITING handle gives (R96). -/
def Device.memberOf (d : Device) (p : PortId) (h : HandleNo) : Option Member :=
  match d.handle p h with
  | .writing k b _ _ =>
    some { handle := h, key := k, buffer := b, intent := (d.buffer b).intent, length := (d.buffer b).length }
  | _ => none

/-- Check 6: the members whose right is missing. -/
def Device.deniedMembers (d : Device) (p : PortId) (ms : List Member) : List Member :=
  ms.filter fun m => !mayWrite d.table p m.key

/-- R91: one handle revoked by a COMMIT refused DENIED, without a notice. -/
def Device.revokeMember (p : PortId) (d : Device) (m : Member) : Device :=
  d.dropWriter p m.handle m.key m.buffer (.revoked m.key)

/-- Check 7: a member that is key 0000h with intent VALUE holds a valid access table. -/
def Device.tableOk (d : Device) (m : Member) : Bool :=
  m.key != accessKey || m.intent == .delete || validTable (d.buffer m.buffer).value

/-- Check 8: a notice slot can be reserved. -/
def Port.canReserve (q : Port) : Bool := decide (q.notices.length + q.reserved < Config.noticeSlots)

/-- Check 9: for a group, a group table entry is free. -/
def Device.groupRoom (d : Device) (ms : List Member) : Bool :=
  decide (ms.length = 1) || decide (d.groupsUsed < Config.groupEntries)

/-- Check 10: the frames needed are no more than the free frames plus the reclaimable frames. -/
def Device.frameRoom (d : Device) (ms : List Member) : Bool :=
  decide ((itemFrames ms).sum ≤ d.freeFrames + d.reclaimable)

/-! ## Acceptance (R93, R94) -/

/-- A WRITING handle becomes COMMITTING; its lease stops (R93, step 1). -/
def Handle.committed : Handle → Handle
  | .writing k b c _ => .committing k b c
  | h => h

def Device.commitHandle (p : PortId) (d : Device) (h : HandleNo) : Device :=
  d.setHandle p h (d.handle p h).committed

/-- R93, step 4: the group table entry of a group, the lowest free one (log 28). -/
def Device.groupFor (d : Device) (ms : List Member) : Option Nat :=
  if ms.length = 1 then none else d.groups.findIdx? GroupEntry.isFree

def Device.reserveGroup (g : Option Nat) (d : Device) : Device :=
  match g with
  | none => d
  | some i => d.setGroup i (.reserved none)

/-- R93: the commit is accepted. -/
def Device.accept (p : PortId) (hs : List HandleNo) (ms : List Member) (d : Device) : Device :=
  let record : CommitRecord :=
    { port := p, ticket := (d.port p).ticket, members := ms, group := d.groupFor ms, state := .queued,
      sequence := none, portReset := false }
  let d := (hs.foldl (Device.commitHandle p) d).reserveGroup (d.groupFor ms)
  let d := d.modPort p fun q => { q with ticket := q.ticket + 1, reserved := q.reserved + 1 }
  { d with commitQueue := d.commitQueue ++ [record] }

/-- Checks 7 to 10 of R90, and acceptance. The reply carries the ticket. -/
def Device.commitMembers (p : PortId) (hs : List HandleNo) (ms : List Member) (d : Device) : Device × Answer :=
  if ms.all d.tableOk = false then (d, refuse .badTable)
  else if (d.port p).canReserve = false then (d, refuse .queueFull)
  else if d.groupRoom ms = false then (d, refuse .noEntry)
  else if d.frameRoom ms = false then (d, refuse .storeFull)
  else ((d.accept p hs ms).arbiter, ok [(d.port p).ticket])

/-- Checks 5 and 6 of R90: the reply to a refusal carries the number of the offending handle. -/
def Device.commitHandles (p : PortId) (hs : List HandleNo) (d : Device) : Device × Answer :=
  match d.offender p hs with
  | some (h, r) => (d, ⟨r, [h.toByte]⟩)
  | none =>
    let ms := hs.filterMap (d.memberOf p)
    match d.deniedMembers p ms with
    | m :: rest => (((m :: rest).foldl (Device.revokeMember p) d).arbiter, ⟨.denied, [m.handle.toByte]⟩)
    | [] => d.commitMembers p hs ms

/-- R68: every named handle that is READING or WRITING is renewed. -/
def Device.renewAll (p : PortId) (hs : List HandleNo) (d : Device) : Device :=
  hs.foldl (fun d h => d.renew p h) d

/-- R90's checks from the second on. -/
def Device.commit (p : PortId) (ps : List Byte) (d : Device) : Device × Answer :=
  match commitList ps with
  | none => (d, refuse .badRequest)
  | some hs =>
    let d := d.renewAll p hs
    if d.store.isReadOnly then (d, refuse .readOnly)
    else if d.supply = .low then (d, refuse .supplyLow)
    else d.commitHandles p hs

/-- COMMIT. -/
def execCommit (p : PortId) (ps : List Byte) (s : State) : Host.Outcome State Fault Refusal :=
  ran (Device.request p 0x0B (formCommit ps) false (Device.commit p)) s

end Sys2Proof.Machine
end

