-- ==== Sys2Proof/Machine/Control.lean ====
section
/-! DEFINITION. RENEW, SET_LEASE, RECLAIM and PORT_RESET (R82, R87, R88, R110, R130, R162). -/

namespace Sys2Proof.Machine

/-- RENEW: every handle of the port that is READING or WRITING (R87). -/
def Device.renewPort (p : PortId) (d : Device) : Device × Answer :=
  (d.modPort p fun q => { q with handles := q.handles.map (Handle.renewed (d.deadline p)) },
    ok [byteOf ((d.port p).handles.countIf Handle.leaseRuns)])

/-- RENEW. -/
def execRenew (p : PortId) (ps : List Byte) (s : State) : Host.Outcome State Fault Refusal :=
  ran (Device.request p 0x0C (formNone ps) false fun _ => Device.renewPort p) s

/-- R82: n from 4 to 14; deadlines already set are unchanged. -/
def Device.setLease (p : PortId) (n : Nat) (d : Device) : Device × Answer :=
  if 4 ≤ n ∧ n ≤ 14 then (d.modPort p fun q => { q with leaseExp := n }, ok [byteOf n])
  else (d, refuse .badRequest)

/-- SET_LEASE. -/
def execSetLease (p : PortId) (ps : List Byte) (s : State) : Host.Outcome State Fault Refusal :=
  ran (Device.request p 0x0D (formLease ps) false (Device.setLease p)) s

/-- R130: whether RECLAIM sets the requested flag. -/
def Device.reclaimUseful (d : Device) : Bool :=
  d.reclaim.state != .idle || !d.candidates.isEmpty || !d.fixes.isEmpty

/-- R130's effect before the arbiter's choice. -/
def Device.requestReclaim (d : Device) : Device :=
  if d.reclaimUseful then { d with reclaim := { d.reclaim with requested := true } } else d

/-- R130: the reply gives the controller as it is when the request is taken, with the flag this sets (log 24). -/
def Device.reclaimRequest (d : Device) : Device × Answer :=
  if d.store.isReadOnly then (d, refuse .readOnly)
  else
    (d.requestReclaim.arbiter,
      ok [d.reclaim.state.code, byteOf d.requestReclaim.reclaim.requested.toNat])

/-- RECLAIM. -/
def execReclaim (p : PortId) (ps : List Byte) (s : State) : Host.Outcome State Fault Refusal :=
  ran (Device.request p 0x13 (formNone ps) false fun _ => Device.reclaimRequest) s

/-! ## PORT_RESET (R88, R110, R162) -/

/-- R88: one handle, but for a COMMITTING one, which follows its commit. -/
def Device.resetHandle (p : PortId) (d : Device) (h : HandleNo) : Device :=
  match d.handle p h with
  | .reading k b _ _ => d.dropReader p h k b .free
  | .writing k b _ _ => d.dropWriter p h k b .free
  | .expired _ => d.setHandle p h .free
  | .revoked _ => d.setHandle p h .free
  | .committing _ _ _ => d
  | .free => d

/-- R110: a commit that has not begun is removed, with no outcome. -/
def Device.removeCommit (d : Device) (c : CommitRecord) : Device :=
  (c.members.foldl (fun d m => d.dropWriter c.port m.handle m.key m.buffer .free) d).freeGroup c.group

/-- R110: the commits of the port leave the queue; the others keep their order. -/
def Device.removeCommits (p : PortId) (d : Device) : Device :=
  (d.commitQueue.filter fun c => c.port == p).foldl Device.removeCommit
    { d with commitQueue := d.commitQueue.filter fun c => c.port != p }

/-- R110: a RUNNING commit of the port goes on, without a reservation. -/
def Owner.portReset (p : PortId) : Owner → Owner
  | .commit c placed => .commit (if c.port = p then { c with portReset := true } else c) placed
  | .damageMark k s => .damageMark k s
  | .copy c => .copy c

def EngineUnit.portReset (p : PortId) : EngineUnit → EngineUnit
  | .write o retried step => .write (o.portReset p) retried step
  | u => u

/-- R162, steps 3 to 5. The count of taken requests is not reset. -/
def Port.reset (q : Port) : Port :=
  { q with watch := [], notices := [], reserved := 0, overflow := false, leaseExp := 10, ticket := 0 }

/-- R162, before the arbiter's choice. -/
def Device.clearPort (p : PortId) (d : Device) : Device :=
  let d := (Four.all.foldl (Device.resetHandle p) d).removeCommits p
  { d with flight := d.flight.map (EngineUnit.portReset p) }.modPort p Port.reset

/-- PORT_RESET. -/
def execPortReset (p : PortId) (ps : List Byte) (s : State) : Host.Outcome State Fault Refusal :=
  ran (Device.request p 0x14 (formNone ps) false fun _ d => ((d.clearPort p).arbiter, ok [])) s

end Sys2Proof.Machine
end

