-- ==== Sys2Proof/Machine/Frames.lean ====
section
/-! DEFINITION. Port frames: the fall of SEL, frames that are not taken, the end of handling (R172 to R177). -/

namespace Sys2Proof.Machine

/-- R177: at the fall of SEL the status byte is formed and the held reply begins to go out; while a device reset is held
no frame begins (R172). -/
def Device.startFrame (p : PortId) (d : Device) : Device :=
  match (d.port p).frame with
  | some _ => d
  | none =>
    d.modPort p fun q =>
      { q with
        frame := some (if d.resetHeld then FrameOut.lost
          else { busy := q.handling.isSome, discarded := false, out := q.held.bytes (d.statusByte p) }) }

/-- PORT_FRAME_START. -/
def execPortFrameStart (p : PortId) (s : State) : Host.Outcome State Fault Refusal :=
  ran (Device.startFrame p) s

/-- IDLE_FRAME: an idle or cut-short frame is not taken and nothing changes (R173). -/
def execIdleFrame (p : PortId) (_bytes : List Byte) (s : State) : Host.Outcome State Fault Refusal :=
  ran (Device.closeFrame p) s

/-- R173: the held reply becomes a BAD_REQUEST reply that echoes the kind byte and the count as it stands. -/
def Device.badFrame (p : PortId) (bytes : List Byte) (d : Device) : Device :=
  if d.resetHeld then d.closeFrame p
  else if (d.port p).takes then
    d.modPort p fun q =>
      { q with
        frame := none
        held := { kind := bytes.headD 0, count := q.count, result := .badRequest, payload := [] } }
  else d.closeFrame p

/-- MALFORMED_FRAME (R173). -/
def execMalformedFrame (p : PortId) (bytes : List Byte) (s : State) : Host.Outcome State Fault Refusal :=
  ran (Device.badFrame p bytes) s

/-- BAD_CHECK_FRAME (R173). -/
def execBadCheckFrame (p : PortId) (bytes : List Byte) (s : State) : Host.Outcome State Fault Refusal :=
  ran (Device.badFrame p bytes) s

/-- BUSY_FRAME: the frame's request is ignored whatever its bytes (R175). -/
def execBusyFrame (p : PortId) (_bytes : List Byte) (s : State) : Host.Outcome State Fault Refusal :=
  ran (Device.closeFrame p) s

/-- R174: the reply of the request in handling replaces the held reply. -/
def Port.endHandling (q : Port) : Port :=
  match q.handling with
  | some r => { q with held := r, handling := none }
  | none => q

/-- HANDLING_END. -/
def execHandlingEnd (p : PortId) (s : State) : Host.Outcome State Fault Refusal :=
  ran (Device.modPort p Port.endHandling) s

end Sys2Proof.Machine
end

