-- ==== Sys2Proof/Machine/Handles.lean ====
section
/-! DEFINITION. The requests that open, use and close handles (R71 to R81). -/

namespace Sys2Proof.Machine

/-! ## OPEN_READ (R71, R72) -/

/-- R72: handle `h` is bound to the version at the entry's current location. -/
def Device.bindReader (p : PortId) (h : HandleNo) (e : Entry) (l : Loc) (d : Device) : Device :=
  (d.pin e.key l.seg).setHandle p h
    (.reading e.key { location := l, length := e.length, sequence := e.sequence.getD 0 } 0 (d.deadline p))

/-- Checks 5 and 6 of R71, and R72, for a LIVE entry. -/
def Device.openReadLive (p : PortId) (e : Entry) (l : Loc) (d : Device) : Device × Answer :=
  match (d.port p).handles.findFirst Handle.isFree with
  | none => (d, refuse .noHandle)
  | some h =>
    if d.checkGood l then
      (d.bindReader p h e l, ok (h.toByte :: (be16 e.length ++ be32 (e.sequence.getD 0))))
    else ((d.detectDamage e.key).arbiter, refuse .damaged)

/-- R71's checks from the second on. -/
def Device.openRead (p : PortId) (k : Key) (d : Device) : Device × Answer :=
  if k = noKey then (d, refuse .badRequest)
  else if mayRead d.table p k = false then (d, refuse .denied)
  else
    match d.lookup k with
    | none => (d, refuse .noSuchKey)
    | some e =>
      match e.state, e.location with
      | .live, some l => d.openReadLive p e l
      | .live, none => (d, refuse .noSuchKey)
      | .damaged, _ => (d, refuse .damaged)
      | .pending, _ => (d, refuse .noSuchKey)
      | .gone, _ => (d, refuse .noSuchKey)

/-- OPEN_READ. -/
def execOpenRead (p : PortId) (ps : List Byte) (s : State) : Host.Outcome State Fault Refusal :=
  ran (Device.request p 0x03 (formKey ps) false (Device.openRead p)) s

/-! ## OPEN_WRITE (R73, R74) -/

/-- Check 6 of R73: the key has an entry that is LIVE or DAMAGED, or CREATE is given. A PENDING one is claimed. -/
def opensWithout (e : Option Entry) : Bool :=
  match e with
  | none => false
  | some e => e.state == .live || e.state == .damaged

/-- R74, step 3: the claim, on the entry there is or on a new PENDING one. -/
def Device.takeClaim (p : PortId) (h : HandleNo) (k : Key) (d : Device) : Device :=
  match d.lookup k with
  | none => d.addEntry (Entry.fresh k (p, h))
  | some _ => d.modEntry k fun e => { e with claim := some (p, h) }

/-- R74, step 4: the value PRELOAD loads of a LIVE key whose version's check is good. -/
def Device.preloaded (d : Device) (k : Key) (preload : Bool) : List Byte :=
  match d.lookup k with
  | none => []
  | some e =>
    match e.state, e.location with
    | .live, some l => if preload && d.checkGood l then d.valueBytes l 0 e.length else []
    | _, _ => []

/-- R60: whether PRELOAD on a LIVE key finds its version's check bad. -/
def Device.preloadDamaged (d : Device) (k : Key) (preload : Bool) : Bool :=
  match d.lookup k with
  | none => false
  | some e =>
    match e.state, e.location with
    | .live, some l => preload && !d.checkGood l
    | _, _ => false

/-- A buffer as OPEN_WRITE leaves it (R74, steps 2 and 4). -/
def Buffer.opened (p : PortId) (h : HandleNo) (value : List Byte) (b : Buffer) : Buffer :=
  { owner := some (p, h), intent := .value, length := value.length, bytes := placeBytes b.bytes 0 value }

/-- The state code of an entry in OPEN_WRITE's reply. -/
def Device.stateCode (d : Device) (k : Key) : Byte :=
  match d.lookup k with
  | none => 0
  | some e => e.state.code

/-- R74. -/
def Device.openWriter (p : PortId) (h : HandleNo) (b : BufferNo) (k : Key) (preload : Bool) (d : Device) :
    Device × Answer :=
  let value := d.preloaded k preload
  let damaged := d.preloadDamaged k preload
  let d := d.takeClaim p h k
  let d := d.setBuffer b ((d.buffer b).opened p h value)
  let d := d.setHandle p h (.writing k b 0 (d.deadline p))
  let d := if damaged then d.detectDamage k else d
  (if damaged then d.arbiter else d, ok (h.toByte :: (be16 value.length ++ [d.stateCode k])))

/-- R73's checks from the second on. -/
def Device.openWrite (p : PortId) (x : Key × Bool × Bool) (d : Device) : Device × Answer :=
  let e := d.lookup x.1
  if x.1 = noKey then (d, refuse .badRequest)
  else if d.store.isReadOnly then (d, refuse .readOnly)
  else if mayWrite d.table p x.1 = false then (d, refuse .denied)
  else if (e.bind (·.claim)).isSome then (d, refuse .claimed)
  else if (opensWithout e || x.2.1) = false then (d, refuse .noSuchKey)
  else
    match (d.port p).handles.findFirst Handle.isFree, d.buffers.findFirst Buffer.isFree with
    | none, _ => (d, refuse .noHandle)
    | some _, none => (d, refuse .noBuffer)
    | some h, some b =>
      if e.isNone && decide (Config.directoryCapacity ≤ d.entriesUsed) then (d, refuse .noEntry)
      else d.openWriter p h b x.1 x.2.2

/-- OPEN_WRITE. -/
def execOpenWrite (p : PortId) (ps : List Byte) (s : State) : Host.Outcome State Fault Refusal :=
  ran (Device.request p 0x04 (formOpenWrite ps) false (Device.openWrite p)) s

/-! ## READ and SEEK (R75, R76) -/

/-- R75: READ of `n` bytes on handle `h`. -/
def Device.read (p : PortId) (n : Nat) (h : HandleNo) (d : Device) : Device × Answer :=
  match d.handle p h with
  | .reading k b cursor deadline =>
    let m := min n (b.length - cursor)
    (d.setHandle p h (.reading k b (cursor + m) deadline),
      ok (be16 (cursor + m) ++ d.valueBytes b.location cursor m))
  | .writing k b cursor deadline =>
    let m := min n ((d.buffer b).length - cursor)
    (d.setHandle p h (.writing k b (cursor + m) deadline),
      ok (be16 (cursor + m) ++ ((d.buffer b).bytes.drop cursor).take m))
  | .free => (d, refuse .badHandle)
  | .committing _ _ _ => (d, refuse .busy)
  | .expired _ => (d, refuse .expired)
  | .revoked _ => (d, refuse .revoked)

/-- READ: a count of 1 to 64. -/
def execRead (p : PortId) (ps : List Byte) (s : State) : Host.Outcome State Fault Refusal :=
  ran (Device.request p 0x05 (formRead ps) false fun x =>
    Device.onHandle p x.1 (decide (1 ≤ x.2) && decide (x.2 ≤ 64)) (Device.read p x.2)) s

/-- R76: SEEK to `offset` on handle `h`. -/
def Device.seek (p : PortId) (offset : Nat) (h : HandleNo) (d : Device) : Device × Answer :=
  match d.handle p h with
  | .reading k b _ deadline =>
    if offset ≤ b.length then (d.setHandle p h (.reading k b offset deadline), ok (be16 offset))
    else (d, refuse .badRequest)
  | .writing k b _ deadline =>
    if offset ≤ (d.buffer b).length then (d.setHandle p h (.writing k b offset deadline), ok (be16 offset))
    else (d, refuse .badRequest)
  | .free => (d, refuse .badHandle)
  | .committing _ _ _ => (d, refuse .busy)
  | .expired _ => (d, refuse .expired)
  | .revoked _ => (d, refuse .revoked)

/-- SEEK: an offset of 0 to 496. -/
def execSeek (p : PortId) (ps : List Byte) (s : State) : Host.Outcome State Fault Refusal :=
  ran (Device.request p 0x06 (formHandleWord ps) false fun x =>
    Device.onHandle p x.1 (decide (x.2 ≤ Config.maxLength)) (Device.seek p x.2)) s

/-! ## WRITE, TRUNCATE and MARK_DELETE (R77 to R79) -/

/-- R77: the buffer after a WRITE at the cursor. -/
def Buffer.written (data : List Byte) (cursor : Nat) (b : Buffer) : Buffer :=
  { b with
    bytes := placeBytes b.bytes cursor data
    length := max b.length (cursor + data.length)
    intent := .value }

/-- R77. -/
def Device.write (p : PortId) (data : List Byte) (h : HandleNo) : Device → Device × Answer :=
  Device.onWriter p h fun k b cursor deadline d =>
    if Config.maxLength < cursor + data.length then (d, refuse .tooLong)
    else
      ((d.setBuffer b ((d.buffer b).written data cursor)).setHandle p h
          (.writing k b (cursor + data.length) deadline),
        ok (be16 (cursor + data.length) ++ be16 ((d.buffer b).written data cursor).length))

/-- WRITE. -/
def execWrite (p : PortId) (ps : List Byte) (s : State) : Host.Outcome State Fault Refusal :=
  ran (Device.request p 0x07 (formWrite ps) false fun x => Device.onHandle p x.1 true (Device.write p x.2)) s

/-- R78. -/
def Device.truncate (p : PortId) (n : Nat) (h : HandleNo) : Device → Device × Answer :=
  Device.onWriter p h fun k b cursor deadline d =>
    if n ≤ (d.buffer b).length then
      ((d.setBuffer b { d.buffer b with length := n }).setHandle p h (.writing k b (min cursor n) deadline),
        ok (be16 n ++ be16 (min cursor n)))
    else (d, refuse .badRequest)

/-- TRUNCATE: a length of 0 to 496. -/
def execTruncate (p : PortId) (ps : List Byte) (s : State) : Host.Outcome State Fault Refusal :=
  ran (Device.request p 0x08 (formHandleWord ps) false fun x =>
    Device.onHandle p x.1 (decide (x.2 ≤ Config.maxLength)) (Device.truncate p x.2)) s

/-- R79: the states of the key's entry on which MARK_DELETE is accepted: LIVE and DAMAGED. -/
def Device.deletable (d : Device) (k : Key) : Bool := opensWithout (d.lookup k)

/-- R79. -/
def Device.markDelete (p : PortId) (h : HandleNo) : Device → Device × Answer :=
  Device.onWriter p h fun k b _ deadline d =>
    if d.deletable k then
      ((d.setBuffer b { d.buffer b with intent := .delete, length := 0 }).setHandle p h (.writing k b 0 deadline),
        ok [])
    else (d, refuse .noSuchKey)

/-- MARK_DELETE. -/
def execMarkDelete (p : PortId) (ps : List Byte) (s : State) : Host.Outcome State Fault Refusal :=
  ran (Device.request p 0x09 (formHandle ps) false fun x => Device.onHandle p x true (Device.markDelete p)) s

/-! ## CLOSE (R81) -/

/-- R81. -/
def Device.close (p : PortId) (h : HandleNo) (d : Device) : Device × Answer :=
  match d.handle p h with
  | .reading k b _ _ => ((d.dropReader p h k b .free).arbiter, ok [])
  | .writing k b _ _ => ((d.dropWriter p h k b .free).arbiter, ok [])
  | .committing _ _ _ => (d, refuse .busy)
  | .expired _ => (d.setHandle p h .free, ok [])
  | .revoked _ => (d.setHandle p h .free, ok [])
  | .free => (d, refuse .badHandle)

/-- CLOSE. -/
def execClose (p : PortId) (ps : List Byte) (s : State) : Host.Outcome State Fault Refusal :=
  ran (Device.request p 0x0A (formHandle ps) false fun x => Device.onHandle p x true (Device.close p)) s

end Sys2Proof.Machine
end

