-- ==== Sys2Proof/Machine/Leases.lean ====
section
/-! DEFINITION. Lease expiry (R83 to R86). -/

namespace Sys2Proof.Machine

/-- The clock stands at the moment of an event, where it is not past it (log 2). -/
def Device.reach (moment : Nat) (d : Device) : Device := { d with now := max d.now moment }

/-- R83: the lease has run out, no earlier than its deadline. -/
def Device.ranOut (deadline : Nat) (d : Device) : Bool := decide (deadline ≤ d.now)

/-- R84, R85, step 3 and 4: HANDLE_EXPIRED is offered to the port. -/
def Device.offerExpired (p : PortId) (h : HandleNo) (k : Key) (d : Device) : Device :=
  d.modPort p fun q => q.offer (.handleExpired h k)

/-! ## The passing of time, where no command waits -/

/-- The array rots: each frame the free value names reads as it says (log 5). -/
def Device.rotted (cells : List (Nat × Nat × Cell)) (d : Device) : Device :=
  cells.foldl (fun d x => if 1 ≤ x.2.1 ∧ x.2.1 ≤ Config.lastFrame then d.modCell ⟨x.1, x.2.1⟩ fun _ => x.2.2 else d) d

/-- On an empty queue 1 ms passes and the array rots by a free value (log 1, log 5). The rot of a kept seal's frame can make a
tombstone's frame dead (log 45); that is no event at which the arbiter chooses (the model's choice: log 46). -/
def Device.idle (d : Device) : Device :=
  { d.rotted (Config.rot d.draws) with now := d.now + 1, draws := d.draws + 1 }

/-! ## Expiry -/

/-- R84. An expiry of a handle that is not READING, or whose lease was renewed past that moment, does not happen (R86;
log 14). -/
def Device.expireReader (p : PortId) (h : HandleNo) (moment : Nat) (d : Device) : Device :=
  match d.handle p h with
  | .reading k b _ deadline =>
    if (d.reach moment).ranOut deadline then
      (((d.reach moment).dropReader p h k b (.expired k)).offerExpired p h k).arbiter
    else d
  | _ => d

/-- READING_LEASE_EXPIRY. -/
def execReadingLeaseExpiry (p : PortId) (e : LeaseEnd) (s : State) : Host.Outcome State Fault Refusal :=
  ran (Device.expireReader p e.handle e.moment) s

/-- R85. An expiry of a handle that is not WRITING, or whose lease was renewed past that moment, does not happen (R86;
log 14). -/
def Device.expireWriter (p : PortId) (h : HandleNo) (moment : Nat) (d : Device) : Device :=
  match d.handle p h with
  | .writing k b _ deadline =>
    if (d.reach moment).ranOut deadline then
      (((d.reach moment).dropWriter p h k b (.expired k)).offerExpired p h k).arbiter
    else d
  | _ => d

/-- WRITING_LEASE_EXPIRY. -/
def execWritingLeaseExpiry (p : PortId) (e : LeaseEnd) (s : State) : Host.Outcome State Fault Refusal :=
  ran (Device.expireWriter p e.handle e.moment) s

end Sys2Proof.Machine
end

