-- ==== Sys2Proof/Machine/Mount.lean ====
section
/-! DEFINITION. Mount: every table rebuilt from the array alone (R163 to R170). -/

namespace Sys2Proof.Machine

/-! ## Headers (R163, R164) -/

/-- R163's classes. -/
inductive SegmentClass
  | retired
  | erased
  | candidate
  | sealed
  | unclean
deriving DecidableEq, Repr

/-- R163: the first row that matches. A malformed RETIRED mark is read as absent. -/
def SegmentImage.classify (im : SegmentImage) : SegmentClass :=
  let h := im.header
  if h.retired = .whole then .retired
  else if h.erased = .whole ∧ h.opened = .absent ∧ h.sealed = .absent then
    (if im.frames.all Cell.isBlank then .erased else .unclean)
  else if h.erased = .whole ∧ h.opened = .whole then
    (if h.sealed = .absent then .candidate else .sealed)
  else .unclean

/-- A numbered image. -/
abbrev Numbered := SegmentImage × Nat

def Device.images (d : Device) : List Numbered := d.array.zipIdx

/-- The segments of one class. -/
def Device.imagesIn (d : Device) (c : SegmentClass) : List Numbered :=
  d.images.filter fun x => x.1.classify == c

/-- R164: the ACTIVE candidate with the highest segment sequence, the lowest number among equals (log 33). -/
def Device.keptCandidate (d : Device) : Option Nat :=
  (pickBest (fun y x => decide (x.1.header.sequence < y.1.header.sequence)) (d.imagesIn .candidate)).map (·.2)

/-- R164: one above the last frame that does not read blank, or 1. -/
def appendFrom (frames : List Cell) : Nat := 1 + (frames.reverse.dropWhile Cell.isBlank).length

/-- R20: one above the highest segment sequence in a header with a whole OPEN mark; 1 where there is none. -/
def Device.mountSegCounter (d : Device) : Nat :=
  1 + highestOf ((d.array.filter fun im => im.header.opened == .whole).map fun im => im.header.sequence)

/-- R168: the assigned count: the highest erase count read whole in any header, or 0. -/
def Device.assignedCount (d : Device) : Nat :=
  highestOf ((d.array.filter fun im => im.header.erased == .whole).map fun im => im.header.eraseCount)

/-! ## The scan (R165) -/

/-- A version that the scan found with a good check. -/
structure Found where
  location : Loc
  header : VersionHeader
  committed : Bool
deriving DecidableEq, Repr

/-- R165: a header as mount reads it; a TOMBSTONE or DAMAGE_MARK with a length is malformed. -/
def Device.mountHeader (d : Device) (l : Loc) : HeaderRead :=
  match d.readHeader l with
  | .whole h m good =>
    if (h.kind = .tombstone ∨ h.kind = .damageMark) ∧ h.length ≠ 0 then .malformed else .whole h m good
  | .blank => .blank
  | .malformed => .malformed

/-- R165: the versions with a good check in the frames of segment i, from frame `pos` on. Past a bad check the read
moves on by one frame. -/
def Device.scanFrames (d : Device) (i : Nat) : Nat → Nat → List Found
  | 0, _ => []
  | fuel + 1, pos =>
    if Config.lastFrame < pos then []
    else
      match d.mountHeader ⟨i, pos⟩ with
      | .whole h m true =>
        { location := ⟨i, pos⟩, header := h, committed := m } :: d.scanFrames i fuel (pos + versionFrames h.length)
      | .whole _ _ false => d.scanFrames i fuel (pos + 1)
      | .blank => d.scanFrames i fuel (pos + 1)
      | .malformed => d.scanFrames i fuel (pos + 1)

/-- R165: every scanned segment: SEALED or ACTIVE candidate. -/
def Device.scan (d : Device) : List Found :=
  (d.images.filter fun x => x.1.classify == .sealed || x.1.classify == .candidate).flatMap fun x => d.scanFrames x.2 128 1

/-- R10, R165: one above the highest sequence found with a good check. -/
def mountSeqCounter (found : List Found) : Nat := 1 + highestOf (found.map fun f => f.header.sequence)

/-! ## Groups (R166) -/

/-- Each element once, at its last place. -/
def onceEach {α : Type} [DecidableEq α] : List α → List α
  | [] => []
  | x :: rest => if rest.contains x then onceEach rest else x :: onceEach rest

/-- R166: the complete seals. -/
def completeSeals (found : List Found) : List Found :=
  found.filter fun f => f.header.kind == .groupSeal && f.committed

/-- A complete seal with its sequence and the keys it lists. -/
structure SealFound where
  location : Loc
  sequence : Nat
  keys : List Key
deriving DecidableEq, Repr

def Device.sealsFound (d : Device) (found : List Found) : List SealFound :=
  (completeSeals found).map fun f =>
    { location := f.location, sequence := f.header.sequence, keys := d.sealKeysAt f.location }

/-- R8, R166: whether a version of a record is complete. -/
def Found.complete (seals : List SealFound) (f : Found) : Bool :=
  f.header.kind != .groupSeal && f.committed &&
    (f.header.group == 0 || seals.any fun s => s.sequence == f.header.group && s.keys.contains f.header.key)

/-- The complete versions of a key. -/
def versionsOf (complete : List Found) (k : Key) : List Found := complete.filter fun f => f.header.key == k

/-- The complete member versions of a group; a group field of 0 belongs to none (R4). -/
def membersOf (complete : List Found) (g : Nat) : List Found :=
  complete.filter fun f => f.header.group == g && f.header.group != 0

/-- R166: whether key `k`, listed by a complete seal of sequence `g`, is a member that has been lost. -/
def isLost (complete : List Found) (g : Nat) (k : Key) : Bool :=
  !(membersOf complete g).isEmpty
    && !((versionsOf complete k).any fun f => f.header.group == g)
    && !((versionsOf complete k).any fun f => decide (g < f.header.sequence))

/-- R166: the keys of the missing members. -/
def lostKeys (seals : List SealFound) (complete : List Found) : List Key :=
  onceEach (seals.flatMap fun s => s.keys.filter fun k => isLost complete s.sequence k)

/-- A segment's sequence as its header gives it. -/
def Device.headerSequence (d : Device) (i : Nat) : Nat := ((d.array[i]?).map (·.header.sequence)).getD 0

/-- R9: of two complete versions of a key, the current one is preferred: the higher sequence, then the segment with the
higher segment sequence. -/
def Device.newer (d : Device) (y x : Found) : Bool :=
  decide (x.header.sequence < y.header.sequence) ||
    (y.header.sequence == x.header.sequence &&
      decide (d.headerSequence x.location.seg < d.headerSequence y.location.seg))

/-- R9: the current version of a key. -/
def Device.currentOf (d : Device) (complete : List Found) (k : Key) : Option Found :=
  pickBest d.newer (versionsOf complete k)

/-- R166: whether the group has a current member. -/
def Device.hasCurrent (d : Device) (complete : List Found) (g : Nat) : Bool :=
  (membersOf complete g).any fun f => d.currentOf complete f.header.key == some f

/-- A list in order, smaller first, built by insertion. -/
def insertBy {α : Type} (before : α → α → Bool) (x : α) : List α → List α
  | [] => [x]
  | y :: rest => if before x y then x :: y :: rest else y :: insertBy before x rest

def sortBy {α : Type} (before : α → α → Bool) (xs : List α) : List α := xs.foldr (insertBy before) []

/-- R166: the groups that qualify, those with a current member first, then by highest sequence; 32 are kept. -/
def Device.keptGroups (d : Device) (seals : List SealFound) (complete : List Found) : List Nat :=
  let gs := (onceEach (seals.map (·.sequence))).filter fun g => !(membersOf complete g).isEmpty
  let before (x y : Nat) : Bool :=
    if d.hasCurrent complete x != d.hasCurrent complete y then d.hasCurrent complete x else decide (y < x)
  (sortBy before gs).take Config.groupEntries

/-- R166: the copy of a group's seal in the segment with the highest segment sequence. -/
def Device.sealPlace (d : Device) (seals : List SealFound) (g : Nat) : Option SealFound :=
  pickBest (fun y x => decide (d.headerSequence x.location.seg < d.headerSequence y.location.seg))
    (seals.filter fun s => s.sequence == g)

/-- R166: the group table. -/
def Device.mountGroups (d : Device) (seals : List SealFound) (complete : List Found) : List GroupEntry :=
  let kept := (d.keptGroups seals complete).filterMap fun g =>
    (d.sealPlace seals g).map fun s => GroupEntry.kept g s.location (membersOf complete g).length
  kept ++ List.replicate (Config.groupEntries - kept.length) .free

/-! ## The directory (R167) -/

/-- The state of an entry whose current version is of this kind. -/
def Kind.entryState : Kind → EntryState
  | .value => .live
  | .tombstone => .gone
  | .damageMark => .damaged
  | .groupSeal => .damaged

/-- R167: the entry of a key; R61 for a missing member. -/
def Device.mountEntry (d : Device) (complete : List Found) (lost : List Key) (k : Key) : Option Entry :=
  if lost.contains k then
    some { key := k, state := .damaged, location := none, length := 0, sequence := none,
           residue := (versionsOf complete k).length, claim := none, pins := 0, markPending := true }
  else
    (d.currentOf complete k).map fun f =>
      { key := k, state := Kind.entryState f.header.kind, location := some f.location, length := f.header.length,
        sequence := some f.header.sequence, residue := (versionsOf complete k).length - 1, claim := none, pins := 0,
        markPending := false }

/-- R167: an entry for every key with a complete version or a missing member, at most the 1024 lowest keys. -/
def Device.mountDirectory (d : Device) (complete : List Found) (lost : List Key) : List Entry :=
  (((onceEach (complete.map (·.header.key) ++ lost)).filterMap (d.mountEntry complete lost)).foldr insertEntry []).take
    Config.directoryCapacity

/-! ## The segment table (R168) -/

/-- R168: the record of a segment. -/
def mountRecord (kept : Option Nat) (assigned : Nat) (x : Numbered) : SegmentRecord :=
  let h := x.1.header
  let record (st : SegmentState) (count : Nat) (s : Option Nat) (append : Nat) : SegmentRecord :=
    { state := st, eraseCount := count, sequence := s, appendPoint := append, pins := 0, suspect := false }
  match x.1.classify with
  | .erased => record .erased h.eraseCount none 1
  | .sealed => record .sealed h.eraseCount (some h.sequence) 128
  | .candidate =>
    if kept = some x.2 then record .active h.eraseCount (some h.sequence) (appendFrom x.1.frames)
    else record .sealed h.eraseCount (some h.sequence) 128
  | .unclean => record .sealed assigned none 128
  | .retired =>
    record .retired (if h.erased = .whole then h.eraseCount else assigned)
      h.givenSequence 1

/-- R10, R20, R165 to R167: the directory and the counters as the scan builds them. -/
def Device.buildTables (d : Device) : MountTables :=
  let found := d.scan
  let seals := d.sealsFound found
  let complete := found.filter (Found.complete seals)
  { directory := d.mountDirectory complete (lostKeys seals complete)
    seqCounter := mountSeqCounter found
    segCounter := d.mountSegCounter }

/-- R22, R116, R166, R168: at the end of the scan mount fills the group table and the segment table (log 43). -/
def Device.fillSegments (d : Device) : Device :=
  let found := d.scan
  let seals := d.sealsFound found
  { d with
    groups := d.mountGroups seals (found.filter (Found.complete seals))
    segments := d.images.map (mountRecord d.keptCandidate d.assignedCount) }

/-- R10, R20, R43, R167: at the end of mount the directory and the counters become those that mount built. -/
def Device.fill (t : MountTables) (d : Device) : Device :=
  { d with
    directory := t.directory
    seqCounter := t.seqCounter
    segCounter := t.segCounter }

/-- What the scan leaves for the end of mount (R164, R169, R170). -/
def Device.mountWork (d : Device) : MountWork :=
  { sealFixes := ((d.imagesIn .candidate).map (·.2)).filter fun i => d.keptCandidate != some i
    unclean := (d.imagesIn .unclean).map (·.2)
    spent := decide (Config.lastSequence < mountSeqCounter d.scan)
    tables := d.buildTables }

/-! ## The end of mount (R156, R170) -/

/-- R170, R14: WORN before SPENT before NO_RESERVE. -/
def Device.mountStore (d : Device) (w : MountWork) : StoreState :=
  if d.notRetired < 4 then .readOnly .worn
  else if w.spent then .readOnly .spent
  else if d.erasedCount = 0 ∧ w.unclean = [] then .readOnly .noReserve
  else .normal

/-- R156: the stored value of key 0000h, when its entry is LIVE. -/
def Device.storedTable (d : Device) : Option (List Byte) :=
  match d.lookup accessKey with
  | none => none
  | some e =>
    match e.state, e.location with
    | .live, some l => some (d.valueBytes l 0 e.length)
    | _, _ => none

/-- R156: the access table and TABLE_INVALID from the entry of key 0000h. -/
def Device.mountTable (d : Device) : Device :=
  match d.storedTable with
  | none => { d with table := none, tableInvalid := false }
  | some v =>
    if validTable v then { d with table := some (decodeTable v), tableInvalid := false }
    else { d with table := none, tableInvalid := true }

/-- R139: STARTED is placed on every port. -/
def Device.announce (d : Device) : Device :=
  let d' := d.mapPorts fun _ q => { q with notices := q.notices ++ [.started d.cause] }
  if d.supply = .low then d'.offerAll (.supply .low) else d'

/-- R170, in one event. -/
def Device.mountEnd (w : MountWork) (d : Device) : Device :=
  { d with
    store := d.mountStore w
    fixes := w.sealFixes.map Fix.sealing ++ w.unclean.map Fix.erasing
    mount := .off }.mountTable.announce.arbiter

/-- R169: whether mount erases an unclean segment itself, and which. -/
def Device.ownErase (d : Device) (w : MountWork) : Option Nat :=
  if d.erasedCount = 0 ∧ w.spent = false ∧ 4 ≤ d.notRetired ∧ d.supply = .good then w.unclean.head? else none

/-- R163 to R170 at the end of the scan. During mount's own erase the group table and the segment table stand filled (R22,
R168), and the sequencer holds the directory and the counters, which show when mount ends (R10, R20, R43, R167; log 43). -/
def Device.scanDone (d : Device) : Device :=
  match d.mount with
  | .scanning =>
    let w := d.mountWork
    let d := d.fillSegments
    match d.ownErase w with
    | some i => { d with mount := .erasing i w }
    | none => (d.fill w.tables).mountEnd w
  | .off => d
  | .erasing _ _ => d

/-- MOUNT_SCAN_DONE. Where mount is not reading the array it changes nothing (log 14). -/
def execMountScanDone (s : State) : Host.Outcome State Fault Refusal :=
  ran Device.scanDone s

/-- R169: mount's own erase ends; the segment leaves the set of unclean segments. -/
def Device.mountErased (r : EraseResult) (d : Device) : Device :=
  match d.mount with
  | .erasing i w =>
    let count := ((d.segments[i]?).map (·.eraseCount)).getD 0
    let d := (d.eraseImage i count r).fill w.tables
    (if r.verified then d.eraseRecord i count else d.retireRecord i).mountEnd
      { w with unclean := w.unclean.filter fun j => j != i }
  | .off => d
  | .scanning => d

/-- MOUNT_ERASE_DONE. -/
def execMountEraseDone (r : EraseResult) (s : State) : Host.Outcome State Fault Refusal :=
  ran (Device.mountErased r) s

end Sys2Proof.Machine
end

