-- ==== Sys2Proof/Machine/Steps.lean ====
section
/-! DEFINITION. The ends of the engine's steps (R30). An end of a step that is not in flight changes nothing (log 14). -/

namespace Sys2Proof.Machine

/-- FRAME_PROGRAM_DONE (R26, R32). -/
def execFrameProgramDone (r : ProgramResult) (s : State) : Host.Outcome State Fault Refusal :=
  ran (Device.frameDone r) s

/-- COMMIT_MARK_DONE (R7, R32, R50 to R53). -/
def execCommitMarkDone (verified : Bool) (s : State) : Host.Outcome State Fault Refusal :=
  ran (Device.markDone verified) s

/-- SEGMENT_OPEN_DONE (R24, R36). -/
def execSegmentOpenDone (r : MarkResult) (s : State) : Host.Outcome State Fault Refusal :=
  ran (Device.openDone r) s

/-- SEGMENT_SEAL_DONE (R26, R33, R35, R115). -/
def execSegmentSealDone (r : MarkResult) (s : State) : Host.Outcome State Fault Refusal :=
  ran (Device.sealDone r) s

/-- SEGMENT_ERASE_DONE (R39, R40, R115, R126). -/
def execSegmentEraseDone (r : EraseResult) (s : State) : Host.Outcome State Fault Refusal :=
  ran (Device.eraseDone r) s

/-- SEGMENT_RETIRE_DONE (R41, R126). -/
def execSegmentRetireDone (mark : MarkRead) (s : State) : Host.Outcome State Fault Refusal :=
  ran (Device.retireDone mark) s

end Sys2Proof.Machine
end

