-- ==== Sys2Proof/Machine/SupplyReset.lean ====
section
/-! DEFINITION. The supply monitor and device resets (R157 to R161, R169, R171). -/

namespace Sys2Proof.Machine

/-- R169: a fall during mount's own erase abandons it; the segment stays unclean and mount goes on to its end. -/
def Device.fallInMount (cut : Cut) (d : Device) : Device :=
  match d.mount with
  | .erasing i w => ((d.cutErase i cut.mark).fill w.tables).mountEnd w
  | .scanning => d
  | .off => d

/-- R158, R171. A fall while LOW is none. -/
def Device.fall (cut : Cut) (d : Device) : Device :=
  if d.supply = .low then d
  else
    let d := { d with supply := .low }
    if d.store = .mounting then d.fallInMount cut else (d.stopEngine cut).offerAll (.supply .low)

/-- SUPPLY_FALL. -/
def execSupplyFall (cut : Cut) (s : State) : Host.Outcome State Fault Refusal :=
  ran (Device.fall cut) s

/-- R159, R171. A rise while GOOD is none. -/
def Device.rise (d : Device) : Device :=
  if d.supply = .good then d
  else
    let d := { d with supply := .good }
    if d.store = .mounting then d else (d.offerAll (.supply .good)).arbiter

/-- SUPPLY_RISE. -/
def execSupplyRise (s : State) : Host.Outcome State Fault Refusal :=
  ran Device.rise s

/-- R31, R161: the array where a reset stops the unit in flight, or mount's own erase. -/
def Device.stopArray (cut : Cut) (d : Device) : Device :=
  match d.mount with
  | .erasing i _ => d.cutErase i cut.mark
  | .scanning => d.cutArray cut
  | .off => d.cutArray cut

/-- R172: a frame in progress when the reset begins is discarded; SEL stays low. -/
def Device.keepSel (old d : Device) : Device :=
  d.mapPorts fun p q => { q with frame := (old.port p).frame.map fun _ => FrameOut.lost }

/-- R160, R161. While a reset is held its cause is the one that began it, but for POWER_ON (log 31). -/
def Device.beginReset (cause : Cause) (cut : Cut) (d : Device) : Device :=
  if d.resetHeld then (if cause = .powerOn then { d with cause := .powerOn } else d)
  else d.keepSel (Device.cleared (d.stopArray cut).array d.supply cause d.now d.draws)

/-- DEVICE_RESET. -/
def execDeviceReset (cause : Cause) (cut : Cut) (s : State) : Host.Outcome State Fault Refusal :=
  ran (Device.beginReset cause cut) s

/-- R160: a fall below 1.5 V during a reset makes the cause POWER_ON. -/
def Device.losePower (d : Device) : Device :=
  if d.resetHeld then { d with cause := .powerOn } else d

/-- POWER_LOSS_IN_RESET. -/
def execPowerLossInReset (s : State) : Host.Outcome State Fault Refusal :=
  ran Device.losePower s

/-- R157, R161, R176: the reset is released: the supply state is set, every port holds the initial reply, mount begins. -/
def Device.release (supply : Supply) (d : Device) : Device :=
  if d.resetHeld then
    { d with resetHeld := false, supply := supply, mount := .scanning }.mapPorts fun _ q => { q with held := initialReply }
  else d

/-- RESET_RELEASE. -/
def execResetRelease (supply : Supply) (s : State) : Host.Outcome State Fault Refusal :=
  ran (Device.release supply) s

end Sys2Proof.Machine
end

