-- ==== Sys2Proof/Machine/Watches.lean ====
section
/-! DEFINITION. The watch list and the notice queue: WATCH, UNWATCH, WATCH_LIST, NEXT_NOTICE (R131 to R133, R144). -/

namespace Sys2Proof.Machine

def Device.setWatch (p : PortId) (ks : List Key) (d : Device) : Device :=
  d.modPort p fun q => { q with watch := ks }

/-- R132's checks from the second on. -/
def Device.watch (p : PortId) (k : Key) (d : Device) : Device × Answer :=
  let list := (d.port p).watch
  if k = noKey then (d, refuse .badRequest)
  else if mayWatch d.table p k = false then (d, refuse .denied)
  else if list.contains k then (d, ok [byteOf list.length])
  else if Config.watchCapacity ≤ list.length then (d, refuse .noEntry)
  else (d.setWatch p (list ++ [k]), ok [byteOf (list.length + 1)])

/-- WATCH. -/
def execWatch (p : PortId) (ps : List Byte) (s : State) : Host.Outcome State Fault Refusal :=
  ran (Device.request p 0x0E (formKey ps) false (Device.watch p)) s

/-- R133. -/
def Device.unwatch (p : PortId) (k : Key) (d : Device) : Device × Answer :=
  let list := (d.port p).watch.filter fun x => x != k
  if k = noKey then (d, refuse .badRequest)
  else (d.setWatch p list, ok [byteOf list.length])

/-- UNWATCH. -/
def execUnwatch (p : PortId) (ps : List Byte) (s : State) : Host.Outcome State Fault Refusal :=
  ran (Device.request p 0x0F (formKey ps) false (Device.unwatch p)) s

/-- WATCH_LIST: the count, then the keys in order of insertion (R133). -/
def execWatchList (p : PortId) (ps : List Byte) (s : State) : Host.Outcome State Fault Refusal :=
  ran (Device.request p 0x10 (formNone ps) false fun _ d =>
    (d, ok (byteOf (d.port p).watch.length :: (d.port p).watch.flatMap keyBytes))) s

/-- R144. -/
def Device.nextNotice (p : PortId) (d : Device) : Device × Answer :=
  match (d.port p).notices with
  | n :: rest => (d.modPort p fun q => { q with notices := rest }, ok (byteOf rest.length :: n.bytes))
  | [] =>
    if (d.port p).overflow then (d.modPort p fun q => { q with overflow := false }, ok (0 :: resyncBytes))
    else (d, ok (0 :: noneBytes))

/-- NEXT_NOTICE. -/
def execNextNotice (p : PortId) (ps : List Byte) (s : State) : Host.Outcome State Fault Refusal :=
  ran (Device.request p 0x11 (formNone ps) false fun _ => Device.nextNotice p) s

end Sys2Proof.Machine
end

