-- ==== Sys2Proof/Machine/Dispatch.lean ====
section
/-! DEFINITION. The meaning of every command: one arm per constructor of `Instr`. -/

namespace Sys2Proof.Machine

def exec (i : Instr) (s : State) : Host.Outcome State Fault Refusal :=
  match i with
  | .nop p ps => Sys2Proof.Machine.execNop p ps s
  | .storeInfo p ps => Sys2Proof.Machine.execStoreInfo p ps s
  | .openRead p ps => Sys2Proof.Machine.execOpenRead p ps s
  | .openWrite p ps => Sys2Proof.Machine.execOpenWrite p ps s
  | .read p ps => Sys2Proof.Machine.execRead p ps s
  | .seek p ps => Sys2Proof.Machine.execSeek p ps s
  | .write p ps => Sys2Proof.Machine.execWrite p ps s
  | .truncate p ps => Sys2Proof.Machine.execTruncate p ps s
  | .markDelete p ps => Sys2Proof.Machine.execMarkDelete p ps s
  | .close p ps => Sys2Proof.Machine.execClose p ps s
  | .commit p ps => Sys2Proof.Machine.execCommit p ps s
  | .renew p ps => Sys2Proof.Machine.execRenew p ps s
  | .setLease p ps => Sys2Proof.Machine.execSetLease p ps s
  | .watch p ps => Sys2Proof.Machine.execWatch p ps s
  | .unwatch p ps => Sys2Proof.Machine.execUnwatch p ps s
  | .watchList p ps => Sys2Proof.Machine.execWatchList p ps s
  | .nextNotice p ps => Sys2Proof.Machine.execNextNotice p ps s
  | .enumerate p ps => Sys2Proof.Machine.execEnumerate p ps s
  | .reclaim p ps => Sys2Proof.Machine.execReclaim p ps s
  | .portReset p ps => Sys2Proof.Machine.execPortReset p ps s
  | .unknownKindRequest p kind ps => Sys2Proof.Machine.execUnknownKindRequest p kind ps s
  | .portFrameStart p => Sys2Proof.Machine.execPortFrameStart p s
  | .idleFrame p bytes => Sys2Proof.Machine.execIdleFrame p bytes s
  | .malformedFrame p bytes => Sys2Proof.Machine.execMalformedFrame p bytes s
  | .badCheckFrame p bytes => Sys2Proof.Machine.execBadCheckFrame p bytes s
  | .busyFrame p bytes => Sys2Proof.Machine.execBusyFrame p bytes s
  | .handlingEnd p => Sys2Proof.Machine.execHandlingEnd p s
  | .readingLeaseExpiry p e => Sys2Proof.Machine.execReadingLeaseExpiry p e s
  | .writingLeaseExpiry p e => Sys2Proof.Machine.execWritingLeaseExpiry p e s
  | .frameProgramDone r => Sys2Proof.Machine.execFrameProgramDone r s
  | .commitMarkDone verified => Sys2Proof.Machine.execCommitMarkDone verified s
  | .segmentOpenDone r => Sys2Proof.Machine.execSegmentOpenDone r s
  | .segmentSealDone r => Sys2Proof.Machine.execSegmentSealDone r s
  | .segmentEraseDone r => Sys2Proof.Machine.execSegmentEraseDone r s
  | .segmentRetireDone mark => Sys2Proof.Machine.execSegmentRetireDone mark s
  | .supplyFall cut => Sys2Proof.Machine.execSupplyFall cut s
  | .supplyRise => Sys2Proof.Machine.execSupplyRise s
  | .deviceReset cause cut => Sys2Proof.Machine.execDeviceReset cause cut s
  | .powerLossInReset => Sys2Proof.Machine.execPowerLossInReset s
  | .resetRelease supply => Sys2Proof.Machine.execResetRelease supply s
  | .mountScanDone => Sys2Proof.Machine.execMountScanDone s
  | .mountEraseDone r => Sys2Proof.Machine.execMountEraseDone r s

end Sys2Proof.Machine
end

