-- ==== Sys2Proof/Safety.lean ====
section
/-! DEFINITION. What stays true of the part: the properties that the statements about every step speak of. -/

namespace Sys2Proof.Machine

/-- R43: at most one entry for a key; kept in rising order of key. -/
def Device.keysRise (d : Device) : Prop :=
  d.directory.Pairwise fun x y => x.key < y.key

/-- R18: 32 segments of 127 version frames beside the header. -/
def Device.geometry (d : Device) : Prop :=
  d.array.length = 32 ∧ ∀ im ∈ d.array, im.frames.length = 127

/-- R116: the group table has 32 entries. -/
def Device.groupTable (d : Device) : Prop := d.groups.length = 32

/-- The tables that mount holds while its own erase runs (R169). -/
def Device.builtTables (d : Device) : Option MountTables :=
  match d.mount with
  | .erasing _ w => some w.tables
  | .scanning => none
  | .off => none

/-- R167: the directory that mount holds has at most one entry for a key, in rising order of key. -/
def Device.builtKeysRise (d : Device) : Prop :=
  ∀ b ∈ d.builtTables, b.directory.Pairwise fun x y => x.key < y.key

/-- R82: the lease period of every port is 2^n ms with n from 4 to 14. -/
def Device.leasePeriods (d : Device) : Prop := ∀ p, 4 ≤ (d.port p).leaseExp ∧ (d.port p).leaseExp ≤ 14

/-- R131: a watch list holds up to 16 keys, each at most once. -/
def Device.watchLists (d : Device) : Prop :=
  ∀ p, (d.port p).watch.length ≤ 16 ∧ (d.port p).watch.Nodup

/-- R12, R161: while a device reset is held the store is MOUNTING and mount has not begun. -/
def Device.resetQuiet (d : Device) : Prop :=
  d.resetHeld = true → d.store = .mounting ∧ d.mount = .off

/-- R140: queued notices and reserved slots never exceed 8. -/
def Port.slotsFit (q : Port) : Prop := q.notices.length + q.reserved ≤ 8

/-- R140, R142: a port's reserved slots are its accepted commits, queued and running, that still hold a reservation; a
queued commit always does. -/
def Device.reservationsMatch (d : Device) : Prop :=
  (∀ c ∈ d.commitQueue, c.portReset = false) ∧
  ∀ p, (d.port p).reserved =
    ((d.running.toList ++ d.commitQueue).filter fun c => c.port == p && !c.portReset).length

/-- R161, R139: while the store is MOUNTING every handle is FREE, and no commit, unit or notice stands; mount is on only
then. -/
def Device.mountingQuiet (d : Device) : Prop :=
  (d.store = .mounting → d.flight = none ∧ d.commitQueue = [] ∧
    ∀ p, (d.port p).notices = [] ∧ (d.port p).overflow = false ∧ ∀ h, d.handle p h = .free) ∧
  (d.mount ≠ .off → d.store = .mounting)

/-- R140: what keeps queued notices and reserved slots within the eight slots of each port. -/
def Device.slotsKept (d : Device) : Prop :=
  (∀ p, (d.port p).slotsFit) ∧ d.reservationsMatch ∧ d.mountingQuiet ∧ d.resetQuiet

/-! ## How the statements speak of requests -/

/-- The port unit takes a request: no reset is held, and the frame it comes in began when no request of the port was being
handled (R172, R175; without a frame in progress, none is being handled: log 15). -/
def Device.takes (d : Device) (p : PortId) : Prop := d.resetHeld = false ∧ (d.port p).takes = true

/-- The same, in a store that is not MOUNTING (R13). -/
def Device.serves (d : Device) (p : PortId) : Prop := d.takes p ∧ d.store ≠ .mounting

/-- A port unit that has taken a request and forms this reply: the frame is over, the count has advanced, and the reply
waits for the end of handling (R174). -/
def Port.answered (kind : Byte) (r : Result) (payload : List Byte) (q : Port) : Port :=
  { q with
    frame := none
    count := q.count + 1
    handling := some { kind := kind, count := q.count + 1, result := r, payload := payload } }

/-- The device whose port `p` has taken a request and forms this reply. -/
def Device.answered (p : PortId) (kind : Byte) (r : Result) (payload : List Byte) (d : Device) : Device :=
  d.modPort p (Port.answered kind r payload)

/-- R178, R179: the parameters are of a form that the kind allows. -/
def formAllowed (kind : Byte) (ps : List Byte) : Prop :=
  match kind.toNat with
  | 0x01 => ps.length = 0
  | 0x02 => ps.length = 0
  | 0x03 => ps.length = 2
  | 0x04 => ∃ hi lo options : Byte, ps = [hi, lo, options] ∧ options &&& 0xFC = 0
  | 0x05 => ps.length = 2
  | 0x06 => ps.length = 3
  | 0x07 => 2 ≤ ps.length ∧ ps.length ≤ 65
  | 0x08 => ps.length = 3
  | 0x09 => ps.length = 1
  | 0x0A => ps.length = 1
  | 0x0B => True
  | 0x0C => ps.length = 0
  | 0x0D => ps.length = 1
  | 0x0E => ps.length = 2
  | 0x0F => ps.length = 2
  | 0x10 => ps.length = 0
  | 0x11 => ps.length = 0
  | 0x12 => ps.length = 2
  | 0x13 => ps.length = 0
  | 0x14 => ps.length = 0
  | _ => False

end Sys2Proof.Machine
end

