-- ==== Sys2Proof/WellFormed.lean ====
section
/-! DEFINITION. Which commands the part can be given: what R173 and R178 require of the bytes of a row, and what the
rules require of the results that end a step. -/

namespace Sys2Proof

/-- At most 66 parameter bytes: a longer length byte makes the frame malformed (R173). -/
def paramsFit (ps : List Byte) : Bool := decide (ps.length ≤ 66)

/-- A kind byte that no request of R179 has; FFh begins an idle frame (R173). -/
def unknownKind (kind : Byte) : Bool :=
  kind != 0xFF#8 && (decide (kind.toNat < 0x01) || decide (0x14 < kind.toNat))

/-- A failed erase does not leave a whole ERASED mark: its blank verify, or the program or verify of its new
header, failed (R40). -/
def eraseResultOk : EraseResult → Bool
  | .good => true
  | .bad erased _ => erased != .whole

/-- The commands whose operands are in the ranges the rules give. -/
def wellFormed : Instr → Bool
  | .nop _ ps => paramsFit ps
  | .storeInfo _ ps => paramsFit ps
  | .openRead _ ps => paramsFit ps
  | .openWrite _ ps => paramsFit ps
  | .read _ ps => paramsFit ps
  | .seek _ ps => paramsFit ps
  | .write _ ps => paramsFit ps
  | .truncate _ ps => paramsFit ps
  | .markDelete _ ps => paramsFit ps
  | .close _ ps => paramsFit ps
  | .commit _ ps => paramsFit ps
  | .renew _ ps => paramsFit ps
  | .setLease _ ps => paramsFit ps
  | .watch _ ps => paramsFit ps
  | .unwatch _ ps => paramsFit ps
  | .watchList _ ps => paramsFit ps
  | .nextNotice _ ps => paramsFit ps
  | .enumerate _ ps => paramsFit ps
  | .reclaim _ ps => paramsFit ps
  | .portReset _ ps => paramsFit ps
  | .unknownKindRequest _ kind ps => unknownKind kind && paramsFit ps
  | .portFrameStart _ => true
  | .idleFrame _ bytes => classifyFrame bytes == .idle || classifyFrame bytes == .cutShort
  | .malformedFrame _ bytes => classifyFrame bytes == .malformed
  | .badCheckFrame _ bytes => classifyFrame bytes == .badCheck
  | .busyFrame _ _ => true
  | .handlingEnd _ => true
  | .readingLeaseExpiry _ _ => true
  | .writingLeaseExpiry _ _ => true
  | .frameProgramDone _ => true
  | .commitMarkDone _ => true
  | .segmentOpenDone r => r != .bad .whole
  | .segmentSealDone _ => true
  | .segmentEraseDone r => eraseResultOk r
  | .segmentRetireDone _ => true
  | .supplyFall _ => true
  | .supplyRise => true
  | .deviceReset _ _ => true
  | .powerLossInReset => true
  | .resetRelease _ => true
  | .mountScanDone => true
  | .mountEraseDone r => eraseResultOk r

end Sys2Proof
end

