-- ==== Sys2Proof/Certificates/Slice0/Obligations.lean ====
section
/-! DEFINITION. The statements. -/

open Sys2Proof Sys2Proof.Machine

/-! ## Steps, reset and the supply -/

/-- Every step takes the command at the front of the queue and runs it with the queue's rest. -/
def Obligations.StepRunsTheFrontCommand : Prop :=
  ∀ (i : Instr) (rest : List Instr) (d : Device),
    step { pending := i :: rest, dev := d } = exec i { pending := rest, dev := d }

/-- On an empty queue 1 ms passes, the array's frames rot as the free value says, and nothing else changes: no header does
(the model's choice: log 1, log 5). The frames named rot in turn, and no choice of the arbiter follows (log 46). -/
def Obligations.EmptyQueueLetsTimePass : Prop :=
  ∀ d : Device,
    step { pending := [], dev := d } =
      .next { pending := [],
              dev := { d with array := (d.rotted (Config.rot d.draws)).array, now := d.now + 1, draws := d.draws + 1 } } ∧
    (d.rotted (Config.rot d.draws)).array.map (·.header) = d.array.map (·.header) ∧
    d.rotted [] = d ∧
    ∀ (i frame : Nat) (c : Cell) (rest : List (Nat × Nat × Cell)),
      d.rotted ((i, frame, c) :: rest) = Device.rotted rest (if 1 ≤ frame ∧ frame ≤ 127 then
        { d with array := d.array.modify i fun im => { im with frames := im.frames.set (frame - 1) c } } else d)

/-- DEVICE_RESET, POWER_LOSS_IN_RESET: what a device reset clears, the two counters included, and what it keeps; a frame in
progress is discarded, SEL staying low; the array as the unit in flight, or mount's own erase, leaves it where it stops; the
cause of a reset already held. What a stopped step leaves is the command's operand (log 8, log 10). That the model's clock
goes on over a reset, and that a second reset while one is held changes nothing, are its choices (log 32, log 31). -/
def Obligations.DeviceResetClearsRam : Prop :=
  (∀ (cause : Cause) (cut : Cut) (s : State), s.dev.resetHeld = false →
    ∃ t, exec (.deviceReset cause cut) s = .next t ∧ t.pending = s.pending ∧
      t.dev.resetHeld = true ∧ t.dev.store = .mounting ∧ t.dev.cause = cause ∧ t.dev.mount = .off ∧
      (∀ p, (∀ h, t.dev.handle p h = .free) ∧ (t.dev.port p).watch = [] ∧ (t.dev.port p).notices = [] ∧
        (t.dev.port p).reserved = 0 ∧ (t.dev.port p).overflow = false ∧ (t.dev.port p).leaseExp = 10 ∧
        (t.dev.port p).ticket = 0 ∧ (t.dev.port p).count = 0 ∧ (t.dev.port p).handling = none ∧
        (t.dev.port p).frame = (s.dev.port p).frame.map fun _ => FrameOut.lost) ∧
      (∀ b, (t.dev.buffer b).owner = none ∧ (t.dev.buffer b).intent = .value ∧ (t.dev.buffer b).length = 0) ∧
      t.dev.directory = [] ∧ t.dev.heldSlots = [] ∧ t.dev.table = none ∧ t.dev.tableInvalid = false ∧
      t.dev.seqCounter = 0 ∧ t.dev.segCounter = 0 ∧ t.dev.segments = [] ∧ t.dev.groups = List.replicate 32 .free ∧
      t.dev.commitQueue = [] ∧ t.dev.flight = none ∧
      t.dev.reclaim = Reclaim.cleared ∧ t.dev.fixes = [] ∧ t.dev.now = s.dev.now ∧
      (s.dev.flight = none → s.dev.mount = .off → t.dev.array = s.dev.array) ∧
      (∀ i w, s.dev.mount = .erasing i w → t.dev.array = (s.dev.cutErase i cut.mark).array) ∧
      ((∀ i w, s.dev.mount ≠ .erasing i w) → t.dev.array = (s.dev.cutArray cut).array)) ∧
  (∀ (cut : Cut) (s : State), s.dev.resetHeld = true →
    exec (.deviceReset .pin cut) s = .next s ∧ exec (.deviceReset .supply cut) s = .next s) ∧
  ∀ s : State, s.dev.resetHeld = true →
    exec .powerLossInReset s = .next ⟨s.pending, { s.dev with cause := .powerOn }⟩

/-- RESET_RELEASE: the supply state is set, every port holds the initial reply, and mount begins. From the reset state, whose
array is a factory one (log 17), the release and the scan lead to a NORMAL store with 32 ERASED segments, no ACTIVE one, and
both counters at 1. -/
def Obligations.ReleaseBeginsMount : Prop :=
  (∀ (supply : Supply) (s : State), s.dev.resetHeld = true →
    ∃ t, exec (.resetRelease supply) s = .next t ∧ t.pending = s.pending ∧
      t.dev = { s.dev with resetHeld := false, supply := supply, mount := .scanning, ports := t.dev.ports } ∧
      ∀ p, t.dev.port p =
        { s.dev.port p with held := { kind := 0x01, count := 0, result := .notReady, payload := [] } }) ∧
  ∃ s t, exec (.resetRelease .good) State.reset = .next s ∧ exec .mountScanDone s = .next t ∧
    t.dev.store = .normal ∧ t.dev.erasedCount = 32 ∧ t.dev.active = none ∧ t.dev.seqCounter = 1 ∧
    t.dev.segCounter = 1 ∧ t.dev.directory = [] ∧ t.dev.flight = none ∧
    ∀ p, (t.dev.port p).notices = [.started .powerOn]

/-- SUPPLY_FALL from GOOD, with the store not MOUNTING. The array and the segment table are as the abandoned step leaves
them. Every accepted commit, the running one first, ends FAILED_SUPPLY, and then every port is offered SUPPLY(LOW): of a commit
whose port was not reset the COMMITTING handles are WRITING again with a fresh lease, no buffer and no entry changes, its group
entry is free, and its COMMIT_DONE stands before SUPPLY(LOW). -/
def Obligations.SupplyFallStopsTheEngine : Prop :=
  ∀ (cut : Cut) (s : State), s.dev.supply = .good → s.dev.store ≠ .mounting →
    let running : List CommitRecord := match s.dev.flight with
      | some (.write (.commit c _) _ _) => [c]
      | _ => []
    let ended := running ++ s.dev.commitQueue
    let endedOn (p : PortId) := ended.filter fun c => c.port == p
    ∃ t, exec (.supplyFall cut) s = .next t ∧ t.pending = s.pending ∧
      t.dev = { s.dev with supply := .low, flight := none, commitQueue := [], ports := t.dev.ports,
                           buffers := t.dev.buffers, directory := t.dev.directory, groups := t.dev.groups,
                           segments := s.dev.cutTable.segments, array := (s.dev.cutArray cut).array } ∧
      t.dev = (ended.foldl (Device.endCommit .failedSupply) { s.dev with
        supply := .low, flight := none, commitQueue := []
        segments := s.dev.cutTable.segments, array := (s.dev.cutArray cut).array }).mapPorts (fun _ q => q.offer (.supply .low)) ∧
      (∀ i : Nat, t.dev.groups[i]? =
        if ∃ c ∈ ended, c.group = some i then (s.dev.groups[i]?).map fun _ => GroupEntry.free else s.dev.groups[i]?) ∧
      ((∀ c ∈ ended, c.portReset = false) →
        t.dev.buffers = s.dev.buffers ∧ t.dev.directory = s.dev.directory ∧
        (∀ p h, t.dev.handle p h =
          match s.dev.handle p h with
          | .committing k b cursor =>
            if ∃ c ∈ endedOn p, ∃ m ∈ c.members, m.handle = h then
              .writing k b cursor (s.dev.now + 2 ^ (s.dev.port p).leaseExp)
            else .committing k b cursor
          | x => x) ∧
        ∀ p, t.dev.port p =
          { { s.dev.port p with
              notices := (s.dev.port p).notices ++
                (endedOn p).map fun (c : CommitRecord) => Notice.commitDone c.ticket .failedSupply none
              reserved := (s.dev.port p).reserved - (endedOn p).length }.offer (.supply .low) with
            handles := (t.dev.port p).handles })

/-- R31's table: what the abandoned step leaves in the array and in the segment table, and what an erase cut short leaves of
the header. These are the model's choices: that the command's operand says how the frame or the mark reads (log 8), the marks
after a cut erase (log 10), the suspect bit of a seal step that a failed verify called for (log 20), and the sequence in the
record after an open step (log 21). -/
def Obligations.AbandonedStepLeaves : Prop :=
  ∀ (cut : Cut) (d : Device) (o : Owner) (retried : Bool),
    (d.flight = none → (d.cutArray cut).array = d.array ∧ d.cutTable.segments = d.segments) ∧
    (∀ l cells n, d.flight = some (.write o retried (.frameStep l cells n)) →
      (d.cutArray cut).array = (d.leaveFrame l cells n cut.left).array ∧ d.cutTable.segments = d.segments) ∧
    (∀ l cells, d.flight = some (.write o retried (.markStep l cells)) →
      (d.cutArray cut).array = d.array ∧ d.cutTable.segments = d.segments) ∧
    (∀ (i n : Nat) (im : SegmentImage) (r : SegmentRecord), d.array[i]? = some im → d.segments[i]? = some r →
      let headerBecomes (h : SegmentHeader) := (d.cutArray cut).array = d.array.set i { im with header := h }
      (d.flight = some (.write o retried (.openStep i n)) →
        headerBecomes { im.header with opened := cut.mark, sequence := n } ∧
        d.cutTable.segments = d.segments.set i
          { r with state := .sealed, appendPoint := 128, suspect := false, sequence := some n }) ∧
      (∀ failed, d.flight = some (.write o retried (.sealStep i failed)) →
        headerBecomes { im.header with sealed := cut.mark } ∧
        d.cutTable.segments = d.segments.set i
          { r with state := .sealed, appendPoint := 128, suspect := r.suspect || failed }) ∧
      (d.flight = some (.sealFix i) →
        headerBecomes { im.header with sealed := cut.mark } ∧ d.cutTable.segments = d.segments) ∧
      (d.flight = some (.retireVictim i) ∨ d.flight = some (.retireFix i) →
        headerBecomes { im.header with retired := cut.mark } ∧ d.cutTable.segments = d.segments) ∧
      (d.flight = some (.eraseVictim i) ∨ d.flight = some (.eraseFix i) →
        (∃ h, headerBecomes h ∧ h.erased ≠ .whole ∧ h.opened = .absent ∧ h.sealed = .absent ∧ h.retired = .absent) ∧
        d.cutTable.segments = d.segments) ∧
      ∀ mark, ∃ h, (d.cutErase i mark).array = d.array.set i { im with header := h } ∧ h.erased ≠ .whole ∧
        h.opened = .absent ∧ h.sealed = .absent ∧ h.retired = .absent)

/-- SUPPLY_RISE from LOW, with the store not MOUNTING: SUPPLY(GOOD) is offered on every port, and the arbiter chooses. In
MOUNTING a rise changes the supply state alone, and so does a fall while mount reads the array; a fall during mount's own erase
abandons the step, and mount goes on to its end with the segment still unclean. -/
def Obligations.SupplyRiseResumes : Prop :=
  (∀ s : State, s.dev.supply = .low → s.dev.store ≠ .mounting →
    exec .supplyRise s =
      .next ⟨s.pending, ({ s.dev with supply := .good }.mapPorts fun _ q => q.offer (.supply .good)).arbiter⟩) ∧
  (∀ s : State, s.dev.store = .mounting → exec .supplyRise s = .next ⟨s.pending, { s.dev with supply := .good }⟩) ∧
  ∀ (cut : Cut) (s : State), s.dev.store = .mounting →
    (s.dev.mount = .scanning → exec (.supplyFall cut) s = .next ⟨s.pending, { s.dev with supply := .low }⟩) ∧
    ∀ i w, s.dev.mount = .erasing i w → s.dev.supply = .good →
      exec (.supplyFall cut) s = .next ⟨s.pending, Device.mountEnd w { s.dev with
        supply := .low
        array := (s.dev.cutErase i cut.mark).array
        directory := w.tables.directory
        seqCounter := w.tables.seqCounter
        segCounter := w.tables.segCounter }⟩

/-- The arbiter makes no choice while a unit is in flight, while the supply is LOW, or in a store that is not NORMAL. Else it
chooses until a choice takes a unit or offers nothing. With no commit queued, or behind a head commit that is WAITING_SPACE:
first the damage mark of the lowest key, where a mark can be placed; then the first fix; then, where reclaim is WANTED, the
controller's unit, in whose place stands the first fix. The bound of 64 choices in one event (log 37), and that the erase fix
of a segment at the erase-count limit is a retire step (log 36), are the model's choices. -/
def Obligations.ArbiterChoosesByTheOrder : Prop :=
  ∀ d : Device,
    ((d.flight ≠ none ∨ d.supply = .low ∨ d.store ≠ .normal) → d.arbiter = d) ∧
    (d.flight = none → d.supply = .good → d.store = .normal →
      d.arbiter = if d.choose.2 then Device.arbitrate 63 d.choose.1 else d.choose.1) ∧
    (∀ n, Device.arbitrate 0 d = d ∧
      ((d.flight ≠ none ∨ d.supply = .low ∨ d.store ≠ .normal) → Device.arbitrate (n + 1) d = d) ∧
      (d.flight = none → d.supply = .good → d.store = .normal →
        Device.arbitrate (n + 1) d = if d.choose.2 then Device.arbitrate n d.choose.1 else d.choose.1)) ∧
    (d.commitQueue = [] → d.choose = d.lowerOrders) ∧
    (∀ e ∈ d.directory, d.keysRise → e.markPending = true → (∀ x ∈ d.directory, x.markPending = true → e.key ≤ x.key) →
      (d.fits 1 = true ∨ 2 ≤ d.erasedCount) → d.lowerOrders = (d.placeItem (.damageMark e.key none), false)) ∧
    (((∀ e ∈ d.directory, e.markPending = false) ∨ (d.fits 1 = false ∧ d.erasedCount < 2)) →
      let wanted : Prop :=
        (d.erasedCount < 3 ∧ d.candidates ≠ []) ∨ (∃ r ∈ d.segments, r.state ≠ .retired ∧ r.suspect = true) ∨
          d.reclaim.requested = true ∨ d.reclaim.state = .copying ∨ d.reclaim.state = .erasing
      (d.fixes ≠ [] ∨ wanted → d.lowerOrders = d.reclaimTurn) ∧
      (d.fixes = [] → ¬ wanted → d.lowerOrders = (d, false))) ∧
    (∀ f rest, d.fixes = f :: rest → d.reclaimTurn = ({ d with flight := some (match f with
      | .sealing i => .sealFix i
      | .erasing i =>
        if (d.segments[i]?).map (·.eraseCount) = some (2 ^ 24 - 1) then .retireFix i else .eraseFix i) }, false)) ∧
    (d.fixes = [] →
      (d.reclaim.state = .holding → d.reclaimTurn = (d, false)) ∧
      (d.reclaim.state = .idle → d.candidates = [] → d.reclaimTurn = (d, false)) ∧
      (∀ v, d.reclaim.state = .idle → d.pickVictim = some v →
        d.reclaimTurn = Device.walkTurn v { d with
          segments := d.segments.modify v fun r => { r with state := .reclaiming }
          reclaim := { d.reclaim with state := .copying, victim := some v, position := some 1, log := [] } }) ∧
      (∀ v, d.reclaim.state = .copying → d.reclaim.victim = some v → d.reclaimTurn = d.walkTurn v) ∧
      ∀ v r, d.reclaim.state = .erasing → d.reclaim.victim = some v → d.segments[v]? = some r →
        let unit : EngineUnit :=
          if r.suspect = true ∨ r.eraseCount = 2 ^ 24 - 1 then .retireVictim v else .eraseVictim v
        d.reclaimTurn = ({ d with flight := some unit }, false))

/-- The head commit's turn: its rights against the table in force; then the space check; then, by the controller's state,
URGENT reclaim, WAITING_SPACE or STORE_FULL. The space check's placement. A commit that ends without beginning leaves the
next one to be given its turn in the same choice. What the end of a commit with an outcome other than DONE changes: its port
not reset, and its port reset after it began, where its handles are FREE, its claims and buffers released, and no COMMIT_DONE
placed. -/
def Obligations.HeadCommitTurn : Prop :=
  (∀ (d : Device) (c : CommitRecord) (rest : List CommitRecord), d.commitQueue = c :: rest →
    let behind : Device := { d with commitQueue := rest }
    let denied : Prop := ∃ m ∈ c.members, mayWrite d.table c.port m.key = false
    let space : Bool := placeAll (c.members.map Member.frames ++ if c.members.length = 1 then [] else [1])
      (match d.active with
        | some i => 128 - d.appendPoint i
        | none => 0) (d.erasedCount - 1)
    let canHelp : Prop := d.reclaim.state = .copying ∨ d.reclaim.state = .erasing ∨
      (d.reclaim.state = .idle ∧ (d.candidates ≠ [] ∨ ∃ i, Fix.erasing i ∈ d.fixes))
    (denied → d.choose = (behind.endCommit .denied c, true)) ∧
    (¬ denied → space = true →
      d.choose = (behind.placeItem (.commit { c with state := .running } []), false)) ∧
    (¬ denied → space = false →
      (d.reclaim.state = .holding →
        d.choose = Device.lowerOrders { d with commitQueue := { c with state := .waitingSpace } :: rest }) ∧
      (canHelp → d.choose = Device.reclaimTurn { d with commitQueue := { c with state := .queued } :: rest }) ∧
      (d.reclaim.state ≠ .holding → ¬ canHelp → d.choose = (behind.endCommit .storeFull c, true)))) ∧
  (∀ (f room fresh : Nat) (fs : List Nat), placeAll [] room fresh = true ∧
    (f ≤ room → placeAll (f :: fs) room fresh = placeAll fs (room - f) fresh) ∧
    (room < f → placeAll (f :: fs) room (fresh + 1) = placeAll fs (127 - f) fresh) ∧
    (room < f → placeAll (f :: fs) room 0 = false)) ∧
  (∀ (d : Device) (c : CommitRecord) (o : CommitOutcome), c.portReset = true →
    let t := d.endCommit o c
    (∀ h, t.handle c.port h = if h ∈ c.members.map (·.handle) then .free else d.handle c.port h) ∧
    (∀ b, t.buffer b = if b ∈ c.members.map (·.buffer) then Buffer.cleared else d.buffer b) ∧
    (∀ k, t.lookup k = (d.lookup k).bind fun e =>
      if k ∈ c.members.map (·.key) then (if e.state = .pending then none else some { e with claim := none }) else some e) ∧
    (∀ i : Nat, t.groups[i]? =
      if c.group = some i then (d.groups[i]?).map fun _ => GroupEntry.free else d.groups[i]?) ∧
    t = { d with ports := t.ports, buffers := t.buffers, directory := t.directory, groups := t.groups } ∧
    t.port c.port = { d.port c.port with handles := (t.port c.port).handles } ∧
    ∀ q, q ≠ c.port → t.port q = d.port q) ∧
  ∀ (d : Device) (c : CommitRecord) (o : CommitOutcome), c.portReset = false → (c.members.map (·.handle)).Nodup →
    (∀ m ∈ c.members, ∃ x, d.handle c.port m.handle = .committing m.key m.buffer x) →
    let t := d.endCommit o c
    (∀ m ∈ c.members,
      if o = .denied ∧ mayWrite d.table c.port m.key = false then
        t.handle c.port m.handle = .revoked m.key
      else ∀ x, d.handle c.port m.handle = .committing m.key m.buffer x →
        t.handle c.port m.handle = .writing m.key m.buffer x (d.now + 2 ^ (d.port c.port).leaseExp)) ∧
    (∀ h, h ∉ c.members.map (·.handle) → t.handle c.port h = d.handle c.port h) ∧
    t = { d with ports := t.ports, buffers := t.buffers, directory := t.directory, groups := t.groups } ∧
    (o ≠ .denied → t.buffers = d.buffers ∧ t.directory = d.directory) ∧
    (∀ b, t.buffer b = if o = .denied ∧ ∃ m ∈ c.members, m.buffer = b ∧ mayWrite d.table c.port m.key = false then
      Buffer.cleared else d.buffer b) ∧
    (∀ k, t.lookup k = (d.lookup k).bind fun e =>
      if o = .denied ∧ mayWrite d.table c.port k = false ∧ k ∈ c.members.map (·.key) then
        (if e.state = .pending then none else some { e with claim := none })
      else some e) ∧
    (∀ i : Nat, t.groups[i]? =
      if c.group = some i then (d.groups[i]?).map fun _ => GroupEntry.free else d.groups[i]?) ∧
    t.port c.port = { d.port c.port with
      handles := (t.port c.port).handles
      notices := (d.port c.port).notices ++ [.commitDone c.ticket o none]
      reserved := (d.port c.port).reserved - 1 } ∧
    ∀ q, q ≠ c.port → t.port q = d.port q

/-- The walk's decision for a version, row by row; what it reads at a frame, and that it passes blank and malformed frames by
one and versions by their frames; what a drop changes, and that it counts out a stale version with a good check and a current
tombstone; the copy it makes; its end, which leaves the controller HOLDING while the victim is pinned and ERASING otherwise;
the locations it takes at frame 128; and a copy without room, at which the victim is abandoned. The model's choices: what a
further frame of a version reads as where a header is looked for, by a free value (log 6); that what is counted out stands in
a log of the controller, a tombstone as of no group (log 25), with the sequence its header reads, at frame 128 its entry's
(log 47); what is copied of a location that no header led to (log 27); the bound of 300 moves in one turn (log 37); and that
a kept seal lists the keys its frame then reads (log 45). -/
def Obligations.WalkDecidesByTheTable : Prop :=
  let asFirst (c : Cell) : Option First := match c with
    | .first f => some f
    | .more bytes => Config.bodyAsFirst bytes
    | .blank => none
    | .malformed => none
  (∀ (d : Device) (e : Entry),
    let needed : Prop := 0 < e.residue ∨ e.claim ≠ none ∨ 0 < e.pins ∨
      ∃ s at_ n, GroupEntry.kept s at_ n ∈ d.groups ∧ e.key ∈ d.sealKeysAt at_
    (e.state = .live ∨ e.state = .damaged → d.decideCurrent e = .copy (.entry e.key)) ∧
    (e.state = .gone → needed → d.decideCurrent e = .copy (.entry e.key)) ∧
    (e.state = .gone → ¬ needed → d.decideCurrent e = .dropTombstone)) ∧
  (∀ (d : Device) (l : Loc) (h : VersionHeader) (committed : Bool),
    let decision := d.decideVersion l h committed
    let kept (g : Nat) : Prop := ∃ at_ n, GroupEntry.kept g at_ n ∈ d.groups
    (h.kind = .groupSeal →
      (∀ (i s n : Nat), d.groups[i]? = some (.kept s l n) →
        (∀ (j s' n' : Nat), j < i → d.groups[j]? ≠ some (.kept s' l n')) → decision = .copy (.groupSeal i)) ∧
      ((∀ s n, GroupEntry.kept s l n ∉ d.groups) → decision = .skip)) ∧
    (h.kind ≠ .groupSeal →
      (d.lookup h.key = none → decision = .skip) ∧
      ∀ e, d.lookup h.key = some e →
        (e.location = some l → decision = d.decideCurrent e) ∧
        (e.location ≠ some l →
          (committed = true → (h.group = 0 ∨ kept h.group) → decision = .dropStale) ∧
          (committed = false ∨ (h.group ≠ 0 ∧ ¬ kept h.group) → decision = .skip)))) ∧
  (∀ (d : Device) (t : CopyTarget) (l : Loc) (n : Nat) (good : Bool) (v pos : Nat),
    let c := d.makeCopy t l n good
    c.target = t ∧ c.source = l ∧ c.checkGood = good ∧ c.cells.length = n ∧
    (∀ f, 1 ≤ n → asFirst (d.cell l) = some f → c.cells[0]? = some (.first { f with committed := false })) ∧
    (1 ≤ n → asFirst (d.cell l) = none → c.cells[0]? = some (d.cell l)) ∧
    (∀ j, 1 ≤ j → j < n → c.cells[j]? = some (d.cell ⟨l.seg, l.frame + j⟩)) ∧
    Device.walk v 0 pos d = (d, none)) ∧
  (∀ (d : Device) (v pos fuel : Nat), pos ≤ 127 →
    let walkFrom (n : Nat) (x : Device) := Device.walk v fuel n x
    let here := Device.walk v (fuel + 1) pos d
    let outOfRange (h : VersionHeader) : Prop :=
      496 < h.length ∨ (h.key = 0xFFFF#16 ∧ h.kind ≠ .groupSeal) ∨ 128 < pos + versionFrames h.length
    (asFirst (d.cell ⟨v, pos⟩) = none → here = walkFrom (pos + 1) d) ∧
    ∀ f, asFirst (d.cell ⟨v, pos⟩) = some f →
      let decision := d.decideVersion ⟨v, pos⟩ f.header f.committed
      let next := pos + versionFrames f.header.length
      (outOfRange f.header → here = walkFrom (pos + 1) d) ∧
      (¬ outOfRange f.header →
        (decision = .skip → here = walkFrom next d) ∧
        (decision = .dropTombstone → here = walkFrom next (d.dropTombstone ⟨v, pos⟩ f.header.key f.header.sequence)) ∧
        (decision = .dropStale → here = walkFrom next (d.dropStale ⟨v, pos⟩ f.header (d.checkGood ⟨v, pos⟩))) ∧
        ∀ target, decision = .copy target →
          here = ({ d with reclaim := { d.reclaim with position := some pos } }, some
            { target := target
              source := ⟨v, pos⟩
              cells := .first { f with committed := false } ::
                (List.range (versionFrames f.header.length - 1)).map fun i => d.cell ⟨v, pos + (i + 1)⟩
              checkGood := d.checkGood ⟨v, pos⟩ }))) ∧
  (∀ (d : Device) (l : Loc) (k : Key) (n : Nat) (h : VersionHeader),
    d.dropTombstone l k n = { d with
      directory := d.directory.filter fun e => e.key != k
      heldSlots := d.heldSlots ++ [l.seg]
      reclaim := { d.reclaim with
        log := d.reclaim.log ++ [{ location := l, key := k, sequence := n, group := 0, tombstone := true }] } } ∧
    d.dropStale l h false = d ∧
    d.dropStale l h true = { d with
      directory := (d.modEntry h.key fun e => { e with residue := e.residue - 1 }).directory
      groups := d.groups.map fun g =>
        match g with
        | .kept s at_ n =>
          if h.group ≠ 0 ∧ s = h.group then (if n ≤ 1 then .free else .kept s at_ (n - 1)) else .kept s at_ n
        | x => x
      reclaim := { d.reclaim with
        log := d.reclaim.log ++
          [{ location := l, key := h.key, sequence := h.sequence, group := h.group, tombstone := false }] } }) ∧
  (∀ (d : Device) (v pos fuel : Nat), 127 < pos →
    let here := Device.walk v (fuel + 1) pos d
    let at128 : Device := { d with reclaim := { d.reclaim with position := some 128 } }
    let named (l : Loc) : Prop := l.seg = v ∧
      ((∃ e ∈ d.directory, e.location = some l) ∨ ∃ s n, GroupEntry.kept s l n ∈ d.groups)
    ((∀ l, ¬ named l) → here = (at128, none)) ∧
    ∀ l, named l → (∀ x, named x → x ≠ l → l.frame < x.frame) →
      (∀ e ∈ d.directory, e.location = some l → (∀ x ∈ d.directory, x.location = some l → x = e) →
        (d.decideCurrent e = .copy (.entry e.key) →
          here = (at128, some (d.makeCopy (.entry e.key) l (versionFrames e.length) (d.checkGood l)))) ∧
        (d.decideCurrent e = .dropTombstone →
          here = Device.walk v fuel pos (d.dropTombstone l e.key (e.sequence.getD 0)))) ∧
      ∀ (i s n : Nat), (∀ e ∈ d.directory, e.location ≠ some l) → d.groups[i]? = some (.kept s l n) →
        (∀ (j s' n' : Nat), j < i → d.groups[j]? ≠ some (.kept s' l n')) →
        let inRange (f : First) : Prop := f.header.length ≤ 496 ∧ (f.header.key ≠ 0xFFFF#16 ∨ f.header.kind = .groupSeal) ∧
          l.frame + versionFrames f.header.length ≤ 128
        let copied (frames : Nat) : Prop := here = (at128, some (d.makeCopy (.groupSeal i) l frames (d.checkGood l)))
        (∀ f, asFirst (d.cell l) = some f → inRange f → copied (versionFrames f.header.length)) ∧
        ((∀ f, asFirst (d.cell l) = some f → ¬ inRange f) → copied 1)) ∧
  ∀ (d : Device) (v pos : Nat), d.reclaim.position = some pos →
    let r := Device.walk v 300 pos d
    (r.2 = none → d.walkTurn v = ({ r.1 with reclaim := { r.1.reclaim with
        position := none
        state := if 0 < ((r.1.segments[v]?).map (·.pins)).getD 0 then .holding else .erasing } }, true)) ∧
    ∀ c, r.2 = some c →
      (r.1.fits c.cells.length = true ∨ 1 ≤ r.1.erasedCount → d.walkTurn v = (r.1.placeItem (.copy c), false)) ∧
      (r.1.fits c.cells.length = false → r.1.erasedCount = 0 → d.walkTurn v = (r.1.abandonVictim, true))

/-- The abandonment of a victim: it is SEALED again, its counts as they are; the controller is IDLE with the requested flag
clear; every entry's residue rises by the versions of its key that the walk counted out at passed frames and that do not lie
at its current location, and every KEPT entry's member count by those of its group. A key without an entry whose tombstone
the walk dropped, and of which it counted out another version, has its GONE entry again, in place of a held slot of the
victim. That those versions stand in the controller's log is the model's way to remember them (log 25); the sequence of a
tombstone in that log is its choice where the header has rotted (log 47). -/
def Obligations.AbandonedVictimStandsAgain : Prop :=
  ∀ (d : Device) (v : Nat), d.reclaim.victim = some v →
    let log := d.reclaim.log
    let elsewhere (k : Key) (l : Option Loc) : Nat :=
      (log.filter fun x => decide (x.key = k ∧ some x.location ≠ l)).length
    let t := d.abandonVictim
    t = { d with
      directory := t.directory
      heldSlots := t.heldSlots
      segments := d.segments.modify v fun r => { r with state := .sealed }
      groups := d.groups.map fun g =>
        match g with
        | .kept s l n => .kept s l (n + (log.filter fun x => decide (x.group = s)).length)
        | x => x
      reclaim := { state := .idle, victim := none, position := none, requested := false, log := [] } } ∧
    (∀ k e, d.lookup k = some e → t.lookup k = some { e with residue := e.residue + elsewhere k e.location }) ∧
    (∀ k, d.lookup k = none →
      t.lookup k = (log.find? fun x => x.tombstone && decide (x.key = k ∧ 0 < elsewhere k (some x.location))).map fun x =>
        { key := k, state := .gone, location := some x.location, length := 0, sequence := some x.sequence
          residue := elsewhere k (some x.location), claim := none, pins := 0, markPending := false }) ∧
    d.directory.length ≤ t.directory.length ∧
    t.heldSlots.count v = d.heldSlots.count v - (t.directory.length - d.directory.length) ∧
    ∀ j, j ≠ v → t.heldSlots.count j = d.heldSlots.count j

/-- Segments are chosen and versions placed: a version's frames by its length; the segment opened is the ERASED one of lowest
erase count, and of those of lowest number; the victim is a candidate, a suspect one before another, then the one of most dead
frames, then of lowest segment sequence; an item that fits is programmed from the append point on, and one that does not has
the ACTIVE segment sealed, or a segment opened where the reserve allows it. Where none may be opened, a first placement of a
commit ends it STORE_FULL and a retry FAILED_VERIFY, a damage mark stays pending, and a copy makes the controller abandon its
victim. That the seal step is taken before the opening is decided (log 18), and that in READ_ONLY the unit in flight may open
the last ERASED segment (log 19), are the model's choices. -/
def Obligations.VersionsArePlacedWhole : Prop :=
  (∀ n : Nat, n ≤ 496 →
    versionFrames n =
      if n ≤ 48 then 1 else if n ≤ 112 then 2 else if n ≤ 176 then 3 else if n ≤ 240 then 4
      else if n ≤ 304 then 5 else if n ≤ 368 then 6 else if n ≤ 432 then 7 else 8) ∧
  (∀ (d : Device) (i : Nat), d.pickErased = some i →
    ∃ r, d.segments[i]? = some r ∧ r.state = .erased ∧
      ∀ (j : Nat) (x : SegmentRecord), d.segments[j]? = some x → x.state = .erased →
        r.eraseCount < x.eraseCount ∨ (r.eraseCount = x.eraseCount ∧ i ≤ j)) ∧
  (∀ d : Device,
    let candidate (v : Nat) (r : SegmentRecord) : Prop := d.segments[v]? = some r ∧ r.state = .sealed ∧ r.pins = 0 ∧
      (1 ≤ d.deadFrames v ∨ r.suspect = true) ∧ (∀ f ∈ d.fixes, f ≠ .sealing v ∧ f ≠ .erasing v) ∧
      (1 ≤ d.erasedCount ∨ d.liveFrames v ≤ d.roomAtHand)
    (d.pickVictim = none ↔ ∀ v r, ¬ candidate v r) ∧ (d.candidates = [] ↔ ∀ v r, ¬ candidate v r) ∧
    ∀ v, d.pickVictim = some v → ∃ r, candidate v r ∧ ∀ w x, candidate w x →
      (r.suspect = true ∧ x.suspect = false) ∨
      (r.suspect = x.suspect ∧ (d.deadFrames w < d.deadFrames v ∨
        (d.deadFrames w = d.deadFrames v ∧ r.sequence.getD 0 ≤ x.sequence.getD 0)))) ∧
  (∀ d : Device,
    d.erasedCount = (d.segments.filter fun r => decide (r.state = .erased)).length ∧
    d.notRetired = (d.segments.filter fun r => decide (r.state ≠ .retired)).length ∧
    (∀ (i : Nat) (r : SegmentRecord), d.segments[i]? = some r → d.appendPoint i = r.appendPoint) ∧
    (d.active = none ↔ ∀ r ∈ d.segments, r.state ≠ .active) ∧
    (∀ i, d.active = some i → ∃ r, d.segments[i]? = some r ∧ r.state = .active ∧ d.roomAtHand = 128 - r.appendPoint) ∧
    (d.active = none → d.roomAtHand = 0) ∧
    ∀ n, d.fits n = true ↔ ∃ i, d.active = some i ∧ d.appendPoint i + n ≤ 128) ∧
  (∀ (d : Device) (o : Owner),
    (∀ i, d.active = some i → d.appendPoint i + o.frames ≤ 128 → d.placeItem o = d.beginProgram o false i) ∧
    (∀ i, d.active = some i → 128 < d.appendPoint i + o.frames →
      d.placeItem o = { d with flight := some (.write o false (.sealStep i false)) }) ∧
    (d.active = none → d.placeItem o = d.openFor o false)) ∧
  (∀ (d : Device) (o : Owner) (retried : Bool),
    let mayOpen : Prop := 1 ≤ d.erasedCount ∧ ((∀ c, o ≠ .copy c) → d.store = .normal → 2 ≤ d.erasedCount)
    (d.mayOpen o = true ↔ mayOpen) ∧
    (mayOpen → ∃ i, d.pickErased = some i ∧ d.openFor o retried = { d with
      segCounter := d.segCounter + 1, flight := some (.write o retried (.openStep i d.segCounter)) }) ∧
    (¬ mayOpen → d.openFor o retried = d.failOwner o (if retried then .failedVerify else .storeFull))) ∧
  ∀ (d : Device) (outcome : CommitOutcome),
    (∀ c placed, d.failOwner (.commit c placed) outcome = { d with flight := none }.endCommit outcome c) ∧
    (∀ k n, d.failOwner (.damageMark k n) outcome = { d with flight := none }) ∧
    ∀ c, d.failOwner (.copy c) outcome = { d with flight := none }.abandonVictim

/-- Programming of a version begins: its first frame is in flight at the append point, which moves past all its frames. A
damage mark, and a commit that has none, take the counter's sequence, which a group's entry records; a copy, and a version
that has its sequence, take none. Taking FFFFFFF0h sends a NORMAL store to READ_ONLY(SPENT) and ends every queued commit
STORE_FULL, while the unit in flight goes on. The frames of a member's version, of a group's seal, of a damage mark and of a
copy, and how many they are. The arrangement of the value bytes in the frames, 48 in the first and 64 in each further one,
the order of a seal's key bytes, most significant first, and the check held as header and value bytes are the model's choices
(log 4). -/
def Obligations.ProgrammingBegins : Prop :=
  (∀ (d : Device) (o : Owner) (retried : Bool) (i : Nat),
    let t := d.beginProgram o retried i
    let n := d.seqCounter
    let segments := d.segments.modify i fun r => { r with appendPoint := r.appendPoint + o.frames }
    let step (x : Owner) : Option EngineUnit :=
      some (.write x retried (.frameStep ⟨i, d.appendPoint i⟩ (t.ownerCells x) 0))
    let keeps : Prop := t = { d with flight := step o, segments := segments }
    let takes (x : Owner) (groups : List GroupEntry) : Prop :=
      (n ≠ 0xFFFFFFF0 ∨ d.store ≠ .normal →
        t = { d with flight := step x, segments := segments, seqCounter := n + 1, groups := groups }) ∧
      (n = 0xFFFFFFF0 → d.store = .normal →
        t = { d.commitQueue.foldl (Device.endCommit .storeFull) { d with
            store := .readOnly .spent, seqCounter := 0xFFFFFFF1, commitQueue := [], groups := groups } with
          flight := step x, segments := segments })
    (∀ c, o = .copy c → keeps) ∧ (∀ k m, o = .damageMark k (some m) → keeps) ∧
    (∀ c placed, o = .commit c placed → c.sequence ≠ none → keeps) ∧
    (∀ k, o = .damageMark k none → takes (.damageMark k (some n)) d.groups) ∧
    ∀ c placed, o = .commit c placed → c.sequence = none →
      (c.group = none → takes (.commit { c with sequence := some n } placed) d.groups) ∧
      ∀ g, c.group = some g →
        takes (.commit { c with sequence := some n } placed) (d.groups.set g (.reserved (some n)))) ∧
  ∀ d : Device,
    let holds (cells : List Cell) (h : VersionHeader) (bytes : List Byte) : Prop :=
      cells.length = versionFrames h.length ∧
      cells[0]? = some (.first { header := h, committed := false, check := .over h bytes, data := bytes.take 48 }) ∧
      ∀ j, 1 ≤ j → j < cells.length → cells[j]? = some (.more ((bytes.drop (48 + 64 * (j - 1))).take 64))
    (∀ c placed n m, c.sequence = some n → c.members[placed.length]? = some m →
      holds (d.ownerCells (.commit c placed))
        { key := m.key
          kind := if m.intent = .value then .value else .tombstone
          length := if m.intent = .value then m.length else 0
          sequence := n
          group := if c.members.length = 1 then 0 else n }
        (if m.intent = .value then (d.buffer m.buffer).bytes.take (d.buffer m.buffer).length else [])) ∧
    (∀ c placed n, c.sequence = some n → c.members.length ≤ placed.length →
      holds (d.ownerCells (.commit c placed))
        { key := 0xFFFF#16, kind := .groupSeal, length := 1 + 2 * c.members.length, sequence := n, group := n }
        (BitVec.ofNat 8 c.members.length :: c.members.flatMap fun m => [m.key.extractLsb' 8 8, m.key.extractLsb' 0 8])) ∧
    (∀ k n, holds (d.ownerCells (.damageMark k (some n)))
      { key := k, kind := .damageMark, length := 0, sequence := n, group := 0 } []) ∧
    (∀ c, d.ownerCells (.copy c) = c.cells) ∧
    (∀ m : Member, m.frames = versionFrames (if m.intent = .value then m.length else 0)) ∧
    (∀ c placed m, c.members[placed.length]? = some m → (Owner.commit c placed).frames = m.frames) ∧
    (∀ c placed, c.members.length ≤ placed.length → (Owner.commit c placed).frames = 1) ∧
    (∀ k n, (Owner.damageMark k n).frames = 1) ∧ (∀ c, (Owner.copy c).frames = c.cells.length) ∧
    ∀ o, (∀ c placed, o = .commit c placed → c.members.length ≤ 4) → (d.ownerCells o).length = o.frames

/-! ## Mount -/

/-- R163's table: how mount classifies a segment. -/
def Obligations.MountClassifiesByTheFirstRow : Prop :=
  ∀ im : SegmentImage,
    (im.header.retired = .whole → im.classify = .retired) ∧
    (im.header.retired ≠ .whole → im.header.erased = .whole → im.header.opened = .absent →
      im.header.sealed = .absent → im.classify = if ∀ c ∈ im.frames, c = .blank then .erased else .unclean) ∧
    (im.header.retired ≠ .whole → im.header.erased = .whole → im.header.opened = .whole →
      im.header.sealed ≠ .absent → im.classify = .sealed) ∧
    (im.header.retired ≠ .whole → im.header.erased = .whole → im.header.opened = .whole →
      im.header.sealed = .absent → im.classify = .candidate) ∧
    (im.header.retired ≠ .whole → (im.header.erased ≠ .whole ∨ im.header.opened = .malformed ∨
      (im.header.opened = .absent ∧ im.header.sealed ≠ .absent)) → im.classify = .unclean)

/-- What mount reads in a scanned segment; the sequence counter; which versions are complete; and the directory: a missing
member of a group DAMAGED with its mark pending, every other key with a complete version by its current one, and of more keys
than 1024 the lowest. What a further frame of a version, on which mount comes after a bad check, reads as where a header is
looked for is the model's choice, a free value (log 6). -/
def Obligations.MountBuildsTheDirectory : Prop :=
  let asFirst (c : Cell) : Option First := match c with
    | .first f => some f
    | .more bytes => Config.bodyAsFirst bytes
    | .blank => none
    | .malformed => none
  (∀ (d : Device) (i pos fuel : Nat),
    let here := d.scanFrames i (fuel + 1) pos
    let scanFrom (n : Nat) := d.scanFrames i fuel n
    (127 < pos → here = []) ∧
    (pos ≤ 127 →
      (asFirst (d.cell ⟨i, pos⟩) = none → here = scanFrom (pos + 1)) ∧
      ∀ f, asFirst (d.cell ⟨i, pos⟩) = some f →
        let h := f.header
        let passed : Prop := 496 < h.length ∨ (h.key = 0xFFFF#16 ∧ h.kind ≠ .groupSeal) ∨
          128 < pos + versionFrames h.length ∨ ((h.kind = .tombstone ∨ h.kind = .damageMark) ∧ h.length ≠ 0) ∨
          d.checkGood ⟨i, pos⟩ = false
        (passed → here = scanFrom (pos + 1)) ∧
        (¬ passed → here =
          { location := ⟨i, pos⟩, header := h, committed := f.committed } :: scanFrom (pos + versionFrames h.length)))) ∧
  ∀ read : Device,
    let d := read.fill read.buildTables
    let found := read.scan
    let complete := found.filter (Found.complete (read.sealsFound found))
    let seals (x : Found) : Prop := x ∈ found ∧ x.header.kind = .groupSeal ∧ x.committed = true
    let listed (x : Found) : List Key := read.sealKeysAt x.location
    let versions (k : Key) : List Found := complete.filter fun f => f.header.key == k
    let lost (k : Key) : Prop := ∃ x, seals x ∧ k ∈ listed x ∧
      (∃ f ∈ complete, f.header.group = x.header.sequence ∧ f.header.group ≠ 0) ∧
      ∀ f ∈ versions k, f.header.group ≠ x.header.sequence ∧ f.header.sequence ≤ x.header.sequence
    let made (k : Key) (want : Option Entry) : Prop := d.lookup k = want ∨
      (d.lookup k = none ∧ d.directory.length = 1024 ∧ ∀ e ∈ d.directory, e.key < k)
    (∀ x, x ∈ found ↔ ∃ i im, read.array[i]? = some im ∧ (im.classify = .sealed ∨ im.classify = .candidate) ∧
      x ∈ read.scanFrames i 128 1) ∧
    (∀ f ∈ found, f.header.sequence < d.seqCounter) ∧
    (d.seqCounter = 1 ∨ ∃ f ∈ found, d.seqCounter = f.header.sequence + 1) ∧
    (∀ f, f ∈ complete ↔ f ∈ found ∧ f.header.kind ≠ .groupSeal ∧ f.committed = true ∧
      (f.header.group = 0 ∨ ∃ x, seals x ∧ x.header.sequence = f.header.group ∧ f.header.key ∈ listed x)) ∧
    d.keysRise ∧ d.directory.length ≤ 1024 ∧ d.heldSlots = read.heldSlots ∧
    ∀ k,
      (lost k → made k (some
        { key := k, state := .damaged, location := none, length := 0, sequence := none,
          residue := (versions k).length, claim := none, pins := 0, markPending := true })) ∧
      (¬ lost k → versions k = [] → d.lookup k = none) ∧
      ∀ f ∈ versions k, ¬ lost k →
        (∀ g ∈ versions k, g ≠ f → g.header.sequence < f.header.sequence ∨ (g.header.sequence = f.header.sequence ∧
          read.headerSequence g.location.seg < read.headerSequence f.location.seg)) →
        made k (some
          { key := k
            state := match f.header.kind with
              | .value => .live
              | .tombstone => .gone
              | .damageMark => .damaged
              | .groupSeal => .damaged
            location := some f.location
            length := f.header.length
            sequence := some f.header.sequence
            residue := (versions k).length - 1
            claim := none
            pins := 0
            markPending := false })

/-- The group table that mount builds: a KEPT entry for each sequence of a complete seal with a complete member, with its
member count and the copy of the seal in the segment of highest segment sequence; of more than 32, those with a current
member first, one that is the complete version of its key of highest sequence, then the highest sequences. The segment table,
by the class of each segment, and the segment sequence counter. A RETIRED record's append point is the model's choice (log
22), and which candidate of equal sequence is kept (log 33). -/
def Obligations.MountBuildsGroupsAndSegments : Prop :=
  ∀ read : Device,
    ∃ assigned : Nat,
      let d := read.fillSegments.fill read.buildTables
      let found := read.scan
      let complete := found.filter (Found.complete (read.sealsFound found))
      let seals (g : Nat) (x : Found) : Prop :=
        x ∈ found ∧ x.header.kind = .groupSeal ∧ x.committed = true ∧ x.header.sequence = g
      let members (g : Nat) : List Found := complete.filter fun f => f.header.group == g && f.header.group != 0
      let current (g : Nat) : Bool := read.hasCurrent complete g
      d.groups.length = 32 ∧
      (∀ (i : Nat) (im : SegmentImage), read.array[i]? = some im → read.headerSequence i = im.header.sequence) ∧
      (∀ g, ∀ f ∈ members g, (∀ x ∈ complete, x.header.key = f.header.key → x ≠ f →
        x.header.sequence < f.header.sequence ∨ (x.header.sequence = f.header.sequence ∧
          read.headerSequence x.location.seg < read.headerSequence f.location.seg)) → current g = true) ∧
      (∀ g, current g = true → ∃ f ∈ members g, ∀ x ∈ complete, x.header.key = f.header.key →
        x.header.sequence < f.header.sequence ∨ (x.header.sequence = f.header.sequence ∧
          read.headerSequence x.location.seg ≤ read.headerSequence f.location.seg)) ∧
      (∀ y ∈ d.groups, y = .free ∨ ∃ g l n, y = .kept g l n ∧ members g ≠ [] ∧ n = (members g).length ∧
        (∃ x, seals g x ∧ x.location = l) ∧
        ∀ x, seals g x → read.headerSequence x.location.seg ≤ read.headerSequence l.seg) ∧
      (∀ g, members g ≠ [] → (∃ x, seals g x) → (∃ l n, GroupEntry.kept g l n ∈ d.groups) ∨
        ∀ y ∈ d.groups, ∃ g' l n, y = .kept g' l n ∧
          ((current g' = true ∧ current g = false) ∨ (current g' = current g ∧ g < g'))) ∧
      (∀ im ∈ read.array, im.header.erased = .whole → im.header.eraseCount ≤ assigned) ∧
      (assigned = 0 ∨ ∃ im ∈ read.array, im.header.erased = .whole ∧ im.header.eraseCount = assigned) ∧
      (∀ im ∈ read.array, im.header.opened = .whole → im.header.sequence < d.segCounter) ∧
      (d.segCounter = 1 ∨ ∃ im ∈ read.array, im.header.opened = .whole ∧ d.segCounter = im.header.sequence + 1) ∧
      d.segments.length = read.array.length ∧
      ∀ (i : Nat) (im : SegmentImage), read.array[i]? = some im →
        let h := im.header
        let record (state : SegmentState) (count : Nat) (sequence : Option Nat) (append : Nat) : Prop :=
          d.segments[i]? = some { state := state, eraseCount := count, sequence := sequence, appendPoint := append,
                                  pins := 0, suspect := false }
        let kept : Prop := ∀ (j : Nat) (x : SegmentImage), read.array[j]? = some x → x.classify = .candidate →
          x.header.sequence < h.sequence ∨ (x.header.sequence = h.sequence ∧ i ≤ j)
        (im.classify = .erased → record .erased h.eraseCount none 1) ∧
        (im.classify = .sealed → record .sealed h.eraseCount (some h.sequence) 128) ∧
        (im.classify = .candidate → kept → ∃ n, record .active h.eraseCount (some h.sequence) (n + 1) ∧
          (∀ c ∈ im.frames.drop n, c = .blank) ∧ (n = 0 ∨ ∃ c, im.frames[n - 1]? = some c ∧ c ≠ .blank)) ∧
        (im.classify = .candidate → ¬ kept → record .sealed h.eraseCount (some h.sequence) 128) ∧
        (im.classify = .unclean → record .sealed assigned none 128) ∧
        (im.classify = .retired → record .retired (if h.erased = .whole then h.eraseCount else assigned)
          (if h.opened = .whole then some h.sequence else none) 1)

/-- MOUNT_SCAN_DONE. Where no segment is ERASED, one is unclean, neither WORN nor SPENT holds and the supply is GOOD, mount
erases the unclean segment of lowest number itself, with the group and segment tables filled and the directory and the
counters still held; else those show too, and mount ends. The end of mount: the store state in the order WORN, SPENT,
NO_RESERVE; the fix list; the access table and TABLE_INVALID from the entry of key 0000h; STARTED on every port, then
SUPPLY(LOW) offered when the supply is LOW; then the arbiter chooses. That the group table and the segment table show before
the directory does is the model's choice (log 43). -/
def Obligations.MountScanEndsMount : Prop :=
  (∀ s : State, s.dev.mount = .scanning →
    let w := s.dev.mountWork
    let scanned : Device := { s.dev with
      groups := s.dev.fillSegments.groups
      segments := s.dev.fillSegments.segments }
    let filled : Device := { scanned with
      directory := w.tables.directory
      seqCounter := w.tables.seqCounter
      segCounter := w.tables.segCounter }
    let isA (c : SegmentClass) (i : Nat) : Prop := ∃ im, s.dev.array[i]? = some im ∧ im.classify = c
    let ownErase : Prop :=
      scanned.erasedCount = 0 ∧ (∃ i, isA .unclean i) ∧ w.spent = false ∧ 4 ≤ scanned.notRetired ∧ s.dev.supply = .good
    w.tables = s.dev.buildTables ∧
    (w.spent = true ↔ ∃ f ∈ s.dev.scan, 0xFFFFFFF0 ≤ f.header.sequence) ∧
    (∀ i, i ∈ w.sealFixes ↔ isA .candidate i ∧ ∀ r, scanned.segments[i]? = some r → r.state = .sealed) ∧
    (∀ i, i ∈ w.unclean ↔ isA .unclean i) ∧
    w.sealFixes.Pairwise (· < ·) ∧ w.unclean.Pairwise (· < ·) ∧
    (ownErase → ∃ i, isA .unclean i ∧ (∀ j, isA .unclean j → i ≤ j) ∧
      exec .mountScanDone s = .next ⟨s.pending, { scanned with mount := .erasing i w }⟩) ∧
    (¬ ownErase → exec .mountScanDone s = .next ⟨s.pending, filled.mountEnd w⟩)) ∧
  ∀ (d : Device) (w : MountWork),
    ∃ t : Device, d.mountEnd w = t.arbiter ∧
      t = { d with
        mount := .off
        store := t.store
        fixes := w.sealFixes.map Fix.sealing ++ w.unclean.map Fix.erasing
        table := t.table
        tableInvalid := t.tableInvalid
        ports := t.ports } ∧
      (d.notRetired < 4 → t.store = .readOnly .worn) ∧
      (4 ≤ d.notRetired → w.spent = true → t.store = .readOnly .spent) ∧
      (4 ≤ d.notRetired → w.spent = false → d.erasedCount = 0 → w.unclean = [] → t.store = .readOnly .noReserve) ∧
      (4 ≤ d.notRetired → w.spent = false → (1 ≤ d.erasedCount ∨ w.unclean ≠ []) → t.store = .normal) ∧
      ((∀ e, d.lookup 0x0000#16 = some e → e.state ≠ .live) → t.table = none ∧ t.tableInvalid = false) ∧
      (∀ e l, d.lookup 0x0000#16 = some e → e.state = .live → e.location = some l →
        let value := (List.range e.length).map (d.valueByte l)
        (validTable value = true → t.table = some (decodeTable value) ∧ t.tableInvalid = false) ∧
        (validTable value = false → t.table = none ∧ t.tableInvalid = true)) ∧
      ∀ p, t.port p =
        let q : Port := { d.port p with notices := (d.port p).notices ++ [.started d.cause] }
        if d.supply = .low then q.offer (.supply .low) else q

/-- MOUNT_ERASE_DONE: the directory and the counters become those that mount built, and the segment leaves the set of unclean
segments.
Verified good, it is ERASED with the assigned count, not one above it; failed, it is RETIRED. Then mount ends, with its tests
made on the segment table as the erase left it. What a failed erase leaves of the marks is the command's operand, and of the
frames, where the ERASED mark does not read whole, the model's choice (log 8, log 11); so is a RETIRED record's append point
(log 22). -/
def Obligations.MountEraseGivesTheAssignedCount : Prop :=
  ∀ (s : State) (i : Nat) (w : MountWork) (r : SegmentRecord) (im : SegmentImage), s.dev.mount = .erasing i w →
    s.dev.segments[i]? = some r → s.dev.array[i]? = some im →
    let header (erased retired : MarkRead) : SegmentHeader :=
      { erased := erased, eraseCount := r.eraseCount, opened := .absent, sequence := 0, sealed := .absent, retired := retired }
    let ends (res : EraseResult) (x : SegmentRecord) (a : SegmentImage) : Prop :=
      exec (.mountEraseDone res) s = .next ⟨s.pending,
        Device.mountEnd { w with unclean := w.unclean.filter fun j => j != i } { s.dev with
          directory := w.tables.directory
          segments := s.dev.segments.set i x
          seqCounter := w.tables.seqCounter
          segCounter := w.tables.segCounter
          array := s.dev.array.set i a }⟩
    ends .good { r with state := .erased, sequence := none, appendPoint := 1, suspect := false }
      { header := header .whole .absent, frames := List.replicate 127 .blank } ∧
    ∀ erased retired, ends (.bad erased retired) { r with state := .retired, sequence := none, appendPoint := 1 }
      { header := header erased retired
        frames := if erased = .whole then List.replicate 127 .blank else im.frames }

/-! ## Port frames -/

/-- PORT_FRAME_START: the status byte, formed at that moment, and the held reply go out, byte by byte, then FFh; the frame is
a busy frame exactly while a request is being handled. While a device reset is held no frame begins, and SDO is at high
impedance. The bits of the status byte; the result codes, the codes of an entry's and the controller's state and of a handle
number, and fields of several bytes, most significant first. HANDLING_END: the reply of the request in handling replaces the
held reply. That SDO of a frame that a reset discarded stays at high impedance after the release is the model's choice (log
39). -/
def Obligations.FramesCarryTheHeldReply : Prop :=
  (∀ (p : PortId) (s : State), (s.dev.port p).frame = none →
    let begun (f : FrameOut) : State := ⟨s.pending, s.dev.modPort p fun q => { q with frame := some f }⟩
    let r := (s.dev.port p).held
    let body := [s.dev.statusByte p, r.kind, r.count, r.result.code, BitVec.ofNat 8 r.payload.length] ++ r.payload
    (s.dev.resetHeld = true →
      exec (.portFrameStart p) s = .next (begun { busy := false, discarded := true, out := [] })) ∧
    (s.dev.resetHeld = false →
      exec (.portFrameStart p) s = .next (begun
        { busy := (s.dev.port p).handling.isSome
          discarded := false
          out := body ++ [body.foldl (fun sum b => sum + b) 0#8] }))) ∧
  (∀ (p : PortId) (d : Device) (f : FrameOut) (i : Nat), (d.port p).frame = some f →
    (d.resetHeld = true ∨ f.discarded = true → d.sdo p i = none) ∧
    (d.resetHeld = false → f.discarded = false → d.sdo p i = some (if h : i < f.out.length then f.out[i] else 0xFF))) ∧
  (∀ (p : PortId) (d : Device),
    (d.statusByte p).getLsbD 7 = (d.port p).handling.isSome ∧
    (d.statusByte p).getLsbD 6 = (!(d.port p).notices.isEmpty || (d.port p).overflow) ∧
    (d.statusByte p).getLsbD 5 = (d.port p).overflow ∧
    ((d.store = .mounting → (d.statusByte p).extractLsb' 3 2 = 0b00#2) ∧
      (d.store = .normal → (d.statusByte p).extractLsb' 3 2 = 0b01#2) ∧
      ∀ r, d.store = .readOnly r → (d.statusByte p).extractLsb' 3 2 = 0b10#2) ∧
    (d.statusByte p).getLsbD 2 = (d.supply == .low) ∧
    (d.statusByte p).extractLsb' 0 2 = 0b00#2) ∧
  ([Result.ok, .notReady, .busy, .badRequest, .badHandle, .noSuchKey, .denied, .claimed, .noHandle, .noBuffer, .noEntry,
    .tooLong, .expired, .revoked, .queueFull, .storeFull, .supplyLow, .readOnly, .damaged, .badTable].map Result.code =
      (List.range 20).map (BitVec.ofNat 8)) ∧
  ([EntryState.pending, .live, .gone, .damaged].map EntryState.code = [0, 1, 2, 3] ∧
    [ReclaimState.idle, .copying, .holding, .erasing].map ReclaimState.code = [0, 1, 2, 3] ∧
    [Four.n1, .n2, .n3, .n4].map Four.toByte = [1, 2, 3, 4] ∧ ∀ b h, Four.ofByte b = some h ↔ b = h.toByte) ∧
  (∀ (n : Nat) (k : Key) (hi lo : Byte), be16 n = [BitVec.ofNat 8 (n / 256), BitVec.ofNat 8 n] ∧
    be32 n = [BitVec.ofNat 8 (n / 16777216), BitVec.ofNat 8 (n / 65536), BitVec.ofNat 8 (n / 256), BitVec.ofNat 8 n] ∧
    keyBytes k = [k.extractLsb' 8 8, k.extractLsb' 0 8] ∧ keyOf hi lo = hi ++ lo ∧ nat16 hi lo = (hi ++ lo).toNat) ∧
  ∀ (p : PortId) (s : State) (r : Reply), (s.dev.port p).handling = some r →
    exec (.handlingEnd p) s = .next ⟨s.pending, s.dev.modPort p fun q => { q with held := r, handling := none }⟩

/-- IDLE_FRAME, BUSY_FRAME, and any frame that comes while a device reset is held, in a frame that a reset discarded, or in a
frame begun while the port's previous request was being handled: the frame is over, and nothing else changes (of a request in
a busy frame, the model's choice: log 16). MALFORMED_FRAME, BAD_CHECK_FRAME: the held reply becomes BAD_REQUEST with the kind
byte as received and the count as it stands; nothing else changes. -/
def Obligations.FramesThatAreNotTaken : Prop :=
  (∀ (p : PortId) (bytes : List Byte) (s : State),
    let closed : State := ⟨s.pending, s.dev.modPort p fun q => { q with frame := none }⟩
    exec (.idleFrame p bytes) s = .next closed ∧ exec (.busyFrame p bytes) s = .next closed ∧
    ((s.dev.resetHeld = true ∨ ∃ f, (s.dev.port p).frame = some f ∧ (f.busy = true ∨ f.discarded = true)) →
      exec (.malformedFrame p bytes) s = .next closed ∧ exec (.badCheckFrame p bytes) s = .next closed ∧
      ∀ (i : Instr) (kind : Byte) (ps : List Byte), requestParts i = some (p, kind, ps) → exec i s = .next closed)) ∧
  ∀ (p : PortId) (kind : Byte) (rest : List Byte) (s : State), s.dev.takes p →
    let s' : State := { s with dev := s.dev.modPort p fun q =>
      { q with frame := none, held := { kind := kind, count := q.count, result := .badRequest, payload := [] } } }
    exec (.malformedFrame p (kind :: rest)) s = .next s' ∧ exec (.badCheckFrame p (kind :: rest)) s = .next s'

/-- The frame bytes of a well-formed request, received, are that request again: no bit of an encoding is dropped. -/
def Obligations.DecodeFrameOfEncodeRequest : Prop :=
  ∀ (i : Instr) (p : PortId) (kind : Byte) (ps bytes : List Byte), wellFormed i = true →
    requestParts i = some (p, kind, ps) → encodeRequest i = some bytes → decodeFrame p bytes = i

/-! ## Requests: form and store state -/

/-- The form check and the check of MOUNTING. A request whose parameters are of a form its kind does not allow, or of no kind
at all, is answered BAD_REQUEST in every store state; in MOUNTING every request of an allowed form but NOP and STORE_INFO is
answered NOT_READY; NOP is answered OK in every store state. Nothing changes but the count and the reply. -/
def Obligations.FormCheckAndMounting : Prop :=
  ∀ (p : PortId) (s : State), s.dev.takes p →
    (∀ (i : Instr) (kind : Byte) (ps : List Byte), wellFormed i = true → requestParts i = some (p, kind, ps) →
      (¬ formAllowed kind ps → exec i s = .next ⟨s.pending, s.dev.answered p kind .badRequest []⟩) ∧
      (formAllowed kind ps → kind ≠ 0x01 → kind ≠ 0x02 → s.dev.store = .mounting →
        exec i s = .next ⟨s.pending, s.dev.answered p kind .notReady []⟩)) ∧
    exec (.nop p []) s = .next ⟨s.pending, s.dev.answered p 0x01 .ok []⟩ ∧
    ∀ (kind : Byte) (ps : List Byte),
      exec (.unknownKindRequest p kind ps) s = .next ⟨s.pending, s.dev.answered p kind .badRequest []⟩

/-- STORE_INFO is served in every store state: the record of 40 bytes, field by field. Its figures are those of the tables as
they stand: live frames, dead frames, free frames and reclaimable frames by R27 and R28. The model's choices: in MOUNTING the
count of free buffers reads 4 (log 38); during mount's own erase the group and segment figures are those mount has filled, with
the frames live by the entries it has built, while the directory's reads 0 (log 43); a current version whose header has rotted
counts by its entry's length, a seal as one frame (log 44); and a seal lists the keys its frame then reads (log 45). -/
def Obligations.StoreInfoReports : Prop :=
  (∀ d : Device,
    let entries : List Entry := match d.mount with
      | .erasing _ w => w.tables.directory
      | _ => d.directory
    let sealOf (g : GroupEntry) : Option Loc := match g with
      | .kept _ l _ => some l
      | _ => none
    let listed : List Key := d.groups.flatMap fun g => (sealOf g).elim [] d.sealKeysAt
    let erased : Nat := (d.segments.filter fun r => decide (r.state = .erased)).length
    (∀ i : Nat, d.liveFrames i =
      ((entries.filter fun e => decide (e.location.map (·.seg) = some i ∧ (e.state = .live ∨ e.state = .damaged ∨
        (e.state = .gone ∧ (0 < e.residue ∨ e.claim ≠ none ∨ 0 < e.pins ∨ e.key ∈ listed))))).map
          fun e => versionFrames e.length).sum +
      (d.groups.filter fun g => decide ((sealOf g).map (·.seg) = some i)).length) ∧
    (∀ (i : Nat) (r : SegmentRecord), d.segments[i]? = some r → d.deadFrames i = r.appendPoint - 1 - d.liveFrames i) ∧
    (∀ (i : Nat) (r : SegmentRecord), d.segments[i]? = some r → r.state = .active →
      (∀ (j : Nat) (x : SegmentRecord), d.segments[j]? = some x → x.state = .active → j = i) →
      d.freeFrames = 128 - r.appendPoint + 127 * (erased - 1)) ∧
    ((∀ r ∈ d.segments, r.state ≠ .active) → d.freeFrames = 127 * (erased - 1)) ∧
    d.deadTotal = (d.segments.zipIdx.map fun x => if x.1.state = .retired then 0 else d.deadFrames x.2).sum ∧
    d.reclaimable = (d.segments.zipIdx.map fun x =>
      if x.1.state = .sealed ∧ x.1.pins = 0 then d.deadFrames x.2 else 0).sum) ∧
  ∀ (p : PortId) (s : State), s.dev.takes p →
    let count (st : SegmentState) : Byte := BitVec.ofNat 8 (s.dev.segments.filter fun r => decide (r.state = st)).length
    let state : Byte := match s.dev.store with
      | .mounting => 0
      | .normal => 1
      | .readOnly _ => 2
    let reason : Byte := match s.dev.store with
      | .readOnly .worn => 1
      | .readOnly .spent => 2
      | .readOnly .noReserve => 3
      | _ => 0
    let cause : Byte := match s.dev.cause with
      | .powerOn => 1
      | .supply => 2
      | .pin => 3
    let handle (h : HandleNo) : List Byte := match s.dev.handle p h with
      | .free => [0, 0xFF, 0xFF]
      | .reading k _ _ _ => 1 :: keyBytes k
      | .writing k _ _ _ => 2 :: keyBytes k
      | .committing k _ _ => 3 :: keyBytes k
      | .expired k => 4 :: keyBytes k
      | .revoked k => 5 :: keyBytes k
    let flags : Byte := (if s.dev.reclaim.requested then 1 else 0) + (if s.dev.tableInvalid then 2 else 0) +
      (if s.dev.headWaits then 4 else 0)
    let three (n : Nat) : List Byte := [BitVec.ofNat 8 (n / 65536), BitVec.ofNat 8 (n / 256), BitVec.ofNat 8 n]
    ∃ lowest highest : Nat,
      exec (.storeInfo p []) s = .next ⟨s.pending, s.dev.answered p 0x02 .ok
        ([state, reason, if s.dev.supply = .low then 1 else 0, cause,
          count .erased, count .active, count .sealed, count .reclaiming, count .retired] ++
        three lowest ++ three highest ++ be16 s.dev.freeFrames ++ be16 s.dev.deadTotal ++ be16 s.dev.reclaimable ++
        be16 (s.dev.directory.length + s.dev.heldSlots.length) ++
        [BitVec.ofNat 8 (s.dev.groups.filter fun g => decide (g ≠ .free)).length,
          BitVec.ofNat 8 (Four.all.filter fun b => (s.dev.buffer b).owner.isNone).length,
          BitVec.ofNat 8 s.dev.commitQueue.length,
          (match s.dev.reclaim.state with
            | .idle => 0
            | .copying => 1
            | .holding => 2
            | .erasing => 3),
          flags] ++
        handle .n1 ++ handle .n2 ++ handle .n3 ++ handle .n4)⟩ ∧
      (∀ r ∈ s.dev.segments, (r.state ≠ .retired → lowest ≤ r.eraseCount) ∧ r.eraseCount ≤ highest) ∧
      ((∃ r ∈ s.dev.segments, r.state ≠ .retired ∧ r.eraseCount = lowest) ∨
        lowest = 0 ∧ ∀ r ∈ s.dev.segments, r.state = .retired) ∧
      ((∃ r ∈ s.dev.segments, r.eraseCount = highest) ∨ highest = 0 ∧ s.dev.segments = []) ∧
      (s.dev.headWaits = true ↔ ∃ c rest, s.dev.commitQueue = c :: rest ∧ c.state = .waitingSpace)

/-- ENUMERATE answers the entry with the lowest key at or above from-key that is LIVE and that the port may read, or END. -/
def Obligations.EnumerateFindsTheLowestReadable : Prop :=
  ∀ (p : PortId) (hi lo : Byte) (s : State), s.dev.serves p → s.dev.keysRise →
    (∀ e ∈ s.dev.directory, keyOf hi lo ≤ e.key → e.state = .live → mayRead s.dev.table p e.key = true →
      (∀ x ∈ s.dev.directory, keyOf hi lo ≤ x.key → x.state = .live → mayRead s.dev.table p x.key = true →
        e.key ≤ x.key) →
      exec (.enumerate p [hi, lo]) s = .next ⟨s.pending,
        s.dev.answered p 0x12 .ok (keyBytes e.key ++ be16 e.length ++ be32 (e.sequence.getD 0))⟩) ∧
    ((∀ x ∈ s.dev.directory, keyOf hi lo ≤ x.key → x.state = .live → mayRead s.dev.table p x.key = false) →
      exec (.enumerate p [hi, lo]) s = .next ⟨s.pending, s.dev.answered p 0x12 .ok []⟩)

/-! ## Handles -/

/-- OPEN_READ that passes every other check. The version's check, over its header and every value byte, verifies good: the
lowest FREE handle is bound to the current version, and the entry's and the segment's pins rise by 1. It fails: no handle is
bound, the entry becomes DAMAGED with its mark pending, every port that watches the key is offered DAMAGED, the damage of key
0000h takes the access table away, and then the arbiter chooses. -/
def Obligations.OpenReadBindsOrDetectsDamage : Prop :=
  ∀ (p : PortId) (hi lo : Byte) (s : State) (e : Entry) (l : Loc) (h : HandleNo), s.dev.serves p →
    let k := keyOf hi lo
    k ≠ 0xFFFF#16 → mayRead s.dev.table p k = true → s.dev.lookup k = some e → e.state = .live → e.location = some l →
    Four.all.find? (fun j => decide (s.dev.handle p j = .free)) = some h →
    (s.dev.checkGood l = true →
      exec (.openRead p [hi, lo]) s = .next ⟨s.pending,
        ((((s.dev.modEntry k fun e => { e with pins := e.pins + 1 }).modSegment l.seg fun r =>
          { r with pins := r.pins + 1 }).setHandle p h
            (.reading k { location := l, length := e.length, sequence := e.sequence.getD 0 } 0
              (s.dev.now + 2 ^ (s.dev.port p).leaseExp))).answered p 0x03 .ok
                (h.toByte :: (be16 e.length ++ be32 (e.sequence.getD 0))))⟩) ∧
    (s.dev.checkGood l = false →
      let found : Device :=
        ((s.dev.modPort p fun q => { q with frame := none, count := q.count + 1 }).modEntry k fun e =>
          { e with state := .damaged, markPending := true }).mapPorts fun _ q =>
            if k ∈ q.watch then q.offer (.damaged k) else q
      exec (.openRead p [hi, lo]) s = .next ⟨s.pending,
        (if k = 0x0000#16 then { found with table := none, tableInvalid := false } else found).arbiter.modPort p fun q =>
          { q with handling := some ⟨0x03, (s.dev.port p).count + 1, .damaged, []⟩ }⟩)

/-- OPEN_WRITE of a new or an existing key, without PRELOAD, or with PRELOAD where the key is new, GONE or DAMAGED: the claim
is taken on the entry, which keeps its state, or on a new PENDING one; the lowest FREE handle is WRITING, with the lowest
free buffer (the model's choice: log 28), empty. -/
def Obligations.OpenWriteTakesTheClaim : Prop :=
  ∀ (p : PortId) (hi lo options : Byte) (s : State) (h : HandleNo) (b : BufferNo), s.dev.serves p →
    keyOf hi lo ≠ 0xFFFF#16 → (∀ r, s.dev.store ≠ .readOnly r) → mayWrite s.dev.table p (keyOf hi lo) = true →
    Four.all.find? (fun j => decide (s.dev.handle p j = .free)) = some h →
    Four.all.find? (fun j => (s.dev.buffer j).owner.isNone) = some b →
    (options = 0x01 ∨ options = 0x03 → s.dev.lookup (keyOf hi lo) = none →
      s.dev.directory.length + s.dev.heldSlots.length < 1024 →
      exec (.openWrite p [hi, lo, options]) s = .next ⟨s.pending,
        ((((s.dev.addEntry
          { key := keyOf hi lo, state := .pending, location := none, length := 0, sequence := none, residue := 0,
            claim := some (p, h), pins := 0, markPending := false }).setBuffer b
          { s.dev.buffer b with owner := some (p, h), intent := .value, length := 0 }).setHandle p h
            (.writing (keyOf hi lo) b 0 (s.dev.now + 2 ^ (s.dev.port p).leaseExp))).answered p 0x04 .ok
              [h.toByte, 0x00, 0x00, 0x00])⟩) ∧
    ∀ e, s.dev.lookup (keyOf hi lo) = some e → e.claim = none →
      ((e.state = .live ∧ (options = 0x00 ∨ options = 0x01)) ∨ (e.state = .damaged ∧ options.toNat < 4) ∨
        (e.state = .gone ∧ (options = 0x01 ∨ options = 0x03))) →
      exec (.openWrite p [hi, lo, options]) s = .next ⟨s.pending,
        ((((s.dev.modEntry (keyOf hi lo) fun e => { e with claim := some (p, h) }).setBuffer b
          { s.dev.buffer b with owner := some (p, h), intent := .value, length := 0 }).setHandle p h
            (.writing (keyOf hi lo) b 0 (s.dev.now + 2 ^ (s.dev.port p).leaseExp))).answered p 0x04 .ok
              [h.toByte, 0x00, 0x00, e.state.code])⟩

/-- OPEN_WRITE with PRELOAD, with or without CREATE, on a LIVE key. The version's check is good: the buffer, which is the
lowest free one (the model's choice: log 28), holds the current value. It fails: the buffer is empty, the entry becomes
DAMAGED with its mark pending, as at OPEN_READ, the reply gives that state, and then the arbiter chooses. -/
def Obligations.OpenWritePreloads : Prop :=
  ∀ (p : PortId) (hi lo options : Byte) (s : State) (e : Entry) (l : Loc) (h : HandleNo) (b : BufferNo), s.dev.serves p →
    options = 0x02 ∨ options = 0x03 → keyOf hi lo ≠ 0xFFFF#16 → (∀ r, s.dev.store ≠ .readOnly r) →
    mayWrite s.dev.table p (keyOf hi lo) = true →
    s.dev.lookup (keyOf hi lo) = some e → e.claim = none → e.state = .live → e.location = some l →
    Four.all.find? (fun j => decide (s.dev.handle p j = .free)) = some h →
    Four.all.find? (fun j => (s.dev.buffer j).owner.isNone) = some b →
    let writing : Handle := .writing (keyOf hi lo) b 0 (s.dev.now + 2 ^ (s.dev.port p).leaseExp)
    let value := (List.range e.length).map (s.dev.valueByte l)
    (s.dev.checkGood l = true →
      exec (.openWrite p [hi, lo, options]) s = .next ⟨s.pending,
        (((s.dev.modEntry (keyOf hi lo) fun e => { e with claim := some (p, h) }).setBuffer b
          { owner := some (p, h), intent := .value, length := e.length,
            bytes := value ++ (s.dev.buffer b).bytes.drop e.length }).setHandle p h writing).answered p 0x04 .ok
              (h.toByte :: (be16 e.length ++ [0x01]))⟩) ∧
    (s.dev.checkGood l = false →
      let found : Device :=
        ((((s.dev.modPort p fun q => { q with frame := none, count := q.count + 1 }).modEntry (keyOf hi lo) fun e =>
          { e with claim := some (p, h), state := .damaged, markPending := true }).setBuffer b
            { s.dev.buffer b with owner := some (p, h), intent := .value, length := 0 }).setHandle p h writing).mapPorts
              fun _ q => if keyOf hi lo ∈ q.watch then q.offer (.damaged (keyOf hi lo)) else q
      exec (.openWrite p [hi, lo, options]) s = .next ⟨s.pending,
        (if keyOf hi lo = 0x0000#16 then { found with table := none, tableInvalid := false } else found).arbiter.modPort p
          fun q => { q with handling := some ⟨0x04, (s.dev.port p).count + 1, .ok, [h.toByte, 0x00, 0x00, 0x03]⟩ }⟩)

/-- OPEN_READ's refusals, in order: FFFFh, the read right, the entry's state, no FREE handle. OPEN_WRITE's refusals, in
order. -/
def Obligations.OpensRefuseInOrder : Prop :=
  (∀ (p : PortId) (hi lo : Byte) (s : State), s.dev.serves p →
      let refused (r : Result) : Prop :=
        exec (.openRead p [hi, lo]) s = .next ⟨s.pending, s.dev.answered p 0x03 r []⟩
      let k := keyOf hi lo
      (k = 0xFFFF#16 → refused .badRequest) ∧
      (k ≠ 0xFFFF#16 → mayRead s.dev.table p k = false → refused .denied) ∧
      (k ≠ 0xFFFF#16 → mayRead s.dev.table p k = true → s.dev.lookup k = none → refused .noSuchKey) ∧
      ∀ e, k ≠ 0xFFFF#16 → mayRead s.dev.table p k = true → s.dev.lookup k = some e →
        (e.state = .pending → refused .noSuchKey) ∧ (e.state = .gone → refused .noSuchKey) ∧
        (e.state = .damaged → refused .damaged) ∧
        (e.state = .live → e.location ≠ none → (∀ h, s.dev.handle p h ≠ .free) → refused .noHandle)) ∧
  ∀ (p : PortId) (hi lo options : Byte) (s : State), s.dev.serves p → options.toNat < 4 →
    let refused (r : Result) : Prop :=
      exec (.openWrite p [hi, lo, options]) s = .next ⟨s.pending, s.dev.answered p 0x04 r []⟩
    let k := keyOf hi lo
    let e := s.dev.lookup k
    (k = 0xFFFF#16 → refused .badRequest) ∧
    (k ≠ 0xFFFF#16 → (∃ r, s.dev.store = .readOnly r) → refused .readOnly) ∧
    (k ≠ 0xFFFF#16 → s.dev.store = .normal → mayWrite s.dev.table p k = false → refused .denied) ∧
    (k ≠ 0xFFFF#16 → s.dev.store = .normal → mayWrite s.dev.table p k = true →
      ((∃ x c, e = some x ∧ x.claim = some c) → refused .claimed) ∧
      ((∀ x, e = some x → x.claim = none) →
        (options.getLsbD 0 = false → (∀ x, e = some x → x.state = .gone ∨ x.state = .pending) → refused .noSuchKey) ∧
        ((options.getLsbD 0 = true ∨ ∃ x, e = some x ∧ (x.state = .live ∨ x.state = .damaged)) →
          ((∀ h, s.dev.handle p h ≠ .free) → refused .noHandle) ∧
          ((∃ h, s.dev.handle p h = .free) →
            ((∀ b, (s.dev.buffer b).owner ≠ none) → refused .noBuffer) ∧
            ((∃ b, (s.dev.buffer b).owner = none) → e = none →
              1024 ≤ s.dev.directory.length + s.dev.heldSlots.length → refused .noEntry)))))

/-- Requests that name a handle, in R67's two stages. First a number outside 1 to 4, a READ count of 0 or above 64, and a SEEK
offset or TRUNCATE length above 496 are answered BAD_REQUEST, whatever the handle's state; the handle named is renewed (of the
last, the model's choice: log 30). Then a handle in a state that does not serve the request is refused by the table, and is as
before, but for the renewal of a READING one. -/
def Obligations.HandleStateRefusals : Prop :=
  ∀ (p : PortId) (number count hi lo : Byte) (bytes : List Byte) (s : State) (i : Instr) (kind : Byte), s.dev.serves p →
    (i = .read p [number, count] ∧ kind = 0x05 ∨ i = .seek p [number, hi, lo] ∧ kind = 0x06 ∨
      i = .write p (number :: bytes) ∧ kind = 0x07 ∨ i = .truncate p [number, hi, lo] ∧ kind = 0x08 ∨
      i = .markDelete p [number] ∧ kind = 0x09 ∨ i = .close p [number] ∧ kind = 0x0A) →
    (kind = 0x07 → 1 ≤ bytes.length ∧ bytes.length ≤ 64) →
    let outOfRange : Prop := (kind = 0x05 ∧ (count.toNat = 0 ∨ 64 < count.toNat)) ∨
      ((kind = 0x06 ∨ kind = 0x08) ∧ 496 < nat16 hi lo)
    let refused (r : Result) : Prop := exec i s = .next ⟨s.pending, s.dev.answered p kind r []⟩
    (number.toNat = 0 ∨ 4 < number.toNat → refused .badRequest) ∧
    ∀ h, Four.ofByte number = some h →
      (outOfRange → exec i s = .next ⟨s.pending, (s.dev.renew p h).answered p kind .badRequest []⟩) ∧
      (¬ outOfRange →
        (s.dev.handle p h = .free → refused .badHandle) ∧
        (∀ k b c, s.dev.handle p h = .committing k b c → refused .busy) ∧
        (kind ≠ 0x0A → ∀ k, (s.dev.handle p h = .expired k → refused .expired) ∧
          (s.dev.handle p h = .revoked k → refused .revoked)) ∧
        (kind = 0x07 ∨ kind = 0x08 ∨ kind = 0x09 → ∀ k b c deadline, s.dev.handle p h = .reading k b c deadline →
          exec i s = .next ⟨s.pending, (s.dev.setHandle p h
            (.reading k b c (s.dev.now + 2 ^ (s.dev.port p).leaseExp))).answered p kind .badHandle []⟩))

/-- READ: the bytes from the cursor on, of the bound version or of the buffer, as many as asked or as there are; the cursor
advances by their number; the lease is renewed. How a version reads in the array: byte by byte as its frames hold its value,
and its check verifies good where it was computed over the header and the bytes so read; a check that came out other than
meant, and a frame of the version that reads blank or malformed or holds fewer bytes, make it bad. A seal lists the keys of
its frame. The model's choices: the arrangement of the bytes in the frames, the order of a seal's key bytes, and the check
held as header and value bytes, another of the same CRC being good too (log 4); what a further frame reads as in the place of
a first one, and a first one in the place of a further one, by free values (log 6); the free value of a byte that no frame
holds (log 7); the bad check (log 8); that a version with a byte missing verifies bad (log 9); and the keys of a seal whose
frame has rotted (log 45). -/
def Obligations.ReadReturnsBytesAndAdvances : Prop :=
  let asFirst (c : Cell) : Option First := match c with
    | .first f => some f
    | .more bytes => Config.bodyAsFirst bytes
    | .blank => none
    | .malformed => none
  let asFurther (c : Cell) : Option (List Byte) := match c with
    | .more bytes => some bytes
    | .first f => some (Config.firstAsBody f)
    | .blank => none
    | .malformed => none
  (∀ (d : Device) (l : Loc),
    let first := asFirst (d.cell l)
    let further (j : Nat) := asFurther (d.cell ⟨l.seg, l.frame + j⟩)
    let held (i : Nat) : Option Byte :=
      if i < 48 then first.bind fun f => f.data[i]? else (further (1 + (i - 48) / 64)).bind fun bytes => bytes[(i - 48) % 64]?
    let stray (i : Nat) : Byte :=
      if i < 48 then Config.strayByte l i else Config.strayByte ⟨l.seg, l.frame + (1 + (i - 48) / 64)⟩ ((i - 48) % 64)
    (∀ i, d.valueByte l i = (held i).getD (stray i)) ∧
    (first = none → d.checkGood l = false ∧ d.sealKeysAt l = []) ∧
    ∀ f, first = some f →
      (f.check = .bad → d.checkGood l = false) ∧
      (∀ i, i < f.header.length → held i = none → d.checkGood l = false) ∧
      (∀ (bytes bytes' : List Byte) (h' : VersionHeader), bytes.length = f.header.length →
        (∀ i, i < f.header.length → held i = bytes[i]?) → f.check = .over h' bytes' →
        (d.checkGood l = true ↔ Config.crc h' bytes' = Config.crc f.header bytes)) ∧
      (f.data = [] → d.sealKeysAt l = []) ∧
      ∀ (count : Byte) (keys : List Key) (rest : List Byte), keys.length ≤ count.toNat →
        (keys.length = count.toNat ∨ rest.length ≤ 1) →
        f.data = count :: keys.flatMap (fun k => [k.extractLsb' 8 8, k.extractLsb' 0 8]) ++ rest → d.sealKeysAt l = keys) ∧
  ∀ (p : PortId) (number count : Byte) (h : HandleNo) (s : State), s.dev.serves p → Four.ofByte number = some h →
    1 ≤ count.toNat → count.toNat ≤ 64 →
    (∀ k v cursor deadline, s.dev.handle p h = .reading k v cursor deadline →
      let n := min count.toNat (v.length - cursor)
      exec (.read p [number, count]) s = .next ⟨s.pending,
        (s.dev.setHandle p h (.reading k v (cursor + n) (s.dev.now + 2 ^ (s.dev.port p).leaseExp))).answered p 0x05 .ok
          (be16 (cursor + n) ++ (List.range n).map fun i => s.dev.valueByte v.location (cursor + i))⟩) ∧
    ∀ k b cursor deadline, s.dev.handle p h = .writing k b cursor deadline →
      let n := min count.toNat ((s.dev.buffer b).length - cursor)
      exec (.read p [number, count]) s = .next ⟨s.pending,
        (s.dev.setHandle p h (.writing k b (cursor + n) (s.dev.now + 2 ^ (s.dev.port p).leaseExp))).answered p 0x05 .ok
          (be16 (cursor + n) ++ ((s.dev.buffer b).bytes.drop cursor).take n)⟩

/-- SEEK: an offset at most the length becomes the cursor; above it, or above 496, BAD_REQUEST and the cursor as before. That
an offset above 496 renews the lease too is the model's choice (log 30). -/
def Obligations.SeekSetsTheCursor : Prop :=
  ∀ (p : PortId) (number hi lo : Byte) (h : HandleNo) (s : State), s.dev.serves p → Four.ofByte number = some h →
    let n := nat16 hi lo
    let deadline' := s.dev.now + 2 ^ (s.dev.port p).leaseExp
    (∀ k v cursor deadline, s.dev.handle p h = .reading k v cursor deadline →
      exec (.seek p [number, hi, lo]) s = .next ⟨s.pending,
        if n ≤ 496 ∧ n ≤ v.length then (s.dev.setHandle p h (.reading k v n deadline')).answered p 0x06 .ok (be16 n)
        else (s.dev.setHandle p h (.reading k v cursor deadline')).answered p 0x06 .badRequest []⟩) ∧
    ∀ k b cursor deadline, s.dev.handle p h = .writing k b cursor deadline →
      exec (.seek p [number, hi, lo]) s = .next ⟨s.pending,
        if n ≤ 496 ∧ n ≤ (s.dev.buffer b).length then
          (s.dev.setHandle p h (.writing k b n deadline')).answered p 0x06 .ok (be16 n)
        else (s.dev.setHandle p h (.writing k b cursor deadline')).answered p 0x06 .badRequest []⟩

/-- WRITE: past 496 TOO_LONG, with nothing written; else the bytes are placed at the cursor, which advances, the length
becomes the larger of its old value and the new cursor, and the intent VALUE. -/
def Obligations.WritePlacesBytes : Prop :=
  ∀ (p : PortId) (number : Byte) (data : List Byte) (h : HandleNo) (s : State) (k : Key) (b : BufferNo)
    (cursor deadline : Nat), s.dev.serves p → Four.ofByte number = some h → 1 ≤ data.length → data.length ≤ 64 →
    s.dev.handle p h = .writing k b cursor deadline →
    let deadline' := s.dev.now + 2 ^ (s.dev.port p).leaseExp
    let old := s.dev.buffer b
    exec (.write p (number :: data)) s = .next ⟨s.pending,
      if 496 < cursor + data.length then
        (s.dev.setHandle p h (.writing k b cursor deadline')).answered p 0x07 .tooLong []
      else
        ((s.dev.setBuffer b
          { owner := old.owner, intent := .value, length := max old.length (cursor + data.length),
            bytes := old.bytes.take cursor ++ data ++ old.bytes.drop (cursor + data.length) }).setHandle p h
          (.writing k b (cursor + data.length) deadline')).answered p 0x07 .ok
            (be16 (cursor + data.length) ++ be16 (max old.length (cursor + data.length)))⟩

/-- TRUNCATE: a length at most the buffer's becomes the length, the cursor the smaller of its old value and it; above it, or
above 496, BAD_REQUEST. The intent is unchanged. That a length above 496 renews the lease too is the model's choice
(log 30). MARK_DELETE: on a LIVE or DAMAGED key the intent becomes DELETE, length and cursor 0; on a PENDING or GONE one
NO_SUCH_KEY, the buffer unchanged. -/
def Obligations.TruncateAndMarkDelete : Prop :=
  (∀ (p : PortId) (number hi lo : Byte) (h : HandleNo) (s : State) (k : Key) (b : BufferNo) (cursor deadline : Nat),
      s.dev.serves p → Four.ofByte number = some h → s.dev.handle p h = .writing k b cursor deadline →
      let n := nat16 hi lo
      let deadline' := s.dev.now + 2 ^ (s.dev.port p).leaseExp
      exec (.truncate p [number, hi, lo]) s = .next ⟨s.pending,
        if n ≤ 496 ∧ n ≤ (s.dev.buffer b).length then
          ((s.dev.setBuffer b { s.dev.buffer b with length := n }).setHandle p h
            (.writing k b (min cursor n) deadline')).answered p 0x08 .ok (be16 n ++ be16 (min cursor n))
        else (s.dev.setHandle p h (.writing k b cursor deadline')).answered p 0x08 .badRequest []⟩) ∧
  ∀ (p : PortId) (number : Byte) (h : HandleNo) (s : State) (k : Key) (b : BufferNo) (cursor deadline : Nat) (e : Entry),
    s.dev.serves p → Four.ofByte number = some h → s.dev.handle p h = .writing k b cursor deadline →
    s.dev.lookup k = some e →
    let deadline' := s.dev.now + 2 ^ (s.dev.port p).leaseExp
    (e.state = .live ∨ e.state = .damaged →
      exec (.markDelete p [number]) s = .next ⟨s.pending,
        ((s.dev.setBuffer b { s.dev.buffer b with intent := .delete, length := 0 }).setHandle p h
          (.writing k b 0 deadline')).answered p 0x09 .ok []⟩) ∧
    (e.state = .pending ∨ e.state = .gone →
      exec (.markDelete p [number]) s = .next ⟨s.pending,
        (s.dev.setHandle p h (.writing k b cursor deadline')).answered p 0x09 .noSuchKey []⟩)

/-- CLOSE: a READING handle gives back its pins, a WRITING one its claim and its buffer; then the arbiter chooses. The release
of the victim's last pin moves the controller from HOLDING to ERASING. An EXPIRED or REVOKED handle becomes FREE. -/
def Obligations.CloseFreesTheHandle : Prop :=
  ∀ (p : PortId) (number : Byte) (h : HandleNo) (s : State), s.dev.serves p → Four.ofByte number = some h →
    let taken : Device := s.dev.modPort p fun q =>
      { q with handles := q.handles.set h .free, frame := none, count := q.count + 1 }
    let reply (d : Device) : Device := d.modPort p fun q =>
      { q with handling := some ⟨0x0A, (s.dev.port p).count + 1, .ok, []⟩ }
    (∀ k, s.dev.handle p h = .expired k ∨ s.dev.handle p h = .revoked k →
      exec (.close p [number]) s = .next ⟨s.pending, reply taken⟩) ∧
    (∀ k v cursor deadline, s.dev.handle p h = .reading k v cursor deadline →
      let segments := s.dev.segments.modify v.location.seg fun r => { r with pins := r.pins - 1 }
      let unpinned : Prop := ∀ i r, s.dev.reclaim.victim = some i → segments[i]? = some r → r.pins = 0
      ∃ state, exec (.close p [number]) s = .next ⟨s.pending, reply (Device.arbiter { taken with
          directory := (s.dev.modEntry k fun e => { e with pins := e.pins - 1 }).directory
          segments := segments
          reclaim := { s.dev.reclaim with state := state } })⟩ ∧
        (s.dev.reclaim.state = .holding → unpinned → state = .erasing) ∧
        (s.dev.reclaim.state ≠ .holding ∨ ¬ unpinned → state = s.dev.reclaim.state)) ∧
    ∀ k b cursor deadline e, s.dev.handle p h = .writing k b cursor deadline → s.dev.lookup k = some e →
      exec (.close p [number]) s = .next ⟨s.pending, reply (Device.arbiter { taken with
        buffers := s.dev.buffers.set b Buffer.cleared
        directory :=
          if e.state = .pending then s.dev.directory.filter fun x => x.key != k
          else (s.dev.modEntry k fun e => { e with claim := none }).directory })⟩

/-! ## COMMIT -/

/-- A COMMIT that passes every check is accepted: its handles are COMMITTING with claims and buffers kept, the ticket is the
counter's, one notice slot is reserved, a group has a RESERVED entry, and the record stands at the tail of the queue; then the
arbiter chooses. -/
def Obligations.CommitIsAccepted : Prop :=
  ∀ (p : PortId) (hs : List HandleNo) (ms : List Member) (s : State), s.dev.serves p → s.dev.store = .normal →
    s.dev.supply = .good → hs ≠ [] → hs.Nodup →
    List.Forall₂ (fun h m => m.handle = h ∧ m.intent = (s.dev.buffer m.buffer).intent ∧
      m.length = (s.dev.buffer m.buffer).length ∧
      ∃ cursor deadline, s.dev.handle p h = .writing m.key m.buffer cursor deadline) hs ms →
    (∀ m ∈ ms, mayWrite s.dev.table p m.key = true) →
    (∀ m ∈ ms, m.key = 0x0000#16 → m.intent = .value → validTable (s.dev.buffer m.buffer).value = true) →
    (s.dev.port p).notices.length + (s.dev.port p).reserved < 8 →
    (2 ≤ ms.length → ∃ i : Nat, s.dev.groups[i]? = some GroupEntry.free) → s.dev.groups.length = 32 →
    (ms.map Member.frames).sum + (if ms.length = 1 then 0 else 1) ≤ s.dev.freeFrames + s.dev.reclaimable →
    ∃ (d : Device) (g : Option Nat),
      exec (.commit p (hs.map Four.toByte)) s = .next ⟨s.pending, d.arbiter.modPort p fun q =>
        { q with handling := some ⟨0x0B, (s.dev.port p).count + 1, .ok, [(s.dev.port p).ticket]⟩ }⟩ ∧
      d = { s.dev with
        ports := d.ports
        groups := d.groups
        commitQueue := s.dev.commitQueue ++
          [{ port := p, ticket := (s.dev.port p).ticket, members := ms, group := g, state := .queued,
             sequence := none, portReset := false }] } ∧
      (∀ h ∈ hs, ∀ k b cursor deadline, s.dev.handle p h = .writing k b cursor deadline →
        d.handle p h = .committing k b cursor) ∧
      (∀ h, h ∉ hs → d.handle p h = s.dev.handle p h) ∧
      d.port p = { s.dev.port p with handles := (d.port p).handles, frame := none, count := (s.dev.port p).count + 1,
                                     ticket := (s.dev.port p).ticket + 1, reserved := (s.dev.port p).reserved + 1 } ∧
      (ms.length = 1 → g = none ∧ d.groups = s.dev.groups) ∧
      (2 ≤ ms.length → ∃ i : Nat, g = some i ∧ s.dev.groups[i]? = some GroupEntry.free ∧
        d.groups = s.dev.groups.set i (.reserved none)) ∧
      ∀ q, q ≠ p → d.port q = s.dev.port q

/-- COMMIT's refusals before checks 7 to 10. A malformed list is BAD_REQUEST and changes nothing; a well-formed one is refused
READ_ONLY, then SUPPLY_LOW, with its handles renewed. Check 5 refuses the first handle of the list that is not WRITING; check 6
revokes every handle of the list without its right, without a notice, and leaves the others WRITING; both replies carry the
number of the first offender. -/
def Obligations.CommitRefusedForListStoreOrHandle : Prop :=
  ∀ (p : PortId) (ps : List Byte) (s : State), s.dev.serves p →
    ((ps = [] ∨ 4 < ps.length ∨ (∃ b ∈ ps, b.toNat = 0 ∨ 4 < b.toNat) ∨ ¬ ps.Nodup) →
      exec (.commit p ps) s = .next ⟨s.pending, s.dev.answered p 0x0B .badRequest []⟩) ∧
    (∀ hs : List HandleNo, hs ≠ [] → hs.Nodup → ps = hs.map Four.toByte →
      ((∃ r, s.dev.store = .readOnly r) →
        exec (.commit p ps) s =
          .next ⟨s.pending, (hs.foldl (fun d h => d.renew p h) s.dev).answered p 0x0B .readOnly []⟩) ∧
      (s.dev.store = .normal → s.dev.supply = .low →
        exec (.commit p ps) s =
          .next ⟨s.pending, (hs.foldl (fun d h => d.renew p h) s.dev).answered p 0x0B .supplyLow []⟩)) ∧
    ∀ hs : List HandleNo, hs ≠ [] → hs.Nodup → ps = hs.map Four.toByte → s.dev.store = .normal → s.dev.supply = .good →
      let refusal (h : HandleNo) : Option Result :=
        match s.dev.handle p h with
        | .writing _ _ _ _ => none
        | .committing _ _ _ => some .busy
        | .expired _ => some .expired
        | .revoked _ => some .revoked
        | _ => some .badHandle
      let lost (h : HandleNo) : Option (Key × BufferNo) :=
        match s.dev.handle p h with
        | .writing k b _ _ => if mayWrite s.dev.table p k then none else some (k, b)
        | _ => none
      ∀ before h after, hs = before ++ h :: after →
        (∀ r, (∀ j ∈ before, refusal j = none) → refusal h = some r →
          exec (.commit p ps) s =
            .next ⟨s.pending, (hs.foldl (fun d h => d.renew p h) s.dev).answered p 0x0B r [h.toByte]⟩) ∧
        ((∀ j ∈ hs, refusal j = none) → (∀ j ∈ before, lost j = none) → lost h ≠ none →
          ∃ d : Device, exec (.commit p ps) s = .next ⟨s.pending, d.arbiter.modPort p fun q =>
              { q with handling := some ⟨0x0B, (s.dev.port p).count + 1, .denied, [h.toByte]⟩ }⟩ ∧
            d = { s.dev with ports := d.ports, buffers := d.buffers, directory := d.directory } ∧
            (∀ j ∈ hs, ∀ k b c deadline, s.dev.handle p j = .writing k b c deadline →
              (lost j = some (k, b) → d.handle p j = .revoked k) ∧
              (lost j = none → d.handle p j = .writing k b c (s.dev.now + 2 ^ (s.dev.port p).leaseExp))) ∧
            (∀ j, j ∉ hs → d.handle p j = s.dev.handle p j) ∧
            d.port p = { s.dev.port p with handles := (d.port p).handles, frame := none, count := (s.dev.port p).count + 1 } ∧
            (∀ q, q ≠ p → d.port q = s.dev.port q) ∧
            (∀ b, ((∃ j ∈ hs, ∃ k, lost j = some (k, b)) → d.buffer b = Buffer.cleared) ∧
              ((∀ j ∈ hs, ∀ k, lost j ≠ some (k, b)) → d.buffer b = s.dev.buffer b)) ∧
            ∀ k, ((∃ j ∈ hs, ∃ b, lost j = some (k, b)) → d.lookup k =
                (s.dev.lookup k).bind fun e => if e.state = .pending then none else some { e with claim := none }) ∧
              ((∀ j ∈ hs, ∀ b, lost j ≠ some (k, b)) → d.lookup k = s.dev.lookup k))

/-- COMMIT's refusals at checks 7 to 10, of a list of WRITING handles whose rights are held: BAD_TABLE, QUEUE_FULL, NO_ENTRY,
STORE_FULL, in that order. The handles named are renewed, and nothing else changes. -/
def Obligations.CommitRefusedForTableSlotsGroupOrSpace : Prop :=
  ∀ (p : PortId) (hs : List HandleNo) (ms : List Member) (s : State), s.dev.serves p → s.dev.store = .normal →
    s.dev.supply = .good → hs ≠ [] → hs.Nodup →
    List.Forall₂ (fun h m => m.handle = h ∧ m.intent = (s.dev.buffer m.buffer).intent ∧
      m.length = (s.dev.buffer m.buffer).length ∧
      ∃ cursor deadline, s.dev.handle p h = .writing m.key m.buffer cursor deadline) hs ms →
    (∀ m ∈ ms, mayWrite s.dev.table p m.key = true) → s.dev.groups.length = 32 →
    let refused (r : Result) : Prop := exec (.commit p (hs.map Four.toByte)) s =
      .next ⟨s.pending, (hs.foldl (fun d h => d.renew p h) s.dev).answered p 0x0B r []⟩
    let tables : Prop :=
      ∀ m ∈ ms, m.key = 0x0000#16 → m.intent = .value → validTable (s.dev.buffer m.buffer).value = true
    let slot : Prop := (s.dev.port p).notices.length + (s.dev.port p).reserved < 8
    let entry : Prop := ms.length = 1 ∨ ∃ i : Nat, s.dev.groups[i]? = some GroupEntry.free
    (¬ tables → refused .badTable) ∧
    (tables → ¬ slot → refused .queueFull) ∧
    (tables → slot → ¬ entry → refused .noEntry) ∧
    (tables → slot → entry →
      s.dev.freeFrames + s.dev.reclaimable < (ms.map Member.frames).sum + (if ms.length = 1 then 0 else 1) →
      refused .storeFull)

/-! ## Leases, watches, notices, RECLAIM, PORT_RESET -/

/-- RENEW renews every handle of its port that is READING or WRITING, leaves the others and every other port as they are, and
answers how many it renewed; in MOUNTING it is NOT_READY. -/
def Obligations.RenewRenewsThePort : Prop :=
  (∀ (x : Handle) (deadline : Nat),
    x.renewed deadline = (match x with
      | .reading k v c _ => .reading k v c deadline
      | .writing k b c _ => .writing k b c deadline
      | y => y) ∧
    (x.leaseRuns = true ↔ (∃ k v c t, x = .reading k v c t) ∨ ∃ k b c t, x = .writing k b c t)) ∧
  (∀ (d : Device) (p : PortId) (h : HandleNo),
    d.renew p h = d.setHandle p h ((d.handle p h).renewed (d.now + 2 ^ (d.port p).leaseExp))) ∧
  ∀ (p : PortId) (s : State), s.dev.takes p →
    exec (.renew p []) s = .next ⟨s.pending,
      if s.dev.store = .mounting then s.dev.answered p 0x0C .notReady []
      else (s.dev.modPort p fun q =>
        { q with handles := q.handles.map (Handle.renewed (s.dev.now + 2 ^ q.leaseExp)) }).answered p 0x0C .ok
          [BitVec.ofNat 8 (Four.all.filter fun h => (s.dev.handle p h).leaseRuns).length]⟩

/-- SET_LEASE: n from 4 to 14 becomes the port's; another n is BAD_REQUEST. Deadlines are as before. -/
def Obligations.SetLeaseSetsThePeriod : Prop :=
  ∀ (p : PortId) (n : Byte) (s : State), s.dev.serves p →
    exec (.setLease p [n]) s = .next ⟨s.pending,
      if 4 ≤ n.toNat ∧ n.toNat ≤ 14 then
        (s.dev.modPort p fun q => { q with leaseExp := n.toNat }).answered p 0x0D .ok [n]
      else s.dev.answered p 0x0D .badRequest []⟩

/-- WATCH, row by row. -/
def Obligations.WatchAnswersByTheFirstRow : Prop :=
  ∀ (p : PortId) (hi lo : Byte) (s : State), s.dev.takes p →
    let k := keyOf hi lo
    let list := (s.dev.port p).watch
    exec (.watch p [hi, lo]) s = .next ⟨s.pending,
      if s.dev.store = .mounting then s.dev.answered p 0x0E .notReady []
      else if k = 0xFFFF#16 then s.dev.answered p 0x0E .badRequest []
      else if mayWatch s.dev.table p k = false then s.dev.answered p 0x0E .denied []
      else if k ∈ list then s.dev.answered p 0x0E .ok [BitVec.ofNat 8 list.length]
      else if 16 ≤ list.length then s.dev.answered p 0x0E .noEntry []
      else (s.dev.modPort p fun q => { q with watch := q.watch ++ [k] }).answered p 0x0E .ok
        [BitVec.ofNat 8 (list.length + 1)]⟩

/-- UNWATCH removes the key, with no rights check; WATCH_LIST gives the count and the keys in order of insertion; both are
NOT_READY in MOUNTING. -/
def Obligations.UnwatchAndWatchList : Prop :=
  ∀ (p : PortId) (hi lo : Byte) (s : State), s.dev.takes p →
    let k := keyOf hi lo
    let left := (s.dev.port p).watch.filter fun x => x != k
    exec (.unwatch p [hi, lo]) s = .next ⟨s.pending,
      if s.dev.store = .mounting then s.dev.answered p 0x0F .notReady []
      else if k = 0xFFFF#16 then s.dev.answered p 0x0F .badRequest []
      else (s.dev.modPort p fun q => { q with watch := left }).answered p 0x0F .ok [BitVec.ofNat 8 left.length]⟩ ∧
    exec (.watchList p []) s = .next ⟨s.pending,
      if s.dev.store = .mounting then s.dev.answered p 0x10 .notReady []
      else s.dev.answered p 0x10 .ok
        (BitVec.ofNat 8 (s.dev.port p).watch.length :: (s.dev.port p).watch.flatMap keyBytes)⟩

/-- R141's table, and the attention line of R145. NEXT_NOTICE: the oldest notice and how many are left; RESYNC from an empty
queue with overflow set, which it clears; else NONE. In MOUNTING it is NOT_READY. The bytes of each notice. -/
def Obligations.NoticesAreQueuedAndCollected : Prop :=
  (∀ (n : Notice) (q : Port),
    (q.overflow = false → q.notices.length + q.reserved < 8 → q.offer n = { q with notices := q.notices ++ [n] }) ∧
    (q.overflow = false → 8 ≤ q.notices.length + q.reserved → q.offer n = { q with overflow := true }) ∧
    (q.overflow = true → q.offer n = q) ∧
    (q.attention = true ↔ q.notices ≠ [] ∨ q.overflow = true)) ∧
  (∀ (p : PortId) (s : State), s.dev.takes p →
    (s.dev.store = .mounting → exec (.nextNotice p []) s = .next ⟨s.pending, s.dev.answered p 0x11 .notReady []⟩) ∧
    (s.dev.store ≠ .mounting →
      (∀ n rest, (s.dev.port p).notices = n :: rest →
        exec (.nextNotice p []) s = .next ⟨s.pending,
          (s.dev.modPort p fun q => { q with notices := rest }).answered p 0x11 .ok
            (BitVec.ofNat 8 rest.length :: n.bytes)⟩) ∧
      ((s.dev.port p).notices = [] → (s.dev.port p).overflow = true →
        exec (.nextNotice p []) s = .next ⟨s.pending,
          (s.dev.modPort p fun q => { q with overflow := false }).answered p 0x11 .ok [0x00, 0x09]⟩) ∧
      ((s.dev.port p).notices = [] → (s.dev.port p).overflow = false →
        exec (.nextNotice p []) s = .next ⟨s.pending, s.dev.answered p 0x11 .ok [0x00, 0x00]⟩))) ∧
  ∀ (k : Key) (sequence length : Nat) (ticket : Byte) (h : HandleNo), sequence < 2 ^ 32 → length < 2 ^ 16 →
    let key : List Byte := [k.extractLsb' 8 8, k.extractLsb' 0 8]
    let word : BitVec 32 := BitVec.ofNat 32 sequence
    let four : List Byte := [word.extractLsb' 24 8, word.extractLsb' 16 8, word.extractLsb' 8 8, word.extractLsb' 0 8]
    let two : List Byte := [(BitVec.ofNat 16 length).extractLsb' 8 8, (BitVec.ofNat 16 length).extractLsb' 0 8]
    let number : Byte := match h with
      | .n1 => 1
      | .n2 => 2
      | .n3 => 3
      | .n4 => 4
    (Notice.changed k sequence length).bytes = [0x01] ++ key ++ four ++ two ∧
    (Notice.removed k sequence).bytes = [0x02] ++ key ++ four ∧
    (Notice.damaged k).bytes = [0x03] ++ key ∧
    (Notice.commitDone ticket .done (some sequence)).bytes = [0x04, ticket, 0] ++ four ∧
    (Notice.commitDone ticket .failedSupply none).bytes = [0x04, ticket, 1, 0, 0, 0, 0] ∧
    (Notice.commitDone ticket .failedVerify none).bytes = [0x04, ticket, 2, 0, 0, 0, 0] ∧
    (Notice.commitDone ticket .storeFull none).bytes = [0x04, ticket, 3, 0, 0, 0, 0] ∧
    (Notice.commitDone ticket .denied none).bytes = [0x04, ticket, 4, 0, 0, 0, 0] ∧
    (Notice.handleExpired h k).bytes = [0x05, number] ++ key ∧
    (Notice.handleRevoked h k).bytes = [0x06, number] ++ key ∧
    (Notice.supply .good).bytes = [0x07, 0] ∧ (Notice.supply .low).bytes = [0x07, 1] ∧
    (Notice.started .powerOn).bytes = [0x08, 1] ∧ (Notice.started .supply).bytes = [0x08, 2] ∧
    (Notice.started .pin).bytes = [0x08, 3]

/-- RECLAIM: the requested flag is set unless the controller is IDLE with no candidate victim and an empty fix list; the reply
gives the controller's state and the flag, as they are before the arbiter chooses (the model's choice: log 24). READ_ONLY
refuses it. -/
def Obligations.ReclaimSetsRequested : Prop :=
  ∀ (p : PortId) (s : State), s.dev.serves p →
    (s.dev.store = .normal →
      ∃ (d : Device) (flag : Bool), exec (.reclaim p []) s = .next ⟨s.pending, d.arbiter.modPort p fun q =>
          { q with handling := some ⟨0x13, (s.dev.port p).count + 1, .ok,
            [s.dev.reclaim.state.code, if flag then 0x01 else 0x00]⟩ }⟩ ∧
        d = { s.dev with reclaim := { s.dev.reclaim with requested := flag } }.modPort p (fun q =>
          { q with frame := none, count := q.count + 1 }) ∧
        (flag = true ↔ s.dev.reclaim.requested = true ∨ s.dev.reclaim.state ≠ .idle ∨
          s.dev.candidates ≠ [] ∨ s.dev.fixes ≠ [])) ∧
    ∀ r, s.dev.store = .readOnly r →
      exec (.reclaim p []) s = .next ⟨s.pending, s.dev.answered p 0x13 .readOnly []⟩

/-- PORT_RESET clears its port, but for the handles of a begun commit and the count of taken requests; its READING handles give
back their pins, its WRITING ones their claims and buffers; the port's unbegun commits leave the queue with their claims,
buffers and group entries, and their handles are FREE; a begun one goes on without its reservation. The other ports and the
array are as before; the release of the victim's last pin moves the controller from HOLDING to ERASING; then the arbiter
chooses. -/
def Obligations.PortResetClearsThePort : Prop :=
  ∀ (p : PortId) (s : State), s.dev.serves p →
    let removed (c : CommitRecord) : Prop := c ∈ s.dev.commitQueue ∧ c.port = p
    let reading (test : Key → Nat → Bool) : Nat := (Four.all.filter fun h =>
      match s.dev.handle p h with
      | .reading k v _ _ => test k v.location.seg
      | _ => false).length
    let released (k : Key) : Prop := (∃ h b cursor deadline, s.dev.handle p h = .writing k b cursor deadline) ∨
      ∃ c, removed c ∧ ∃ m ∈ c.members, m.key = k
    let emptied (b : BufferNo) : Prop := (∃ h k cursor deadline, s.dev.handle p h = .writing k b cursor deadline) ∨
      ∃ c, removed c ∧ ∃ m ∈ c.members, m.buffer = b
    let unpinned (segments : List SegmentRecord) : Prop := 0 < reading (fun _ _ => true) ∧
      ∀ i r, s.dev.reclaim.victim = some i → segments[i]? = some r → r.pins = 0
    ∃ d : Device, exec (.portReset p []) s = .next ⟨s.pending, d.arbiter.modPort p fun q =>
        { q with handling := some ⟨0x14, (s.dev.port p).count + 1, .ok, []⟩ }⟩ ∧
      d.port p = { s.dev.port p with handles := (d.port p).handles, watch := [], notices := [], reserved := 0,
                                     overflow := false, leaseExp := 10, ticket := 0, frame := none,
                                     count := (s.dev.port p).count + 1 } ∧
      (∀ h, (∀ k b c, s.dev.handle p h ≠ .committing k b c) → d.handle p h = .free) ∧
      (∀ h, (∃ c, removed c ∧ ∃ m ∈ c.members, m.handle = h) → d.handle p h = .free) ∧
      (∀ h k b x, s.dev.handle p h = .committing k b x → (∀ c, removed c → ∀ m ∈ c.members, m.handle ≠ h) →
        d.handle p h = .committing k b x) ∧
      (∀ k, (released k → d.lookup k = (s.dev.lookup k).bind fun e => if e.state = .pending then none else
          some { e with claim := none, pins := e.pins - reading fun x _ => x == k }) ∧
        (¬ released k → d.lookup k =
          (s.dev.lookup k).map fun e => { e with pins := e.pins - reading fun x _ => x == k })) ∧
      (∀ b, (emptied b → d.buffer b = Buffer.cleared) ∧ (¬ emptied b → d.buffer b = s.dev.buffer b)) ∧
      (∀ i : Nat, d.segments[i]? = (s.dev.segments[i]?).map fun r => { r with pins := r.pins - reading fun _ x => x == i }) ∧
      (∀ i : Nat, ((∃ c, removed c ∧ c.group = some i) → d.groups[i]? = (s.dev.groups[i]?).map fun _ => .free) ∧
        ((∀ c, removed c → c.group ≠ some i) → d.groups[i]? = s.dev.groups[i]?)) ∧
      (s.dev.reclaim.state = .holding → unpinned d.segments → d.reclaim.state = .erasing) ∧
      (s.dev.reclaim.state ≠ .holding ∨ ¬ unpinned d.segments → d.reclaim.state = s.dev.reclaim.state) ∧
      d = { s.dev with
        ports := d.ports
        buffers := d.buffers
        directory := d.directory
        segments := d.segments
        groups := d.groups
        commitQueue := s.dev.commitQueue.filter (fun c => c.port != p)
        flight := match s.dev.flight with
          | some (.write (.commit c placed) retried w) =>
            some (.write (.commit (if c.port = p then { c with portReset := true } else c) placed) retried w)
          | x => x
        reclaim := { s.dev.reclaim with state := d.reclaim.state } } ∧
      ∀ q, q ≠ p → d.port q = s.dev.port q

/-- Lease expiry: READING_LEASE_EXPIRY gives back the pins, WRITING_LEASE_EXPIRY the claim and the buffer; the handle is
EXPIRED with its key, HANDLE_EXPIRED is offered, and then the arbiter chooses. The release of the victim's last pin moves the
controller from HOLDING to ERASING. Before the deadline, as after a renewal, no expiry happens. That the clock then stands at
the moment the expiry is taken, where it is not past it, is the model's choice (log 1, log 2). -/
def Obligations.LeaseExpiryEndsTheHandle : Prop :=
  ∀ (p : PortId) (h : HandleNo) (moment : Nat) (s : State),
    let now' := max s.dev.now moment
    let expired (k : Key) : Device := { s.dev.modPort p fun q =>
      { q.offer (.handleExpired h k) with handles := q.handles.set h (.expired k) } with now := now' }
    (∀ k v cursor deadline, s.dev.handle p h = .reading k v cursor deadline →
      (now' < deadline → exec (.readingLeaseExpiry p ⟨h, moment⟩) s = .next s) ∧
      (deadline ≤ now' →
        let segments := s.dev.segments.modify v.location.seg fun r => { r with pins := r.pins - 1 }
        let unpinned : Prop := ∀ i r, s.dev.reclaim.victim = some i → segments[i]? = some r → r.pins = 0
        ∃ state, exec (.readingLeaseExpiry p ⟨h, moment⟩) s = .next ⟨s.pending, Device.arbiter { expired k with
            directory := (s.dev.modEntry k fun e => { e with pins := e.pins - 1 }).directory
            segments := segments
            reclaim := { s.dev.reclaim with state := state } }⟩ ∧
          (s.dev.reclaim.state = .holding → unpinned → state = .erasing) ∧
          (s.dev.reclaim.state ≠ .holding ∨ ¬ unpinned → state = s.dev.reclaim.state))) ∧
    ∀ k b cursor deadline e, s.dev.handle p h = .writing k b cursor deadline → s.dev.lookup k = some e →
      (now' < deadline → exec (.writingLeaseExpiry p ⟨h, moment⟩) s = .next s) ∧
      (deadline ≤ now' →
        exec (.writingLeaseExpiry p ⟨h, moment⟩) s = .next ⟨s.pending, Device.arbiter { expired k with
          buffers := s.dev.buffers.set b Buffer.cleared
          directory :=
            if e.state = .pending then s.dev.directory.filter fun x => x.key != k
            else (s.dev.modEntry k fun e => { e with claim := none }).directory }⟩)

/-! ## The access table -/

/-- What a commit of key 0000h does to the access table at its switch. A VALUE is decoded into the table in force and clears
TABLE_INVALID; on every port each WRITING handle without its right under the new table is REVOKED, its claim and its buffer
released, with HANDLE_REVOKED offered in order of handle number; every watch list loses the keys whose watch right is gone. A
TOMBSTONE leaves the table absent. Nothing else changes. R148's seven conditions, in order, by which a value is a valid
table; the places of the table's fields in the value. -/
def Obligations.AccessTableTakesEffect : Prop :=
  (∀ d : Device, d.replaceTable none = d) ∧
  (∀ (d : Device) (v : List Byte),
    d.replaceTable (some (.delete, v)) = { d with table := none, tableInvalid := false }) ∧
  (∀ (d : Device) (v : List Byte),
    let new := some (decodeTable v)
    let d' := d.replaceTable (some (.value, v))
    let lost (p : PortId) (x : Handle) : Option (Key × BufferNo) :=
      match x with
      | .writing k b _ _ => if mayWrite new p k then none else some (k, b)
      | _ => none
    d' = { d with table := new, tableInvalid := false, ports := d'.ports, buffers := d'.buffers
                  directory := d'.directory } ∧
    (∀ p h, (∀ k b, lost p (d.handle p h) = some (k, b) → d'.handle p h = .revoked k) ∧
      (lost p (d.handle p h) = none → d'.handle p h = d.handle p h)) ∧
    (∀ p, d'.port p =
      { (Four.all.foldl (fun q h => match lost p (d.handle p h) with
          | some (k, _) => q.offer (.handleRevoked h k)
          | none => q) (d.port p)) with
        handles := (d'.port p).handles
        watch := (d.port p).watch.filter fun k => mayWatch new p k }) ∧
    (∀ b, ((∃ p h k, lost p (d.handle p h) = some (k, b)) → d'.buffer b = Buffer.cleared) ∧
      ((∀ p h k, lost p (d.handle p h) ≠ some (k, b)) → d'.buffer b = d.buffer b)) ∧
    ∀ k, ((∃ p h b, lost p (d.handle p h) = some (k, b)) → d'.lookup k =
        (d.lookup k).bind fun e => if e.state = .pending then none else some { e with claim := none }) ∧
      ((∀ p h b, lost p (d.handle p h) ≠ some (k, b)) → d'.lookup k = d.lookup k)) ∧
  ∀ v : List Byte,
    let at_ (i : Nat) : Byte := (v[i]?).getD 0
    let n : Nat := (at_ 1).toNat
    let first (i : Nat) : Key := at_ (8 + 8 * i) ++ at_ (9 + 8 * i)
    let last (i : Nat) : Key := at_ (10 + 8 * i) ++ at_ (11 + 8 * i)
    let includes (i : Nat) (k : Key) : Prop := first i ≤ k ∧ k ≤ last i
    let plain (bits : Nat) (b : Byte) : Prop := ∀ i, bits ≤ i → b.getLsbD i = false
    let rights (i : Nat) : Rights :=
      { read := (at_ i).getLsbD 0, write := (at_ i).getLsbD 1, watch := (at_ i).getLsbD 2 }
    (validTable v = true ↔
      (8 ≤ v.length ∧ at_ 0 = 0x01) ∧
      (n ≤ 8 ∧ v.length = 8 + 8 * n) ∧
      (at_ 7 = 0x00 ∧ (∀ i, 2 ≤ i → i ≤ 5 → plain 3 (at_ i)) ∧ plain 4 (at_ 6) ∧
        ∀ i j, i < n → 12 ≤ j → j ≤ 15 → plain 3 (at_ (j + 8 * i))) ∧
      (∀ i, i < n → first i ≤ last i) ∧
      (∀ i, i < n → ¬ includes i 0x0000#16) ∧
      (∀ i j, i < n → j < n → i ≠ j → ∀ k, ¬ (includes i k ∧ includes j k)) ∧
      ∃ i, i < 4 ∧ (at_ 6).getLsbD i = true) ∧
    decodeTable v =
      { defaults := ⟨rights 2, rights 3, rights 4, rights 5⟩
        setup := ⟨(at_ 6).getLsbD 0, (at_ 6).getLsbD 1, (at_ 6).getLsbD 2, (at_ 6).getLsbD 3⟩
        zones := (List.range n).map fun i =>
          { first := first i
            last := last i
            rights := ⟨rights (12 + 8 * i), rights (13 + 8 * i), rights (14 + 8 * i), rights (15 + 8 * i)⟩ } }

/-! ## The engine's steps -/

/-- FRAME_PROGRAM_DONE: verified good, the frame reads as meant, and the next frame or the commit mark follows; failed, the
frame reads as the step left it, the version is abandoned and the ACTIVE segment is ended with a seal step. A commit mark that
fails its verify ends the ACTIVE segment with a seal step too. That the command's operand says how a failed frame reads, and
that a further frame left with a bad check reads malformed, are the model's choices (log 8). -/
def Obligations.FrameStepEnds : Prop :=
  (∀ (s : State) (o : Owner) (retried : Bool) (l : Loc) (cells : List Cell) (n : Nat),
    s.dev.flight = some (.write o retried (.frameStep l cells n)) →
    let ends (r : ProgramResult) (a : List SegmentImage) (w : WriteStep) : Prop :=
      exec (.frameProgramDone r) s = .next ⟨s.pending, { s.dev with array := a, flight := some (.write o retried w) }⟩
    ends .good (s.dev.programFrame l cells n).array
      (if n + 1 < cells.length then .frameStep l cells (n + 1) else .markStep l cells) ∧
    (∀ left, ends (.bad left) (s.dev.leaveFrame l cells n left).array (.sealStep l.seg true)) ∧
    ∀ (im : SegmentImage) (c : Cell), s.dev.array[l.seg]? = some im → 1 ≤ l.frame → cells[n]? = some c →
      let reads (x : Cell) := s.dev.array.set l.seg { im with frames := im.frames.set (l.frame + n - 1) x }
      (s.dev.programFrame l cells n).array = reads c ∧
      (s.dev.leaveFrame l cells n .blank).array = s.dev.array ∧
      (s.dev.leaveFrame l cells n .malformed).array = reads .malformed ∧
      (s.dev.leaveFrame l cells n .badCheck).array = reads (match c with
        | .first f => .first { f with check := .bad }
        | .more _ => .malformed
        | x => x) ∧
      (s.dev.leaveFrame l cells n .asMeant).array = reads c) ∧
  ∀ (s : State) (o : Owner) (retried : Bool) (l : Loc) (cells : List Cell),
    s.dev.flight = some (.write o retried (.markStep l cells)) →
    exec (.commitMarkDone false) s =
      .next ⟨s.pending, { s.dev with flight := some (.write o retried (.sealStep l.seg true)) }⟩

/-- COMMIT_MARK_DONE of a singleton, verified good: the switch. The mark is programmed, the entry names the new version, the
claim and the buffer are released, the handle is FREE, COMMIT_DONE takes its reserved slot, and every other port that watches
the key is offered its change notice; a commit of key 0000h replaces the access table; then the arbiter chooses. After a reset
of its port no COMMIT_DONE is placed. -/
def Obligations.SingletonSwitch : Prop :=
  ∀ (s : State) (c : CommitRecord) (m : Member) (retried : Bool) (l : Loc) (cells : List Cell) (n : Nat) (e : Entry),
    s.dev.flight = some (.write (.commit c []) retried (.markStep l cells)) → c.members = [m] → c.group = none →
    c.sequence = some n → s.dev.lookup m.key = some e →
    let written := if m.key = 0x0000#16 then
        some (m.intent, (s.dev.buffer m.buffer).bytes.take (s.dev.buffer m.buffer).length) else none
    let told (q : Port) : Port :=
      if m.key ∈ q.watch then q.offer (if m.intent = .value then .changed m.key n m.length else .removed m.key n) else q
    ∃ d : Device, exec (.commitMarkDone true) s = .next ⟨s.pending, (d.replaceTable written).arbiter⟩ ∧
      d = { s.dev with flight := none, directory := d.directory, ports := d.ports
                       buffers := s.dev.buffers.set m.buffer Buffer.cleared, array := (s.dev.programMark l).array } ∧
      d.lookup m.key = some
        { key := m.key
          state := if m.intent = .value then .live else .gone
          location := some l
          length := if m.intent = .value then m.length else 0
          sequence := some n
          residue := if e.state = .live ∨ e.state = .gone ∨ (e.state = .damaged ∧ e.markPending = false)
            then e.residue + 1 else e.residue
          claim := none
          pins := e.pins
          markPending := false } ∧
      (∀ k, k ≠ m.key → d.lookup k = s.dev.lookup k) ∧
      (∀ at_, at_.seg ≠ l.seg ∨ at_.frame - 1 ≠ l.frame - 1 → d.cell at_ = s.dev.cell at_) ∧
      (∀ f, s.dev.cell l = .first f → d.cell l = .first { f with committed := true }) ∧
      (∀ h, d.handle c.port h = if h = m.handle then .free else s.dev.handle c.port h) ∧
      (c.portReset = false → d.port c.port = { s.dev.port c.port with
        handles := (d.port c.port).handles
        notices := (s.dev.port c.port).notices ++ [.commitDone c.ticket .done (some n)]
        reserved := (s.dev.port c.port).reserved - 1 }) ∧
      (c.portReset = true → d.port c.port = { told (s.dev.port c.port) with handles := (d.port c.port).handles }) ∧
      ∀ q, q ≠ c.port → d.port q = told (s.dev.port q)

/-- COMMIT_MARK_DONE of a group's member, verified good: its mark is programmed, and the next member, or after the last the
seal, is placed. Of the group's seal: every member's entry names its new version in the one event, the group
table keeps the seal, the seal's mark is programmed; claims and buffers are released and handles FREE; COMMIT_DONE takes its
reserved slot, and every other port is offered the change notices of the members it watches, in handle order; a member of key
0000h replaces the access table; then the arbiter chooses. -/
def Obligations.GroupSwitch : Prop :=
  (∀ (s : State) (c : CommitRecord) (placed : List Loc) (retried : Bool) (l : Loc) (cells : List Cell),
    s.dev.flight = some (.write (.commit c placed) retried (.markStep l cells)) → 2 ≤ c.members.length →
    placed.length < c.members.length →
    exec (.commitMarkDone true) s = .next ⟨s.pending,
      (Device.placeItem (.commit c (placed ++ [l])) { s.dev with array := (s.dev.programMark l).array }).arbiter⟩) ∧
  ∀ (s : State) (c : CommitRecord) (placed : List Loc) (retried : Bool) (l : Loc) (cells : List Cell) (n i : Nat)
    (written : Option (Intent × List Byte)),
    s.dev.flight = some (.write (.commit c placed) retried (.markStep l cells)) → 2 ≤ c.members.length →
    placed.length = c.members.length → c.group = some i → c.sequence = some n → (c.members.map (·.key)).Nodup →
    ((∀ m ∈ c.members, m.key ≠ 0x0000#16) ∧ written = none ∨ ∃ m ∈ c.members, m.key = 0x0000#16 ∧
      written = some (m.intent, (s.dev.buffer m.buffer).bytes.take (s.dev.buffer m.buffer).length)) →
    let told (q : Port) : Port := c.members.foldl (fun r m =>
      if m.key ∈ q.watch then r.offer (if m.intent = .value then .changed m.key n m.length else .removed m.key n)
      else r) q
    ∃ d : Device, exec (.commitMarkDone true) s = .next ⟨s.pending, (d.replaceTable written).arbiter⟩ ∧
      d = { s.dev with flight := none, directory := d.directory, ports := d.ports, buffers := d.buffers
                       array := (s.dev.programMark l).array
                       groups := s.dev.groups.set i (.kept n l c.members.length) } ∧
      (∀ x ∈ c.members.zip placed, ∀ e, s.dev.lookup x.1.key = some e → d.lookup x.1.key = some
        { key := x.1.key
          state := if x.1.intent = .value then .live else .gone
          location := some x.2
          length := if x.1.intent = .value then x.1.length else 0
          sequence := some n
          residue := if e.state = .live ∨ e.state = .gone ∨ (e.state = .damaged ∧ e.markPending = false)
            then e.residue + 1 else e.residue
          claim := none
          pins := e.pins
          markPending := false }) ∧
      (∀ k, k ∉ c.members.map (·.key) → d.lookup k = s.dev.lookup k) ∧
      (∀ h, d.handle c.port h = if h ∈ c.members.map (·.handle) then .free else s.dev.handle c.port h) ∧
      (∀ b, d.buffer b = if b ∈ c.members.map (·.buffer) then Buffer.cleared else s.dev.buffer b) ∧
      (c.portReset = false → d.port c.port = { s.dev.port c.port with
        handles := (d.port c.port).handles
        notices := (s.dev.port c.port).notices ++ [.commitDone c.ticket .done (some n)]
        reserved := (s.dev.port c.port).reserved - 1 }) ∧
      (c.portReset = true → d.port c.port = { told (s.dev.port c.port) with handles := (d.port c.port).handles }) ∧
      ∀ q, q ≠ c.port → d.port q = told (s.dev.port q)

/-- COMMIT_MARK_DONE of a damage mark: the mark becomes current, the entry stays DAMAGED, and every port that watches the key
is offered DAMAGED. Of a reclaim copy of a key's version: the location moves and the walk passes the original; with a good
check no port is told; with a bad one the entry becomes DAMAGED with its mark pending, and its watchers are offered DAMAGED,
unless it was so already; the damage of key 0000h takes the access table away. Of a copy of a KEPT group's seal: the entry's
seal location moves; with a bad check every entry of the group's sequence becomes DAMAGED with its mark pending, and watchers
are told in order of key. That the damage of key 0000h through a group's seal takes the access table away too is the model's
choice (log 29). A copied original with a good check is counted out, one with a bad check and a seal are not; that what is
counted out stands in a log of the controller is the model's choice too (log 25). Then the arbiter chooses. -/
def Obligations.MarkAndCopySwitch : Prop :=
  ∀ (s : State) (retried : Bool) (l : Loc) (cells : List Cell),
    (∀ n k e, s.dev.lookup k = some e →
      s.dev.flight = some (.write (.damageMark k (some n)) retried (.markStep l cells)) →
      ∃ d : Device, exec (.commitMarkDone true) s = .next ⟨s.pending, d.arbiter⟩ ∧
        d = { s.dev with flight := none, directory := d.directory, ports := d.ports, array := (s.dev.programMark l).array } ∧
        d.lookup k = some { e with key := k, location := some l, length := 0, sequence := some n, state := .damaged,
                                   markPending := false } ∧
        (∀ j, j ≠ k → d.lookup j = s.dev.lookup j) ∧
        ∀ p, d.port p =
          if k ∈ (s.dev.port p).watch then (s.dev.port p).offer (.damaged k) else s.dev.port p) ∧
    ∀ c : Copy, s.dev.flight = some (.write (.copy c) retried (.markStep l cells)) →
      let passed (pos : Nat) : Nat := if 127 < pos then pos else pos + c.cells.length
      let inRange (h : VersionHeader) : Prop := h.length ≤ 496 ∧ (h.key ≠ 0xFFFF#16 ∨ h.kind = .groupSeal) ∧
        c.source.frame + versionFrames h.length ≤ 128
      ∃ d : Device, exec (.commitMarkDone true) s = .next ⟨s.pending, d.arbiter⟩ ∧
        d = { s.dev with
          flight := none, directory := d.directory, ports := d.ports, groups := d.groups, table := d.table
          tableInvalid := d.tableInvalid, array := (s.dev.programMark l).array
          reclaim := { s.dev.reclaim with position := s.dev.reclaim.position.map passed, log := d.reclaim.log } } ∧
        (∀ k f, c.target = .entry k → c.cells.head? = some (.first f) → d.reclaim.log = s.dev.reclaim.log ++
          if c.checkGood = true ∧ inRange f.header then
            [{ location := c.source, key := f.header.key, sequence := f.header.sequence, group := f.header.group
               tombstone := false }]
          else []) ∧
        (∀ k, c.target = .entry k → c.checkGood = false → d.reclaim.log = s.dev.reclaim.log) ∧
        (∀ i, c.target = .groupSeal i → d.reclaim.log = s.dev.reclaim.log) ∧
        (∀ k e, c.target = .entry k → s.dev.lookup k = some e →
          let seen : Prop := c.checkGood = true ∨ (e.state = .damaged ∧ e.markPending = true)
          d.groups = s.dev.groups ∧ (∀ j, j ≠ k → d.lookup j = s.dev.lookup j) ∧
          (seen → d.lookup k = some { e with key := k, location := some l } ∧ d.ports = s.dev.ports ∧
            d.table = s.dev.table ∧ d.tableInvalid = s.dev.tableInvalid) ∧
          (¬ seen →
            d.lookup k = some { e with key := k, location := some l, state := .damaged, markPending := true } ∧
            (∀ p, d.port p =
              if k ∈ (s.dev.port p).watch then (s.dev.port p).offer (.damaged k) else s.dev.port p) ∧
            d.table = (if k = 0x0000#16 then none else s.dev.table) ∧
            d.tableInvalid = (if k = 0x0000#16 then false else s.dev.tableInvalid))) ∧
        ∀ (i n : Nat) (at_ : Loc) (g : Nat), c.target = .groupSeal i → s.dev.groups[i]? = some (.kept g at_ n) →
          d.groups = s.dev.groups.set i (.kept g l n) ∧
          (c.checkGood = true → d.directory = s.dev.directory ∧ d.ports = s.dev.ports ∧ d.table = s.dev.table ∧
            d.tableInvalid = s.dev.tableInvalid) ∧
          (c.checkGood = false → s.dev.keysRise →
            d.directory = s.dev.directory.map (fun e =>
              if e.sequence = some g then { e with state := .damaged, markPending := true } else e) ∧
            (∀ p, d.port p = (s.dev.directory.filter fun e => decide (e.sequence = some g ∧
                ¬ (e.state = .damaged ∧ e.markPending = true) ∧ e.key ∈ (s.dev.port p).watch)).foldl
              (fun q e => q.offer (.damaged e.key)) (s.dev.port p)) ∧
            ((∀ e ∈ s.dev.directory, e.key = 0x0000#16 → e.sequence = some g →
                e.state = .damaged ∧ e.markPending = true) →
              d.table = s.dev.table ∧ d.tableInvalid = s.dev.tableInvalid) ∧
            ((∃ e ∈ s.dev.directory, e.key = 0x0000#16 ∧ e.sequence = some g ∧
                ¬ (e.state = .damaged ∧ e.markPending = true)) → d.table = none ∧ d.tableInvalid = false))

/-- SEGMENT_OPEN_DONE, of every owner: verified good, the segment is ACTIVE with its new sequence, and programming begins at
its frame 1. Failed, the segment is SEALED, full and suspect; a first attempt is retried in a new segment, and a retry has
failed: a commit ends FAILED_VERIFY, a damage mark stays pending, a copy makes the controller abandon its victim. Then the
arbiter chooses. That the command's operand says how the OPEN mark of a failed step reads, every mark allowed (log 8), and
that the failed segment's record has the sequence the step was to write (log 21), are the model's choices. -/
def Obligations.OpenStepEnds : Prop :=
  ∀ (s : State) (o : Owner) (retried : Bool) (i n : Nat) (r : SegmentRecord) (im : SegmentImage),
    s.dev.flight = some (.write o retried (.openStep i n)) → s.dev.segments[i]? = some r → s.dev.array[i]? = some im →
    exec (.segmentOpenDone .good) s = .next ⟨s.pending, Device.beginProgram o retried i { s.dev with
      segments := s.dev.segments.set i
        { r with state := .active, appendPoint := 1, pins := 0, suspect := false, sequence := some n }
      array := s.dev.array.set i { im with header := { im.header with opened := .whole, sequence := n } } }⟩ ∧
    ∀ mark,
      let failed : Device := { s.dev with
        segments := s.dev.segments.set i
          { r with state := .sealed, appendPoint := 128, suspect := true, sequence := some n }
        array := s.dev.array.set i { im with header := { im.header with opened := mark, sequence := n } } }
      let goesOn : Device := if retried then failed.failOwner o .failedVerify else failed.openFor o true
      exec (.segmentOpenDone (.bad mark)) s = .next ⟨s.pending, goesOn.arbiter⟩ ∧
      (retried = false → ∀ j, failed.mayOpen o = true → failed.pickErased = some j →
        goesOn = { failed with
          segCounter := s.dev.segCounter + 1, flight := some (.write o true (.openStep j s.dev.segCounter)) }) ∧
      (retried = true →
        (∀ c placed, o = .commit c placed → goesOn = { failed with flight := none }.endCommit .failedVerify c) ∧
        (∀ k m, o = .damageMark k m → goesOn = { failed with flight := none }) ∧
        ∀ c, o = .copy c → goesOn = { failed with flight := none }.abandonVictim) ∧
      ∀ c placed m k b cursor, o = .commit c placed → retried = true → c.members = [m] → c.group = none →
        c.portReset = false → s.dev.handle c.port m.handle = .committing k b cursor →
        goesOn = (({ failed with flight := none }.setHandle c.port m.handle
          (.writing k b cursor (s.dev.now + 2 ^ (s.dev.port c.port).leaseExp))).modPort c.port
            fun q => { q with
              notices := q.notices ++ [Notice.commitDone c.ticket .failedVerify none], reserved := q.reserved - 1 })

/-- SEGMENT_SEAL_DONE, of every owner's placement: the segment is SEALED and full, its tail counted dead; suspect after a
failed verify, of this step or of the step that needed it; where a segment may be opened, its open step begins. Where none
may be, a first placement of a commit ends it STORE_FULL; a retry, and the step after a failed retry, have failed: a commit
ends FAILED_VERIFY, a damage mark stays pending, a copy makes the controller abandon its victim. A seal fix leaves the list;
its segment's record is as it was when it verified, and suspect when it did not. Then the arbiter chooses. -/
def Obligations.SealStepEnds : Prop :=
  ∀ (s : State) (i : Nat) (r : SegmentRecord) (im : SegmentImage) (res : MarkResult), s.dev.segments[i]? = some r →
    s.dev.array[i]? = some im →
    let array := s.dev.array.set i
      { im with header := { im.header with sealed := match res with
        | .good => .whole
        | .bad mark => mark } }
    (∀ o retried failed, s.dev.flight = some (.write o retried (.sealStep i failed)) →
      let sealed : Device := { s.dev with
        array := array
        segments := s.dev.segments.set i
          { r with state := .sealed, appendPoint := 128, suspect := r.suspect || failed || decide (res ≠ .good) } }
      let opens (j : Nat) : Prop := sealed.mayOpen o = true ∧ sealed.pickErased = some j
      let again : Bool := retried || failed
      ∃ d : Device, exec (.segmentSealDone res) s = .next ⟨s.pending, d.arbiter⟩ ∧
        (failed = false ∨ retried = false → ∀ j, opens j → d = { sealed with
          segCounter := s.dev.segCounter + 1, flight := some (.write o again (.openStep j s.dev.segCounter)) }) ∧
        ((failed = true ∧ retried = true) ∨ (∀ j, ¬ opens j) →
          (∀ c placed, o = .commit c placed →
            d = { sealed with flight := none }.endCommit (if again then .failedVerify else .storeFull) c) ∧
          (∀ k m, o = .damageMark k m → d = { sealed with flight := none }) ∧
          ∀ c, o = .copy c → d = { sealed with flight := none }.abandonVictim)) ∧
    (s.dev.flight = some (.sealFix i) →
      exec (.segmentSealDone res) s = .next ⟨s.pending, Device.arbiter { s.dev with
        flight := none
        fixes := s.dev.fixes.tail
        array := array
        segments := s.dev.segments.set i { r with suspect := r.suspect || decide (res ≠ .good) } }⟩)

/-- SEGMENT_ERASE_DONE: verified good, the segment is ERASED and blank, of a victim with its count one higher, of an erase fix
with the count mount assigned; failed, it is RETIRED with the count it had and no segment sequence. SEGMENT_RETIRE_DONE: it is
RETIRED, with the segment sequence its header gives. The held slots recording it are released; of a victim, the controller is
IDLE with the requested flag clear; a fix leaves the list; with fewer than 4 segments left the store is READ_ONLY(WORN); then
the arbiter chooses. That a RETIRED record's append point is 1 is the model's choice (log 22), and what a failed erase leaves
of the frames where the ERASED mark does not read whole (log 11). -/
def Obligations.EraseAndRetireStepsEnd : Prop :=
  ∀ (s : State) (i : Nat) (r : SegmentRecord) (im : SegmentImage), s.dev.segments[i]? = some r →
    s.dev.array[i]? = some im →
    let retired (sequence : Option Nat) : SegmentRecord :=
      { r with state := .retired, appendPoint := 1, sequence := sequence }
    let image (count : Nat) (erased mark : MarkRead) (frames : List Cell) : SegmentImage :=
      { header := { erased := erased, eraseCount := count, opened := .absent, sequence := 0, sealed := .absent
                    retired := mark }
        frames := frames }
    let victimEnds : Device := { s.dev with
      flight := none, reclaim := Reclaim.cleared, heldSlots := s.dev.heldSlots.filter fun j => j != i }
    let fixEnds : Device := { s.dev with
      flight := none, fixes := s.dev.fixes.tail, heldSlots := s.dev.heldSlots.filter fun j => j != i }
    let becomes (t : Instr) (d : Device) (x : SegmentRecord) (a : SegmentImage) : Prop :=
      exec t s = .next ⟨s.pending,
        Device.arbiter { d with segments := d.segments.set i x, array := d.array.set i a }⟩
    let retires (t : Instr) (d : Device) (x : SegmentRecord) (a : SegmentImage) : Prop :=
      let d' : Device := { d with segments := d.segments.set i x, array := d.array.set i a }
      (4 ≤ d'.notRetired ∨ s.dev.store ≠ .normal → exec t s = .next ⟨s.pending, d'.arbiter⟩) ∧
      (d'.notRetired < 4 → s.dev.store = .normal → exec t s = .next ⟨s.pending,
        s.dev.commitQueue.foldl (Device.endCommit .storeFull) { d' with store := .readOnly .worn, commitQueue := [] }⟩)
    let erases (count : Nat) (d : Device) : Prop :=
      becomes (.segmentEraseDone .good) d
        { r with state := .erased, eraseCount := count, sequence := none, appendPoint := 1, suspect := false }
        (image count .whole .absent (List.replicate 127 .blank)) ∧
      ∀ e m, retires (.segmentEraseDone (.bad e m)) d (retired none)
        (image count e m (if e = .whole then List.replicate 127 .blank else im.frames))
    let retiresAt (d : Device) : Prop := ∀ mark, retires (.segmentRetireDone mark) d
      (retired (if im.header.opened = .whole then some im.header.sequence else none))
      { im with header := { im.header with retired := mark } }
    (s.dev.flight = some (.eraseVictim i) → erases (r.eraseCount + 1) victimEnds) ∧
    (s.dev.flight = some (.eraseFix i) → erases r.eraseCount fixEnds) ∧
    (s.dev.flight = some (.retireVictim i) → retiresAt victimEnds) ∧
    (s.dev.flight = some (.retireFix i) → retiresAt fixEnds)

/-- Events that cannot happen change nothing (the model's choice: log 14): an expiry of a handle whose lease does not run, an
end of an engine step with no unit in flight, an end of a mount step while mount is off. -/
def Obligations.EventsThatCannotHappenChangeNothing : Prop :=
  (∀ (p : PortId) (h : HandleNo) (s : State), (s.dev.handle p h).leaseRuns = false →
    ∀ moment, exec (.readingLeaseExpiry p ⟨h, moment⟩) s = .next s ∧ exec (.writingLeaseExpiry p ⟨h, moment⟩) s = .next s) ∧
  (∀ (s : State) (i : Instr), s.dev.flight = none →
    (∃ r, i = .frameProgramDone r) ∨ (∃ v, i = .commitMarkDone v) ∨ (∃ r, i = .segmentOpenDone r) ∨
      (∃ r, i = .segmentSealDone r) ∨ (∃ r, i = .segmentEraseDone r) ∨ (∃ m, i = .segmentRetireDone m) →
    exec i s = .next s) ∧
  ∀ (s : State) (r : EraseResult), s.dev.mount = .off →
    exec .mountScanDone s = .next s ∧ exec (.mountEraseDone r) s = .next s

/-! ## Figures and choices -/

/-- R149's table. -/
def Obligations.RightsByTheTable : Prop :=
  ∀ (p : PortId) (k : Key),
    (mayRead none p k = true ∧ mayWrite none p k = true ∧ mayWatch none p k = true) ∧
    ∀ t : AccessTable,
      (mayRead (some t) p 0x0000#16 = true ∧ mayWatch (some t) p 0x0000#16 = true ∧
        mayWrite (some t) p 0x0000#16 = t.setup.get p) ∧
      (k ≠ 0x0000#16 →
        (∀ z ∈ t.zones, z.first ≤ k → k ≤ z.last →
          (∀ y ∈ t.zones, y.first ≤ k → k ≤ y.last → y = z) →
          mayRead (some t) p k = (z.rights.get p).read ∧ mayWrite (some t) p k = (z.rights.get p).write ∧
            mayWatch (some t) p k = (z.rights.get p).watch) ∧
        ((∀ z ∈ t.zones, ¬ (z.first ≤ k ∧ k ≤ z.last)) →
          mayRead (some t) p k = (t.defaults.get p).read ∧ mayWrite (some t) p k = (t.defaults.get p).write ∧
            mayWatch (some t) p k = (t.defaults.get p).watch))

/-! ## What every step keeps -/

/-- The directory, and the one mount has built while its own erase runs, hold at most one entry for a key, in rising order,
through every step. -/
def Obligations.EveryStepKeepsOneEntryPerKey : Prop :=
  ∀ s t : State, s.dev.keysRise ∧ s.dev.builtKeysRise → step s = .next t → t.dev.keysRise ∧ t.dev.builtKeysRise

/-- The array keeps its 32 segments of 127 version frames, and the group table its 32 entries, through every step. -/
def Obligations.EveryStepKeepsTheGeometry : Prop :=
  ∀ s t : State, s.dev.geometry ∧ s.dev.groupTable → step s = .next t → t.dev.geometry ∧ t.dev.groupTable

/-- Every port's lease period stays 2^n ms with n from 4 to 14, and its watch list a set of at most 16 keys, through every
step. -/
def Obligations.EveryStepKeepsLeasesAndWatches : Prop :=
  ∀ s t : State, s.dev.leasePeriods ∧ s.dev.watchLists → step s = .next t → t.dev.leasePeriods ∧ t.dev.watchLists

/-- Queued notices and reserved slots never exceed 8 on any port: the reservations are those of the accepted commits that
still hold one, through every step. -/
def Obligations.EveryStepKeepsTheNoticeSlots : Prop :=
  ∀ s t : State, s.dev.slotsKept → step s = .next t → t.dev.slotsKept

/-- The reset state meets everything that every step keeps. -/
def Obligations.ResetMeetsTheInvariants : Prop :=
  State.reset.dev.keysRise ∧ State.reset.dev.builtKeysRise ∧ State.reset.dev.geometry ∧ State.reset.dev.groupTable ∧
    State.reset.dev.leasePeriods ∧ State.reset.dev.watchLists ∧ State.reset.dev.slotsKept
end

