-- ==== Sys2Proof/Laws/State.lean ====
section
/-! SUPPORT. What every update of the device leaves as it was, one lemma per field, and the state around a device. -/

namespace Sys2Proof.Machine

@[simp] theorem State.onDev_pending (f : Device → Device) (s : State) : (s.onDev f).pending = s.pending := rfl
@[simp] theorem State.onDev_dev (f : Device → Device) (s : State) : (s.onDev f).dev = f s.dev := rfl
@[simp] theorem ran_eq (f : Device → Device) (s : State) : ran f s = .next { s with dev := f s.dev } := rfl

@[simp] theorem Device.setPort_buffers (p : PortId) (q : Port) (d : Device) : (d.setPort p q).buffers = d.buffers := rfl
@[simp] theorem Device.setPort_directory (p : PortId) (q : Port) (d : Device) : (d.setPort p q).directory = d.directory := rfl
@[simp] theorem Device.setPort_heldSlots (p : PortId) (q : Port) (d : Device) : (d.setPort p q).heldSlots = d.heldSlots := rfl
@[simp] theorem Device.setPort_table (p : PortId) (q : Port) (d : Device) : (d.setPort p q).table = d.table := rfl
@[simp] theorem Device.setPort_tableInvalid (p : PortId) (q : Port) (d : Device) : (d.setPort p q).tableInvalid = d.tableInvalid := rfl
@[simp] theorem Device.setPort_seqCounter (p : PortId) (q : Port) (d : Device) : (d.setPort p q).seqCounter = d.seqCounter := rfl
@[simp] theorem Device.setPort_segCounter (p : PortId) (q : Port) (d : Device) : (d.setPort p q).segCounter = d.segCounter := rfl
@[simp] theorem Device.setPort_segments (p : PortId) (q : Port) (d : Device) : (d.setPort p q).segments = d.segments := rfl
@[simp] theorem Device.setPort_groups (p : PortId) (q : Port) (d : Device) : (d.setPort p q).groups = d.groups := rfl
@[simp] theorem Device.setPort_commitQueue (p : PortId) (q : Port) (d : Device) : (d.setPort p q).commitQueue = d.commitQueue := rfl
@[simp] theorem Device.setPort_flight (p : PortId) (q : Port) (d : Device) : (d.setPort p q).flight = d.flight := rfl
@[simp] theorem Device.setPort_reclaim (p : PortId) (q : Port) (d : Device) : (d.setPort p q).reclaim = d.reclaim := rfl
@[simp] theorem Device.setPort_fixes (p : PortId) (q : Port) (d : Device) : (d.setPort p q).fixes = d.fixes := rfl
@[simp] theorem Device.setPort_store (p : PortId) (q : Port) (d : Device) : (d.setPort p q).store = d.store := rfl
@[simp] theorem Device.setPort_supply (p : PortId) (q : Port) (d : Device) : (d.setPort p q).supply = d.supply := rfl
@[simp] theorem Device.setPort_cause (p : PortId) (q : Port) (d : Device) : (d.setPort p q).cause = d.cause := rfl
@[simp] theorem Device.setPort_resetHeld (p : PortId) (q : Port) (d : Device) : (d.setPort p q).resetHeld = d.resetHeld := rfl
@[simp] theorem Device.setPort_mount (p : PortId) (q : Port) (d : Device) : (d.setPort p q).mount = d.mount := rfl
@[simp] theorem Device.setPort_array (p : PortId) (q : Port) (d : Device) : (d.setPort p q).array = d.array := rfl
@[simp] theorem Device.setPort_now (p : PortId) (q : Port) (d : Device) : (d.setPort p q).now = d.now := rfl
@[simp] theorem Device.setPort_draws (p : PortId) (q : Port) (d : Device) : (d.setPort p q).draws = d.draws := rfl

@[simp] theorem Device.modPort_buffers (p : PortId) (f : Port → Port) (d : Device) : (d.modPort p f).buffers = d.buffers := rfl
@[simp] theorem Device.modPort_directory (p : PortId) (f : Port → Port) (d : Device) : (d.modPort p f).directory = d.directory := rfl
@[simp] theorem Device.modPort_heldSlots (p : PortId) (f : Port → Port) (d : Device) : (d.modPort p f).heldSlots = d.heldSlots := rfl
@[simp] theorem Device.modPort_table (p : PortId) (f : Port → Port) (d : Device) : (d.modPort p f).table = d.table := rfl
@[simp] theorem Device.modPort_tableInvalid (p : PortId) (f : Port → Port) (d : Device) : (d.modPort p f).tableInvalid = d.tableInvalid := rfl
@[simp] theorem Device.modPort_seqCounter (p : PortId) (f : Port → Port) (d : Device) : (d.modPort p f).seqCounter = d.seqCounter := rfl
@[simp] theorem Device.modPort_segCounter (p : PortId) (f : Port → Port) (d : Device) : (d.modPort p f).segCounter = d.segCounter := rfl
@[simp] theorem Device.modPort_segments (p : PortId) (f : Port → Port) (d : Device) : (d.modPort p f).segments = d.segments := rfl
@[simp] theorem Device.modPort_groups (p : PortId) (f : Port → Port) (d : Device) : (d.modPort p f).groups = d.groups := rfl
@[simp] theorem Device.modPort_commitQueue (p : PortId) (f : Port → Port) (d : Device) : (d.modPort p f).commitQueue = d.commitQueue := rfl
@[simp] theorem Device.modPort_flight (p : PortId) (f : Port → Port) (d : Device) : (d.modPort p f).flight = d.flight := rfl
@[simp] theorem Device.modPort_reclaim (p : PortId) (f : Port → Port) (d : Device) : (d.modPort p f).reclaim = d.reclaim := rfl
@[simp] theorem Device.modPort_fixes (p : PortId) (f : Port → Port) (d : Device) : (d.modPort p f).fixes = d.fixes := rfl
@[simp] theorem Device.modPort_store (p : PortId) (f : Port → Port) (d : Device) : (d.modPort p f).store = d.store := rfl
@[simp] theorem Device.modPort_supply (p : PortId) (f : Port → Port) (d : Device) : (d.modPort p f).supply = d.supply := rfl
@[simp] theorem Device.modPort_cause (p : PortId) (f : Port → Port) (d : Device) : (d.modPort p f).cause = d.cause := rfl
@[simp] theorem Device.modPort_resetHeld (p : PortId) (f : Port → Port) (d : Device) : (d.modPort p f).resetHeld = d.resetHeld := rfl
@[simp] theorem Device.modPort_mount (p : PortId) (f : Port → Port) (d : Device) : (d.modPort p f).mount = d.mount := rfl
@[simp] theorem Device.modPort_array (p : PortId) (f : Port → Port) (d : Device) : (d.modPort p f).array = d.array := rfl
@[simp] theorem Device.modPort_now (p : PortId) (f : Port → Port) (d : Device) : (d.modPort p f).now = d.now := rfl
@[simp] theorem Device.modPort_draws (p : PortId) (f : Port → Port) (d : Device) : (d.modPort p f).draws = d.draws := rfl

@[simp] theorem Device.mapPorts_buffers (f : PortId → Port → Port) (d : Device) : (d.mapPorts f).buffers = d.buffers := rfl
@[simp] theorem Device.mapPorts_directory (f : PortId → Port → Port) (d : Device) : (d.mapPorts f).directory = d.directory := rfl
@[simp] theorem Device.mapPorts_heldSlots (f : PortId → Port → Port) (d : Device) : (d.mapPorts f).heldSlots = d.heldSlots := rfl
@[simp] theorem Device.mapPorts_table (f : PortId → Port → Port) (d : Device) : (d.mapPorts f).table = d.table := rfl
@[simp] theorem Device.mapPorts_tableInvalid (f : PortId → Port → Port) (d : Device) : (d.mapPorts f).tableInvalid = d.tableInvalid := rfl
@[simp] theorem Device.mapPorts_seqCounter (f : PortId → Port → Port) (d : Device) : (d.mapPorts f).seqCounter = d.seqCounter := rfl
@[simp] theorem Device.mapPorts_segCounter (f : PortId → Port → Port) (d : Device) : (d.mapPorts f).segCounter = d.segCounter := rfl
@[simp] theorem Device.mapPorts_segments (f : PortId → Port → Port) (d : Device) : (d.mapPorts f).segments = d.segments := rfl
@[simp] theorem Device.mapPorts_groups (f : PortId → Port → Port) (d : Device) : (d.mapPorts f).groups = d.groups := rfl
@[simp] theorem Device.mapPorts_commitQueue (f : PortId → Port → Port) (d : Device) : (d.mapPorts f).commitQueue = d.commitQueue := rfl
@[simp] theorem Device.mapPorts_flight (f : PortId → Port → Port) (d : Device) : (d.mapPorts f).flight = d.flight := rfl
@[simp] theorem Device.mapPorts_reclaim (f : PortId → Port → Port) (d : Device) : (d.mapPorts f).reclaim = d.reclaim := rfl
@[simp] theorem Device.mapPorts_fixes (f : PortId → Port → Port) (d : Device) : (d.mapPorts f).fixes = d.fixes := rfl
@[simp] theorem Device.mapPorts_store (f : PortId → Port → Port) (d : Device) : (d.mapPorts f).store = d.store := rfl
@[simp] theorem Device.mapPorts_supply (f : PortId → Port → Port) (d : Device) : (d.mapPorts f).supply = d.supply := rfl
@[simp] theorem Device.mapPorts_cause (f : PortId → Port → Port) (d : Device) : (d.mapPorts f).cause = d.cause := rfl
@[simp] theorem Device.mapPorts_resetHeld (f : PortId → Port → Port) (d : Device) : (d.mapPorts f).resetHeld = d.resetHeld := rfl
@[simp] theorem Device.mapPorts_mount (f : PortId → Port → Port) (d : Device) : (d.mapPorts f).mount = d.mount := rfl
@[simp] theorem Device.mapPorts_array (f : PortId → Port → Port) (d : Device) : (d.mapPorts f).array = d.array := rfl
@[simp] theorem Device.mapPorts_now (f : PortId → Port → Port) (d : Device) : (d.mapPorts f).now = d.now := rfl
@[simp] theorem Device.mapPorts_draws (f : PortId → Port → Port) (d : Device) : (d.mapPorts f).draws = d.draws := rfl

@[simp] theorem Device.setHandle_buffers (p : PortId) (h : HandleNo) (x : Handle) (d : Device) : (d.setHandle p h x).buffers = d.buffers := rfl
@[simp] theorem Device.setHandle_directory (p : PortId) (h : HandleNo) (x : Handle) (d : Device) : (d.setHandle p h x).directory = d.directory := rfl
@[simp] theorem Device.setHandle_heldSlots (p : PortId) (h : HandleNo) (x : Handle) (d : Device) : (d.setHandle p h x).heldSlots = d.heldSlots := rfl
@[simp] theorem Device.setHandle_table (p : PortId) (h : HandleNo) (x : Handle) (d : Device) : (d.setHandle p h x).table = d.table := rfl
@[simp] theorem Device.setHandle_tableInvalid (p : PortId) (h : HandleNo) (x : Handle) (d : Device) : (d.setHandle p h x).tableInvalid = d.tableInvalid := rfl
@[simp] theorem Device.setHandle_seqCounter (p : PortId) (h : HandleNo) (x : Handle) (d : Device) : (d.setHandle p h x).seqCounter = d.seqCounter := rfl
@[simp] theorem Device.setHandle_segCounter (p : PortId) (h : HandleNo) (x : Handle) (d : Device) : (d.setHandle p h x).segCounter = d.segCounter := rfl
@[simp] theorem Device.setHandle_segments (p : PortId) (h : HandleNo) (x : Handle) (d : Device) : (d.setHandle p h x).segments = d.segments := rfl
@[simp] theorem Device.setHandle_groups (p : PortId) (h : HandleNo) (x : Handle) (d : Device) : (d.setHandle p h x).groups = d.groups := rfl
@[simp] theorem Device.setHandle_commitQueue (p : PortId) (h : HandleNo) (x : Handle) (d : Device) : (d.setHandle p h x).commitQueue = d.commitQueue := rfl
@[simp] theorem Device.setHandle_flight (p : PortId) (h : HandleNo) (x : Handle) (d : Device) : (d.setHandle p h x).flight = d.flight := rfl
@[simp] theorem Device.setHandle_reclaim (p : PortId) (h : HandleNo) (x : Handle) (d : Device) : (d.setHandle p h x).reclaim = d.reclaim := rfl
@[simp] theorem Device.setHandle_fixes (p : PortId) (h : HandleNo) (x : Handle) (d : Device) : (d.setHandle p h x).fixes = d.fixes := rfl
@[simp] theorem Device.setHandle_store (p : PortId) (h : HandleNo) (x : Handle) (d : Device) : (d.setHandle p h x).store = d.store := rfl
@[simp] theorem Device.setHandle_supply (p : PortId) (h : HandleNo) (x : Handle) (d : Device) : (d.setHandle p h x).supply = d.supply := rfl
@[simp] theorem Device.setHandle_cause (p : PortId) (h : HandleNo) (x : Handle) (d : Device) : (d.setHandle p h x).cause = d.cause := rfl
@[simp] theorem Device.setHandle_resetHeld (p : PortId) (h : HandleNo) (x : Handle) (d : Device) : (d.setHandle p h x).resetHeld = d.resetHeld := rfl
@[simp] theorem Device.setHandle_mount (p : PortId) (h : HandleNo) (x : Handle) (d : Device) : (d.setHandle p h x).mount = d.mount := rfl
@[simp] theorem Device.setHandle_array (p : PortId) (h : HandleNo) (x : Handle) (d : Device) : (d.setHandle p h x).array = d.array := rfl
@[simp] theorem Device.setHandle_now (p : PortId) (h : HandleNo) (x : Handle) (d : Device) : (d.setHandle p h x).now = d.now := rfl
@[simp] theorem Device.setHandle_draws (p : PortId) (h : HandleNo) (x : Handle) (d : Device) : (d.setHandle p h x).draws = d.draws := rfl

@[simp] theorem Device.renew_buffers (p : PortId) (h : HandleNo) (d : Device) : (d.renew p h).buffers = d.buffers := rfl
@[simp] theorem Device.renew_directory (p : PortId) (h : HandleNo) (d : Device) : (d.renew p h).directory = d.directory := rfl
@[simp] theorem Device.renew_heldSlots (p : PortId) (h : HandleNo) (d : Device) : (d.renew p h).heldSlots = d.heldSlots := rfl
@[simp] theorem Device.renew_table (p : PortId) (h : HandleNo) (d : Device) : (d.renew p h).table = d.table := rfl
@[simp] theorem Device.renew_tableInvalid (p : PortId) (h : HandleNo) (d : Device) : (d.renew p h).tableInvalid = d.tableInvalid := rfl
@[simp] theorem Device.renew_seqCounter (p : PortId) (h : HandleNo) (d : Device) : (d.renew p h).seqCounter = d.seqCounter := rfl
@[simp] theorem Device.renew_segCounter (p : PortId) (h : HandleNo) (d : Device) : (d.renew p h).segCounter = d.segCounter := rfl
@[simp] theorem Device.renew_segments (p : PortId) (h : HandleNo) (d : Device) : (d.renew p h).segments = d.segments := rfl
@[simp] theorem Device.renew_groups (p : PortId) (h : HandleNo) (d : Device) : (d.renew p h).groups = d.groups := rfl
@[simp] theorem Device.renew_commitQueue (p : PortId) (h : HandleNo) (d : Device) : (d.renew p h).commitQueue = d.commitQueue := rfl
@[simp] theorem Device.renew_flight (p : PortId) (h : HandleNo) (d : Device) : (d.renew p h).flight = d.flight := rfl
@[simp] theorem Device.renew_reclaim (p : PortId) (h : HandleNo) (d : Device) : (d.renew p h).reclaim = d.reclaim := rfl
@[simp] theorem Device.renew_fixes (p : PortId) (h : HandleNo) (d : Device) : (d.renew p h).fixes = d.fixes := rfl
@[simp] theorem Device.renew_store (p : PortId) (h : HandleNo) (d : Device) : (d.renew p h).store = d.store := rfl
@[simp] theorem Device.renew_supply (p : PortId) (h : HandleNo) (d : Device) : (d.renew p h).supply = d.supply := rfl
@[simp] theorem Device.renew_cause (p : PortId) (h : HandleNo) (d : Device) : (d.renew p h).cause = d.cause := rfl
@[simp] theorem Device.renew_resetHeld (p : PortId) (h : HandleNo) (d : Device) : (d.renew p h).resetHeld = d.resetHeld := rfl
@[simp] theorem Device.renew_mount (p : PortId) (h : HandleNo) (d : Device) : (d.renew p h).mount = d.mount := rfl
@[simp] theorem Device.renew_array (p : PortId) (h : HandleNo) (d : Device) : (d.renew p h).array = d.array := rfl
@[simp] theorem Device.renew_now (p : PortId) (h : HandleNo) (d : Device) : (d.renew p h).now = d.now := rfl
@[simp] theorem Device.renew_draws (p : PortId) (h : HandleNo) (d : Device) : (d.renew p h).draws = d.draws := rfl

@[simp] theorem Device.offerAll_buffers (n : Notice) (d : Device) : (d.offerAll n).buffers = d.buffers := rfl
@[simp] theorem Device.offerAll_directory (n : Notice) (d : Device) : (d.offerAll n).directory = d.directory := rfl
@[simp] theorem Device.offerAll_heldSlots (n : Notice) (d : Device) : (d.offerAll n).heldSlots = d.heldSlots := rfl
@[simp] theorem Device.offerAll_table (n : Notice) (d : Device) : (d.offerAll n).table = d.table := rfl
@[simp] theorem Device.offerAll_tableInvalid (n : Notice) (d : Device) : (d.offerAll n).tableInvalid = d.tableInvalid := rfl
@[simp] theorem Device.offerAll_seqCounter (n : Notice) (d : Device) : (d.offerAll n).seqCounter = d.seqCounter := rfl
@[simp] theorem Device.offerAll_segCounter (n : Notice) (d : Device) : (d.offerAll n).segCounter = d.segCounter := rfl
@[simp] theorem Device.offerAll_segments (n : Notice) (d : Device) : (d.offerAll n).segments = d.segments := rfl
@[simp] theorem Device.offerAll_groups (n : Notice) (d : Device) : (d.offerAll n).groups = d.groups := rfl
@[simp] theorem Device.offerAll_commitQueue (n : Notice) (d : Device) : (d.offerAll n).commitQueue = d.commitQueue := rfl
@[simp] theorem Device.offerAll_flight (n : Notice) (d : Device) : (d.offerAll n).flight = d.flight := rfl
@[simp] theorem Device.offerAll_reclaim (n : Notice) (d : Device) : (d.offerAll n).reclaim = d.reclaim := rfl
@[simp] theorem Device.offerAll_fixes (n : Notice) (d : Device) : (d.offerAll n).fixes = d.fixes := rfl
@[simp] theorem Device.offerAll_store (n : Notice) (d : Device) : (d.offerAll n).store = d.store := rfl
@[simp] theorem Device.offerAll_supply (n : Notice) (d : Device) : (d.offerAll n).supply = d.supply := rfl
@[simp] theorem Device.offerAll_cause (n : Notice) (d : Device) : (d.offerAll n).cause = d.cause := rfl
@[simp] theorem Device.offerAll_resetHeld (n : Notice) (d : Device) : (d.offerAll n).resetHeld = d.resetHeld := rfl
@[simp] theorem Device.offerAll_mount (n : Notice) (d : Device) : (d.offerAll n).mount = d.mount := rfl
@[simp] theorem Device.offerAll_array (n : Notice) (d : Device) : (d.offerAll n).array = d.array := rfl
@[simp] theorem Device.offerAll_now (n : Notice) (d : Device) : (d.offerAll n).now = d.now := rfl
@[simp] theorem Device.offerAll_draws (n : Notice) (d : Device) : (d.offerAll n).draws = d.draws := rfl

@[simp] theorem Device.offerWatchers_buffers (k : Key) (n : Notice) (d : Device) : (d.offerWatchers k n).buffers = d.buffers := rfl
@[simp] theorem Device.offerWatchers_directory (k : Key) (n : Notice) (d : Device) : (d.offerWatchers k n).directory = d.directory := rfl
@[simp] theorem Device.offerWatchers_heldSlots (k : Key) (n : Notice) (d : Device) : (d.offerWatchers k n).heldSlots = d.heldSlots := rfl
@[simp] theorem Device.offerWatchers_table (k : Key) (n : Notice) (d : Device) : (d.offerWatchers k n).table = d.table := rfl
@[simp] theorem Device.offerWatchers_tableInvalid (k : Key) (n : Notice) (d : Device) : (d.offerWatchers k n).tableInvalid = d.tableInvalid := rfl
@[simp] theorem Device.offerWatchers_seqCounter (k : Key) (n : Notice) (d : Device) : (d.offerWatchers k n).seqCounter = d.seqCounter := rfl
@[simp] theorem Device.offerWatchers_segCounter (k : Key) (n : Notice) (d : Device) : (d.offerWatchers k n).segCounter = d.segCounter := rfl
@[simp] theorem Device.offerWatchers_segments (k : Key) (n : Notice) (d : Device) : (d.offerWatchers k n).segments = d.segments := rfl
@[simp] theorem Device.offerWatchers_groups (k : Key) (n : Notice) (d : Device) : (d.offerWatchers k n).groups = d.groups := rfl
@[simp] theorem Device.offerWatchers_commitQueue (k : Key) (n : Notice) (d : Device) : (d.offerWatchers k n).commitQueue = d.commitQueue := rfl
@[simp] theorem Device.offerWatchers_flight (k : Key) (n : Notice) (d : Device) : (d.offerWatchers k n).flight = d.flight := rfl
@[simp] theorem Device.offerWatchers_reclaim (k : Key) (n : Notice) (d : Device) : (d.offerWatchers k n).reclaim = d.reclaim := rfl
@[simp] theorem Device.offerWatchers_fixes (k : Key) (n : Notice) (d : Device) : (d.offerWatchers k n).fixes = d.fixes := rfl
@[simp] theorem Device.offerWatchers_store (k : Key) (n : Notice) (d : Device) : (d.offerWatchers k n).store = d.store := rfl
@[simp] theorem Device.offerWatchers_supply (k : Key) (n : Notice) (d : Device) : (d.offerWatchers k n).supply = d.supply := rfl
@[simp] theorem Device.offerWatchers_cause (k : Key) (n : Notice) (d : Device) : (d.offerWatchers k n).cause = d.cause := rfl
@[simp] theorem Device.offerWatchers_resetHeld (k : Key) (n : Notice) (d : Device) : (d.offerWatchers k n).resetHeld = d.resetHeld := rfl
@[simp] theorem Device.offerWatchers_mount (k : Key) (n : Notice) (d : Device) : (d.offerWatchers k n).mount = d.mount := rfl
@[simp] theorem Device.offerWatchers_array (k : Key) (n : Notice) (d : Device) : (d.offerWatchers k n).array = d.array := rfl
@[simp] theorem Device.offerWatchers_now (k : Key) (n : Notice) (d : Device) : (d.offerWatchers k n).now = d.now := rfl
@[simp] theorem Device.offerWatchers_draws (k : Key) (n : Notice) (d : Device) : (d.offerWatchers k n).draws = d.draws := rfl

@[simp] theorem Device.addEntry_ports (e : Entry) (d : Device) : (d.addEntry e).ports = d.ports := rfl
@[simp] theorem Device.addEntry_buffers (e : Entry) (d : Device) : (d.addEntry e).buffers = d.buffers := rfl
@[simp] theorem Device.addEntry_heldSlots (e : Entry) (d : Device) : (d.addEntry e).heldSlots = d.heldSlots := rfl
@[simp] theorem Device.addEntry_table (e : Entry) (d : Device) : (d.addEntry e).table = d.table := rfl
@[simp] theorem Device.addEntry_tableInvalid (e : Entry) (d : Device) : (d.addEntry e).tableInvalid = d.tableInvalid := rfl
@[simp] theorem Device.addEntry_seqCounter (e : Entry) (d : Device) : (d.addEntry e).seqCounter = d.seqCounter := rfl
@[simp] theorem Device.addEntry_segCounter (e : Entry) (d : Device) : (d.addEntry e).segCounter = d.segCounter := rfl
@[simp] theorem Device.addEntry_segments (e : Entry) (d : Device) : (d.addEntry e).segments = d.segments := rfl
@[simp] theorem Device.addEntry_groups (e : Entry) (d : Device) : (d.addEntry e).groups = d.groups := rfl
@[simp] theorem Device.addEntry_commitQueue (e : Entry) (d : Device) : (d.addEntry e).commitQueue = d.commitQueue := rfl
@[simp] theorem Device.addEntry_flight (e : Entry) (d : Device) : (d.addEntry e).flight = d.flight := rfl
@[simp] theorem Device.addEntry_reclaim (e : Entry) (d : Device) : (d.addEntry e).reclaim = d.reclaim := rfl
@[simp] theorem Device.addEntry_fixes (e : Entry) (d : Device) : (d.addEntry e).fixes = d.fixes := rfl
@[simp] theorem Device.addEntry_store (e : Entry) (d : Device) : (d.addEntry e).store = d.store := rfl
@[simp] theorem Device.addEntry_supply (e : Entry) (d : Device) : (d.addEntry e).supply = d.supply := rfl
@[simp] theorem Device.addEntry_cause (e : Entry) (d : Device) : (d.addEntry e).cause = d.cause := rfl
@[simp] theorem Device.addEntry_resetHeld (e : Entry) (d : Device) : (d.addEntry e).resetHeld = d.resetHeld := rfl
@[simp] theorem Device.addEntry_mount (e : Entry) (d : Device) : (d.addEntry e).mount = d.mount := rfl
@[simp] theorem Device.addEntry_array (e : Entry) (d : Device) : (d.addEntry e).array = d.array := rfl
@[simp] theorem Device.addEntry_now (e : Entry) (d : Device) : (d.addEntry e).now = d.now := rfl
@[simp] theorem Device.addEntry_draws (e : Entry) (d : Device) : (d.addEntry e).draws = d.draws := rfl

@[simp] theorem Device.removeEntry_ports (k : Key) (d : Device) : (d.removeEntry k).ports = d.ports := rfl
@[simp] theorem Device.removeEntry_buffers (k : Key) (d : Device) : (d.removeEntry k).buffers = d.buffers := rfl
@[simp] theorem Device.removeEntry_heldSlots (k : Key) (d : Device) : (d.removeEntry k).heldSlots = d.heldSlots := rfl
@[simp] theorem Device.removeEntry_table (k : Key) (d : Device) : (d.removeEntry k).table = d.table := rfl
@[simp] theorem Device.removeEntry_tableInvalid (k : Key) (d : Device) : (d.removeEntry k).tableInvalid = d.tableInvalid := rfl
@[simp] theorem Device.removeEntry_seqCounter (k : Key) (d : Device) : (d.removeEntry k).seqCounter = d.seqCounter := rfl
@[simp] theorem Device.removeEntry_segCounter (k : Key) (d : Device) : (d.removeEntry k).segCounter = d.segCounter := rfl
@[simp] theorem Device.removeEntry_segments (k : Key) (d : Device) : (d.removeEntry k).segments = d.segments := rfl
@[simp] theorem Device.removeEntry_groups (k : Key) (d : Device) : (d.removeEntry k).groups = d.groups := rfl
@[simp] theorem Device.removeEntry_commitQueue (k : Key) (d : Device) : (d.removeEntry k).commitQueue = d.commitQueue := rfl
@[simp] theorem Device.removeEntry_flight (k : Key) (d : Device) : (d.removeEntry k).flight = d.flight := rfl
@[simp] theorem Device.removeEntry_reclaim (k : Key) (d : Device) : (d.removeEntry k).reclaim = d.reclaim := rfl
@[simp] theorem Device.removeEntry_fixes (k : Key) (d : Device) : (d.removeEntry k).fixes = d.fixes := rfl
@[simp] theorem Device.removeEntry_store (k : Key) (d : Device) : (d.removeEntry k).store = d.store := rfl
@[simp] theorem Device.removeEntry_supply (k : Key) (d : Device) : (d.removeEntry k).supply = d.supply := rfl
@[simp] theorem Device.removeEntry_cause (k : Key) (d : Device) : (d.removeEntry k).cause = d.cause := rfl
@[simp] theorem Device.removeEntry_resetHeld (k : Key) (d : Device) : (d.removeEntry k).resetHeld = d.resetHeld := rfl
@[simp] theorem Device.removeEntry_mount (k : Key) (d : Device) : (d.removeEntry k).mount = d.mount := rfl
@[simp] theorem Device.removeEntry_array (k : Key) (d : Device) : (d.removeEntry k).array = d.array := rfl
@[simp] theorem Device.removeEntry_now (k : Key) (d : Device) : (d.removeEntry k).now = d.now := rfl
@[simp] theorem Device.removeEntry_draws (k : Key) (d : Device) : (d.removeEntry k).draws = d.draws := rfl

@[simp] theorem Device.modEntry_ports (k : Key) (f : Entry → Entry) (d : Device) : (d.modEntry k f).ports = d.ports := rfl
@[simp] theorem Device.modEntry_buffers (k : Key) (f : Entry → Entry) (d : Device) : (d.modEntry k f).buffers = d.buffers := rfl
@[simp] theorem Device.modEntry_heldSlots (k : Key) (f : Entry → Entry) (d : Device) : (d.modEntry k f).heldSlots = d.heldSlots := rfl
@[simp] theorem Device.modEntry_table (k : Key) (f : Entry → Entry) (d : Device) : (d.modEntry k f).table = d.table := rfl
@[simp] theorem Device.modEntry_tableInvalid (k : Key) (f : Entry → Entry) (d : Device) : (d.modEntry k f).tableInvalid = d.tableInvalid := rfl
@[simp] theorem Device.modEntry_seqCounter (k : Key) (f : Entry → Entry) (d : Device) : (d.modEntry k f).seqCounter = d.seqCounter := rfl
@[simp] theorem Device.modEntry_segCounter (k : Key) (f : Entry → Entry) (d : Device) : (d.modEntry k f).segCounter = d.segCounter := rfl
@[simp] theorem Device.modEntry_segments (k : Key) (f : Entry → Entry) (d : Device) : (d.modEntry k f).segments = d.segments := rfl
@[simp] theorem Device.modEntry_groups (k : Key) (f : Entry → Entry) (d : Device) : (d.modEntry k f).groups = d.groups := rfl
@[simp] theorem Device.modEntry_commitQueue (k : Key) (f : Entry → Entry) (d : Device) : (d.modEntry k f).commitQueue = d.commitQueue := rfl
@[simp] theorem Device.modEntry_flight (k : Key) (f : Entry → Entry) (d : Device) : (d.modEntry k f).flight = d.flight := rfl
@[simp] theorem Device.modEntry_reclaim (k : Key) (f : Entry → Entry) (d : Device) : (d.modEntry k f).reclaim = d.reclaim := rfl
@[simp] theorem Device.modEntry_fixes (k : Key) (f : Entry → Entry) (d : Device) : (d.modEntry k f).fixes = d.fixes := rfl
@[simp] theorem Device.modEntry_store (k : Key) (f : Entry → Entry) (d : Device) : (d.modEntry k f).store = d.store := rfl
@[simp] theorem Device.modEntry_supply (k : Key) (f : Entry → Entry) (d : Device) : (d.modEntry k f).supply = d.supply := rfl
@[simp] theorem Device.modEntry_cause (k : Key) (f : Entry → Entry) (d : Device) : (d.modEntry k f).cause = d.cause := rfl
@[simp] theorem Device.modEntry_resetHeld (k : Key) (f : Entry → Entry) (d : Device) : (d.modEntry k f).resetHeld = d.resetHeld := rfl
@[simp] theorem Device.modEntry_mount (k : Key) (f : Entry → Entry) (d : Device) : (d.modEntry k f).mount = d.mount := rfl
@[simp] theorem Device.modEntry_array (k : Key) (f : Entry → Entry) (d : Device) : (d.modEntry k f).array = d.array := rfl
@[simp] theorem Device.modEntry_now (k : Key) (f : Entry → Entry) (d : Device) : (d.modEntry k f).now = d.now := rfl
@[simp] theorem Device.modEntry_draws (k : Key) (f : Entry → Entry) (d : Device) : (d.modEntry k f).draws = d.draws := rfl

@[simp] theorem Device.modSegment_ports (i : Nat) (f : SegmentRecord → SegmentRecord) (d : Device) : (d.modSegment i f).ports = d.ports := rfl
@[simp] theorem Device.modSegment_buffers (i : Nat) (f : SegmentRecord → SegmentRecord) (d : Device) : (d.modSegment i f).buffers = d.buffers := rfl
@[simp] theorem Device.modSegment_directory (i : Nat) (f : SegmentRecord → SegmentRecord) (d : Device) : (d.modSegment i f).directory = d.directory := rfl
@[simp] theorem Device.modSegment_heldSlots (i : Nat) (f : SegmentRecord → SegmentRecord) (d : Device) : (d.modSegment i f).heldSlots = d.heldSlots := rfl
@[simp] theorem Device.modSegment_table (i : Nat) (f : SegmentRecord → SegmentRecord) (d : Device) : (d.modSegment i f).table = d.table := rfl
@[simp] theorem Device.modSegment_tableInvalid (i : Nat) (f : SegmentRecord → SegmentRecord) (d : Device) : (d.modSegment i f).tableInvalid = d.tableInvalid := rfl
@[simp] theorem Device.modSegment_seqCounter (i : Nat) (f : SegmentRecord → SegmentRecord) (d : Device) : (d.modSegment i f).seqCounter = d.seqCounter := rfl
@[simp] theorem Device.modSegment_segCounter (i : Nat) (f : SegmentRecord → SegmentRecord) (d : Device) : (d.modSegment i f).segCounter = d.segCounter := rfl
@[simp] theorem Device.modSegment_groups (i : Nat) (f : SegmentRecord → SegmentRecord) (d : Device) : (d.modSegment i f).groups = d.groups := rfl
@[simp] theorem Device.modSegment_commitQueue (i : Nat) (f : SegmentRecord → SegmentRecord) (d : Device) : (d.modSegment i f).commitQueue = d.commitQueue := rfl
@[simp] theorem Device.modSegment_flight (i : Nat) (f : SegmentRecord → SegmentRecord) (d : Device) : (d.modSegment i f).flight = d.flight := rfl
@[simp] theorem Device.modSegment_reclaim (i : Nat) (f : SegmentRecord → SegmentRecord) (d : Device) : (d.modSegment i f).reclaim = d.reclaim := rfl
@[simp] theorem Device.modSegment_fixes (i : Nat) (f : SegmentRecord → SegmentRecord) (d : Device) : (d.modSegment i f).fixes = d.fixes := rfl
@[simp] theorem Device.modSegment_store (i : Nat) (f : SegmentRecord → SegmentRecord) (d : Device) : (d.modSegment i f).store = d.store := rfl
@[simp] theorem Device.modSegment_supply (i : Nat) (f : SegmentRecord → SegmentRecord) (d : Device) : (d.modSegment i f).supply = d.supply := rfl
@[simp] theorem Device.modSegment_cause (i : Nat) (f : SegmentRecord → SegmentRecord) (d : Device) : (d.modSegment i f).cause = d.cause := rfl
@[simp] theorem Device.modSegment_resetHeld (i : Nat) (f : SegmentRecord → SegmentRecord) (d : Device) : (d.modSegment i f).resetHeld = d.resetHeld := rfl
@[simp] theorem Device.modSegment_mount (i : Nat) (f : SegmentRecord → SegmentRecord) (d : Device) : (d.modSegment i f).mount = d.mount := rfl
@[simp] theorem Device.modSegment_array (i : Nat) (f : SegmentRecord → SegmentRecord) (d : Device) : (d.modSegment i f).array = d.array := rfl
@[simp] theorem Device.modSegment_now (i : Nat) (f : SegmentRecord → SegmentRecord) (d : Device) : (d.modSegment i f).now = d.now := rfl
@[simp] theorem Device.modSegment_draws (i : Nat) (f : SegmentRecord → SegmentRecord) (d : Device) : (d.modSegment i f).draws = d.draws := rfl

@[simp] theorem Device.setBuffer_ports (b : BufferNo) (x : Buffer) (d : Device) : (d.setBuffer b x).ports = d.ports := rfl
@[simp] theorem Device.setBuffer_directory (b : BufferNo) (x : Buffer) (d : Device) : (d.setBuffer b x).directory = d.directory := rfl
@[simp] theorem Device.setBuffer_heldSlots (b : BufferNo) (x : Buffer) (d : Device) : (d.setBuffer b x).heldSlots = d.heldSlots := rfl
@[simp] theorem Device.setBuffer_table (b : BufferNo) (x : Buffer) (d : Device) : (d.setBuffer b x).table = d.table := rfl
@[simp] theorem Device.setBuffer_tableInvalid (b : BufferNo) (x : Buffer) (d : Device) : (d.setBuffer b x).tableInvalid = d.tableInvalid := rfl
@[simp] theorem Device.setBuffer_seqCounter (b : BufferNo) (x : Buffer) (d : Device) : (d.setBuffer b x).seqCounter = d.seqCounter := rfl
@[simp] theorem Device.setBuffer_segCounter (b : BufferNo) (x : Buffer) (d : Device) : (d.setBuffer b x).segCounter = d.segCounter := rfl
@[simp] theorem Device.setBuffer_segments (b : BufferNo) (x : Buffer) (d : Device) : (d.setBuffer b x).segments = d.segments := rfl
@[simp] theorem Device.setBuffer_groups (b : BufferNo) (x : Buffer) (d : Device) : (d.setBuffer b x).groups = d.groups := rfl
@[simp] theorem Device.setBuffer_commitQueue (b : BufferNo) (x : Buffer) (d : Device) : (d.setBuffer b x).commitQueue = d.commitQueue := rfl
@[simp] theorem Device.setBuffer_flight (b : BufferNo) (x : Buffer) (d : Device) : (d.setBuffer b x).flight = d.flight := rfl
@[simp] theorem Device.setBuffer_reclaim (b : BufferNo) (x : Buffer) (d : Device) : (d.setBuffer b x).reclaim = d.reclaim := rfl
@[simp] theorem Device.setBuffer_fixes (b : BufferNo) (x : Buffer) (d : Device) : (d.setBuffer b x).fixes = d.fixes := rfl
@[simp] theorem Device.setBuffer_store (b : BufferNo) (x : Buffer) (d : Device) : (d.setBuffer b x).store = d.store := rfl
@[simp] theorem Device.setBuffer_supply (b : BufferNo) (x : Buffer) (d : Device) : (d.setBuffer b x).supply = d.supply := rfl
@[simp] theorem Device.setBuffer_cause (b : BufferNo) (x : Buffer) (d : Device) : (d.setBuffer b x).cause = d.cause := rfl
@[simp] theorem Device.setBuffer_resetHeld (b : BufferNo) (x : Buffer) (d : Device) : (d.setBuffer b x).resetHeld = d.resetHeld := rfl
@[simp] theorem Device.setBuffer_mount (b : BufferNo) (x : Buffer) (d : Device) : (d.setBuffer b x).mount = d.mount := rfl
@[simp] theorem Device.setBuffer_array (b : BufferNo) (x : Buffer) (d : Device) : (d.setBuffer b x).array = d.array := rfl
@[simp] theorem Device.setBuffer_now (b : BufferNo) (x : Buffer) (d : Device) : (d.setBuffer b x).now = d.now := rfl
@[simp] theorem Device.setBuffer_draws (b : BufferNo) (x : Buffer) (d : Device) : (d.setBuffer b x).draws = d.draws := rfl

@[simp] theorem Device.freeBuffer_ports (b : BufferNo) (d : Device) : (d.freeBuffer b).ports = d.ports := rfl
@[simp] theorem Device.freeBuffer_directory (b : BufferNo) (d : Device) : (d.freeBuffer b).directory = d.directory := rfl
@[simp] theorem Device.freeBuffer_heldSlots (b : BufferNo) (d : Device) : (d.freeBuffer b).heldSlots = d.heldSlots := rfl
@[simp] theorem Device.freeBuffer_table (b : BufferNo) (d : Device) : (d.freeBuffer b).table = d.table := rfl
@[simp] theorem Device.freeBuffer_tableInvalid (b : BufferNo) (d : Device) : (d.freeBuffer b).tableInvalid = d.tableInvalid := rfl
@[simp] theorem Device.freeBuffer_seqCounter (b : BufferNo) (d : Device) : (d.freeBuffer b).seqCounter = d.seqCounter := rfl
@[simp] theorem Device.freeBuffer_segCounter (b : BufferNo) (d : Device) : (d.freeBuffer b).segCounter = d.segCounter := rfl
@[simp] theorem Device.freeBuffer_segments (b : BufferNo) (d : Device) : (d.freeBuffer b).segments = d.segments := rfl
@[simp] theorem Device.freeBuffer_groups (b : BufferNo) (d : Device) : (d.freeBuffer b).groups = d.groups := rfl
@[simp] theorem Device.freeBuffer_commitQueue (b : BufferNo) (d : Device) : (d.freeBuffer b).commitQueue = d.commitQueue := rfl
@[simp] theorem Device.freeBuffer_flight (b : BufferNo) (d : Device) : (d.freeBuffer b).flight = d.flight := rfl
@[simp] theorem Device.freeBuffer_reclaim (b : BufferNo) (d : Device) : (d.freeBuffer b).reclaim = d.reclaim := rfl
@[simp] theorem Device.freeBuffer_fixes (b : BufferNo) (d : Device) : (d.freeBuffer b).fixes = d.fixes := rfl
@[simp] theorem Device.freeBuffer_store (b : BufferNo) (d : Device) : (d.freeBuffer b).store = d.store := rfl
@[simp] theorem Device.freeBuffer_supply (b : BufferNo) (d : Device) : (d.freeBuffer b).supply = d.supply := rfl
@[simp] theorem Device.freeBuffer_cause (b : BufferNo) (d : Device) : (d.freeBuffer b).cause = d.cause := rfl
@[simp] theorem Device.freeBuffer_resetHeld (b : BufferNo) (d : Device) : (d.freeBuffer b).resetHeld = d.resetHeld := rfl
@[simp] theorem Device.freeBuffer_mount (b : BufferNo) (d : Device) : (d.freeBuffer b).mount = d.mount := rfl
@[simp] theorem Device.freeBuffer_array (b : BufferNo) (d : Device) : (d.freeBuffer b).array = d.array := rfl
@[simp] theorem Device.freeBuffer_now (b : BufferNo) (d : Device) : (d.freeBuffer b).now = d.now := rfl
@[simp] theorem Device.freeBuffer_draws (b : BufferNo) (d : Device) : (d.freeBuffer b).draws = d.draws := rfl

@[simp] theorem Device.setGroup_ports (i : Nat) (g : GroupEntry) (d : Device) : (d.setGroup i g).ports = d.ports := rfl
@[simp] theorem Device.setGroup_buffers (i : Nat) (g : GroupEntry) (d : Device) : (d.setGroup i g).buffers = d.buffers := rfl
@[simp] theorem Device.setGroup_directory (i : Nat) (g : GroupEntry) (d : Device) : (d.setGroup i g).directory = d.directory := rfl
@[simp] theorem Device.setGroup_heldSlots (i : Nat) (g : GroupEntry) (d : Device) : (d.setGroup i g).heldSlots = d.heldSlots := rfl
@[simp] theorem Device.setGroup_table (i : Nat) (g : GroupEntry) (d : Device) : (d.setGroup i g).table = d.table := rfl
@[simp] theorem Device.setGroup_tableInvalid (i : Nat) (g : GroupEntry) (d : Device) : (d.setGroup i g).tableInvalid = d.tableInvalid := rfl
@[simp] theorem Device.setGroup_seqCounter (i : Nat) (g : GroupEntry) (d : Device) : (d.setGroup i g).seqCounter = d.seqCounter := rfl
@[simp] theorem Device.setGroup_segCounter (i : Nat) (g : GroupEntry) (d : Device) : (d.setGroup i g).segCounter = d.segCounter := rfl
@[simp] theorem Device.setGroup_segments (i : Nat) (g : GroupEntry) (d : Device) : (d.setGroup i g).segments = d.segments := rfl
@[simp] theorem Device.setGroup_commitQueue (i : Nat) (g : GroupEntry) (d : Device) : (d.setGroup i g).commitQueue = d.commitQueue := rfl
@[simp] theorem Device.setGroup_flight (i : Nat) (g : GroupEntry) (d : Device) : (d.setGroup i g).flight = d.flight := rfl
@[simp] theorem Device.setGroup_reclaim (i : Nat) (g : GroupEntry) (d : Device) : (d.setGroup i g).reclaim = d.reclaim := rfl
@[simp] theorem Device.setGroup_fixes (i : Nat) (g : GroupEntry) (d : Device) : (d.setGroup i g).fixes = d.fixes := rfl
@[simp] theorem Device.setGroup_store (i : Nat) (g : GroupEntry) (d : Device) : (d.setGroup i g).store = d.store := rfl
@[simp] theorem Device.setGroup_supply (i : Nat) (g : GroupEntry) (d : Device) : (d.setGroup i g).supply = d.supply := rfl
@[simp] theorem Device.setGroup_cause (i : Nat) (g : GroupEntry) (d : Device) : (d.setGroup i g).cause = d.cause := rfl
@[simp] theorem Device.setGroup_resetHeld (i : Nat) (g : GroupEntry) (d : Device) : (d.setGroup i g).resetHeld = d.resetHeld := rfl
@[simp] theorem Device.setGroup_mount (i : Nat) (g : GroupEntry) (d : Device) : (d.setGroup i g).mount = d.mount := rfl
@[simp] theorem Device.setGroup_array (i : Nat) (g : GroupEntry) (d : Device) : (d.setGroup i g).array = d.array := rfl
@[simp] theorem Device.setGroup_now (i : Nat) (g : GroupEntry) (d : Device) : (d.setGroup i g).now = d.now := rfl
@[simp] theorem Device.setGroup_draws (i : Nat) (g : GroupEntry) (d : Device) : (d.setGroup i g).draws = d.draws := rfl

@[simp] theorem Device.modCell_ports (l : Loc) (f : Cell → Cell) (d : Device) : (d.modCell l f).ports = d.ports := rfl
@[simp] theorem Device.modCell_buffers (l : Loc) (f : Cell → Cell) (d : Device) : (d.modCell l f).buffers = d.buffers := rfl
@[simp] theorem Device.modCell_directory (l : Loc) (f : Cell → Cell) (d : Device) : (d.modCell l f).directory = d.directory := rfl
@[simp] theorem Device.modCell_heldSlots (l : Loc) (f : Cell → Cell) (d : Device) : (d.modCell l f).heldSlots = d.heldSlots := rfl
@[simp] theorem Device.modCell_table (l : Loc) (f : Cell → Cell) (d : Device) : (d.modCell l f).table = d.table := rfl
@[simp] theorem Device.modCell_tableInvalid (l : Loc) (f : Cell → Cell) (d : Device) : (d.modCell l f).tableInvalid = d.tableInvalid := rfl
@[simp] theorem Device.modCell_seqCounter (l : Loc) (f : Cell → Cell) (d : Device) : (d.modCell l f).seqCounter = d.seqCounter := rfl
@[simp] theorem Device.modCell_segCounter (l : Loc) (f : Cell → Cell) (d : Device) : (d.modCell l f).segCounter = d.segCounter := rfl
@[simp] theorem Device.modCell_segments (l : Loc) (f : Cell → Cell) (d : Device) : (d.modCell l f).segments = d.segments := rfl
@[simp] theorem Device.modCell_groups (l : Loc) (f : Cell → Cell) (d : Device) : (d.modCell l f).groups = d.groups := rfl
@[simp] theorem Device.modCell_commitQueue (l : Loc) (f : Cell → Cell) (d : Device) : (d.modCell l f).commitQueue = d.commitQueue := rfl
@[simp] theorem Device.modCell_flight (l : Loc) (f : Cell → Cell) (d : Device) : (d.modCell l f).flight = d.flight := rfl
@[simp] theorem Device.modCell_reclaim (l : Loc) (f : Cell → Cell) (d : Device) : (d.modCell l f).reclaim = d.reclaim := rfl
@[simp] theorem Device.modCell_fixes (l : Loc) (f : Cell → Cell) (d : Device) : (d.modCell l f).fixes = d.fixes := rfl
@[simp] theorem Device.modCell_store (l : Loc) (f : Cell → Cell) (d : Device) : (d.modCell l f).store = d.store := rfl
@[simp] theorem Device.modCell_supply (l : Loc) (f : Cell → Cell) (d : Device) : (d.modCell l f).supply = d.supply := rfl
@[simp] theorem Device.modCell_cause (l : Loc) (f : Cell → Cell) (d : Device) : (d.modCell l f).cause = d.cause := rfl
@[simp] theorem Device.modCell_resetHeld (l : Loc) (f : Cell → Cell) (d : Device) : (d.modCell l f).resetHeld = d.resetHeld := rfl
@[simp] theorem Device.modCell_mount (l : Loc) (f : Cell → Cell) (d : Device) : (d.modCell l f).mount = d.mount := rfl
@[simp] theorem Device.modCell_now (l : Loc) (f : Cell → Cell) (d : Device) : (d.modCell l f).now = d.now := rfl
@[simp] theorem Device.modCell_draws (l : Loc) (f : Cell → Cell) (d : Device) : (d.modCell l f).draws = d.draws := rfl

@[simp] theorem Device.modHeader_ports (i : Nat) (f : SegmentHeader → SegmentHeader) (d : Device) : (d.modHeader i f).ports = d.ports := rfl
@[simp] theorem Device.modHeader_buffers (i : Nat) (f : SegmentHeader → SegmentHeader) (d : Device) : (d.modHeader i f).buffers = d.buffers := rfl
@[simp] theorem Device.modHeader_directory (i : Nat) (f : SegmentHeader → SegmentHeader) (d : Device) : (d.modHeader i f).directory = d.directory := rfl
@[simp] theorem Device.modHeader_heldSlots (i : Nat) (f : SegmentHeader → SegmentHeader) (d : Device) : (d.modHeader i f).heldSlots = d.heldSlots := rfl
@[simp] theorem Device.modHeader_table (i : Nat) (f : SegmentHeader → SegmentHeader) (d : Device) : (d.modHeader i f).table = d.table := rfl
@[simp] theorem Device.modHeader_tableInvalid (i : Nat) (f : SegmentHeader → SegmentHeader) (d : Device) : (d.modHeader i f).tableInvalid = d.tableInvalid := rfl
@[simp] theorem Device.modHeader_seqCounter (i : Nat) (f : SegmentHeader → SegmentHeader) (d : Device) : (d.modHeader i f).seqCounter = d.seqCounter := rfl
@[simp] theorem Device.modHeader_segCounter (i : Nat) (f : SegmentHeader → SegmentHeader) (d : Device) : (d.modHeader i f).segCounter = d.segCounter := rfl
@[simp] theorem Device.modHeader_segments (i : Nat) (f : SegmentHeader → SegmentHeader) (d : Device) : (d.modHeader i f).segments = d.segments := rfl
@[simp] theorem Device.modHeader_groups (i : Nat) (f : SegmentHeader → SegmentHeader) (d : Device) : (d.modHeader i f).groups = d.groups := rfl
@[simp] theorem Device.modHeader_commitQueue (i : Nat) (f : SegmentHeader → SegmentHeader) (d : Device) : (d.modHeader i f).commitQueue = d.commitQueue := rfl
@[simp] theorem Device.modHeader_flight (i : Nat) (f : SegmentHeader → SegmentHeader) (d : Device) : (d.modHeader i f).flight = d.flight := rfl
@[simp] theorem Device.modHeader_reclaim (i : Nat) (f : SegmentHeader → SegmentHeader) (d : Device) : (d.modHeader i f).reclaim = d.reclaim := rfl
@[simp] theorem Device.modHeader_fixes (i : Nat) (f : SegmentHeader → SegmentHeader) (d : Device) : (d.modHeader i f).fixes = d.fixes := rfl
@[simp] theorem Device.modHeader_store (i : Nat) (f : SegmentHeader → SegmentHeader) (d : Device) : (d.modHeader i f).store = d.store := rfl
@[simp] theorem Device.modHeader_supply (i : Nat) (f : SegmentHeader → SegmentHeader) (d : Device) : (d.modHeader i f).supply = d.supply := rfl
@[simp] theorem Device.modHeader_cause (i : Nat) (f : SegmentHeader → SegmentHeader) (d : Device) : (d.modHeader i f).cause = d.cause := rfl
@[simp] theorem Device.modHeader_resetHeld (i : Nat) (f : SegmentHeader → SegmentHeader) (d : Device) : (d.modHeader i f).resetHeld = d.resetHeld := rfl
@[simp] theorem Device.modHeader_mount (i : Nat) (f : SegmentHeader → SegmentHeader) (d : Device) : (d.modHeader i f).mount = d.mount := rfl
@[simp] theorem Device.modHeader_now (i : Nat) (f : SegmentHeader → SegmentHeader) (d : Device) : (d.modHeader i f).now = d.now := rfl
@[simp] theorem Device.modHeader_draws (i : Nat) (f : SegmentHeader → SegmentHeader) (d : Device) : (d.modHeader i f).draws = d.draws := rfl

@[simp] theorem Device.setFlight_ports (u : Option EngineUnit) (d : Device) : (d.setFlight u).ports = d.ports := rfl
@[simp] theorem Device.setFlight_buffers (u : Option EngineUnit) (d : Device) : (d.setFlight u).buffers = d.buffers := rfl
@[simp] theorem Device.setFlight_directory (u : Option EngineUnit) (d : Device) : (d.setFlight u).directory = d.directory := rfl
@[simp] theorem Device.setFlight_heldSlots (u : Option EngineUnit) (d : Device) : (d.setFlight u).heldSlots = d.heldSlots := rfl
@[simp] theorem Device.setFlight_table (u : Option EngineUnit) (d : Device) : (d.setFlight u).table = d.table := rfl
@[simp] theorem Device.setFlight_tableInvalid (u : Option EngineUnit) (d : Device) : (d.setFlight u).tableInvalid = d.tableInvalid := rfl
@[simp] theorem Device.setFlight_seqCounter (u : Option EngineUnit) (d : Device) : (d.setFlight u).seqCounter = d.seqCounter := rfl
@[simp] theorem Device.setFlight_segCounter (u : Option EngineUnit) (d : Device) : (d.setFlight u).segCounter = d.segCounter := rfl
@[simp] theorem Device.setFlight_segments (u : Option EngineUnit) (d : Device) : (d.setFlight u).segments = d.segments := rfl
@[simp] theorem Device.setFlight_groups (u : Option EngineUnit) (d : Device) : (d.setFlight u).groups = d.groups := rfl
@[simp] theorem Device.setFlight_commitQueue (u : Option EngineUnit) (d : Device) : (d.setFlight u).commitQueue = d.commitQueue := rfl
@[simp] theorem Device.setFlight_reclaim (u : Option EngineUnit) (d : Device) : (d.setFlight u).reclaim = d.reclaim := rfl
@[simp] theorem Device.setFlight_fixes (u : Option EngineUnit) (d : Device) : (d.setFlight u).fixes = d.fixes := rfl
@[simp] theorem Device.setFlight_store (u : Option EngineUnit) (d : Device) : (d.setFlight u).store = d.store := rfl
@[simp] theorem Device.setFlight_supply (u : Option EngineUnit) (d : Device) : (d.setFlight u).supply = d.supply := rfl
@[simp] theorem Device.setFlight_cause (u : Option EngineUnit) (d : Device) : (d.setFlight u).cause = d.cause := rfl
@[simp] theorem Device.setFlight_resetHeld (u : Option EngineUnit) (d : Device) : (d.setFlight u).resetHeld = d.resetHeld := rfl
@[simp] theorem Device.setFlight_mount (u : Option EngineUnit) (d : Device) : (d.setFlight u).mount = d.mount := rfl
@[simp] theorem Device.setFlight_array (u : Option EngineUnit) (d : Device) : (d.setFlight u).array = d.array := rfl
@[simp] theorem Device.setFlight_now (u : Option EngineUnit) (d : Device) : (d.setFlight u).now = d.now := rfl
@[simp] theorem Device.setFlight_draws (u : Option EngineUnit) (d : Device) : (d.setFlight u).draws = d.draws := rfl

@[simp] theorem Device.countRequest_buffers (p : PortId) (d : Device) : (d.countRequest p).buffers = d.buffers := rfl
@[simp] theorem Device.countRequest_directory (p : PortId) (d : Device) : (d.countRequest p).directory = d.directory := rfl
@[simp] theorem Device.countRequest_heldSlots (p : PortId) (d : Device) : (d.countRequest p).heldSlots = d.heldSlots := rfl
@[simp] theorem Device.countRequest_table (p : PortId) (d : Device) : (d.countRequest p).table = d.table := rfl
@[simp] theorem Device.countRequest_tableInvalid (p : PortId) (d : Device) : (d.countRequest p).tableInvalid = d.tableInvalid := rfl
@[simp] theorem Device.countRequest_seqCounter (p : PortId) (d : Device) : (d.countRequest p).seqCounter = d.seqCounter := rfl
@[simp] theorem Device.countRequest_segCounter (p : PortId) (d : Device) : (d.countRequest p).segCounter = d.segCounter := rfl
@[simp] theorem Device.countRequest_segments (p : PortId) (d : Device) : (d.countRequest p).segments = d.segments := rfl
@[simp] theorem Device.countRequest_groups (p : PortId) (d : Device) : (d.countRequest p).groups = d.groups := rfl
@[simp] theorem Device.countRequest_commitQueue (p : PortId) (d : Device) : (d.countRequest p).commitQueue = d.commitQueue := rfl
@[simp] theorem Device.countRequest_flight (p : PortId) (d : Device) : (d.countRequest p).flight = d.flight := rfl
@[simp] theorem Device.countRequest_reclaim (p : PortId) (d : Device) : (d.countRequest p).reclaim = d.reclaim := rfl
@[simp] theorem Device.countRequest_fixes (p : PortId) (d : Device) : (d.countRequest p).fixes = d.fixes := rfl
@[simp] theorem Device.countRequest_store (p : PortId) (d : Device) : (d.countRequest p).store = d.store := rfl
@[simp] theorem Device.countRequest_supply (p : PortId) (d : Device) : (d.countRequest p).supply = d.supply := rfl
@[simp] theorem Device.countRequest_cause (p : PortId) (d : Device) : (d.countRequest p).cause = d.cause := rfl
@[simp] theorem Device.countRequest_resetHeld (p : PortId) (d : Device) : (d.countRequest p).resetHeld = d.resetHeld := rfl
@[simp] theorem Device.countRequest_mount (p : PortId) (d : Device) : (d.countRequest p).mount = d.mount := rfl
@[simp] theorem Device.countRequest_array (p : PortId) (d : Device) : (d.countRequest p).array = d.array := rfl
@[simp] theorem Device.countRequest_now (p : PortId) (d : Device) : (d.countRequest p).now = d.now := rfl
@[simp] theorem Device.countRequest_draws (p : PortId) (d : Device) : (d.countRequest p).draws = d.draws := rfl

@[simp] theorem Device.closeFrame_buffers (p : PortId) (d : Device) : (d.closeFrame p).buffers = d.buffers := rfl
@[simp] theorem Device.closeFrame_directory (p : PortId) (d : Device) : (d.closeFrame p).directory = d.directory := rfl
@[simp] theorem Device.closeFrame_heldSlots (p : PortId) (d : Device) : (d.closeFrame p).heldSlots = d.heldSlots := rfl
@[simp] theorem Device.closeFrame_table (p : PortId) (d : Device) : (d.closeFrame p).table = d.table := rfl
@[simp] theorem Device.closeFrame_tableInvalid (p : PortId) (d : Device) : (d.closeFrame p).tableInvalid = d.tableInvalid := rfl
@[simp] theorem Device.closeFrame_seqCounter (p : PortId) (d : Device) : (d.closeFrame p).seqCounter = d.seqCounter := rfl
@[simp] theorem Device.closeFrame_segCounter (p : PortId) (d : Device) : (d.closeFrame p).segCounter = d.segCounter := rfl
@[simp] theorem Device.closeFrame_segments (p : PortId) (d : Device) : (d.closeFrame p).segments = d.segments := rfl
@[simp] theorem Device.closeFrame_groups (p : PortId) (d : Device) : (d.closeFrame p).groups = d.groups := rfl
@[simp] theorem Device.closeFrame_commitQueue (p : PortId) (d : Device) : (d.closeFrame p).commitQueue = d.commitQueue := rfl
@[simp] theorem Device.closeFrame_flight (p : PortId) (d : Device) : (d.closeFrame p).flight = d.flight := rfl
@[simp] theorem Device.closeFrame_reclaim (p : PortId) (d : Device) : (d.closeFrame p).reclaim = d.reclaim := rfl
@[simp] theorem Device.closeFrame_fixes (p : PortId) (d : Device) : (d.closeFrame p).fixes = d.fixes := rfl
@[simp] theorem Device.closeFrame_store (p : PortId) (d : Device) : (d.closeFrame p).store = d.store := rfl
@[simp] theorem Device.closeFrame_supply (p : PortId) (d : Device) : (d.closeFrame p).supply = d.supply := rfl
@[simp] theorem Device.closeFrame_cause (p : PortId) (d : Device) : (d.closeFrame p).cause = d.cause := rfl
@[simp] theorem Device.closeFrame_resetHeld (p : PortId) (d : Device) : (d.closeFrame p).resetHeld = d.resetHeld := rfl
@[simp] theorem Device.closeFrame_mount (p : PortId) (d : Device) : (d.closeFrame p).mount = d.mount := rfl
@[simp] theorem Device.closeFrame_array (p : PortId) (d : Device) : (d.closeFrame p).array = d.array := rfl
@[simp] theorem Device.closeFrame_now (p : PortId) (d : Device) : (d.closeFrame p).now = d.now := rfl
@[simp] theorem Device.closeFrame_draws (p : PortId) (d : Device) : (d.closeFrame p).draws = d.draws := rfl

@[simp] theorem Device.logPassed_ports (x : Passed) (d : Device) : (d.logPassed x).ports = d.ports := rfl
@[simp] theorem Device.logPassed_buffers (x : Passed) (d : Device) : (d.logPassed x).buffers = d.buffers := rfl
@[simp] theorem Device.logPassed_directory (x : Passed) (d : Device) : (d.logPassed x).directory = d.directory := rfl
@[simp] theorem Device.logPassed_heldSlots (x : Passed) (d : Device) : (d.logPassed x).heldSlots = d.heldSlots := rfl
@[simp] theorem Device.logPassed_table (x : Passed) (d : Device) : (d.logPassed x).table = d.table := rfl
@[simp] theorem Device.logPassed_tableInvalid (x : Passed) (d : Device) : (d.logPassed x).tableInvalid = d.tableInvalid := rfl
@[simp] theorem Device.logPassed_seqCounter (x : Passed) (d : Device) : (d.logPassed x).seqCounter = d.seqCounter := rfl
@[simp] theorem Device.logPassed_segCounter (x : Passed) (d : Device) : (d.logPassed x).segCounter = d.segCounter := rfl
@[simp] theorem Device.logPassed_segments (x : Passed) (d : Device) : (d.logPassed x).segments = d.segments := rfl
@[simp] theorem Device.logPassed_groups (x : Passed) (d : Device) : (d.logPassed x).groups = d.groups := rfl
@[simp] theorem Device.logPassed_commitQueue (x : Passed) (d : Device) : (d.logPassed x).commitQueue = d.commitQueue := rfl
@[simp] theorem Device.logPassed_flight (x : Passed) (d : Device) : (d.logPassed x).flight = d.flight := rfl
@[simp] theorem Device.logPassed_fixes (x : Passed) (d : Device) : (d.logPassed x).fixes = d.fixes := rfl
@[simp] theorem Device.logPassed_store (x : Passed) (d : Device) : (d.logPassed x).store = d.store := rfl
@[simp] theorem Device.logPassed_supply (x : Passed) (d : Device) : (d.logPassed x).supply = d.supply := rfl
@[simp] theorem Device.logPassed_cause (x : Passed) (d : Device) : (d.logPassed x).cause = d.cause := rfl
@[simp] theorem Device.logPassed_resetHeld (x : Passed) (d : Device) : (d.logPassed x).resetHeld = d.resetHeld := rfl
@[simp] theorem Device.logPassed_mount (x : Passed) (d : Device) : (d.logPassed x).mount = d.mount := rfl
@[simp] theorem Device.logPassed_array (x : Passed) (d : Device) : (d.logPassed x).array = d.array := rfl
@[simp] theorem Device.logPassed_now (x : Passed) (d : Device) : (d.logPassed x).now = d.now := rfl
@[simp] theorem Device.logPassed_draws (x : Passed) (d : Device) : (d.logPassed x).draws = d.draws := rfl

@[simp] theorem Device.releaseHeld_ports (i : Nat) (d : Device) : (d.releaseHeld i).ports = d.ports := rfl
@[simp] theorem Device.releaseHeld_buffers (i : Nat) (d : Device) : (d.releaseHeld i).buffers = d.buffers := rfl
@[simp] theorem Device.releaseHeld_directory (i : Nat) (d : Device) : (d.releaseHeld i).directory = d.directory := rfl
@[simp] theorem Device.releaseHeld_table (i : Nat) (d : Device) : (d.releaseHeld i).table = d.table := rfl
@[simp] theorem Device.releaseHeld_tableInvalid (i : Nat) (d : Device) : (d.releaseHeld i).tableInvalid = d.tableInvalid := rfl
@[simp] theorem Device.releaseHeld_seqCounter (i : Nat) (d : Device) : (d.releaseHeld i).seqCounter = d.seqCounter := rfl
@[simp] theorem Device.releaseHeld_segCounter (i : Nat) (d : Device) : (d.releaseHeld i).segCounter = d.segCounter := rfl
@[simp] theorem Device.releaseHeld_segments (i : Nat) (d : Device) : (d.releaseHeld i).segments = d.segments := rfl
@[simp] theorem Device.releaseHeld_groups (i : Nat) (d : Device) : (d.releaseHeld i).groups = d.groups := rfl
@[simp] theorem Device.releaseHeld_commitQueue (i : Nat) (d : Device) : (d.releaseHeld i).commitQueue = d.commitQueue := rfl
@[simp] theorem Device.releaseHeld_flight (i : Nat) (d : Device) : (d.releaseHeld i).flight = d.flight := rfl
@[simp] theorem Device.releaseHeld_reclaim (i : Nat) (d : Device) : (d.releaseHeld i).reclaim = d.reclaim := rfl
@[simp] theorem Device.releaseHeld_fixes (i : Nat) (d : Device) : (d.releaseHeld i).fixes = d.fixes := rfl
@[simp] theorem Device.releaseHeld_store (i : Nat) (d : Device) : (d.releaseHeld i).store = d.store := rfl
@[simp] theorem Device.releaseHeld_supply (i : Nat) (d : Device) : (d.releaseHeld i).supply = d.supply := rfl
@[simp] theorem Device.releaseHeld_cause (i : Nat) (d : Device) : (d.releaseHeld i).cause = d.cause := rfl
@[simp] theorem Device.releaseHeld_resetHeld (i : Nat) (d : Device) : (d.releaseHeld i).resetHeld = d.resetHeld := rfl
@[simp] theorem Device.releaseHeld_mount (i : Nat) (d : Device) : (d.releaseHeld i).mount = d.mount := rfl
@[simp] theorem Device.releaseHeld_array (i : Nat) (d : Device) : (d.releaseHeld i).array = d.array := rfl
@[simp] theorem Device.releaseHeld_now (i : Nat) (d : Device) : (d.releaseHeld i).now = d.now := rfl
@[simp] theorem Device.releaseHeld_draws (i : Nat) (d : Device) : (d.releaseHeld i).draws = d.draws := rfl

@[simp] theorem Device.fill_ports (t : MountTables) (d : Device) : (d.fill t).ports = d.ports := rfl
@[simp] theorem Device.fill_buffers (t : MountTables) (d : Device) : (d.fill t).buffers = d.buffers := rfl
@[simp] theorem Device.fill_directory (t : MountTables) (d : Device) : (d.fill t).directory = t.directory := rfl
@[simp] theorem Device.fill_heldSlots (t : MountTables) (d : Device) : (d.fill t).heldSlots = d.heldSlots := rfl
@[simp] theorem Device.fill_table (t : MountTables) (d : Device) : (d.fill t).table = d.table := rfl
@[simp] theorem Device.fill_tableInvalid (t : MountTables) (d : Device) : (d.fill t).tableInvalid = d.tableInvalid := rfl
@[simp] theorem Device.fill_seqCounter (t : MountTables) (d : Device) : (d.fill t).seqCounter = t.seqCounter := rfl
@[simp] theorem Device.fill_segCounter (t : MountTables) (d : Device) : (d.fill t).segCounter = t.segCounter := rfl
@[simp] theorem Device.fill_segments (t : MountTables) (d : Device) : (d.fill t).segments = d.segments := rfl
@[simp] theorem Device.fill_groups (t : MountTables) (d : Device) : (d.fill t).groups = d.groups := rfl
@[simp] theorem Device.fill_commitQueue (t : MountTables) (d : Device) : (d.fill t).commitQueue = d.commitQueue := rfl
@[simp] theorem Device.fill_flight (t : MountTables) (d : Device) : (d.fill t).flight = d.flight := rfl
@[simp] theorem Device.fill_reclaim (t : MountTables) (d : Device) : (d.fill t).reclaim = d.reclaim := rfl
@[simp] theorem Device.fill_fixes (t : MountTables) (d : Device) : (d.fill t).fixes = d.fixes := rfl
@[simp] theorem Device.fill_store (t : MountTables) (d : Device) : (d.fill t).store = d.store := rfl
@[simp] theorem Device.fill_supply (t : MountTables) (d : Device) : (d.fill t).supply = d.supply := rfl
@[simp] theorem Device.fill_cause (t : MountTables) (d : Device) : (d.fill t).cause = d.cause := rfl
@[simp] theorem Device.fill_resetHeld (t : MountTables) (d : Device) : (d.fill t).resetHeld = d.resetHeld := rfl
@[simp] theorem Device.fill_mount (t : MountTables) (d : Device) : (d.fill t).mount = d.mount := rfl
@[simp] theorem Device.fill_array (t : MountTables) (d : Device) : (d.fill t).array = d.array := rfl
@[simp] theorem Device.fill_now (t : MountTables) (d : Device) : (d.fill t).now = d.now := rfl
@[simp] theorem Device.fill_draws (t : MountTables) (d : Device) : (d.fill t).draws = d.draws := rfl
@[simp] theorem Device.fill_port (t : MountTables) (d : Device) (p : PortId) : (d.fill t).port p = d.port p := rfl
@[simp] theorem Device.fillSegments_ports (d : Device) : d.fillSegments.ports = d.ports := rfl
@[simp] theorem Device.fillSegments_buffers (d : Device) : d.fillSegments.buffers = d.buffers := rfl
@[simp] theorem Device.fillSegments_directory (d : Device) : d.fillSegments.directory = d.directory := rfl
@[simp] theorem Device.fillSegments_heldSlots (d : Device) : d.fillSegments.heldSlots = d.heldSlots := rfl
@[simp] theorem Device.fillSegments_table (d : Device) : d.fillSegments.table = d.table := rfl
@[simp] theorem Device.fillSegments_tableInvalid (d : Device) : d.fillSegments.tableInvalid = d.tableInvalid := rfl
@[simp] theorem Device.fillSegments_seqCounter (d : Device) : d.fillSegments.seqCounter = d.seqCounter := rfl
@[simp] theorem Device.fillSegments_segCounter (d : Device) : d.fillSegments.segCounter = d.segCounter := rfl
@[simp] theorem Device.fillSegments_commitQueue (d : Device) : d.fillSegments.commitQueue = d.commitQueue := rfl
@[simp] theorem Device.fillSegments_flight (d : Device) : d.fillSegments.flight = d.flight := rfl
@[simp] theorem Device.fillSegments_reclaim (d : Device) : d.fillSegments.reclaim = d.reclaim := rfl
@[simp] theorem Device.fillSegments_fixes (d : Device) : d.fillSegments.fixes = d.fixes := rfl
@[simp] theorem Device.fillSegments_store (d : Device) : d.fillSegments.store = d.store := rfl
@[simp] theorem Device.fillSegments_supply (d : Device) : d.fillSegments.supply = d.supply := rfl
@[simp] theorem Device.fillSegments_cause (d : Device) : d.fillSegments.cause = d.cause := rfl
@[simp] theorem Device.fillSegments_resetHeld (d : Device) : d.fillSegments.resetHeld = d.resetHeld := rfl
@[simp] theorem Device.fillSegments_mount (d : Device) : d.fillSegments.mount = d.mount := rfl
@[simp] theorem Device.fillSegments_array (d : Device) : d.fillSegments.array = d.array := rfl
@[simp] theorem Device.fillSegments_now (d : Device) : d.fillSegments.now = d.now := rfl
@[simp] theorem Device.fillSegments_draws (d : Device) : d.fillSegments.draws = d.draws := rfl
@[simp] theorem Device.fillSegments_port (d : Device) (p : PortId) : d.fillSegments.port p = d.port p := rfl
@[simp] theorem Device.mountWork_tables (d : Device) : d.mountWork.tables = d.buildTables := rfl

end Sys2Proof.Machine
end

