-- ==== Sys2Proof/Laws/Ports.lean ====
section
/-! SUPPORT. Reading back what was written to ports, handles, buffers and the directory; what offering and placing notices,
renewing and pinning do. -/

namespace Sys2Proof.Machine

/-! ## One thing for each port, four numbered things -/

@[simp] theorem PerPort.get_set_same {α : Type} (v : PerPort α) (p : PortId) (x : α) : (v.set p x).get p = x := by
  cases p <;> rfl

theorem PerPort.get_set_other {α : Type} (v : PerPort α) (x : α) {p q : PortId} (h : q ≠ p) :
    (v.set p x).get q = v.get q := by
  cases p <;> cases q <;> first | rfl | exact absurd rfl h

theorem PerPort.get_set {α : Type} (v : PerPort α) (p q : PortId) (x : α) :
    (v.set p x).get q = if q = p then x else v.get q := by
  cases p <;> cases q <;> rfl

@[simp] theorem PerPort.set_set {α : Type} (v : PerPort α) (p : PortId) (x y : α) : (v.set p x).set p y = v.set p y := by
  cases p <;> rfl

@[simp] theorem PerPort.set_get {α : Type} (v : PerPort α) (p : PortId) : v.set p (v.get p) = v := by
  cases p <;> rfl

@[simp] theorem PerPort.get_map {α β : Type} (f : PortId → α → β) (v : PerPort α) (p : PortId) :
    (v.map f).get p = f p (v.get p) := by
  cases p <;> rfl

@[simp] theorem Quad.get_set_same {α : Type} (v : Quad α) (i : Four) (x : α) : (v.set i x).get i = x := by
  cases i <;> rfl

theorem Quad.get_set_other {α : Type} (v : Quad α) (x : α) {i j : Four} (h : j ≠ i) : (v.set i x).get j = v.get j := by
  cases i <;> cases j <;> first | rfl | exact absurd rfl h

theorem Quad.get_set {α : Type} (v : Quad α) (i j : Four) (x : α) :
    (v.set i x).get j = if j = i then x else v.get j := by
  cases i <;> cases j <;> rfl

@[simp] theorem Quad.set_set {α : Type} (v : Quad α) (i : Four) (x y : α) : (v.set i x).set i y = v.set i y := by
  cases i <;> rfl

@[simp] theorem Quad.set_get {α : Type} (v : Quad α) (i : Four) : v.set i (v.get i) = v := by
  cases i <;> rfl

@[simp] theorem Quad.get_map {α β : Type} (f : α → β) (v : Quad α) (i : Four) : (v.map f).get i = f (v.get i) := by
  cases i <;> rfl

/-! ## Ports and handles -/

theorem Device.port_setPort (p r : PortId) (q : Port) (d : Device) :
    (d.setPort p q).port r = if r = p then q else d.port r :=
  PerPort.get_set d.ports p r q

@[simp] theorem Device.port_setPort_same (p : PortId) (q : Port) (d : Device) : (d.setPort p q).port p = q :=
  PerPort.get_set_same d.ports p q

@[simp] theorem Device.port_modPort_same (p : PortId) (f : Port → Port) (d : Device) :
    (d.modPort p f).port p = f (d.port p) :=
  PerPort.get_set_same d.ports p _

theorem Device.port_modPort_other (f : Port → Port) (d : Device) {p r : PortId} (h : r ≠ p) :
    (d.modPort p f).port r = d.port r :=
  PerPort.get_set_other d.ports _ h

@[simp] theorem Device.port_mapPorts (f : PortId → Port → Port) (d : Device) (p : PortId) :
    (d.mapPorts f).port p = f p (d.port p) :=
  PerPort.get_map f d.ports p

@[simp] theorem Device.modPort_modPort (p : PortId) (f g : Port → Port) (d : Device) :
    (d.modPort p f).modPort p g = d.modPort p fun q => g (f q) := by
  simp [Device.modPort, Device.setPort, Device.port]

@[simp] theorem Device.handle_setHandle_same (p : PortId) (h : HandleNo) (x : Handle) (d : Device) :
    (d.setHandle p h x).handle p h = x := by
  simp [Device.handle, Device.setHandle]

@[simp] theorem Device.buffer_setBuffer_same (b : BufferNo) (x : Buffer) (d : Device) :
    (d.setBuffer b x).buffer b = x :=
  Quad.get_set_same d.buffers b x

theorem Device.buffer_setBuffer_other (x : Buffer) (d : Device) {b c : BufferNo} (h : c ≠ b) :
    (d.setBuffer b x).buffer c = d.buffer c :=
  Quad.get_set_other d.buffers x h

/-- R68: a renewal changes the deadline of a handle whose lease runs, and nothing else. -/
theorem Device.handle_renew_same (p : PortId) (h : HandleNo) (d : Device) :
    (d.renew p h).handle p h = (d.handle p h).renewed (d.deadline p) := by
  simp [Device.renew]

/-! ## Notices (R140 to R142) -/

/-- R141: everything an offer can do. -/
theorem Port.offer_eq (n : Notice) (q : Port) :
    q.offer n =
      if q.overflow = true then q
      else if q.notices.length + q.reserved < 8 then { q with notices := q.notices ++ [n] }
      else { q with overflow := true } := rfl

/-- R140: an offer keeps queued notices plus reserved slots at 8 or fewer. -/
theorem Port.offer_slots (n : Notice) (q : Port) (h : q.notices.length + q.reserved ≤ 8) :
    (q.offer n).notices.length + (q.offer n).reserved ≤ 8 := by
  unfold Port.offer
  split
  · exact h
  · split
    · rename_i h1
      simp only [Config.noticeSlots, List.length_append, List.length_singleton] at h1 ⊢
      omega
    · exact h

@[simp] theorem Port.offer_reserved (n : Notice) (q : Port) : (q.offer n).reserved = q.reserved := by
  unfold Port.offer
  split
  · rfl
  · split <;> rfl

@[simp] theorem Port.offer_handles (n : Notice) (q : Port) : (q.offer n).handles = q.handles := by
  unfold Port.offer
  split
  · rfl
  · split <;> rfl

@[simp] theorem Port.offer_watch (n : Notice) (q : Port) : (q.offer n).watch = q.watch := by
  unfold Port.offer
  split
  · rfl
  · split <;> rfl

@[simp] theorem Port.offer_leaseExp (n : Notice) (q : Port) : (q.offer n).leaseExp = q.leaseExp := by
  unfold Port.offer
  split
  · rfl
  · split <;> rfl

@[simp] theorem Port.offer_ticket (n : Notice) (q : Port) : (q.offer n).ticket = q.ticket := by
  unfold Port.offer
  split
  · rfl
  · split <;> rfl

@[simp] theorem Port.offer_count (n : Notice) (q : Port) : (q.offer n).count = q.count := by
  unfold Port.offer
  split
  · rfl
  · split <;> rfl

@[simp] theorem Port.offer_held (n : Notice) (q : Port) : (q.offer n).held = q.held := by
  unfold Port.offer
  split
  · rfl
  · split <;> rfl

@[simp] theorem Port.offer_handling (n : Notice) (q : Port) : (q.offer n).handling = q.handling := by
  unfold Port.offer
  split
  · rfl
  · split <;> rfl

@[simp] theorem Port.offer_frame (n : Notice) (q : Port) : (q.offer n).frame = q.frame := by
  unfold Port.offer
  split
  · rfl
  · split <;> rfl

/-- An offer does not look at the handles. -/
theorem Port.offer_with_handles (n : Notice) (q : Port) (x : Quad Handle) :
    ({ q with handles := x } : Port).offer n = { q.offer n with handles := x } := by
  unfold Port.offer
  dsimp only
  split
  · rfl
  · split <;> rfl

/-- R142: a COMMIT_DONE leaves the sum of queued notices and reserved slots as it was. -/
theorem Port.placeDone_slots (n : Notice) (q : Port) (h : 1 ≤ q.reserved) :
    (q.placeDone n).notices.length + (q.placeDone n).reserved = q.notices.length + q.reserved := by
  simp only [Port.placeDone, List.length_append, List.length_singleton]
  omega

/-! ## The directory (R43) -/

@[simp] theorem Entry.changeAt_key (k : Key) (f : Entry → Entry) (e : Entry) : (Entry.changeAt k f e).key = e.key := by
  unfold Entry.changeAt
  split <;> rfl

/-- Changing an entry changes no key, and so not which keys have one. -/
theorem Device.modEntry_keys (k : Key) (f : Entry → Entry) (d : Device) :
    (d.modEntry k f).directory.map (·.key) = d.directory.map (·.key) := by
  simp [Device.modEntry, Function.comp_def]

theorem Device.lookup_key {d : Device} {k : Key} {e : Entry} (h : d.lookup k = some e) : e.key = k := by
  have := List.find?_some h
  simpa using this

/-- A changed entry is found changed, its key kept. -/
theorem Device.lookup_modEntry_same {d : Device} {k : Key} {e : Entry} (f : Entry → Entry) (h : d.lookup k = some e) :
    (d.modEntry k f).lookup k = some { f e with key := k } := by
  have hk := Device.lookup_key h
  simp only [Device.lookup, Device.modEntry, List.find?_map] at h ⊢
  have hc : (fun e : Entry => e.key == k) ∘ Entry.changeAt k f = fun e => e.key == k := by
    funext x
    simp
  rw [hc, h]
  simp [Entry.changeAt, hk]

/-- Another key's entry is found as it was. -/
theorem Device.lookup_modEntry_other {d : Device} {j k : Key} (f : Entry → Entry) (h : j ≠ k) :
    (d.modEntry k f).lookup j = d.lookup j := by
  simp only [Device.lookup, Device.modEntry, List.find?_map]
  have hc : (fun e : Entry => e.key == j) ∘ Entry.changeAt k f = fun e => e.key == j := by
    funext x
    simp
  rw [hc]
  cases hx : List.find? (fun e : Entry => e.key == j) d.directory with
  | none => rfl
  | some e =>
    have he : e.key = j := by simpa using List.find?_some hx
    simp [Entry.changeAt, he, h]

/-- The entries that stand in rising order of key still do when one is put in for a key that had none. -/
theorem insertEntry_rises (e : Entry) (es : List Entry) (h : es.Pairwise fun x y => x.key < y.key)
    (hn : ∀ x ∈ es, x.key ≠ e.key) : (insertEntry e es).Pairwise fun x y => x.key < y.key := by
  have mem : ∀ (l : List Entry) (x : Entry), x ∈ insertEntry e l → x = e ∨ x ∈ l := by
    intro l
    induction l with
    | nil => intro x hx; simpa [insertEntry] using hx
    | cons a l ih =>
      intro x hx
      unfold insertEntry at hx
      split at hx
      · simpa using hx
      · rcases List.mem_cons.1 hx with hx | hx
        · exact .inr (hx ▸ List.mem_cons_self)
        · exact (ih x hx).imp id (List.mem_cons_of_mem a)
  induction es with
  | nil => simp [insertEntry]
  | cons a l ih =>
    have ha := List.pairwise_cons.1 h
    unfold insertEntry
    split
    · rename_i hlt
      refine List.pairwise_cons.2 ⟨fun x hx => ?_, h⟩
      rcases List.mem_cons.1 hx with hx | hx
      · exact hx ▸ hlt
      · have := ha.1 x hx
        exact BitVec.lt_def.2 (Nat.lt_trans (BitVec.lt_def.1 hlt) (BitVec.lt_def.1 this))
    · rename_i hge
      refine List.pairwise_cons.2 ⟨fun x hx => ?_, ih ha.2 fun x hx => hn x (List.mem_cons_of_mem a hx)⟩
      rcases mem l x hx with hx | hx
      · subst hx
        have h1 := hn a List.mem_cons_self
        rw [BitVec.lt_def] at hge ⊢
        have h2 : a.key.toNat ≠ x.key.toNat := fun h => h1 (BitVec.eq_of_toNat_eq h)
        omega
      · exact ha.1 x hx

end Sys2Proof.Machine
end

