-- ==== Sys2Proof/Laws/Engine.lean ====
section
/-! SUPPORT. When the arbiter does nothing, what the ends of steps that are not in flight do, and the shape of the array
under every way of programming it. -/

namespace Sys2Proof.Machine

/-! ## The arbiter makes no choice (R113) -/

/-- R113: with a unit in flight, the supply LOW, or the store not NORMAL, the arbiter changes nothing. -/
theorem Device.arbiter_idle {d : Device} (h : d.mayChoose = false) : d.arbiter = d := by
  simp [Device.arbiter, arbiterFuel, Device.arbitrate, h]

theorem Device.mayChoose_flight {d : Device} {u : EngineUnit} (h : d.flight = some u) : d.mayChoose = false := by
  simp [Device.mayChoose, h]

theorem Device.mayChoose_low {d : Device} (h : d.supply = .low) : d.mayChoose = false := by
  simp [Device.mayChoose, h]

theorem Device.mayChoose_store {d : Device} (h : d.store ≠ .normal) : d.mayChoose = false := by
  simp [Device.mayChoose, h]

/-! ## The array keeps its geometry (R18) -/

/-- 32 segments of 127 version frames. -/
def shaped (a : List SegmentImage) : Prop := a.length = 32 ∧ ∀ im ∈ a, im.frames.length = 127

theorem shaped_modify {a : List SegmentImage} (i : Nat) {f : SegmentImage → SegmentImage}
    (hf : ∀ im, im.frames.length = 127 → (f im).frames.length = 127) (h : shaped a) : shaped (a.modify i f) := by
  refine ⟨by simpa using h.1, fun im him => ?_⟩
  obtain ⟨j, hj, rfl⟩ := List.mem_iff_getElem.1 him
  rw [List.getElem_modify]
  split
  · exact hf _ (h.2 _ (List.getElem_mem _))
  · exact h.2 _ (List.getElem_mem _)

theorem Device.modCell_shaped {d : Device} (l : Loc) (f : Cell → Cell) (h : shaped d.array) :
    shaped (d.modCell l f).array :=
  shaped_modify _ (fun im hi => by simpa [SegmentImage.modFrame] using hi) h

theorem Device.modHeader_shaped {d : Device} (i : Nat) (f : SegmentHeader → SegmentHeader) (h : shaped d.array) :
    shaped (d.modHeader i f).array :=
  shaped_modify _ (fun _ hi => hi) h

theorem Device.eraseImage_shaped {d : Device} (i count : Nat) (r : EraseResult) (h : shaped d.array) :
    shaped (d.eraseImage i count r).array := by
  cases r with
  | good => exact shaped_modify _ (fun _ _ => by simp) h
  | bad e _ =>
    refine shaped_modify _ (fun im hi => ?_) h
    show (if e = .whole then _ else im.frames).length = _
    split
    · simp
    · exact hi

theorem Device.programFrame_shaped {d : Device} (l : Loc) (cells : List Cell) (i : Nat) (h : shaped d.array) :
    shaped (d.programFrame l cells i).array :=
  Device.modCell_shaped _ _ h

theorem Device.leaveFrame_shaped {d : Device} (l : Loc) (cells : List Cell) (i : Nat) (left : FrameLeft)
    (h : shaped d.array) : shaped (d.leaveFrame l cells i left).array := by
  cases left with
  | blank => exact h
  | malformed => exact Device.modCell_shaped _ _ h
  | badCheck => exact Device.modCell_shaped _ _ h
  | asMeant => exact Device.programFrame_shaped _ _ _ h

theorem Device.cutArray_shaped {d : Device} (cut : Cut) (h : shaped d.array) : shaped (d.cutArray cut).array := by
  unfold Device.cutArray
  split <;>
    first
      | exact h
      | exact Device.leaveFrame_shaped _ _ _ _ h
      | exact Device.modHeader_shaped _ _ h

/-! ## Mount's groups fill the table (R116, R166) -/

theorem Device.mountGroups_length (d : Device) (seals : List SealFound) (complete : List Found) :
    (d.mountGroups seals complete).length = 32 := by
  unfold Device.mountGroups
  dsimp only
  rw [List.length_append, List.length_replicate]
  have h1 := List.length_filterMap_le
    (fun g => (d.sealPlace seals g).map fun s => GroupEntry.kept g s.location (membersOf complete g).length)
    (d.keptGroups seals complete)
  have h2 : (d.keptGroups seals complete).length ≤ 32 := by
    unfold Device.keptGroups
    exact List.length_take_le _ _
  simp only [Config.groupEntries]
  omega

end Sys2Proof.Machine
end

