-- ==== Sys2Proof/Laws/Requests.lean ====
section
/-! SUPPORT. Everything a taken request can do: form check, MOUNTING, then its rule on the counted device; what the requests
that name a handle do; what ends a handle's life leaves. -/

namespace Sys2Proof.Machine

/-! ## Taking a request (R13, R174, R178) -/

/-- The parameters fail the form check. -/
theorem Device.request_badForm {α : Type} {d : Device} {p : PortId} (kind : Byte) (always : Bool)
    (rule : α → Device → Device × Answer) (h : d.takes p) :
    d.request p kind none always rule = d.answered p kind .badRequest [] := by
  simp [Device.request, h.1, h.2, Device.answer, Device.reply, Device.countRequest, Device.answered, refuse]
  rfl

/-- The store is MOUNTING, and the request is neither NOP nor STORE_INFO. -/
theorem Device.request_mounting {α : Type} {d : Device} {p : PortId} (kind : Byte) (x : α)
    (rule : α → Device → Device × Answer) (h : d.takes p) (hm : d.store = .mounting) :
    d.request p kind (some x) false rule = d.answered p kind .notReady [] := by
  simp [Device.request, h.1, h.2, Device.answer, Device.reply, Device.countRequest, Device.answered, refuse, hm]
  rfl

/-- The request's own rule acts on the device that has counted it, and the reply waits for the end of handling. -/
theorem Device.request_ruled {α : Type} {d : Device} {p : PortId} (kind : Byte) (always : Bool) (x : α)
    (rule : α → Device → Device × Answer) (h : d.takes p) (hm : always = true ∨ d.store ≠ .mounting) :
    d.request p kind (some x) always rule =
      Device.reply p kind ((d.port p).count + 1) (rule x (d.countRequest p)) := by
  have : (!always && d.store == .mounting) = false := by
    rcases hm with h | h <;> simp [h]
  simp [Device.request, h.1, h.2, Device.answer, Device.countRequest, this]

/-- A request that comes in a busy frame only ends its frame (R175). -/
theorem Device.request_busy {α : Type} {d : Device} {p : PortId} (kind : Byte) (form : Option α) (always : Bool)
    (rule : α → Device → Device × Answer) (hr : d.resetHeld = false) (h : (d.port p).takes = false) :
    d.request p kind form always rule = d.closeFrame p := by
  simp [Device.request, hr, h]

/-- A reply given to the counted device, nothing else changed, is `answered`. -/
theorem Device.reply_counted (p : PortId) (kind : Byte) (r : Result) (payload : List Byte) (d : Device) :
    Device.reply p kind ((d.port p).count + 1) (d.countRequest p, ⟨r, payload⟩) = d.answered p kind r payload := by
  simp [Device.reply, Device.countRequest, Device.answered]
  rfl

/-! ## What counting a request leaves as it was -/

@[simp] theorem Device.handle_countRequest (d : Device) (p q : PortId) (h : HandleNo) :
    (d.countRequest p).handle q h = d.handle q h := by
  cases p <;> cases q <;> rfl

@[simp] theorem Device.deadline_countRequest (d : Device) (p q : PortId) :
    (d.countRequest p).deadline q = d.deadline q := by
  cases p <;> cases q <;> rfl

@[simp] theorem Device.buffer_countRequest (d : Device) (p : PortId) (b : BufferNo) :
    (d.countRequest p).buffer b = d.buffer b := rfl

@[simp] theorem Device.lookup_countRequest (d : Device) (p : PortId) (k : Key) :
    (d.countRequest p).lookup k = d.lookup k := rfl

@[simp] theorem Device.cell_countRequest (d : Device) (p : PortId) (l : Loc) : (d.countRequest p).cell l = d.cell l := rfl

@[simp] theorem Device.port_countRequest (d : Device) (p : PortId) :
    (d.countRequest p).port p = { d.port p with frame := none, count := (d.port p).count + 1 } := by
  simp [Device.countRequest]

theorem Device.port_countRequest_other (d : Device) {p q : PortId} (h : q ≠ p) :
    (d.countRequest p).port q = d.port q :=
  Device.port_modPort_other _ d h

/-! ## Handles written after the count -/

@[simp] theorem Device.setHandle_setHandle (p : PortId) (h : HandleNo) (x y : Handle) (d : Device) :
    (d.setHandle p h x).setHandle p h y = d.setHandle p h y := by
  simp [Device.setHandle]

@[simp] theorem Device.setHandle_handle (p : PortId) (h : HandleNo) (d : Device) :
    d.setHandle p h (d.handle p h) = d := by
  cases p <;> cases h <;> rfl

theorem Device.setBuffer_setHandle (b : BufferNo) (y : Buffer) (p : PortId) (h : HandleNo) (x : Handle) (d : Device) :
    (d.setHandle p h x).setBuffer b y = (d.setBuffer b y).setHandle p h x := rfl

theorem Device.setBuffer_countRequest (b : BufferNo) (y : Buffer) (p : PortId) (d : Device) :
    (d.countRequest p).setBuffer b y = (d.setBuffer b y).countRequest p := rfl

theorem Device.setHandle_countRequest (p : PortId) (h : HandleNo) (x : Handle) (d : Device) :
    (d.countRequest p).setHandle p h x = (d.setHandle p h x).countRequest p := by
  simp [Device.setHandle, Device.countRequest]

@[simp] theorem Device.count_setHandle (p : PortId) (h : HandleNo) (x : Handle) (d : Device) :
    ((d.setHandle p h x).port p).count = (d.port p).count := by
  simp [Device.setHandle]

@[simp] theorem Device.buffer_setHandle (p : PortId) (h : HandleNo) (x : Handle) (b : BufferNo) (d : Device) :
    (d.setHandle p h x).buffer b = d.buffer b := rfl

/-- The reply to a request that changed one handle. -/
theorem Device.reply_setHandle (p : PortId) (h : HandleNo) (x : Handle) (kind : Byte) (r : Result) (payload : List Byte)
    (d : Device) :
    Device.reply p kind ((d.port p).count + 1) ((d.countRequest p).setHandle p h x, ⟨r, payload⟩) =
      (d.setHandle p h x).answered p kind r payload := by
  rw [Device.setHandle_countRequest]
  simpa using Device.reply_counted p kind r payload (d.setHandle p h x)

/-- The reply to a request that changed one handle and one buffer. -/
theorem Device.reply_setBuffer (p : PortId) (h : HandleNo) (x : Handle) (b : BufferNo) (y : Buffer) (kind : Byte)
    (r : Result) (payload : List Byte) (d : Device) :
    Device.reply p kind ((d.port p).count + 1) (((d.countRequest p).setBuffer b y).setHandle p h x, ⟨r, payload⟩) =
      ((d.setBuffer b y).setHandle p h x).answered p kind r payload :=
  Device.reply_setHandle p h x kind r payload (d.setBuffer b y)

/-- Two ways of changing a port that agree on the port as it is. -/
theorem Device.modPort_congr {p : PortId} {d : Device} {f g : Port → Port} (h : f (d.port p) = g (d.port p)) :
    d.modPort p f = d.modPort p g := by
  simp [Device.modPort, h]

/-- The reply to a request that changed its port alone, in what neither the count nor the end of the frame touches. -/
theorem Device.reply_modPort (p : PortId) (g : Port → Port) (kind : Byte) (r : Result) (payload : List Byte) (d : Device)
    (hg : ∀ q : Port, ∀ a, { g { q with frame := none, count := q.count + 1 } with handling := a } =
      { g q with frame := none, count := (g q).count + 1, handling := a })
    (hc : (g (d.port p)).count = (d.port p).count) :
    Device.reply p kind ((d.port p).count + 1) ((d.countRequest p).modPort p g, ⟨r, payload⟩) =
      (d.modPort p g).answered p kind r payload := by
  simp only [Device.reply, Device.countRequest, Device.modPort_modPort, Device.answered]
  refine Device.modPort_congr ?_
  simp only [Port.answered, hg, hc]

/-! ## The handle a request names (R67, R68) -/

/-- A handle whose lease does not run is not renewed. -/
theorem Device.renew_other {d : Device} {p : PortId} {h : HandleNo} (hl : (d.handle p h).leaseRuns = false) :
    d.renew p h = d := by
  have : (d.handle p h).renewed (d.deadline p) = d.handle p h := by
    cases hx : d.handle p h <;> simp_all [Handle.renewed, Handle.leaseRuns]
  rw [Device.renew, this, Device.setHandle_handle]

theorem Device.renew_reading {d : Device} {p : PortId} {h : HandleNo} {k : Key} {v : Bound} {c t : Nat}
    (hx : d.handle p h = .reading k v c t) : d.renew p h = d.setHandle p h (.reading k v c (d.deadline p)) := by
  simp [Device.renew, hx, Handle.renewed]

theorem Device.renew_writing {d : Device} {p : PortId} {h : HandleNo} {k : Key} {b : BufferNo} {c t : Nat}
    (hx : d.handle p h = .writing k b c t) : d.renew p h = d.setHandle p h (.writing k b c (d.deadline p)) := by
  simp [Device.renew, hx, Handle.renewed]

/-- A renewal leaves every handle in its state. -/
@[simp] theorem Handle.leaseRuns_renewed (t : Nat) (x : Handle) : (x.renewed t).leaseRuns = x.leaseRuns := by
  cases x <;> rfl

end Sys2Proof.Machine
end

