-- ==== Sys2Proof/Laws/Handles.lean ====
section
/-! SUPPORT. How a handle's life ends, and how a claim begins: everything the operations on handles, claims, pins and buffers
change. -/

namespace Sys2Proof.Machine

/-! ## The end of a WRITING or COMMITTING handle (R48, R56, R70) -/

/-- The claim ends: a PENDING entry is freed, another keeps its state. -/
theorem Device.releaseClaim_eq {d : Device} {k : Key} {e : Entry} (h : d.lookup k = some e) :
    d.releaseClaim k = { d with
      directory :=
        if e.state = .pending then d.directory.filter fun x => x.key != k
        else (d.modEntry k fun e => { e with claim := none }).directory } := by
  unfold Device.releaseClaim
  rw [h]
  dsimp only
  split <;> rfl

theorem Device.releaseClaim_absent {d : Device} {k : Key} (h : d.lookup k = none) : d.releaseClaim k = d := by
  unfold Device.releaseClaim
  rw [h]

/-- Claim and buffer are released and the handle is `x`. -/
theorem Device.dropWriter_eq {d : Device} {k : Key} {e : Entry} (p : PortId) (h : HandleNo) (b : BufferNo) (x : Handle)
    (hl : d.lookup k = some e) :
    d.dropWriter p h k b x = { d with
      ports := (d.setHandle p h x).ports
      buffers := d.buffers.set b Buffer.cleared
      directory :=
        if e.state = .pending then d.directory.filter fun x => x.key != k
        else (d.modEntry k fun e => { e with claim := none }).directory } := by
  rw [Device.dropWriter, Device.releaseClaim_eq hl]
  rfl

/-- Whatever the directory holds, only ports, buffers and directory change. -/
theorem Device.dropWriter_frame (d : Device) (p : PortId) (h : HandleNo) (k : Key) (b : BufferNo) (x : Handle) :
    d.dropWriter p h k b x = { d with
      ports := (d.setHandle p h x).ports
      buffers := d.buffers.set b Buffer.cleared
      directory := (d.releaseClaim k).directory } := by
  cases hl : d.lookup k with
  | none => rw [Device.dropWriter, Device.releaseClaim_absent hl]; rfl
  | some e => rw [Device.dropWriter, Device.releaseClaim_eq hl]; rfl

/-! ## The end of a READING handle (R25, R49, R125) -/

/-- The controller's state is all that the end of HOLDING changes. -/
theorem Device.endHolding_eq (d : Device) :
    d.endHolding = { d with reclaim := { d.reclaim with state := d.endHolding.reclaim.state } } := by
  unfold Device.endHolding
  split <;> rfl

theorem Device.endHolding_other {d : Device} (h : d.reclaim.state ≠ .holding) : d.endHolding = d := by
  simp [Device.endHolding, h]

/-- The pins fall, the handle is `x`, and a controller in HOLDING may go on to ERASING. -/
theorem Device.dropReader_eq (d : Device) (p : PortId) (h : HandleNo) (k : Key) (v : Bound) (x : Handle) :
    d.dropReader p h k v x = { d with
      ports := (d.setHandle p h x).ports
      directory := (d.modEntry k fun e => { e with pins := e.pins - 1 }).directory
      segments := d.segments.modify v.location.seg fun r => { r with pins := r.pins - 1 }
      reclaim := { d.reclaim with state := (d.dropReader p h k v x).reclaim.state } } := by
  unfold Device.dropReader Device.unpin
  rw [Device.endHolding_eq]
  rfl

theorem Device.dropReader_state {d : Device} (p : PortId) (h : HandleNo) (k : Key) (v : Bound) (x : Handle)
    (hs : d.reclaim.state ≠ .holding) : (d.dropReader p h k v x).reclaim.state = d.reclaim.state := by
  unfold Device.dropReader Device.unpin
  rw [Device.endHolding_other (by exact hs)]
  rfl

/-! ## The entry of a new claim (R46) -/

/-- An entry put in for a key that had none is found. -/
theorem Device.lookup_addEntry {d : Device} {e : Entry} (h : d.lookup e.key = none) :
    (d.addEntry e).lookup e.key = some e := by
  have hn : ∀ x ∈ d.directory, x.key ≠ e.key := by simpa [Device.lookup] using h
  have key : ∀ es : List Entry, (∀ x ∈ es, x.key ≠ e.key) → (insertEntry e es).find? (fun x => x.key == e.key) = some e := by
    intro es
    induction es with
    | nil => intro _; simp [insertEntry]
    | cons a l ih =>
      intro hx
      unfold insertEntry
      split
      · simp
      · rw [List.find?_cons_of_neg (by simpa using hx a List.mem_cons_self)]
        exact ih fun x hm => hx x (List.mem_cons_of_mem a hm)
  exact key d.directory hn

/-- Another handle of the port is read as it was. -/
theorem Device.handle_setHandle_other (x : Handle) (d : Device) (p : PortId) {h j : HandleNo} (hj : j ≠ h) :
    (d.setHandle p h x).handle p j = d.handle p j := by
  simp [Device.handle, Device.setHandle, Quad.get_set_other _ _ hj]

/-- Another port is read as it was. -/
theorem Device.port_setHandle_other (h : HandleNo) (x : Handle) (d : Device) {p q : PortId} (hq : q ≠ p) :
    (d.setHandle p h x).port q = d.port q :=
  Device.port_modPort_other _ d hq

end Sys2Proof.Machine
end

