-- ==== Sys2Proof/Laws/Commits.lean ====
section
/-! SUPPORT. What the ends of commits, the entry into READ_ONLY and the beginning of an open step leave as it was. -/

namespace Sys2Proof.Machine

/-- `d'` is `d` but for ports, buffers, directory and group table: all that the end of a commit touches. -/
def commitEnds (d d' : Device) : Prop :=
  d' = { d with ports := d'.ports, buffers := d'.buffers, directory := d'.directory, groups := d'.groups }

theorem commitEnds_refl (d : Device) : commitEnds d d := rfl

theorem commitEnds_trans {d e f : Device} (h : commitEnds d e) (g : commitEnds e f) : commitEnds d f := by
  unfold commitEnds at *
  rw [g, h]

theorem commitEnds_foldl {β : Type} (step : Device → β → Device) (h : ∀ d x, commitEnds d (step d x)) (xs : List β)
    (d : Device) : commitEnds d (xs.foldl step d) := by
  induction xs generalizing d with
  | nil => exact commitEnds_refl d
  | cons x rest ih => exact commitEnds_trans (h d x) (ih _)

theorem Device.dropWriter_ends (d : Device) (p : PortId) (h : HandleNo) (k : Key) (b : BufferNo) (x : Handle) :
    commitEnds d (d.dropWriter p h k b x) := by
  unfold commitEnds
  rw [Device.dropWriter_frame]

theorem Device.freeGroup_ends (d : Device) (g : Option Nat) : commitEnds d (d.freeGroup g) := by
  cases g <;> rfl

/-- R103, R105 to R108, R110: the end of one member. -/
theorem Device.endMember_ends (c : CommitRecord) (o : CommitOutcome) (d : Device) (m : Member) :
    commitEnds d (d.endMember c o m) := by
  unfold Device.endMember
  split
  · exact d.dropWriter_ends _ _ _ _ _
  · split
    · exact d.dropWriter_ends _ _ _ _ _
    · unfold Device.returnWriter
      split <;> rfl

/-- R103: the end of a commit with an outcome other than DONE. -/
theorem Device.endCommit_ends (o : CommitOutcome) (d : Device) (c : CommitRecord) : commitEnds d (d.endCommit o c) := by
  have h := commitEnds_trans (commitEnds_foldl (Device.endMember c o) (Device.endMember_ends c o) c.members d)
    (Device.freeGroup_ends _ c.group)
  unfold Device.endCommit
  dsimp only
  split
  · exact h
  · exact commitEnds_trans h rfl

/-- R13, R106: the end of every queued commit. -/
theorem Device.endQueue_ends (o : CommitOutcome) (d : Device) :
    commitEnds { d with commitQueue := [] } (d.endQueue o) :=
  commitEnds_foldl _ (Device.endCommit_ends o) _ _

/-- The entry into READ_ONLY: the store, and the end of every queued commit. -/
theorem Device.enterReadOnly_normal (r : Reason) {d : Device} (h : d.store = .normal) :
    commitEnds { d with store := .readOnly r, commitQueue := [] } (d.enterReadOnly r) := by
  unfold Device.enterReadOnly
  rw [if_pos h]
  exact Device.endQueue_ends .storeFull { d with store := .readOnly r }

theorem Device.enterReadOnly_other (r : Reason) {d : Device} (h : d.store ≠ .normal) : d.enterReadOnly r = d := by
  simp [Device.enterReadOnly, h]

/-- R34, R107: the end of a commit's unit whose version is not written. -/
theorem Device.failCommit_ends (c : CommitRecord) (placed : List Loc) (o : CommitOutcome) (d : Device) :
    commitEnds { d with flight := none } (d.failOwner (.commit c placed) o) :=
  Device.endCommit_ends o _ c

/-- R20, R24, R107: where a commit's version needs a new segment, the segment table and the array are as they were. -/
theorem Device.openFor_commit (c : CommitRecord) (placed : List Loc) (retried : Bool) (d : Device) :
    (d.openFor (.commit c placed) retried).segments = d.segments ∧
      (d.openFor (.commit c placed) retried).array = d.array := by
  unfold Device.openFor
  split
  · exact ⟨rfl, rfl⟩
  · rw [d.failCommit_ends c placed _]
    exact ⟨rfl, rfl⟩

theorem Device.retry_commit (c : CommitRecord) (placed : List Loc) (retried : Bool) (d : Device) :
    (d.retry (.commit c placed) retried).segments = d.segments ∧
      (d.retry (.commit c placed) retried).array = d.array := by
  unfold Device.retry
  split
  · rw [d.failCommit_ends c placed _]
    exact ⟨rfl, rfl⟩
  · exact d.openFor_commit c placed true

/-- A list changed at a place that holds `x`. -/
theorem modify_at {α : Type} {l : List α} {i : Nat} {x : α} (f : α → α) (h : l[i]? = some x) :
    l.modify i f = l.set i (f x) := by
  apply List.ext_getElem?
  intro j
  rw [List.getElem?_modify, List.getElem?_set]
  by_cases hj : i = j
  · subst hj
    obtain ⟨h1, h2⟩ := List.getElem?_eq_some_iff.1 h
    simp [h1, h2]
  · simp [hj]

end Sys2Proof.Machine
end

