-- ==== Sys2Proof/Laws/CommitRequest.lean ====
section
/-! SUPPORT. COMMIT's list, the renewal of the handles it names, and the change of those handles at acceptance. -/

namespace Sys2Proof.Machine

/-! ## The list (R89) -/

@[simp] theorem Four.ofByte_toByte (h : Four) : Four.ofByte h.toByte = some h := by cases h <;> rfl

theorem noneTwice_iff (hs : List HandleNo) : noneTwice hs = true ↔ hs.Nodup := by
  induction hs with
  | nil => simp [noneTwice]
  | cons h rest ih => simp [noneTwice, ih]

theorem handles_length {hs : List HandleNo} (h : hs.Nodup) : hs.length ≤ 4 :=
  (h.subperm (l₂ := Four.all) fun x _ => by cases x <;> decide).length_le

theorem mapM_ofByte (hs : List HandleNo) : (hs.map Four.toByte).mapM Four.ofByte = some hs := by
  induction hs with
  | nil => rfl
  | cons h rest ih => simp [ih]

/-- A list of distinct handle numbers, not empty, is well formed. -/
theorem commitList_map {hs : List HandleNo} (hne : hs ≠ []) (h : hs.Nodup) :
    commitList (hs.map Four.toByte) = some hs := by
  have h1 : 1 ≤ hs.length := List.length_pos_of_ne_nil hne
  rw [commitList, mapM_ofByte]
  simp [h1, handles_length h, (noneTwice_iff hs).2 h]

/-! ## The renewal (R68) -/

theorem Handle.renewed_renewed (t : Nat) (x : Handle) : (x.renewed t).renewed t = x.renewed t := by
  cases x <;> rfl

/-- Only the named handles of the port change, and only by their renewal. -/
theorem Device.renewAll_eq (p : PortId) (hs : List HandleNo) (d : Device) :
    d.renewAll p hs = d.modPort p (fun q => { q with handles := ((d.renewAll p hs).port p).handles }) ∧
      ∀ j, (d.renewAll p hs).handle p j =
        if j ∈ hs then (d.handle p j).renewed (d.deadline p) else d.handle p j := by
  induction hs generalizing d with
  | nil =>
    refine ⟨?_, fun j => by simp [Device.renewAll]⟩
    cases p <;> rfl
  | cons h rest ih =>
    obtain ⟨h1, h2⟩ := ih (d.renew p h)
    have hr : d.renewAll p (h :: rest) = (d.renew p h).renewAll p rest := rfl
    have hdl : (d.renew p h).deadline p = d.deadline p := by
      simp [Device.deadline, Device.renew, Device.setHandle]
    rw [hr]
    refine ⟨?_, fun j => ?_⟩
    · generalize ((d.renew p h).renewAll p rest).port p = q at h1 ⊢
      rw [h1, Device.renew, Device.setHandle, Device.modPort_modPort]
    · rw [h2 j, hdl]
      by_cases hj : j = h
      · subst hj
        rw [Device.handle_renew_same]
        simp [Handle.renewed_renewed]
      · have : (d.renew p h).handle p j = d.handle p j := Device.handle_setHandle_other _ d p hj
        simp [this, hj]

/-! ## Acceptance (R93) -/

/-- Only the named handles of the port change, and only from WRITING to COMMITTING. -/
theorem Device.commitHandles_eq (p : PortId) (hs : List HandleNo) (d : Device) :
    hs.foldl (Device.commitHandle p) d =
        d.modPort p (fun q => { q with handles := ((hs.foldl (Device.commitHandle p) d).port p).handles }) ∧
      ∀ j, (hs.foldl (Device.commitHandle p) d).handle p j =
        if j ∈ hs then (d.handle p j).committed else d.handle p j := by
  induction hs generalizing d with
  | nil =>
    refine ⟨?_, fun j => by simp⟩
    cases p <;> rfl
  | cons h rest ih =>
    obtain ⟨h1, h2⟩ := ih (d.commitHandle p h)
    rw [List.foldl_cons]
    have hcc : ∀ x : Handle, x.committed.committed = x.committed := fun x => by cases x <;> rfl
    refine ⟨?_, fun j => ?_⟩
    · generalize (rest.foldl (Device.commitHandle p) (d.commitHandle p h)).port p = q at h1 ⊢
      rw [h1, Device.commitHandle, Device.setHandle, Device.modPort_modPort]
    · rw [h2 j]
      by_cases hj : j = h
      · subst hj
        have : (d.commitHandle p j).handle p j = (d.handle p j).committed := by simp [Device.commitHandle]
        simp [this, hcc]
      · have : (d.commitHandle p h).handle p j = d.handle p j := Device.handle_setHandle_other _ d p hj
        simp [this, hj]

end Sys2Proof.Machine
end

