-- ==== Sys2Proof/Laws/Control.lean ====
section
/-! SUPPORT. What PORT_RESET changes before the arbiter's choice. -/

namespace Sys2Proof.Machine

/-- `d'` is `d` but for the handles of port `p`, buffers, directory, segment table, group table and the controller's state. -/
def portClears (p : PortId) (d d' : Device) : Prop :=
  d' = { d with
    ports := (d.modPort p fun q => { q with handles := (d'.port p).handles }).ports
    buffers := d'.buffers
    directory := d'.directory
    segments := d'.segments
    groups := d'.groups
    reclaim := { d.reclaim with state := d'.reclaim.state } }

theorem portClears_refl (p : PortId) (d : Device) : portClears p d d := by
  cases p <;> rfl

theorem portClears_trans {p : PortId} {d e f : Device} (h : portClears p d e) (g : portClears p e f) :
    portClears p d f := by
  unfold portClears at *
  generalize (f.port p).handles = H at g ⊢
  rw [g]
  have hp : (e.modPort p fun q => { q with handles := H }).ports = (d.modPort p fun q => { q with handles := H }).ports := by
    rw [h]
    simp [Device.modPort, Device.setPort, Device.port]
  rw [hp]
  generalize (e.port p).handles = K at h
  rw [h]

theorem portClears_foldl {β : Type} {p : PortId} (step : Device → β → Device) (xs : List β)
    (h : ∀ x ∈ xs, ∀ d, portClears p d (step d x)) (d : Device) : portClears p d (xs.foldl step d) := by
  induction xs generalizing d with
  | nil => exact portClears_refl p d
  | cons x rest ih =>
    exact portClears_trans (h x List.mem_cons_self d) (ih (fun y hy => h y (List.mem_cons_of_mem x hy)) _)

theorem Device.setHandle_clears (p : PortId) (h : HandleNo) (x : Handle) (d : Device) :
    portClears p d (d.setHandle p h x) := by
  unfold portClears
  simp [Device.setHandle, Device.modPort, Device.setPort, Device.port]

theorem Device.dropWriter_clears (p : PortId) (h : HandleNo) (k : Key) (b : BufferNo) (x : Handle) (d : Device) :
    portClears p d (d.dropWriter p h k b x) := by
  unfold portClears
  rw [Device.dropWriter_frame]
  simp [Device.setHandle, Device.modPort, Device.setPort, Device.port]

theorem Device.dropReader_clears (p : PortId) (h : HandleNo) (k : Key) (v : Bound) (x : Handle) (d : Device) :
    portClears p d (d.dropReader p h k v x) := by
  unfold portClears
  rw [Device.dropReader_eq]
  simp [Device.setHandle, Device.modPort, Device.setPort, Device.port]

theorem Device.resetHandle_clears (p : PortId) (h : HandleNo) (d : Device) : portClears p d (d.resetHandle p h) := by
  unfold Device.resetHandle
  split
  · exact d.dropReader_clears p h _ _ _
  · exact d.dropWriter_clears p h _ _ _
  · exact d.setHandle_clears p h _
  · exact d.setHandle_clears p h _
  · exact portClears_refl p d
  · exact portClears_refl p d

theorem Device.freeGroup_clears (p : PortId) (g : Option Nat) (d : Device) : portClears p d (d.freeGroup g) := by
  cases g <;> cases p <;> rfl

theorem Device.removeCommit_clears (c : CommitRecord) (d : Device) : portClears c.port d (d.removeCommit c) :=
  portClears_trans
    (portClears_foldl (p := c.port) (fun d (m : Member) => d.dropWriter c.port m.handle m.key m.buffer .free) c.members
      (fun _ _ d => d.dropWriter_clears _ _ _ _ _) d)
    (Device.freeGroup_clears c.port c.group _)

/-- R110: the port's commits leave the queue. -/
theorem Device.removeCommits_clears (p : PortId) (d : Device) :
    portClears p { d with commitQueue := d.commitQueue.filter fun c => c.port != p } (d.removeCommits p) := by
  refine portClears_foldl _ _ (fun c hc d => ?_) _
  have : c.port = p := by simpa using (List.mem_filter.1 hc).2
  exact this ▸ d.removeCommit_clears c

/-! ## Handles -/

theorem Device.handle_dropWriter_same (d : Device) (p : PortId) (h : HandleNo) (k : Key) (b : BufferNo) (x : Handle) :
    (d.dropWriter p h k b x).handle p h = x := by
  simp [Device.dropWriter]

theorem Device.handle_dropWriter_other (d : Device) (p : PortId) {h j : HandleNo} (k : Key) (b : BufferNo) (x : Handle)
    (hj : j ≠ h) : (d.dropWriter p h k b x).handle p j = d.handle p j := by
  rw [Device.dropWriter_frame]
  exact Device.handle_setHandle_other x d p hj

theorem Device.handle_dropReader_same (d : Device) (p : PortId) (h : HandleNo) (k : Key) (v : Bound) (x : Handle) :
    (d.dropReader p h k v x).handle p h = x := by
  simp [Device.dropReader]

theorem Device.handle_dropReader_other (d : Device) (p : PortId) {h j : HandleNo} (k : Key) (v : Bound) (x : Handle)
    (hj : j ≠ h) : (d.dropReader p h k v x).handle p j = d.handle p j := by
  rw [Device.dropReader_eq]
  exact Device.handle_setHandle_other x d p hj

/-- R88: a COMMITTING handle stays, any other is FREE. -/
def Handle.afterReset : Handle → Handle
  | .committing k b c => .committing k b c
  | _ => .free

theorem Device.handle_resetHandle (d : Device) (p : PortId) (h j : HandleNo) :
    (d.resetHandle p h).handle p j = if j = h then (d.handle p h).afterReset else d.handle p j := by
  by_cases hj : j = h
  · subst hj
    rw [if_pos rfl]
    unfold Device.resetHandle
    split <;> rename_i hx
    · rw [Device.handle_dropReader_same, hx]; rfl
    · rw [Device.handle_dropWriter_same, hx]; rfl
    · rw [Device.handle_setHandle_same, hx]; rfl
    · rw [Device.handle_setHandle_same, hx]; rfl
    · rw [hx]; rfl
    · rw [hx]; rfl
  · rw [if_neg hj]
    unfold Device.resetHandle
    split
    · exact d.handle_dropReader_other p _ _ _ hj
    · exact d.handle_dropWriter_other p _ _ _ hj
    · exact Device.handle_setHandle_other _ d p hj
    · exact Device.handle_setHandle_other _ d p hj
    · rfl
    · rfl

theorem Device.handle_resetHandles (d : Device) (p : PortId) (j : HandleNo) :
    (Four.all.foldl (Device.resetHandle p) d).handle p j = (d.handle p j).afterReset := by
  simp only [Four.all, List.foldl_cons, List.foldl_nil, Device.handle_resetHandle]
  cases j <;> simp

/-- A removed commit frees its members' handles and no other. -/
theorem Device.handle_removeCommit (d : Device) (c : CommitRecord) (j : HandleNo) :
    (d.removeCommit c).handle c.port j = if ∃ m ∈ c.members, m.handle = j then .free else d.handle c.port j := by
  have hg : ∀ (e : Device) (g : Option Nat), (e.freeGroup g).handle c.port j = e.handle c.port j := by
    intro e g
    cases g <;> rfl
  unfold Device.removeCommit
  rw [hg]
  generalize c.members = ms
  induction ms generalizing d with
  | nil => simp
  | cons m rest ih =>
    rw [List.foldl_cons, ih]
    by_cases hj : j = m.handle
    · subst hj
      simp [Device.handle_dropWriter_same]
    · rw [Device.handle_dropWriter_other d c.port _ _ _ hj]
      simp [Ne.symm hj]

theorem Device.handle_removeCommits (d : Device) (p : PortId) (j : HandleNo) :
    (d.removeCommits p).handle p j =
      if ∃ c ∈ d.commitQueue, c.port = p ∧ ∃ m ∈ c.members, m.handle = j then .free else d.handle p j := by
  unfold Device.removeCommits
  have key : ∀ (cs : List CommitRecord) (e : Device), (∀ c ∈ cs, c.port = p) →
      (cs.foldl Device.removeCommit e).handle p j =
        if ∃ c ∈ cs, ∃ m ∈ c.members, m.handle = j then .free else e.handle p j := by
    intro cs
    induction cs with
    | nil => simp
    | cons c rest ih =>
      intro e hc
      have h0 := hc c List.mem_cons_self
      rw [List.foldl_cons, ih _ fun x hx => hc x (List.mem_cons_of_mem c hx)]
      subst h0
      rw [Device.handle_removeCommit]
      by_cases h1 : ∃ m ∈ c.members, m.handle = j
      · simp [h1]
      · simp [h1]
  rw [key _ _ fun c hc => by simpa using (List.mem_filter.1 hc).2]
  have : (∃ c ∈ d.commitQueue.filter fun c => c.port == p, ∃ m ∈ c.members, m.handle = j) ↔
      ∃ c ∈ d.commitQueue, c.port = p ∧ ∃ m ∈ c.members, m.handle = j := by
    simp only [List.mem_filter, beq_iff_eq, and_assoc]
  simp only [this]
  rfl

end Sys2Proof.Machine
end

