-- ==== Sys2Proof/Laws/Keeps.lean ====
section
/-! SUPPORT. What the operations of the engine, the commits, the directory and the ports keep: one entry per key, the array's
geometry, the group table's size, the lease periods, watch lists that only shrink, and where mount stands. -/

namespace Sys2Proof.Machine

/-- `d'` has at most one entry per key where `d` has, its array the shape of `d`'s, its group table the size, its ports the
lease periods of `d`, watch lists that `d`'s contain in order, and mount where it stood. -/
structure Keeps (d d' : Device) : Prop where
  keys : d.keysRise → d'.keysRise
  shape : shaped d.array → shaped d'.array
  groups : d'.groups.length = d.groups.length
  lease : ∀ p, (d'.port p).leaseExp = (d.port p).leaseExp
  watch : ∀ p, (d'.port p).watch.Sublist (d.port p).watch
  mount : d'.mount = d.mount

namespace Keeps

theorem refl (d : Device) : Keeps d d :=
  ⟨id, id, rfl, fun _ => rfl, fun _ => .refl _, rfl⟩

theorem trans {d e f : Device} (h : Keeps d e) (g : Keeps e f) : Keeps d f :=
  ⟨fun x => g.keys (h.keys x), fun x => g.shape (h.shape x), g.groups.trans h.groups,
    fun p => (g.lease p).trans (h.lease p), fun p => (g.watch p).trans (h.watch p), g.mount.trans h.mount⟩

/-- Directory, array, group table and ports as they were. -/
theorem of_eq {d d' : Device} (h1 : d'.directory = d.directory) (h2 : d'.array = d.array) (h3 : d'.groups = d.groups)
    (h4 : d'.ports = d.ports) (h5 : d'.mount = d.mount) : Keeps d d' := by
  have hp : ∀ p, d'.port p = d.port p := fun p => by simp [Device.port, h4]
  refine ⟨fun h => ?_, fun h => h2 ▸ h, by rw [h3], fun p => by rw [hp], fun p => by rw [hp], h5⟩
  unfold Device.keysRise
  rw [h1]
  exact h

theorem foldl {β : Type} (step : Device → β → Device) (h : ∀ d x, Keeps d (step d x)) (xs : List β) (d : Device) :
    Keeps d (xs.foldl step d) := by
  induction xs generalizing d with
  | nil => exact refl d
  | cons x rest ih => exact (h d x).trans (ih _)

/-! ## Ports -/

theorem modPort (p : PortId) (f : Port → Port) (d : Device)
    (hf : ∀ q, (f q).leaseExp = q.leaseExp ∧ (f q).watch.Sublist q.watch) : Keeps d (d.modPort p f) := by
  refine ⟨id, id, rfl, fun r => ?_, fun r => ?_, rfl⟩ <;> by_cases h : r = p
  · subst h
    rw [Device.port_modPort_same]
    exact (hf _).1
  · rw [Device.port_modPort_other f d h]
  · subst h
    rw [Device.port_modPort_same]
    exact (hf _).2
  · rw [Device.port_modPort_other f d h]

theorem mapPorts (f : PortId → Port → Port) (d : Device)
    (hf : ∀ p q, (f p q).leaseExp = q.leaseExp ∧ (f p q).watch.Sublist q.watch) : Keeps d (d.mapPorts f) :=
  ⟨id, id, rfl, fun p => by rw [Device.port_mapPorts]; exact (hf p _).1,
    fun p => by rw [Device.port_mapPorts]; exact (hf p _).2, rfl⟩

theorem setHandle (p : PortId) (h : HandleNo) (x : Handle) (d : Device) : Keeps d (d.setHandle p h x) :=
  modPort p _ d fun _ => ⟨rfl, .refl _⟩

theorem offer (n : Notice) (q : Port) : (q.offer n).leaseExp = q.leaseExp ∧ (q.offer n).watch.Sublist q.watch := by
  simp

theorem offerAll (n : Notice) (d : Device) : Keeps d (d.offerAll n) :=
  mapPorts _ d fun _ q => offer n q

theorem offerWatchers (k : Key) (n : Notice) (d : Device) : Keeps d (d.offerWatchers k n) :=
  mapPorts _ d fun _ q => by
    split
    · exact offer n q
    · exact ⟨rfl, .refl _⟩

theorem offerWatched (cs : List (Key × Notice)) (q : Port) :
    (q.offerWatched cs).leaseExp = q.leaseExp ∧ (q.offerWatched cs).watch.Sublist q.watch := by
  induction cs generalizing q with
  | nil => exact ⟨rfl, .refl _⟩
  | cons c rest ih =>
    have h := ih (if q.watch.contains c.1 then q.offer c.2 else q)
    refine ⟨h.1.trans ?_, h.2.trans ?_⟩ <;> split <;> simp

theorem placeDone (p : PortId) (n : Notice) (d : Device) : Keeps d (d.modPort p (Port.placeDone n)) :=
  modPort p _ d fun _ => ⟨rfl, .refl _⟩

theorem renew (p : PortId) (h : HandleNo) (d : Device) : Keeps d (d.renew p h) := setHandle p h _ d

/-! ## The directory -/

/-- The keys of the directory are a sublist of what they were. -/
theorem directory {d d' : Device} (h1 : (d'.directory.map (·.key)).Sublist (d.directory.map (·.key)))
    (h2 : d'.array = d.array) (h3 : d'.groups = d.groups) (h4 : d'.ports = d.ports)
    (h5 : d'.mount = d.mount) : Keeps d d' := by
  have hp : ∀ p, d'.port p = d.port p := fun p => by simp [Device.port, h4]
  refine ⟨fun h => ?_, fun h => h2 ▸ h, by rw [h3], fun p => by rw [hp], fun p => by rw [hp], h5⟩
  unfold Device.keysRise at h ⊢
  have h5 := List.pairwise_map.2 h
  exact List.pairwise_map.1 (h5.sublist h1)

theorem modEntry (k : Key) (f : Entry → Entry) (d : Device) : Keeps d (d.modEntry k f) :=
  directory (by rw [Device.modEntry_keys]) rfl rfl rfl rfl

theorem removeEntry (k : Key) (d : Device) : Keeps d (d.removeEntry k) :=
  directory (List.filter_sublist.map _) rfl rfl rfl rfl

theorem addEntry {e : Entry} {d : Device} (h : d.lookup e.key = none) : Keeps d (d.addEntry e) := by
  refine ⟨fun hk => insertEntry_rises e _ hk ?_, id, rfl, fun _ => rfl, fun _ => .refl _, rfl⟩
  simpa [Device.lookup] using h

theorem releaseClaim (k : Key) (d : Device) : Keeps d (d.releaseClaim k) := by
  unfold Device.releaseClaim
  split
  · exact refl d
  · split
    · exact removeEntry k d
    · exact modEntry k _ d

/-! ## Segments, pins, buffers, groups -/

theorem modSegment (i : Nat) (f : SegmentRecord → SegmentRecord) (d : Device) : Keeps d (d.modSegment i f) :=
  of_eq rfl rfl rfl rfl rfl

theorem pin (k : Key) (i : Nat) (d : Device) : Keeps d (d.pin k i) :=
  (modEntry k _ d).trans (modSegment i _ _)

theorem endHolding (d : Device) : Keeps d d.endHolding := by
  rw [Device.endHolding_eq]
  exact of_eq rfl rfl rfl rfl rfl

theorem dropReader (p : PortId) (h : HandleNo) (k : Key) (v : Bound) (x : Handle) (d : Device) :
    Keeps d (d.dropReader p h k v x) :=
  (((modEntry k _ d).trans (modSegment _ _ _)).trans (endHolding _)).trans (setHandle p h x _)

theorem setBuffer (b : BufferNo) (x : Buffer) (d : Device) : Keeps d (d.setBuffer b x) := of_eq rfl rfl rfl rfl rfl

theorem dropWriter (p : PortId) (h : HandleNo) (k : Key) (b : BufferNo) (x : Handle) (d : Device) :
    Keeps d (d.dropWriter p h k b x) :=
  ((releaseClaim k d).trans (setBuffer b _ _)).trans (setHandle p h x _)

theorem setGroup (i : Nat) (g : GroupEntry) (d : Device) : Keeps d (d.setGroup i g) :=
  ⟨id, id, by simp [Device.setGroup], fun _ => rfl, fun _ => .refl _, rfl⟩

theorem freeGroup (g : Option Nat) (d : Device) : Keeps d (d.freeGroup g) := by
  cases g with
  | none => exact refl d
  | some i => exact setGroup i .free d

theorem detectDamage (k : Key) (d : Device) : Keeps d (d.detectDamage k) := by
  unfold Device.detectDamage
  split
  · exact refl d
  · split
    · exact refl d
    · have h := (modEntry k (fun e => { e with state := .damaged, markPending := true }) d).trans
        (offerWatchers k (.damaged k) _)
      dsimp only
      split
      · exact h.trans (of_eq rfl rfl rfl rfl rfl)
      · exact h

/-! ## The array -/

/-- Only the array changes, and keeps its shape. -/
theorem array {d d' : Device} (hs : shaped d.array → shaped d'.array) (h1 : d'.directory = d.directory)
    (h3 : d'.groups = d.groups) (h4 : d'.ports = d.ports) (h5 : d'.mount = d.mount) : Keeps d d' := by
  have hp : ∀ p, d'.port p = d.port p := fun p => by simp [Device.port, h4]
  refine ⟨fun h => ?_, hs, by rw [h3], fun p => by rw [hp], fun p => by rw [hp], h5⟩
  unfold Device.keysRise
  rw [h1]
  exact h

theorem modCell (l : Loc) (f : Cell → Cell) (d : Device) : Keeps d (d.modCell l f) :=
  array (Device.modCell_shaped l f) rfl rfl rfl rfl

theorem modHeader (i : Nat) (f : SegmentHeader → SegmentHeader) (d : Device) : Keeps d (d.modHeader i f) :=
  array (Device.modHeader_shaped i f) rfl rfl rfl rfl

theorem programFrame (l : Loc) (cells : List Cell) (i : Nat) (d : Device) : Keeps d (d.programFrame l cells i) :=
  modCell _ _ d

theorem leaveFrame (l : Loc) (cells : List Cell) (i : Nat) (left : FrameLeft) (d : Device) :
    Keeps d (d.leaveFrame l cells i left) := by
  cases left with
  | blank => exact refl d
  | malformed => exact modCell _ _ d
  | badCheck => exact modCell _ _ d
  | asMeant => exact programFrame _ _ _ d

theorem eraseImage (i count : Nat) (r : EraseResult) (d : Device) : Keeps d (d.eraseImage i count r) := by
  cases r with
  | good => exact array (Device.eraseImage_shaped i count .good) rfl rfl rfl rfl
  | bad e m => exact array (Device.eraseImage_shaped i count (.bad e m)) rfl rfl rfl rfl

theorem cutArray (cut : Cut) (d : Device) : Keeps d (d.cutArray cut) := by
  unfold Device.cutArray
  split <;> first | exact refl d | exact leaveFrame _ _ _ _ d | exact modHeader _ _ d

/-! ## The access table -/

theorem installTable (t : AccessTable) (d : Device) : Keeps d (d.installTable t) := by
  have hrev : ∀ p (d : Device) (h : HandleNo), Keeps d (d.revokeIfLost p h) := by
    intro p d h
    unfold Device.revokeIfLost
    split
    · split
      · exact refl d
      · exact (dropWriter p h _ _ _ d).trans (modPort p _ _ fun q => offer _ q)
    · exact refl d
  have hport : ∀ (d : Device) p, Keeps d (d.revokePort p) := fun d p => foldl _ (hrev p) _ d
  have h0 : Keeps d { d with table := some t, tableInvalid := false } := of_eq rfl rfl rfl rfl rfl
  exact (h0.trans (foldl _ hport _ _)).trans (mapPorts _ _ fun _ q => ⟨rfl, List.filter_sublist⟩)

/-! ## Commits -/

theorem endMember (c : CommitRecord) (o : CommitOutcome) (d : Device) (m : Member) : Keeps d (d.endMember c o m) := by
  unfold Device.endMember
  split
  · exact dropWriter _ _ _ _ _ d
  · split
    · exact dropWriter _ _ _ _ _ d
    · unfold Device.returnWriter
      split
      · exact setHandle _ _ _ d
      · exact refl d

theorem endCommit (o : CommitOutcome) (d : Device) (c : CommitRecord) : Keeps d (d.endCommit o c) := by
  have h := (foldl _ (endMember c o) c.members d).trans (freeGroup c.group _)
  unfold Device.endCommit
  dsimp only
  split
  · exact h
  · exact h.trans (placeDone _ _ _)

theorem endQueue (o : CommitOutcome) (d : Device) : Keeps d (d.endQueue o) :=
  trans (e := { d with commitQueue := [] }) (of_eq rfl rfl rfl rfl rfl) (foldl _ (endCommit o) _ _)

theorem enterReadOnly (r : Reason) (d : Device) : Keeps d (d.enterReadOnly r) := by
  unfold Device.enterReadOnly
  split
  · exact trans (e := { d with store := .readOnly r }) (of_eq rfl rfl rfl rfl rfl) (endQueue _ _)
  · exact refl d

theorem testWorn (d : Device) : Keeps d d.testWorn := by
  unfold Device.testWorn
  split
  · exact enterReadOnly _ d
  · exact refl d

theorem finishCommit (c : CommitRecord) (places : List Loc) (d : Device) : Keeps d (d.finishCommit c places) := by
  have h1 := foldl (Device.switchMember (c.sequence.getD 0)) (fun d x => modEntry x.1.key _ d) (c.members.zip places) d
  have h2 := foldl (Device.releaseMember c.port)
    (fun d m => (setBuffer m.buffer Buffer.cleared d).trans (setHandle c.port m.handle .free _)) c.members
    ((c.members.zip places).foldl (Device.switchMember (c.sequence.getD 0)) d)
  have h3 : ∀ d : Device, Keeps d (d.keepGroup c places) := by
    intro d
    unfold Device.keepGroup
    split
    · exact setGroup _ _ d
    · exact refl d
  have h4 : ∀ d : Device, Keeps d (d.deliverSwitch c (c.sequence.getD 0)) := by
    intro d
    refine mapPorts _ d fun p q => ?_
    split
    · exact ⟨rfl, .refl _⟩
    · exact offerWatched _ q
  have h5 : ∀ (w : Option (Intent × List Byte)) (d : Device), Keeps d (d.replaceTable w) := by
    intro w d
    unfold Device.replaceTable
    split
    · exact refl d
    · exact installTable _ d
    · exact of_eq rfl rfl rfl rfl rfl
  exact ((((h1.trans h2).trans (h3 _)).trans (h4 _))).trans (h5 _ _)

theorem switchMark (k : Key) (sequence : Nat) (l : Loc) (d : Device) : Keeps d (d.switchMark k sequence l) :=
  (modEntry k _ d).trans (offerWatchers k _ _)

/-! ## Reclaim -/

theorem logPassed (x : Passed) (d : Device) : Keeps d (d.logPassed x) := of_eq rfl rfl rfl rfl rfl

theorem dropTombstone (l : Loc) (k : Key) (n : Nat) (d : Device) : Keeps d (d.dropTombstone l k n) :=
  (removeEntry k d).trans (of_eq rfl rfl rfl rfl rfl)

theorem groupsMap (f : GroupEntry → GroupEntry) (d : Device) : Keeps d { d with groups := d.groups.map f } :=
  ⟨id, id, by simp, fun _ => rfl, fun _ => .refl _, rfl⟩

theorem dropStale (l : Loc) (h : VersionHeader) (good : Bool) (d : Device) : Keeps d (d.dropStale l h good) := by
  unfold Device.dropStale
  split
  · dsimp only
    split
    · exact (modEntry _ _ d).trans (logPassed _ _)
    · exact ((modEntry _ _ d).trans (groupsMap _ _)).trans (logPassed _ _)
  · exact refl d

theorem setPosition (n : Nat) (d : Device) : Keeps d (d.setPosition n) := of_eq rfl rfl rfl rfl rfl

theorem walk (v fuel pos : Nat) (d : Device) : Keeps d (d.walk v fuel pos).1 := by
  induction fuel generalizing pos d with
  | zero => exact refl d
  | succ n ih =>
    unfold Device.walk
    split
    · split
      · exact setPosition _ d
      · exact (dropTombstone _ _ _ d).trans (ih _ _)
      · exact setPosition _ d
      · exact setPosition _ d
      · exact setPosition _ d
    · split
      · exact ih _ d
      · exact ih _ d
      · dsimp only
        split
        · exact setPosition _ d
        · exact (dropTombstone _ _ _ d).trans (ih _ _)
        · exact (dropStale _ _ _ d).trans (ih _ _)
        · exact ih _ d

theorem endWalk (v : Nat) (d : Device) : Keeps d (d.endWalk v) := of_eq rfl rfl rfl rfl rfl

theorem damageGroup (s : Nat) (d : Device) : Keeps d (d.damageGroup s) := foldl _ (fun d k => detectDamage k d) _ d

theorem copySwitch (c : Copy) (l : Loc) (d : Device) : Keeps d (d.copySwitch c l) := by
  have h0 : Keeps d (d.passOriginal c) := of_eq rfl rfl rfl rfl rfl
  have hl : ∀ d : Device, Keeps d (d.logCopied c) := by
    intro d
    unfold Device.logCopied
    split
    · exact logPassed _ d
    · exact refl d
  unfold Device.copySwitch
  dsimp only
  split
  · split
    · exact (h0.trans (modEntry _ _ _)).trans (hl _)
    · exact (h0.trans (modEntry _ _ _)).trans (detectDamage _ _)
  · split
    · split
      · exact h0.trans (setGroup _ _ _)
      · exact (h0.trans (setGroup _ _ _)).trans (damageGroup _ _)
    · exact h0
    · exact h0
    · exact h0

theorem giveBack (v : Nat) (log : List Passed) (d : Device) (x : Passed) : Keeps d (d.giveBack v log x) := by
  unfold Device.giveBack
  dsimp only
  split
  · rename_i h
    simp only [Bool.and_eq_true, Option.isNone_iff_eq_none] at h
    exact trans (e := { d with heldSlots := d.heldSlots.erase v }) (of_eq rfl rfl rfl rfl rfl) (addEntry h.1.2)
  · exact refl d

theorem abandonVictim (d : Device) : Keeps d d.abandonVictim := by
  unfold Device.abandonVictim
  split
  · exact refl d
  · rename_i v _
    have h1 : Keeps d { d with directory := d.directory.map (Entry.restored d.reclaim.log) } :=
      directory (by simp [Entry.restored, Function.comp_def]) rfl rfl rfl rfl
    have h2 := h1.trans (groupsMap (GroupEntry.restored d.reclaim.log) _)
    have h3 : Keeps d { d with
        directory := d.directory.map (Entry.restored d.reclaim.log)
        groups := d.groups.map (GroupEntry.restored d.reclaim.log)
        reclaim := Reclaim.cleared } := h2.trans (of_eq rfl rfl rfl rfl rfl)
    exact (h3.trans (foldl _ (giveBack v d.reclaim.log) _ _)).trans (modSegment v _ _)

/-! ## The engine -/

theorem setFlight (u : Option EngineUnit) (d : Device) : Keeps d (d.setFlight u) := of_eq rfl rfl rfl rfl rfl

theorem giveSequence (o : Owner) (d : Device) : Keeps d (d.giveSequence o).2 := by
  have h : ∀ d : Device, Keeps d d.advanceSequence := by
    intro d
    unfold Device.advanceSequence
    dsimp only
    have h0 : Keeps d { d with seqCounter := d.seqCounter + 1 } := of_eq rfl rfl rfl rfl rfl
    split
    · exact h0.trans (enterReadOnly _ _)
    · exact h0
  have hr : ∀ (g : Option Nat) (n : Nat) (d : Device), Keeps d (d.recordSequence g n) := by
    intro g n d
    cases g with
    | none => exact refl d
    | some i => exact setGroup _ _ d
  unfold Device.giveSequence
  split
  · split
    · exact refl d
    · exact (hr _ _ d).trans (h _)
  · exact h d
  · exact refl d
  · exact refl d

theorem failOwner (owner : Owner) (o : CommitOutcome) (d : Device) : Keeps d (d.failOwner owner o) := by
  unfold Device.failOwner
  split
  · exact (setFlight _ d).trans (endCommit _ _ _)
  · exact setFlight _ d
  · exact (setFlight _ d).trans (abandonVictim _)

theorem openFor (owner : Owner) (retried : Bool) (d : Device) : Keeps d (d.openFor owner retried) := by
  unfold Device.openFor
  split
  · exact of_eq rfl rfl rfl rfl rfl
  · exact failOwner _ _ d

theorem beginProgram (owner : Owner) (retried : Bool) (i : Nat) (d : Device) : Keeps d (d.beginProgram owner retried i) :=
  ((giveSequence owner d).trans (modSegment i _ _)).trans (setFlight _ _)

theorem placeItem (owner : Owner) (d : Device) : Keeps d (d.placeItem owner) := by
  unfold Device.placeItem
  split
  · split
    · exact beginProgram _ _ _ d
    · exact setFlight _ d
  · exact openFor _ _ d

theorem startFix (f : Fix) (d : Device) : Keeps d (d.startFix f) := by
  unfold Device.startFix
  split
  · exact setFlight _ d
  · split <;> exact setFlight _ d

theorem startErase (v : Nat) (d : Device) : Keeps d (d.startErase v) := by
  unfold Device.startErase
  split
  · exact refl d
  · split <;> exact setFlight _ d

theorem walkTurn (v : Nat) (d : Device) : Keeps d (d.walkTurn v).1 := by
  have hw := walk v walkFuel (d.reclaim.position.getD 1) d
  unfold Device.walkTurn
  dsimp only
  split
  · refine hw.trans ?_
    unfold Device.startCopy
    split
    · exact placeItem _ _
    · exact abandonVictim _
  · exact hw.trans (endWalk v _)

theorem reclaimTurn (d : Device) : Keeps d d.reclaimTurn.1 := by
  unfold Device.reclaimTurn
  split
  · exact startFix _ d
  · unfold Device.controllerTurn
    split
    · split
      · rename_i v _
        have h0 : Keeps d (d.takeVictim v) := of_eq rfl rfl rfl rfl rfl
        exact h0.trans (walkTurn v _)
      · exact refl d
    · exact walkTurn _ d
    · exact startErase _ d
    · exact refl d
    · exact refl d
    · exact refl d

theorem lowerOrders (d : Device) : Keeps d d.lowerOrders.1 := by
  unfold Device.lowerOrders
  split
  · exact placeItem _ d
  · split
    · exact reclaimTurn d
    · exact refl d

theorem choose (d : Device) : Keeps d d.choose.1 := by
  have hq : ∀ q, Keeps d { d with commitQueue := q } := fun _ => of_eq rfl rfl rfl rfl rfl
  unfold Device.choose
  split
  · exact lowerOrders d
  · unfold Device.headTurn
    split
    · exact (hq _).trans (endCommit _ _ _)
    · split
      · exact (hq _).trans (placeItem _ _)
      · split
        · exact (hq _).trans (lowerOrders _)
        · split
          · exact (hq _).trans (reclaimTurn _)
          · exact (hq _).trans (endCommit _ _ _)

/-- R113: whatever the arbiter chooses. -/
theorem arbiter (d : Device) : Keeps d d.arbiter := by
  have h : ∀ (fuel : Nat) (d : Device), Keeps d (d.arbitrate fuel) := by
    intro fuel
    induction fuel with
    | zero => exact refl
    | succ n ih =>
      intro d
      unfold Device.arbitrate
      split
      · dsimp only
        split
        · exact (choose d).trans (ih _)
        · exact choose d
      · exact refl d
  exact h arbiterFuel d

theorem finishItem (owner : Owner) (l : Loc) (d : Device) : Keeps d (d.finishItem owner l) := by
  unfold Device.finishItem
  split
  · split
    · exact placeItem _ d
    · exact (setFlight _ d).trans (finishCommit _ _ _)
  · exact (setFlight _ d).trans (switchMark _ _ _ _)
  · exact (setFlight _ d).trans (copySwitch _ _ _)

theorem retry (owner : Owner) (retried : Bool) (d : Device) : Keeps d (d.retry owner retried) := by
  unfold Device.retry
  split
  · exact failOwner _ _ d
  · exact openFor _ _ d

/-! ## The ends of steps -/

theorem frameDone (r : ProgramResult) (d : Device) : Keeps d (d.frameDone r) := by
  unfold Device.frameDone
  split
  · exact (programFrame _ _ _ d).trans (setFlight _ _)
  · exact (leaveFrame _ _ _ _ d).trans (setFlight _ _)
  · exact refl d

theorem markDone (v : Bool) (d : Device) : Keeps d (d.markDone v) := by
  unfold Device.markDone
  split
  · split
    · exact ((modCell _ _ d).trans (finishItem _ _ _)).trans (arbiter _)
    · exact setFlight _ d
  · exact refl d

theorem openDone (r : MarkResult) (d : Device) : Keeps d (d.openDone r) := by
  unfold Device.openDone
  split
  · exact ((modHeader _ _ d).trans (modSegment _ _ _)).trans (beginProgram _ _ _ _)
  · exact (((modHeader _ _ d).trans (modSegment _ _ _)).trans (retry _ _ _)).trans (arbiter _)
  · exact refl d

theorem sealDone (r : MarkResult) (d : Device) : Keeps d (d.sealDone r) := by
  have hx : ∀ (failed : Bool) (o : Owner) (retried : Bool) (d : Device),
      Keeps d (if failed = true then d.retry o retried else d.openFor o retried) := by
    intro failed o retried d
    split
    · exact retry _ _ d
    · exact openFor _ _ d
  have hf : ∀ d : Device, Keeps d d.removeFix := fun _ => of_eq rfl rfl rfl rfl rfl
  unfold Device.sealDone
  split
  · exact (((modHeader _ _ d).trans (modSegment _ _ _)).trans (hx _ _ _ _)).trans (arbiter _)
  · exact (((modHeader _ _ d).trans (modSegment _ _ _)).trans (hf _)).trans (arbiter _)
  · exact refl d

theorem endErase (i count : Nat) (r : EraseResult) (d : Device) : Keeps d (d.endErase i count r) := by
  have h : Keeps d ((d.eraseImage i count r).releaseHeld i) := (eraseImage _ _ _ d).trans (of_eq rfl rfl rfl rfl rfl)
  unfold Device.endErase
  dsimp only
  split
  · exact h.trans (modSegment _ _ _)
  · exact (h.trans (modSegment _ _ _)).trans (testWorn _)

theorem eraseDone (r : EraseResult) (d : Device) : Keeps d (d.eraseDone r) := by
  have h1 : Keeps d d.endReclaim := of_eq rfl rfl rfl rfl rfl
  have h2 : Keeps d d.removeFix := of_eq rfl rfl rfl rfl rfl
  unfold Device.eraseDone
  split
  · exact (h1.trans (endErase _ _ _ _)).trans (arbiter _)
  · exact (h2.trans (endErase _ _ _ _)).trans (arbiter _)
  · exact refl d

theorem retireDone (m : MarkRead) (d : Device) : Keeps d (d.retireDone m) := by
  have h1 : Keeps d d.endReclaim := of_eq rfl rfl rfl rfl rfl
  have h2 : Keeps d d.removeFix := of_eq rfl rfl rfl rfl rfl
  have h : ∀ (i : Nat) (d : Device), Keeps d (d.endRetire i m) := fun i d =>
    trans (e := ((d.setRetiredMark i m).releaseHeld i).retireRecord i)
      ((modHeader i (fun h => { h with retired := m }) d).trans (of_eq rfl rfl rfl rfl rfl)) (testWorn _)
  unfold Device.retireDone
  split
  · exact (h1.trans (h _ _)).trans (arbiter _)
  · exact (h2.trans (h _ _)).trans (arbiter _)
  · exact refl d

theorem stopEngine (cut : Cut) (d : Device) : Keeps d (d.stopEngine cut) := by
  have h1 : ∀ d : Device, Keeps d d.cutTable := by
    intro d
    unfold Device.cutTable
    split
    · exact modSegment _ _ d
    · exact modSegment _ _ d
    · exact refl d
  have h2 : ∀ d : Device, Keeps d d.endRunning := by
    intro d
    unfold Device.endRunning
    split
    · exact (setFlight _ d).trans (endCommit _ _ _)
    · exact setFlight _ d
  exact (((cutArray cut d).trans (h1 _)).trans (h2 _)).trans (endQueue _ _)

end Keeps

end Sys2Proof.Machine
end

