-- ==== Sys2Proof/Laws/Mount.lean ====
section
/-! SUPPORT. What mount builds and what its end keeps (R116, R166, R167, R170). -/

namespace Sys2Proof.Machine

theorem mem_insertEntry (e : Entry) (es : List Entry) (x : Entry) : x ∈ insertEntry e es ↔ x = e ∨ x ∈ es := by
  induction es with
  | nil => simp [insertEntry]
  | cons a l ih =>
    unfold insertEntry
    split
    · simp
    · rw [List.mem_cons, ih, List.mem_cons]
      exact or_left_comm

theorem mem_insertEntries (es : List Entry) (x : Entry) : x ∈ es.foldr insertEntry [] ↔ x ∈ es := by
  induction es with
  | nil => simp
  | cons e l ih => rw [List.foldr_cons, mem_insertEntry, ih, List.mem_cons]

/-- Entries of different keys, each put in its place, stand in rising order of key. -/
theorem insertEntries_rise (es : List Entry) (h : (es.map (·.key)).Nodup) :
    (es.foldr insertEntry []).Pairwise fun x y => x.key < y.key := by
  induction es with
  | nil => simp
  | cons e l ih =>
    simp only [List.map_cons, List.nodup_cons] at h
    refine insertEntry_rises e _ (ih h.2) fun x hx he => h.1 ?_
    exact he ▸ List.mem_map_of_mem ((mem_insertEntries l x).1 hx)

theorem mem_onceEach {α : Type} [DecidableEq α] (l : List α) (x : α) : x ∈ onceEach l ↔ x ∈ l := by
  induction l with
  | nil => simp [onceEach]
  | cons a l ih =>
    unfold onceEach
    split
    · rename_i h
      have ha : a ∈ l := by simpa using h
      rw [ih, List.mem_cons]
      exact ⟨.inr, fun h => h.elim (fun he => he ▸ ha) id⟩
    · rw [List.mem_cons, ih, List.mem_cons]

theorem onceEach_nodup {α : Type} [DecidableEq α] (l : List α) : (onceEach l).Nodup := by
  induction l with
  | nil => simp [onceEach]
  | cons a l ih =>
    unfold onceEach
    split
    · exact ih
    · rename_i h
      exact List.nodup_cons.2 ⟨fun ha => h (by simpa using (mem_onceEach l a).1 ha), ih⟩

/-- An entry that mount makes for a key is of that key. -/
theorem Device.mountEntry_key {d : Device} {complete : List Found} {lost : List Key} {k : Key} {e : Entry}
    (h : d.mountEntry complete lost k = some e) : e.key = k := by
  unfold Device.mountEntry at h
  split at h
  · cases h
    rfl
  · obtain ⟨x, _, rfl⟩ := Option.map_eq_some_iff.1 h
    rfl

/-- R43, R167: the directory that mount builds has one entry for a key, in rising order of key. -/
theorem Device.mountDirectory_rises (d : Device) (complete : List Found) (lost : List Key) :
    (d.mountDirectory complete lost).Pairwise fun x y => x.key < y.key := by
  refine List.Pairwise.sublist (List.take_sublist _ _) (insertEntries_rise _ ?_)
  have key : ∀ ks : List Key, ((ks.filterMap (d.mountEntry complete lost)).map (·.key)).Sublist ks := by
    intro ks
    induction ks with
    | nil => simp
    | cons k l ih =>
      rw [List.filterMap_cons]
      cases hm : d.mountEntry complete lost k with
      | none => exact ih.trans (List.sublist_cons_self _ _)
      | some e =>
        simp only [List.map_cons, Device.mountEntry_key hm]
        exact ih.cons_cons k
  exact (key _).nodup (onceEach_nodup _)

theorem Device.buildTables_rises (d : Device) : d.buildTables.directory.Pairwise fun x y => x.key < y.key :=
  d.mountDirectory_rises _ _

theorem Device.fillSegments_groups_length (d : Device) : d.fillSegments.groups.length = 32 := d.mountGroups_length _ _

/-- R170: the end of mount keeps what the engine's steps keep, and mount is off. -/
theorem Keeps.mountEnd (w : MountWork) (d : Device) : Keeps { d with mount := .off } (d.mountEnd w) := by
  have h0 : Keeps { d with mount := .off } { d with
      store := d.mountStore w
      fixes := w.sealFixes.map Fix.sealing ++ w.unclean.map Fix.erasing
      mount := .off } := .of_eq rfl rfl rfl rfl rfl
  have h1 : ∀ d : Device, Keeps d d.mountTable := by
    intro d
    unfold Device.mountTable
    split
    · exact .of_eq rfl rfl rfl rfl rfl
    · split <;> exact .of_eq rfl rfl rfl rfl rfl
  have h2 : ∀ d : Device, Keeps d d.announce := by
    intro d
    have h := Keeps.mapPorts (fun _ q => { q with notices := q.notices ++ [.started d.cause] }) d
      fun _ _ => ⟨rfl, .refl _⟩
    unfold Device.announce
    dsimp only
    split
    · exact h.trans (.offerAll _ _)
    · exact h
  exact ((h0.trans (h1 _)).trans (h2 _)).trans (.arbiter _)

end Sys2Proof.Machine
end

