-- ==== Sys2Proof/Laws/PerInstr.lean ====
section
/-! SUPPORT. Statements made for every command, one lemma per constructor. -/

namespace Sys2Proof.Laws.Request

/-- A request's frame bytes are its kind, its length, its parameters and their sum (10, section 10.4); a command that is no
request has none. -/
def Statement (i : Instr) : Prop :=
  encodeRequest i = (requestParts i).map fun r =>
    [r.2.1, BitVec.ofNat 8 r.2.2.length] ++ r.2.2 ++ [checkSum ([r.2.1, BitVec.ofNat 8 r.2.2.length] ++ r.2.2)]

theorem nop (p : PortId) (ps : List Byte) : Statement (.nop p ps) := rfl
theorem storeInfo (p : PortId) (ps : List Byte) : Statement (.storeInfo p ps) := rfl
theorem openRead (p : PortId) (ps : List Byte) : Statement (.openRead p ps) := rfl
theorem openWrite (p : PortId) (ps : List Byte) : Statement (.openWrite p ps) := rfl
theorem read (p : PortId) (ps : List Byte) : Statement (.read p ps) := rfl
theorem seek (p : PortId) (ps : List Byte) : Statement (.seek p ps) := rfl
theorem write (p : PortId) (ps : List Byte) : Statement (.write p ps) := rfl
theorem truncate (p : PortId) (ps : List Byte) : Statement (.truncate p ps) := rfl
theorem markDelete (p : PortId) (ps : List Byte) : Statement (.markDelete p ps) := rfl
theorem close (p : PortId) (ps : List Byte) : Statement (.close p ps) := rfl
theorem commit (p : PortId) (ps : List Byte) : Statement (.commit p ps) := rfl
theorem renew (p : PortId) (ps : List Byte) : Statement (.renew p ps) := rfl
theorem setLease (p : PortId) (ps : List Byte) : Statement (.setLease p ps) := rfl
theorem watch (p : PortId) (ps : List Byte) : Statement (.watch p ps) := rfl
theorem unwatch (p : PortId) (ps : List Byte) : Statement (.unwatch p ps) := rfl
theorem watchList (p : PortId) (ps : List Byte) : Statement (.watchList p ps) := rfl
theorem nextNotice (p : PortId) (ps : List Byte) : Statement (.nextNotice p ps) := rfl
theorem enumerate (p : PortId) (ps : List Byte) : Statement (.enumerate p ps) := rfl
theorem reclaim (p : PortId) (ps : List Byte) : Statement (.reclaim p ps) := rfl
theorem portReset (p : PortId) (ps : List Byte) : Statement (.portReset p ps) := rfl
theorem unknownKindRequest (p : PortId) (kind : Byte) (ps : List Byte) : Statement (.unknownKindRequest p kind ps) := rfl
theorem portFrameStart (p : PortId) : Statement (.portFrameStart p) := rfl
theorem idleFrame (p : PortId) (bytes : List Byte) : Statement (.idleFrame p bytes) := rfl
theorem malformedFrame (p : PortId) (bytes : List Byte) : Statement (.malformedFrame p bytes) := rfl
theorem badCheckFrame (p : PortId) (bytes : List Byte) : Statement (.badCheckFrame p bytes) := rfl
theorem busyFrame (p : PortId) (bytes : List Byte) : Statement (.busyFrame p bytes) := rfl
theorem handlingEnd (p : PortId) : Statement (.handlingEnd p) := rfl
theorem readingLeaseExpiry (p : PortId) (e : LeaseEnd) : Statement (.readingLeaseExpiry p e) := rfl
theorem writingLeaseExpiry (p : PortId) (e : LeaseEnd) : Statement (.writingLeaseExpiry p e) := rfl
theorem frameProgramDone (r : ProgramResult) : Statement (.frameProgramDone r) := rfl
theorem commitMarkDone (verified : Bool) : Statement (.commitMarkDone verified) := rfl
theorem segmentOpenDone (r : MarkResult) : Statement (.segmentOpenDone r) := rfl
theorem segmentSealDone (r : MarkResult) : Statement (.segmentSealDone r) := rfl
theorem segmentEraseDone (r : EraseResult) : Statement (.segmentEraseDone r) := rfl
theorem segmentRetireDone (mark : MarkRead) : Statement (.segmentRetireDone mark) := rfl
theorem supplyFall (cut : Cut) : Statement (.supplyFall cut) := rfl
theorem supplyRise : Statement (.supplyRise) := rfl
theorem deviceReset (cause : Cause) (cut : Cut) : Statement (.deviceReset cause cut) := rfl
theorem powerLossInReset : Statement (.powerLossInReset) := rfl
theorem resetRelease (supply : Supply) : Statement (.resetRelease supply) := rfl
theorem mountScanDone : Statement (.mountScanDone) := rfl
theorem mountEraseDone (r : EraseResult) : Statement (.mountEraseDone r) := rfl

end Sys2Proof.Laws.Request
end

