-- ==== Sys2Proof/Laws/Slots.lean ====
section
/-! SUPPORT. Notice slots: which operations leave queued notices plus reserved slots within 8 and the reservations as they were,
and how the ends of commits give a reservation back. -/

namespace Sys2Proof.Machine

/-! ## Operations that end no commit -/

/-- `d'` has the commits, the store, the reset and the reservations of `d`, and no port with more slots taken than fit where
`d` has none. -/
structure Calm (d d' : Device) : Prop where
  queue : d'.commitQueue = d.commitQueue
  store : d'.store = d.store
  mount : d'.mount = d.mount
  held : d'.resetHeld = d.resetHeld
  reserved : ∀ p, (d'.port p).reserved = (d.port p).reserved
  fit : ∀ p, (d.port p).slotsFit → (d'.port p).slotsFit

namespace Calm

theorem refl (d : Device) : Calm d d := ⟨rfl, rfl, rfl, rfl, fun _ => rfl, fun _ => id⟩

theorem trans {d e f : Device} (h : Calm d e) (g : Calm e f) : Calm d f :=
  ⟨g.queue.trans h.queue, g.store.trans h.store, g.mount.trans h.mount, g.held.trans h.held,
    fun p => (g.reserved p).trans (h.reserved p), fun p x => g.fit p (h.fit p x)⟩

theorem of_eq {d d' : Device} (h1 : d'.commitQueue = d.commitQueue) (h2 : d'.store = d.store) (h3 : d'.mount = d.mount)
    (h4 : d'.resetHeld = d.resetHeld) (h5 : d'.ports = d.ports) : Calm d d' := by
  have hp : ∀ p, d'.port p = d.port p := fun p => by simp [Device.port, h5]
  exact ⟨h1, h2, h3, h4, fun p => by rw [hp], fun p => by rw [hp]; exact id⟩

theorem foldl {β : Type} (step : Device → β → Device) (h : ∀ d x, Calm d (step d x)) (xs : List β) (d : Device) :
    Calm d (xs.foldl step d) := by
  induction xs generalizing d with
  | nil => exact refl d
  | cons x rest ih => exact (h d x).trans (ih _)

theorem modPort (p : PortId) (f : Port → Port) (d : Device)
    (hf : ∀ q, (f q).reserved = q.reserved ∧ (q.slotsFit → (f q).slotsFit)) : Calm d (d.modPort p f) := by
  refine ⟨rfl, rfl, rfl, rfl, fun r => ?_, fun r => ?_⟩ <;> by_cases h : r = p
  · subst h
    rw [Device.port_modPort_same]
    exact (hf _).1
  · rw [Device.port_modPort_other f d h]
  · subst h
    rw [Device.port_modPort_same]
    exact (hf _).2
  · rw [Device.port_modPort_other f d h]
    exact id

theorem mapPorts (f : PortId → Port → Port) (d : Device)
    (hf : ∀ p q, (f p q).reserved = q.reserved ∧ (q.slotsFit → (f p q).slotsFit)) : Calm d (d.mapPorts f) :=
  ⟨rfl, rfl, rfl, rfl, fun p => by rw [Device.port_mapPorts]; exact (hf p _).1,
    fun p => by rw [Device.port_mapPorts]; exact (hf p _).2⟩

theorem offer (n : Notice) (q : Port) : (q.offer n).reserved = q.reserved ∧ (q.slotsFit → (q.offer n).slotsFit) :=
  ⟨by simp, Port.offer_slots n q⟩

theorem offerAll (n : Notice) (d : Device) : Calm d (d.offerAll n) :=
  mapPorts _ d fun _ q => offer n q

theorem offerWatchers (k : Key) (n : Notice) (d : Device) : Calm d (d.offerWatchers k n) :=
  mapPorts _ d fun _ q => by
    split
    · exact offer n q
    · exact ⟨rfl, id⟩

theorem offerWatched (cs : List (Key × Notice)) (q : Port) :
    (q.offerWatched cs).reserved = q.reserved ∧ (q.slotsFit → (q.offerWatched cs).slotsFit) := by
  induction cs generalizing q with
  | nil => exact ⟨rfl, id⟩
  | cons c rest ih =>
    have h := ih (if q.watch.contains c.1 then q.offer c.2 else q)
    refine ⟨h.1.trans ?_, fun hq => h.2 ?_⟩
    · split
      · exact (offer c.2 q).1
      · rfl
    · split
      · exact (offer c.2 q).2 hq
      · exact hq

theorem setHandle (p : PortId) (h : HandleNo) (x : Handle) (d : Device) : Calm d (d.setHandle p h x) :=
  modPort p _ d fun _ => ⟨rfl, id⟩

theorem releaseClaim (k : Key) (d : Device) : Calm d (d.releaseClaim k) := by
  unfold Device.releaseClaim
  split
  · exact refl d
  · split <;> exact of_eq rfl rfl rfl rfl rfl

theorem endHolding (d : Device) : Calm d d.endHolding := by
  rw [Device.endHolding_eq]
  exact of_eq rfl rfl rfl rfl rfl

theorem dropReader (p : PortId) (h : HandleNo) (k : Key) (v : Bound) (x : Handle) (d : Device) :
    Calm d (d.dropReader p h k v x) :=
  trans (e := d.unpin k v.location.seg)
    (trans (e := (d.modEntry k fun e => { e with pins := e.pins - 1 }).modSegment v.location.seg fun r =>
      { r with pins := r.pins - 1 }) (of_eq rfl rfl rfl rfl rfl) (endHolding _)) (setHandle p h x _)

theorem dropWriter (p : PortId) (h : HandleNo) (k : Key) (b : BufferNo) (x : Handle) (d : Device) :
    Calm d (d.dropWriter p h k b x) :=
  trans (e := (d.releaseClaim k).freeBuffer b)
    ((releaseClaim k d).trans (of_eq rfl rfl rfl rfl rfl)) (setHandle p h x _)

theorem freeGroup (g : Option Nat) (d : Device) : Calm d (d.freeGroup g) := by
  cases g <;> exact of_eq rfl rfl rfl rfl rfl

theorem detectDamage (k : Key) (d : Device) : Calm d (d.detectDamage k) := by
  unfold Device.detectDamage
  split
  · exact refl d
  · split
    · exact refl d
    · have h : Calm d ((d.modEntry k fun e => { e with state := .damaged, markPending := true }).offerWatchers k
          (.damaged k)) :=
        trans (e := d.modEntry k fun e => { e with state := .damaged, markPending := true })
          (of_eq rfl rfl rfl rfl rfl) (offerWatchers k (.damaged k) _)
      dsimp only
      split
      · exact h.trans (of_eq rfl rfl rfl rfl rfl)
      · exact h

/-! ## The array, the table, reclaim -/

theorem programFrame (l : Loc) (cells : List Cell) (i : Nat) (d : Device) : Calm d (d.programFrame l cells i) :=
  of_eq rfl rfl rfl rfl rfl

theorem leaveFrame (l : Loc) (cells : List Cell) (i : Nat) (left : FrameLeft) (d : Device) :
    Calm d (d.leaveFrame l cells i left) := by
  cases left with
  | asMeant => exact programFrame _ _ _ d
  | blank => exact refl d
  | malformed => exact of_eq rfl rfl rfl rfl rfl
  | badCheck => exact of_eq rfl rfl rfl rfl rfl

theorem eraseImage (i count : Nat) (r : EraseResult) (d : Device) : Calm d (d.eraseImage i count r) := by
  cases r <;> exact of_eq rfl rfl rfl rfl rfl

theorem cutArray (cut : Cut) (d : Device) : Calm d (d.cutArray cut) := by
  unfold Device.cutArray
  split <;> first | exact refl d | exact leaveFrame _ _ _ _ d | exact of_eq rfl rfl rfl rfl rfl

theorem cutTable (d : Device) : Calm d d.cutTable := by
  unfold Device.cutTable
  split <;> exact of_eq rfl rfl rfl rfl rfl

theorem installTable (t : AccessTable) (d : Device) : Calm d (d.installTable t) := by
  have hrev : ∀ p (d : Device) (h : HandleNo), Calm d (d.revokeIfLost p h) := by
    intro p d h
    unfold Device.revokeIfLost
    split
    · split
      · exact refl d
      · exact (dropWriter p h _ _ _ d).trans (modPort p _ _ fun q => offer _ q)
    · exact refl d
  have hport : ∀ (d : Device) p, Calm d (d.revokePort p) := fun d p => foldl _ (hrev p) _ d
  have h0 : Calm d { d with table := some t, tableInvalid := false } := of_eq rfl rfl rfl rfl rfl
  exact (h0.trans (foldl _ hport _ _)).trans (mapPorts _ _ fun _ q => ⟨rfl, id⟩)

theorem switchMark (k : Key) (n : Nat) (l : Loc) (d : Device) : Calm d (d.switchMark k n l) :=
  trans (e := d.modEntry k fun e =>
    { e with location := some l, length := 0, sequence := some n, state := .damaged, markPending := false })
    (of_eq rfl rfl rfl rfl rfl) (offerWatchers k _ _)

theorem dropStale (l : Loc) (h : VersionHeader) (good : Bool) (d : Device) : Calm d (d.dropStale l h good) := by
  unfold Device.dropStale
  split
  · dsimp only
    split <;> exact of_eq rfl rfl rfl rfl rfl
  · exact refl d

theorem walk (v fuel pos : Nat) (d : Device) : Calm d (d.walk v fuel pos).1 := by
  have hd : ∀ l k n (d : Device), Calm d (d.dropTombstone l k n) := fun _ _ _ _ => of_eq rfl rfl rfl rfl rfl
  have hp : ∀ n (d : Device), Calm d (d.setPosition n) := fun _ _ => of_eq rfl rfl rfl rfl rfl
  induction fuel generalizing pos d with
  | zero => exact refl d
  | succ n ih =>
    unfold Device.walk
    split
    · split
      · exact hp _ d
      · exact (hd _ _ _ d).trans (ih _ _)
      · exact hp _ d
      · exact hp _ d
      · exact hp _ d
    · split
      · exact ih _ d
      · exact ih _ d
      · dsimp only
        split
        · exact hp _ d
        · exact (hd _ _ _ d).trans (ih _ _)
        · exact (dropStale _ _ _ d).trans (ih _ _)
        · exact ih _ d

theorem copySwitch (c : Copy) (l : Loc) (d : Device) : Calm d (d.copySwitch c l) := by
  have h0 : Calm d (d.passOriginal c) := of_eq rfl rfl rfl rfl rfl
  have hl : ∀ d : Device, Calm d (d.logCopied c) := by
    intro d
    unfold Device.logCopied
    split <;> exact of_eq rfl rfl rfl rfl rfl
  have hm : ∀ k (f : Entry → Entry) (d : Device), Calm d (d.modEntry k f) := fun _ _ _ => of_eq rfl rfl rfl rfl rfl
  have hg : ∀ i g (d : Device), Calm d (d.setGroup i g) := fun _ _ _ => of_eq rfl rfl rfl rfl rfl
  have hd : ∀ s (d : Device), Calm d (d.damageGroup s) := fun _ d => foldl _ (fun d k => detectDamage k d) _ d
  unfold Device.copySwitch
  dsimp only
  split
  · split
    · exact (h0.trans (hm _ _ _)).trans (hl _)
    · exact (h0.trans (hm _ _ _)).trans (detectDamage _ _)
  · split
    · split
      · exact h0.trans (hg _ _ _)
      · exact (h0.trans (hg _ _ _)).trans (hd _ _)
    · exact h0
    · exact h0
    · exact h0

theorem abandonVictim (d : Device) : Calm d d.abandonVictim := by
  have hb : ∀ v log (d : Device) x, Calm d (d.giveBack v log x) := by
    intro v log d x
    unfold Device.giveBack
    dsimp only
    split <;> exact of_eq rfl rfl rfl rfl rfl
  unfold Device.abandonVictim
  split
  · exact refl d
  · rename_i v _
    have h : Calm d { d with
        directory := d.directory.map (Entry.restored d.reclaim.log)
        groups := d.groups.map (GroupEntry.restored d.reclaim.log)
        reclaim := Reclaim.cleared } := of_eq rfl rfl rfl rfl rfl
    exact (h.trans (foldl _ (hb v d.reclaim.log) _ _)).trans (of_eq rfl rfl rfl rfl rfl)

theorem setFlight (u : Option EngineUnit) (d : Device) : Calm d (d.setFlight u) := of_eq rfl rfl rfl rfl rfl

theorem modSegment (i : Nat) (f : SegmentRecord → SegmentRecord) (d : Device) : Calm d (d.modSegment i f) :=
  of_eq rfl rfl rfl rfl rfl

end Calm

theorem Device.abandonVictim_flight (d : Device) : d.abandonVictim.flight = d.flight := by
  have hb : ∀ v log (e : Device) x, (e.giveBack v log x).flight = e.flight := by
    intro v log e x
    unfold Device.giveBack
    dsimp only
    split <;> rfl
  have hf : ∀ v log (xs : List Passed) (e : Device), (xs.foldl (Device.giveBack v log) e).flight = e.flight := by
    intro v log xs
    induction xs with
    | nil => intro e; rfl
    | cons x rest ih => intro e; exact (ih _).trans (hb v log e x)
  unfold Device.abandonVictim
  split
  · rfl
  · exact hf _ _ _ _

theorem Device.dropWriter_flight (d : Device) (p : PortId) (h : HandleNo) (k : Key) (b : BufferNo) (x : Handle) :
    (d.dropWriter p h k b x).flight = d.flight := by
  rw [Device.dropWriter_frame]

theorem Device.installTable_flight (t : AccessTable) (d : Device) : (d.installTable t).flight = d.flight := by
  have h1 : ∀ p (d : Device) h, (d.revokeIfLost p h).flight = d.flight := by
    intro p d h
    unfold Device.revokeIfLost
    split
    · rename_i k b _ _ _
      split
      · rfl
      · exact Device.dropWriter_flight d p h k b (.revoked k)
    · rfl
  have h2 : ∀ p (hs : List HandleNo) (d : Device), (hs.foldl (Device.revokeIfLost p) d).flight = d.flight := by
    intro p hs
    induction hs with
    | nil => intro d; rfl
    | cons x rest ih => intro d; exact (ih _).trans (h1 p d x)
  have h3 : ∀ (ps : List PortId) (d : Device), (ps.foldl Device.revokePort d).flight = d.flight := by
    intro ps
    induction ps with
    | nil => intro d; rfl
    | cons x rest ih => intro d; exact (ih _).trans (h2 x _ d)
  exact h3 _ _

theorem Device.finishCommit_flight (c : CommitRecord) (places : List Loc) (d : Device) :
    (d.finishCommit c places).flight = d.flight := by
  have h1 : ∀ (xs : List (Member × Loc)) (d : Device),
      (xs.foldl (Device.switchMember (c.sequence.getD 0)) d).flight = d.flight := by
    intro xs
    induction xs with
    | nil => intro d; rfl
    | cons x rest ih => intro d; exact ih _
  have h2 : ∀ (ms : List Member) (d : Device), (ms.foldl (Device.releaseMember c.port) d).flight = d.flight := by
    intro ms
    induction ms with
    | nil => intro d; rfl
    | cons x rest ih => intro d; exact ih _
  have h3 : ∀ d : Device, (d.keepGroup c places).flight = d.flight := by
    intro d
    unfold Device.keepGroup
    split <;> rfl
  have h4 : ∀ w (d : Device), (d.replaceTable w).flight = d.flight := by
    intro w d
    unfold Device.replaceTable
    split
    · rfl
    · exact Device.installTable_flight _ d
    · rfl
  exact (h4 _ _).trans ((h3 _).trans ((h2 _ _).trans (h1 _ _)))

theorem Device.detectDamage_flight (k : Key) (d : Device) : (d.detectDamage k).flight = d.flight := by
  unfold Device.detectDamage
  split
  · rfl
  · split
    · rfl
    · dsimp only
      split <;> rfl

theorem Device.copySwitch_flight (c : Copy) (l : Loc) (d : Device) : (d.copySwitch c l).flight = d.flight := by
  have hg : ∀ (ks : List Key) (d : Device), (ks.foldl (fun d k => d.detectDamage k) d).flight = d.flight := by
    intro ks
    induction ks with
    | nil => intro d; rfl
    | cons x rest ih => intro d; exact (ih _).trans (Device.detectDamage_flight x d)
  have hl : ∀ d : Device, (d.logCopied c).flight = d.flight := by
    intro d
    unfold Device.logCopied
    split <;> rfl
  unfold Device.copySwitch
  dsimp only
  split
  · split
    · exact hl _
    · exact Device.detectDamage_flight _ _
  · split
    · split
      · rfl
      · exact hg _ _
    · rfl
    · rfl
    · rfl

theorem Device.testWorn_flight (d : Device) : d.testWorn.flight = d.flight := by
  unfold Device.testWorn
  split
  · by_cases h : d.store = .normal
    · rw [Device.enterReadOnly_normal .worn h]
    · rw [Device.enterReadOnly_other .worn h]
  · rfl

theorem Device.endErase_flight (r : EraseResult) (i count : Nat) (d : Device) :
    (d.endErase i count r).flight = d.flight := by
  have h : ((d.eraseImage i count r).releaseHeld i).flight = d.flight := by
    cases r <;> rfl
  unfold Device.endErase
  dsimp only
  split
  · exact h
  · exact (Device.testWorn_flight _).trans h

theorem Device.cut_flight (cut : Cut) (d : Device) : ((d.cutArray cut).cutTable).flight = d.flight := by
  have hl : ∀ l cells i left (d : Device), (d.leaveFrame l cells i left).flight = d.flight := by
    intro l cells i left d
    cases left <;> rfl
  have h1 : (d.cutArray cut).flight = d.flight := by
    unfold Device.cutArray
    split <;> first | rfl | exact hl _ _ _ _ d
  have h2 : ∀ d : Device, d.cutTable.flight = d.flight := by
    intro d
    unfold Device.cutTable
    split <;> rfl
  exact (h2 _).trans h1

/-! ## The reservations (R140, R142) -/

/-- The commits of a list that hold a reservation on port `p`. -/
def holding (p : PortId) (cs : List CommitRecord) : Nat := (cs.filter fun c => c.port == p && !c.portReset).length

/-- A part that serves requests, its reservations those of the queued commits and of the commits `extra` beside them. -/
structure Serving (extra : List CommitRecord) (d : Device) : Prop where
  fit : ∀ p, (d.port p).slotsFit
  queue : ∀ c ∈ d.commitQueue, c.portReset = false
  reserved : ∀ p, (d.port p).reserved = holding p (extra ++ d.commitQueue)
  store : d.store ≠ .mounting
  mount : d.mount = .off
  held : d.resetHeld = false

namespace Serving

theorem calm {extra : List CommitRecord} {d d' : Device} (hs : Serving extra d) (h : Calm d d') : Serving extra d' :=
  ⟨fun p => h.fit p (hs.fit p), by rw [h.queue]; exact hs.queue,
    fun p => by rw [h.reserved, h.queue]; exact hs.reserved p, by rw [h.store]; exact hs.store, h.mount.trans hs.mount,
    h.held.trans hs.held⟩

/-- R103, R142: the end of a commit gives its reservation back. -/
theorem endCommit {extra : List CommitRecord} {d : Device} (o : CommitOutcome) (c : CommitRecord)
    (hs : Serving (c :: extra) d) : Serving extra (d.endCommit o c) := by
  have hm : ∀ (d : Device) (m : Member), Calm d (d.endMember c o m) := by
    intro d m
    unfold Device.endMember
    split
    · exact .dropWriter _ _ _ _ _ d
    · split
      · exact .dropWriter _ _ _ _ _ d
      · unfold Device.returnWriter
        split
        · exact .setHandle _ _ _ d
        · exact .refl d
  have h1 := hs.calm ((Calm.foldl _ hm c.members d).trans (.freeGroup c.group _))
  unfold Device.endCommit
  dsimp only
  generalize (c.members.foldl (Device.endMember c o) d).freeGroup c.group = e at h1
  split
  · rename_i hc
    refine ⟨h1.fit, h1.queue, fun p => ?_, h1.store, h1.mount, h1.held⟩
    rw [h1.reserved]
    simp [holding, hc]
  · rename_i hc
    have hr : ∀ p, (e.port p).reserved = holding p (extra ++ e.commitQueue) + (if c.port = p then 1 else 0) := by
      intro p
      rw [h1.reserved]
      by_cases hp : c.port = p <;> simp [holding, hp, hc]
    refine ⟨fun p => ?_, h1.queue, fun p => ?_, h1.store, h1.mount, h1.held⟩
    · by_cases hp : p = c.port
      · subst hp
        rw [Device.port_modPort_same]
        unfold Port.slotsFit
        rw [Port.placeDone_slots _ _ (by rw [hr]; simp)]
        exact h1.fit _
      · rw [Device.port_modPort_other _ _ hp]
        exact h1.fit p
    · by_cases hp : p = c.port
      · subst hp
        rw [Device.port_modPort_same]
        simp only [Port.placeDone, hr, if_true]
        rfl
      · rw [Device.port_modPort_other _ _ hp, hr, if_neg (Ne.symm hp)]
        rfl

/-- R13, R106: so does the end of every queued commit. -/
theorem endQueue {extra : List CommitRecord} {d : Device} (o : CommitOutcome) (hs : Serving extra d) :
    Serving extra (d.endQueue o) := by
  have key : ∀ (cs : List CommitRecord) (e : Device), Serving (cs ++ extra) e → Serving extra (cs.foldl (Device.endCommit o) e) := by
    intro cs
    induction cs with
    | nil => intro e h; exact h
    | cons c rest ih => intro e h; exact ih _ (endCommit o c h)
  refine key _ _ ⟨hs.fit, by simp, fun p => ?_, hs.store, hs.mount, hs.held⟩
  show (d.port p).reserved = _
  rw [hs.reserved]
  simp [holding, Nat.add_comm]

theorem enterReadOnly {extra : List CommitRecord} {d : Device} (r : Reason) (hs : Serving extra d) :
    Serving extra (d.enterReadOnly r) := by
  unfold Device.enterReadOnly
  split
  · exact endQueue _ ⟨hs.fit, hs.queue, hs.reserved, by simp, hs.mount, hs.held⟩
  · exact hs

theorem testWorn {extra : List CommitRecord} {d : Device} (hs : Serving extra d) : Serving extra d.testWorn := by
  unfold Device.testWorn
  split
  · exact enterReadOnly _ hs
  · exact hs

/-! ## The engine -/

/-- The commit an owner writes, if it writes one. -/
def ownerCommits : Owner → List CommitRecord
  | .commit c _ => [c]
  | .damageMark _ _ => []
  | .copy _ => []

theorem running_write (o : Owner) (retried : Bool) (step : WriteStep) (d : Device) (h : d.flight = some (.write o retried step)) :
    d.running.toList = ownerCommits o := by
  cases o <;> simp [Device.running, h, ownerCommits]

theorem running_none {d : Device} (h : d.flight = none) : d.running.toList = [] := by
  simp [Device.running, h]

theorem running_unit {d : Device} (u : EngineUnit) (hu : ∀ o r w, u ≠ .write o r w) (h : d.flight = some u) :
    d.running.toList = [] := by
  cases u <;> first | (simp [Device.running, h]; done) | exact absurd rfl (hu _ _ _)

/-- A unit of an owner in flight. -/
theorem inFlight {d : Device} (o : Owner) (retried : Bool) (step : WriteStep) (hs : Serving (ownerCommits o) d) :
    Serving (d.setFlight (some (.write o retried step))).running.toList
      (d.setFlight (some (.write o retried step))) := by
  rw [running_write o retried step _ rfl]
  exact hs.calm (.setFlight _ d)

/-- Two owners that hold the same reservations. -/
theorem congr_extra {xs ys : List CommitRecord} {d : Device} (h : ∀ p, holding p xs = holding p ys) (hs : Serving xs d) :
    Serving ys d := by
  refine ⟨hs.fit, hs.queue, fun p => ?_, hs.store, hs.mount, hs.held⟩
  have := h p
  rw [hs.reserved]
  simp only [holding, List.filter_append, List.length_append] at this ⊢
  omega

theorem giveSequence (o : Owner) {d : Device} (hs : Serving (ownerCommits o) d) :
    Serving (ownerCommits (d.giveSequence o).1) (d.giveSequence o).2 := by
  have ha : ∀ {xs : List CommitRecord} {d : Device}, Serving xs d → Serving xs d.advanceSequence := by
    intro xs d h
    have h1 : Serving xs { d with seqCounter := d.seqCounter + 1 } := h.calm (.of_eq rfl rfl rfl rfl rfl)
    unfold Device.advanceSequence
    dsimp only
    split
    · exact enterReadOnly _ h1
    · exact h1
  have hr : ∀ (g : Option Nat) (n : Nat) (d : Device), Calm d (d.recordSequence g n) := by
    intro g n d
    cases g <;> exact .of_eq rfl rfl rfl rfl rfl
  unfold Device.giveSequence
  split
  · split
    · exact hs
    · refine congr_extra (fun p => ?_) (ha (hs.calm (hr _ _ d)))
      simp only [holding, ownerCommits, List.filter_cons, List.filter_nil]
      split <;> rfl
  · exact ha hs
  · exact hs
  · exact hs

theorem failOwner (owner : Owner) (o : CommitOutcome) {d : Device} (hs : Serving (ownerCommits owner) d) :
    Serving (d.failOwner owner o).running.toList (d.failOwner owner o) := by
  unfold Device.failOwner
  split
  · rename_i c placed
    rw [running_none (by rw [Device.endCommit_ends o _ c]; rfl)]
    exact endCommit o c (hs.calm (.setFlight none d))
  · exact hs.calm (.setFlight none d)
  · have hn : (d.setFlight none).abandonVictim.flight = none := Device.abandonVictim_flight _
    rw [running_none hn]
    exact (hs.calm (.setFlight none d)).calm (.abandonVictim _)

theorem openFor (owner : Owner) (retried : Bool) {d : Device} (hs : Serving (ownerCommits owner) d) :
    Serving (d.openFor owner retried).running.toList (d.openFor owner retried) := by
  unfold Device.openFor
  split
  · exact inFlight owner retried _ (hs.calm (.of_eq rfl rfl rfl rfl rfl))
  · exact failOwner owner _ hs

theorem beginProgram (owner : Owner) (retried : Bool) (i : Nat) {d : Device} (hs : Serving (ownerCommits owner) d) :
    Serving (d.beginProgram owner retried i).running.toList (d.beginProgram owner retried i) :=
  inFlight _ retried _ ((giveSequence owner hs).calm (.modSegment i _ _))

theorem placeItem (owner : Owner) {d : Device} (hs : Serving (ownerCommits owner) d) :
    Serving (d.placeItem owner).running.toList (d.placeItem owner) := by
  unfold Device.placeItem
  split
  · split
    · exact beginProgram owner _ _ hs
    · exact inFlight owner _ _ hs
  · exact openFor owner _ hs

theorem retry (owner : Owner) (retried : Bool) {d : Device} (hs : Serving (ownerCommits owner) d) :
    Serving (d.retry owner retried).running.toList (d.retry owner retried) := by
  unfold Device.retry
  split
  · exact failOwner owner _ hs
  · exact openFor owner _ hs

/-! ## The arbiter (R113) -/

/-- A part whose reservations are those of its own commits. -/
abbrev Fits (d : Device) : Prop := Serving d.running.toList d

/-- An operation that ends no commit and leaves the unit in flight. -/
theorem fits_calm {d d' : Device} (hs : Fits d) (h : Calm d d') (hf : d'.flight = d.flight) : Fits d' := by
  have : d'.running = d.running := by simp [Device.running, hf]
  unfold Fits
  rw [this]
  exact hs.calm h

/-- A unit that is no write in flight where there was none. -/
theorem fits_unit {d : Device} (u : EngineUnit) (hu : ∀ o r w, u ≠ .write o r w) (hs : Serving [] d) :
    Fits (d.setFlight (some u)) := by
  unfold Fits
  rw [running_unit u hu rfl]
  exact hs.calm (.setFlight _ d)

theorem startFix (f : Fix) {d : Device} (hs : Serving [] d) : Fits (d.startFix f) := by
  unfold Device.startFix
  split
  · exact fits_unit _ (by simp) hs
  · split <;> exact fits_unit _ (by simp) hs

theorem reclaimTurn {d : Device} (hf : d.flight = none) (hs : Serving [] d) : Fits d.reclaimTurn.1 := by
  have hnone : ∀ {d : Device}, d.flight = none → Serving [] d → Fits d := by
    intro d h h'
    unfold Fits
    rw [running_none h]
    exact h'
  have hdrop : ∀ l k n (d : Device), (d.dropTombstone l k n).flight = d.flight := fun _ _ _ _ => rfl
  have hstale : ∀ l h g (d : Device), (d.dropStale l h g).flight = d.flight := by
    intro l h g d
    unfold Device.dropStale
    split
    · dsimp only
      split <;> rfl
    · rfl
  have hwalk : ∀ v fuel pos (d : Device), (d.walk v fuel pos).1.flight = d.flight := by
    intro v fuel
    induction fuel with
    | zero => intro pos d; rfl
    | succ n ih =>
      intro pos d
      unfold Device.walk
      split
      · split
        · rfl
        · exact (ih _ _).trans (hdrop _ _ _ d)
        · rfl
        · rfl
        · rfl
      · split
        · exact ih _ d
        · exact ih _ d
        · dsimp only
          split
          · rfl
          · exact (ih _ _).trans (hdrop _ _ _ d)
          · exact (ih _ _).trans (hstale _ _ _ d)
          · exact ih _ d
  have hturn : ∀ v (d : Device), d.flight = none → Serving [] d → Fits (d.walkTurn v).1 := by
    intro v d hf hs
    have h1 := hs.calm (Calm.walk v walkFuel (d.reclaim.position.getD 1) d)
    have h2 := (hwalk v walkFuel (d.reclaim.position.getD 1) d).trans hf
    unfold Device.walkTurn
    dsimp only
    split
    · rename_i c _
      unfold Device.startCopy
      split
      · exact placeItem (.copy c) h1
      · exact hnone ((Device.abandonVictim_flight _).trans h2) (h1.calm (.abandonVictim _))
    · exact hnone h2 (h1.calm (.of_eq rfl rfl rfl rfl rfl))
  unfold Device.reclaimTurn
  split
  · exact startFix _ hs
  · unfold Device.controllerTurn
    split
    · split
      · exact hturn _ _ hf (hs.calm (.of_eq rfl rfl rfl rfl rfl))
      · exact hnone hf hs
    · exact hturn _ _ hf hs
    · unfold Device.startErase
      split
      · exact hnone hf hs
      · split <;> exact fits_unit _ (by simp) hs
    · exact hnone hf hs
    · exact hnone hf hs
    · exact hnone hf hs

theorem lowerOrders {d : Device} (hf : d.flight = none) (hs : Serving [] d) : Fits d.lowerOrders.1 := by
  unfold Device.lowerOrders
  split
  · exact placeItem _ hs
  · split
    · exact reclaimTurn hf hs
    · unfold Fits
      rw [running_none hf]
      exact hs

/-- The queue with its head changed in its state alone. -/
theorem newHead {d : Device} {c : CommitRecord} {rest : List CommitRecord} (hq : d.commitQueue = c :: rest)
    (st : CommitState) (hs : Serving [] d) : Serving [] { d with commitQueue := { c with state := st } :: rest } := by
  refine ⟨hs.fit, ?_, fun p => ?_, hs.store, hs.mount, hs.held⟩
  · have := hs.queue
    rw [hq] at this
    simpa using this
  · show (d.port p).reserved = _
    rw [hs.reserved, hq]
    simp only [holding, List.nil_append, List.filter_cons]
    split <;> rfl

/-- The head of the queue taken out of it. -/
theorem takeHead {d : Device} {c : CommitRecord} {rest : List CommitRecord} (hq : d.commitQueue = c :: rest)
    (hs : Serving [] d) : Serving [c] { d with commitQueue := rest } := by
  refine ⟨hs.fit, ?_, fun p => ?_, hs.store, hs.mount, hs.held⟩
  · have := hs.queue
    rw [hq] at this
    exact fun x hx => this x (List.mem_cons_of_mem c hx)
  · show (d.port p).reserved = _
    rw [hs.reserved, hq]
    rfl

theorem choose {d : Device} (hf : d.flight = none) (hs : Serving [] d) : Fits d.choose.1 := by
  have hend : ∀ {c rest} (o : CommitOutcome), d.commitQueue = c :: rest →
      Fits (Device.endCommit o { d with commitQueue := rest } c) := by
    intro c rest o hq
    unfold Fits
    rw [running_none (by rw [Device.endCommit_ends o _ c]; exact hf)]
    exact endCommit o c (takeHead hq hs)
  unfold Device.choose
  split
  · exact lowerOrders hf hs
  · rename_i c rest hq
    unfold Device.headTurn
    split
    · exact hend _ hq
    · split
      · refine placeItem _ (congr_extra (fun p => ?_) (takeHead hq hs))
        simp only [holding, ownerCommits, List.filter_cons, List.filter_nil]
        split <;> rfl
      · split
        · exact lowerOrders hf (newHead hq .waitingSpace hs)
        · split
          · exact reclaimTurn hf (newHead hq .queued hs)
          · exact hend _ hq

/-- R113: whatever the arbiter chooses. -/
theorem arbiter {d : Device} (hs : Fits d) : Fits d.arbiter := by
  have h : ∀ (fuel : Nat) (d : Device), Fits d → Fits (d.arbitrate fuel) := by
    intro fuel
    induction fuel with
    | zero => exact fun _ h => h
    | succ n ih =>
      intro d hs
      unfold Device.arbitrate
      split
      · rename_i hm
        simp only [Device.mayChoose, Bool.and_eq_true, Option.isNone_iff_eq_none] at hm
        have hc : Fits d.choose.1 := choose hm.1.1 (by
          unfold Fits at hs
          rwa [running_none hm.1.1] at hs)
        dsimp only
        split
        · exact ih _ hc
        · exact hc
      · exact hs
  exact h arbiterFuel d hs

/-! ## The ends of steps (R30) -/

/-- R104, R142: the switch gives the reservation back. -/
theorem finishCommit (c : CommitRecord) (places : List Loc) {d : Device} (hs : Serving [c] d) :
    Serving [] (d.finishCommit c places) := by
  have h1 : Calm d ((c.members.zip places).foldl (Device.switchMember (c.sequence.getD 0)) d) :=
    Calm.foldl (Device.switchMember (c.sequence.getD 0)) (fun _ _ => .of_eq rfl rfl rfl rfl rfl) _ d
  have h2 : ∀ d : Device, Calm d (c.members.foldl (Device.releaseMember c.port) d) := fun d =>
    Calm.foldl (Device.releaseMember c.port) (fun d (m : Member) => Calm.trans (e := d.freeBuffer m.buffer) (.of_eq rfl rfl rfl rfl rfl)
      (.setHandle c.port m.handle .free _)) _ d
  have h3 : ∀ d : Device, Calm d (d.keepGroup c places) := by
    intro d
    unfold Device.keepGroup
    split <;> exact .of_eq rfl rfl rfl rfl rfl
  have h4 : ∀ d : Device, Serving [c] d → Serving [] (d.deliverSwitch c (c.sequence.getD 0)) := by
    intro e hs
    have hr : ∀ p, (e.port p).reserved =
        holding p e.commitQueue + (if p = c.port ∧ c.portReset = false then 1 else 0) := by
      intro p
      rw [hs.reserved]
      by_cases hp : c.port = p
      · cases hc : c.portReset <;> simp [holding, hp, hc]
      · simp [holding, hp, Ne.symm hp]
    refine ⟨fun p => ?_, hs.queue, fun p => ?_, hs.store, hs.mount, hs.held⟩
    · simp only [Device.deliverSwitch, Device.port_mapPorts]
      split
      · rename_i hp
        unfold Port.slotsFit
        rw [Port.placeDone_slots _ _ (by rw [hr, if_pos hp]; omega)]
        exact hs.fit p
      · exact (Calm.offerWatched _ _).2 (hs.fit p)
    · simp only [Device.deliverSwitch, Device.port_mapPorts]
      split
      · rename_i hp
        simp only [Port.placeDone, hr, if_pos hp]
        rfl
      · rename_i hp
        rw [(Calm.offerWatched _ _).1, hr, if_neg hp]
        rfl
  have h5 : ∀ (w : Option (Intent × List Byte)) (d : Device), Calm d (d.replaceTable w) := by
    intro w d
    unfold Device.replaceTable
    split
    · exact .refl d
    · exact .installTable _ d
    · exact .of_eq rfl rfl rfl rfl rfl
  exact (h4 _ (hs.calm ((h1.trans (h2 _)).trans (h3 _)))).calm (h5 _ _)

theorem finishItem (owner : Owner) (l : Loc) {d : Device} (hs : Serving (ownerCommits owner) d) :
    Fits (d.finishItem owner l) := by
  have hnone : ∀ {d : Device}, d.flight = none → Serving [] d → Fits d := by
    intro d h h'
    unfold Fits
    rw [running_none h]
    exact h'
  unfold Device.finishItem
  split
  · rename_i c placed
    split
    · exact placeItem (.commit c (placed ++ [l])) hs
    · exact hnone (Device.finishCommit_flight c _ _) (finishCommit c _ (hs.calm (.setFlight none d)))
  · exact hnone rfl ((hs.calm (.setFlight none d)).calm (.switchMark _ _ _ _))
  · exact hnone (Device.copySwitch_flight _ _ _) ((hs.calm (.setFlight none d)).calm (.copySwitch _ _ _))

theorem frameDone (r : ProgramResult) {d : Device} (hs : Fits d) : Fits (d.frameDone r) := by
  unfold Device.frameDone
  split
  · rename_i o retried l cells n hf
    unfold Fits at hs
    rw [running_write o _ _ _ hf] at hs
    exact inFlight o retried _ (hs.calm (.programFrame _ _ _ d))
  · rename_i o retried l cells n left hf
    unfold Fits at hs
    rw [running_write o _ _ _ hf] at hs
    exact inFlight o retried _ (hs.calm (.leaveFrame _ _ _ _ d))
  · exact hs

theorem markDone (v : Bool) {d : Device} (hs : Fits d) : Fits (d.markDone v) := by
  unfold Device.markDone
  split
  · rename_i o retried l cells hf
    unfold Fits at hs
    rw [running_write o _ _ _ hf] at hs
    split
    · exact arbiter (finishItem o l (hs.calm (.of_eq rfl rfl rfl rfl rfl)))
    · exact inFlight o retried _ hs
  · exact hs

theorem openDone (r : MarkResult) {d : Device} (hs : Fits d) : Fits (d.openDone r) := by
  unfold Device.openDone
  split
  · rename_i o retried i n hf
    unfold Fits at hs
    rw [running_write o _ _ _ hf] at hs
    exact beginProgram o retried i (hs.calm (.of_eq rfl rfl rfl rfl rfl))
  · rename_i o retried i n m hf
    unfold Fits at hs
    rw [running_write o _ _ _ hf] at hs
    exact arbiter (retry o retried (hs.calm (.of_eq rfl rfl rfl rfl rfl)))
  · exact hs

theorem sealDone (r : MarkResult) {d : Device} (hs : Fits d) : Fits (d.sealDone r) := by
  unfold Device.sealDone
  split
  · rename_i o retried i failed hf
    unfold Fits at hs
    rw [running_write o _ _ _ hf] at hs
    have h1 : Serving (ownerCommits o) ((d.setSealedMark i r.mark).sealRecord i (failed || r.failed)) :=
      hs.calm (.of_eq rfl rfl rfl rfl rfl)
    refine arbiter ?_
    split
    · exact retry o retried h1
    · exact openFor o retried h1
  · rename_i i hf
    refine arbiter ?_
    have hr : d.running = none := by simp [Device.running, hf]
    unfold Fits at hs ⊢
    rw [hr] at hs
    exact hs.calm (.of_eq rfl rfl rfl rfl rfl)
  · exact hs

/-- A unit that writes no version ends, and segments may be retired. -/
theorem endErase (i count : Nat) (r : EraseResult) {d : Device} (hs : Serving [] d) :
    Serving [] (d.endErase i count r) := by
  have h : Serving [] ((d.eraseImage i count r).releaseHeld i) :=
    (hs.calm (.eraseImage i count r d)).calm (.of_eq rfl rfl rfl rfl rfl)
  unfold Device.endErase
  dsimp only
  split
  · exact h.calm (.modSegment _ _ _)
  · exact testWorn (h.calm (.modSegment _ _ _))

theorem eraseDone (r : EraseResult) {d : Device} (hs : Fits d) : Fits (d.eraseDone r) := by
  have hfl : ∀ i n (d : Device), (d.endErase i n r).flight = d.flight := Device.endErase_flight r
  have hend : ∀ i n (d : Device), d.flight = none → Serving [] d → Fits (d.endErase i n r).arbiter := by
    intro i n d hf hs
    refine arbiter ?_
    unfold Fits
    rw [running_none ((hfl i n d).trans hf)]
    exact endErase i n r hs
  have hr : ∀ {u : EngineUnit}, d.flight = some u → (∀ o x w, u ≠ .write o x w) → Serving [] d := by
    intro u hf hu
    unfold Fits at hs
    rw [running_unit u hu hf] at hs
    exact hs
  unfold Device.eraseDone
  split
  · rename_i i hf
    exact hend _ _ _ rfl ((hr hf (by simp)).calm (.of_eq rfl rfl rfl rfl rfl))
  · rename_i i hf
    exact hend _ _ _ rfl ((hr hf (by simp)).calm (.of_eq rfl rfl rfl rfl rfl))
  · exact hs

theorem retireDone (m : MarkRead) {d : Device} (hs : Fits d) : Fits (d.retireDone m) := by
  have hend : ∀ i (d : Device), d.flight = none → Serving [] d → Fits (d.endRetire i m).arbiter := by
    intro i d hf hs
    refine arbiter ?_
    unfold Fits
    have hn : (d.endRetire i m).flight = none := (Device.testWorn_flight _).trans hf
    rw [running_none hn]
    exact testWorn (hs.calm (.of_eq rfl rfl rfl rfl rfl))
  have hr : ∀ {u : EngineUnit}, d.flight = some u → (∀ o x w, u ≠ .write o x w) → Serving [] d := by
    intro u hf hu
    unfold Fits at hs
    rw [running_unit u hu hf] at hs
    exact hs
  unfold Device.retireDone
  split
  · rename_i i hf
    exact hend _ _ rfl ((hr hf (by simp)).calm (.of_eq rfl rfl rfl rfl rfl))
  · rename_i i hf
    exact hend _ _ rfl ((hr hf (by simp)).calm (.of_eq rfl rfl rfl rfl rfl))
  · exact hs

/-- R158: no unit is in flight and no commit queued afterwards. -/
theorem stopEngine (cut : Cut) {d : Device} (hs : Fits d) : Serving [] (d.stopEngine cut) := by
  have hf : ∀ d : Device, ((d.cutArray cut).cutTable).flight = d.flight := Device.cut_flight cut
  have h1 : Serving d.running.toList ((d.cutArray cut).cutTable) := hs.calm ((Calm.cutArray cut d).trans (.cutTable _))
  have hrun : ((d.cutArray cut).cutTable).running = d.running := by simp [Device.running, hf d]
  refine endQueue _ ?_
  unfold Device.endRunning
  rw [hrun]
  cases hr : d.running with
  | none =>
    rw [hr] at h1
    exact h1.calm (.setFlight none _)
  | some c =>
    rw [hr] at h1
    exact endCommit _ c (h1.calm (.setFlight none _))

end Serving

end Sys2Proof.Machine
end

