-- ==== Sys2Proof/Tests/Slice0.lean ====
section
/-! SUPPORT. Small tests: ill-formed commands, frames in bytes, one step at a time on a small store, and for each statement
a state and operands that meet its hypotheses. -/

namespace Sys2Proof.Tests

open Sys2Proof Sys2Proof.Machine

-- One theorem after another, so that few threads run at once.
set_option Elab.async false

/-! ## Ill-formed commands, refused by each check -/

theorem test_wellFormed_refuses_long_parameters : wellFormed (.nop .A (List.replicate 67 0)) = false := by decide

theorem test_wellFormed_takes_66_parameters : wellFormed (.commit .A (List.replicate 66 1)) = true := by decide

theorem test_wellFormed_refuses_a_known_kind_as_unknown : wellFormed (.unknownKindRequest .A 0x14 []) = false := by
  decide

theorem test_wellFormed_refuses_filler_as_a_kind : wellFormed (.unknownKindRequest .A 0xFF []) = false := by decide

theorem test_wellFormed_refuses_long_unknown_request :
    wellFormed (.unknownKindRequest .A 0x15 (List.replicate 67 0)) = false := by decide

theorem test_wellFormed_refuses_a_complete_frame_as_idle : wellFormed (.idleFrame .A [0x01, 0x00, 0x01]) = false := by
  decide

theorem test_wellFormed_refuses_a_cut_frame_as_malformed : wellFormed (.malformedFrame .A [0x01, 0x02, 0x01]) = false := by
  decide

theorem test_wellFormed_refuses_a_good_check_as_bad : wellFormed (.badCheckFrame .A [0x01, 0x00, 0x01]) = false := by
  decide

theorem test_wellFormed_refuses_a_failed_open_that_reads_whole : wellFormed (.segmentOpenDone (.bad .whole)) = false := by
  decide

theorem test_wellFormed_refuses_a_failed_erase_that_reads_whole :
    wellFormed (.segmentEraseDone (.bad .whole .absent)) = false ∧
      wellFormed (.mountEraseDone (.bad .whole .whole)) = false := by decide

/-! ## Frames in bytes (R173, R178, R179) -/

theorem test_decodeFrame_nop : decodeFrame .A [0x01, 0x00, 0x01] = .nop .A [] := by decide

theorem test_decodeFrame_open_read : decodeFrame .C [0x03, 0x02, 0x9A, 0x00, 0x9F] = .openRead .C [0x9A, 0x00] := by decide

theorem test_decodeFrame_ignores_filler :
    decodeFrame .B [0x05, 0x02, 0x01, 0x40, 0x48, 0xFF, 0xFF] = .read .B [0x01, 0x40] := by decide

theorem test_decodeFrame_idle_and_cut :
    decodeFrame .A [] = .idleFrame .A [] ∧ decodeFrame .A [0xFF, 0x00] = .idleFrame .A [0xFF, 0x00] ∧
      decodeFrame .A [0x03, 0x02, 0x9A] = .idleFrame .A [0x03, 0x02, 0x9A] := by decide

theorem test_decodeFrame_malformed :
    decodeFrame .A [0x01] = .malformedFrame .A [0x01] ∧
      decodeFrame .A [0x07, 0x43] = .malformedFrame .A [0x07, 0x43] := by decide

theorem test_decodeFrame_bad_check : decodeFrame .A [0x01, 0x00, 0x02] = .badCheckFrame .A [0x01, 0x00, 0x02] := by decide

theorem test_decodeFrame_unknown_kind : decodeFrame .D [0x15, 0x00, 0x15] = .unknownKindRequest .D 0x15 [] := by decide

/-- No row of the table gives bits. -/
theorem test_no_word_spells_a_command : State.reset.withFetchWord 8 1 = State.reset := rfl

/-! ## A small store -/

/-- A committed version that fills one frame. -/
def oneFrame (k : Key) (kind : Kind) (sequence : Nat) (bytes : List Byte) : Cell :=
  let h : VersionHeader := { key := k, kind := kind, length := bytes.length, sequence := sequence, group := 0 }
  .first { header := h, committed := true, check := .over h bytes, data := bytes }

/-- Segment 0: opened, its first frames as given. -/
def opened (sequence : Nat) (frames : List Cell) : SegmentImage :=
  { header :=
      { erased := .whole, eraseCount := 7, opened := .whole, sequence := sequence, sealed := .absent, retired := .absent }
    frames := frames ++ List.replicate 4 .blank }

/-- An erased segment, small. -/
def blank : SegmentImage := { SegmentImage.factory with frames := List.replicate 8 .blank }

def erasedRecord (count : Nat) : SegmentRecord :=
  { state := .erased, eraseCount := count, sequence := none, appendPoint := 1, pins := 0, suspect := false }

/-- The directory's entries: 1 LIVE, 2 PENDING and claimed, 3 GONE, 4 DAMAGED with its mark written, 5 LIVE and claimed. -/
def entryOf (k : Key) (state : EntryState) (l : Option Loc) (length : Nat) (s : Option Nat)
    (claim : Option (PortId × HandleNo)) : Entry :=
  { key := k, state := state, location := l, length := length, sequence := s, residue := 0, claim := claim, pins := 0,
    markPending := false }

def portA : Port :=
  { Port.cleared with
    handles := ⟨.reading 1 { location := ⟨0, 1⟩, length := 2, sequence := 5 } 0 900, .writing 2 .n1 1 800, .expired 9, .free⟩
    watch := [1]
    notices := [.started .pin] }

def portC : Port :=
  { Port.cleared with handles := ⟨.committing 5 .n2 0, .revoked 8, .free, .writing 4 .n3 0 700⟩, reserved := 1, ticket := 4 }

def buffer (p : PortId) (h : HandleNo) (intent : Intent) (bytes : List Byte) : Buffer :=
  { owner := some (p, h), intent := intent, length := bytes.length, bytes := bytes ++ List.replicate 6 0 }

/-- Segment 0 is ACTIVE with 5 used frames; segments 1 to 5 are ERASED. -/
def store : Device :=
  { Device.cleared
      (opened 3 [oneFrame 1 .value 5 [0xAA, 0xBB], oneFrame 3 .tombstone 6 [], oneFrame 4 .damageMark 7 [],
        oneFrame 5 .value 8 [0x11], oneFrame 5 .value 4 []] :: List.replicate 5 blank) .good .pin 100 0 with
    resetHeld := false
    store := .normal
    ports := ⟨portA, Port.cleared, portC, { Port.cleared with watch := [1, 5] }⟩
    buffers := ⟨buffer .A .n2 .value [0x01, 0x02], buffer .C .n1 .value [0x03], buffer .C .n4 .value [], Buffer.cleared⟩
    directory :=
      [{ entryOf 1 .live (some ⟨0, 1⟩) 2 (some 5) none with pins := 1 }, entryOf 2 .pending none 0 none (some (.A, .n2)),
        entryOf 3 .gone (some ⟨0, 2⟩) 0 (some 6) none, entryOf 4 .damaged (some ⟨0, 3⟩) 0 (some 7) (some (.C, .n4)),
        { entryOf 5 .live (some ⟨0, 4⟩) 1 (some 8) (some (.C, .n1)) with residue := 1 }]
    segments :=
      { state := .active, eraseCount := 7, sequence := some 3, appendPoint := 6, pins := 1, suspect := false } ::
        [erasedRecord 2, erasedRecord 1, erasedRecord 1, erasedRecord 3, erasedRecord 9]
    seqCounter := 9
    segCounter := 4 }

/-- The commit of port C's handle 1. -/
def commitC : CommitRecord :=
  { port := .C, ticket := 3, members := [{ handle := .n1, key := 5, buffer := .n2, intent := .value, length := 1 }],
    group := none, state := .running, sequence := some 9, portReset := false }

/-- The frames of its version. -/
def cellsC : List Cell :=
  let h : VersionHeader := { key := 5, kind := .value, length := 1, sequence := 9, group := 0 }
  [.first { header := h, committed := false, check := .over h [0x03], data := [0x03] }]

/-- The store while that commit's frame is programmed at 0.006. -/
def committing (w : WriteStep) : Device :=
  { store with
    flight := some (.write (.commit commitC []) false w)
    seqCounter := 10
    segments := store.segments.modify 0 fun r => { r with appendPoint := 7 } }

/-- The part after a command. -/
def after (i : Instr) (d : Device) : Option Device :=
  match exec i { pending := [], dev := d } with
  | .next t => some t.dev
  | _ => none

/-- The reply a request forms. -/
def reply (p : PortId) (i : Instr) (d : Device) : Option (Result × List Byte) :=
  (after i d).bind fun d => (d.port p).handling.map fun r => (r.result, r.payload)

/-! ## One step at a time -/

theorem test_initial_frame : -- 10, section 10.7, frame 1
    (after (.portFrameStart .C) { store with ports := ⟨portA, Port.cleared, portA, Port.cleared⟩ }).map
      (fun d => (d.port .C).frame.map (·.out)) = some (some [0x48, 0x01, 0x00, 0x01, 0x00, 0x4A]) := by decide +kernel

theorem test_busy_frame_status :
    (after (.portFrameStart .B)
      (store.modPort .B fun q => { q with handling := some initialReply })).map
      (fun d => (d.port .B).frame) =
      some (some { busy := true, discarded := false, out := [0x88, 0x01, 0x00, 0x01, 0x00, 0x8A] }) := by
  decide +kernel

theorem test_open_read : reply .B (.openRead .B [0, 1]) store = some (.ok, [1, 0, 2, 0, 0, 0, 5]) := by decide +kernel

theorem test_open_read_damaged : reply .B (.openRead .B [0, 4]) store = some (.damaged, []) := by decide +kernel

theorem test_open_write_preload : reply .B (.openWrite .B [0, 1, 2]) store = some (.ok, [1, 0, 2, 1]) := by decide +kernel

theorem test_open_write_claimed : reply .B (.openWrite .B [0, 5, 1]) store = some (.claimed, []) := by decide +kernel

theorem test_read : reply .A (.read .A [1, 64]) store = some (.ok, [0, 2, 0xAA, 0xBB]) := by decide +kernel

theorem test_read_buffer : reply .A (.read .A [2, 64]) store = some (.ok, [0, 2, 0x02]) := by decide +kernel

theorem test_seek : reply .A (.seek .A [2, 0, 2]) store = some (.ok, [0, 2]) := by decide +kernel

theorem test_write : reply .A (.write .A [2, 7, 8]) store = some (.ok, [0, 3, 0, 3]) := by decide +kernel

theorem test_truncate : reply .A (.truncate .A [2, 0, 0]) store = some (.ok, [0, 0, 0, 0]) := by decide +kernel

theorem test_mark_delete_pending : reply .A (.markDelete .A [2]) store = some (.noSuchKey, []) := by decide +kernel

theorem test_close_frees_the_pending_entry :
    (after (.close .A [2]) store).map (fun d => (d.lookup 2, d.handle .A .n2, (d.buffer .n1).owner)) =
      some (none, .free, none) := by decide +kernel

theorem test_commit_begins :
    (after (.commit .A [2]) store).map (fun d => (d.flight.isSome, d.seqCounter, (d.port .A).reserved)) =
      some (true, 10, 1) := by decide +kernel

theorem test_commit_twice_named : reply .A (.commit .A [2, 2]) store = some (.badRequest, []) := by decide +kernel

theorem test_renew : reply .A (.renew .A []) store = some (.ok, [2]) := by decide +kernel

theorem test_set_lease : reply .A (.setLease .A [15]) store = some (.badRequest, []) := by decide +kernel

theorem test_watch : reply .A (.watch .A [0, 0]) store = some (.ok, [2]) := by decide +kernel

theorem test_unwatch : reply .A (.unwatch .A [0, 1]) store = some (.ok, [0]) := by decide +kernel

theorem test_watch_list : reply .D (.watchList .D []) store = some (.ok, [2, 0, 1, 0, 5]) := by decide +kernel

theorem test_next_notice : reply .A (.nextNotice .A []) store = some (.ok, [0, 8, 3]) := by decide +kernel

theorem test_enumerate : reply .B (.enumerate .B [0, 2]) store = some (.ok, [0, 5, 0, 1, 0, 0, 0, 8]) := by decide +kernel

theorem test_reclaim : reply .B (.reclaim .B []) store = some (.ok, [0, 0]) := by decide +kernel

theorem test_port_reset :
    (after (.portReset .A []) store).map (fun d => (d.handle .A .n1, d.lookup 2, (d.segments.head?).map (·.pins))) =
      some (.free, none, some 0) := by decide +kernel

theorem test_frame_done_then_mark :
    (after (.frameProgramDone .good) (committing (.frameStep ⟨0, 6⟩ cellsC 0))).map (·.flight) =
      some (some (.write (.commit commitC []) false (.markStep ⟨0, 6⟩ cellsC))) := by decide +kernel

theorem test_mark_done_switches :
    (after (.commitMarkDone true) (committing (.markStep ⟨0, 6⟩ cellsC))).map
      (fun d => (d.lookup 5, (d.port .C).notices, (d.port .D).notices, d.handle .C .n1)) =
      some (some { entryOf 5 .live (some ⟨0, 6⟩) 1 (some 9) none with residue := 2 }, [.commitDone 3 .done (some 9)],
        [.changed 5 9 1], .free) := by decide +kernel

theorem test_supply_fall_ends_the_commit :
    (after (.supplyFall ⟨.badCheck, .absent⟩) (committing (.frameStep ⟨0, 6⟩ cellsC 0))).map
      (fun d => ((d.port .C).notices, d.handle .C .n1, d.flight)) =
      some ([.commitDone 3 .failedSupply none, .supply .low], .writing 5 .n2 0 1124, none) := by decide +kernel

/-- A lease renewed to 900 does not run out at 899; at 900 the handle is EXPIRED and the clock stands there. -/
theorem test_expiry_by_its_deadline :
    after (.readingLeaseExpiry .A ⟨.n1, 899⟩) store = some store ∧
      (after (.readingLeaseExpiry .A ⟨.n1, 900⟩) store).map (fun d => (d.handle .A .n1, d.now)) = some (.expired 1, 900) := by
  decide +kernel

/-- A request in a frame that a device reset discarded is not taken after the release (R172). -/
theorem test_discarded_frame_is_not_taken :
    let d := store.modPort .B fun q => { q with frame := some { busy := false, discarded := false, out := [] } }
    ((((after (.deviceReset .pin ⟨.blank, .absent⟩) d).bind (after (.resetRelease .good))).bind (after (.nop .B []))).map
      fun d => ((d.port .B).count, (d.port .B).handling, (d.port .B).frame)) = some (0, none, none) := by decide +kernel

/-- FFh after the reply's last byte (R172). -/
theorem test_sdo_past_the_reply :
    let d := store.modPort .B fun q => { q with frame := some { busy := false, discarded := false, out := [0x08] } }
    d.sdo .B 0 = some 0x08 ∧ d.sdo .B 1 = some 0xFF ∧ store.sdo .B 0 = none := by decide +kernel

/-- A version of two frames whose further frame changed verifies bad, unless the two CRCs are the same (R4, R7). -/
theorem test_rotted_further_frame :
    let h : VersionHeader := { key := 6, kind := .value, length := 49, sequence := 5, group := 0 }
    let d := (store.modCell ⟨1, 1⟩ fun _ =>
      .first { header := h, committed := true, check := .over h (List.replicate 49 0xAA), data := List.replicate 48 0xAA })
    (d.modCell ⟨1, 2⟩ fun _ => .more [0xAA]).checkGood ⟨1, 1⟩ = true ∧
      (Config.crc h (List.replicate 49 0xAA) ≠ Config.crc h (List.replicate 48 0xAA ++ [0xAB]) →
        (d.modCell ⟨1, 2⟩ fun _ => .more [0xAB]).checkGood ⟨1, 1⟩ = false) ∧
      (d.modCell ⟨1, 2⟩ fun _ => .malformed).checkGood ⟨1, 1⟩ = false := by
  refine ⟨by decide +kernel, fun hne => ?_, by decide +kernel⟩
  have h1 : (Config.crc _ _ == Config.crc _ _) = false := beq_false_of_ne hne
  exact (Bool.false_or _).trans h1

/-- A segment retired after a failed open has no segment sequence (R22). -/
theorem test_retired_without_sequence :
    (after (.segmentRetireDone .whole) { store with
      flight := some (.retireVictim 1)
      array := store.array.modify 1 fun im => { im with header := { im.header with opened := .malformed, sequence := 4 } }
      segments := store.segments.modify 1 fun r => { r with state := .reclaiming, sequence := some 4 } }).map
        (fun d => (d.segments[1]?).map (·.sequence)) = some (some none) := by decide +kernel

/-! ## A state and operands that meet the hypotheses of each statement

`serves_store` gives `takes` and `serves` of Safety.lean on every port. -/

theorem serves_store (p : PortId) : store.serves p := by
  refine ⟨⟨rfl, ?_⟩, by decide⟩
  cases p <;> rfl

/-- The store with every handle of port B taken. -/
def fullB : Device :=
  store.modPort .B fun q => { q with handles := ⟨.expired 1, .revoked 1, .expired 1, .expired 1⟩ }

/-- The store with every staging buffer taken. -/
def noBuffers : Device := { store with buffers := store.buffers.map fun b => { b with owner := some (.C, .n1) } }

def readOnly : Device := { store with store := .readOnly .worn }

def low : Device := { store with supply := .low }

/-- A part whose mount reads a small array. -/
def mounting (images : List SegmentImage) (supply : Supply) : Device :=
  { Device.cleared images supply .supply 5 0 with resetHeld := false, mount := .scanning }

/-- The table that gives port A alone SETUP, every port read by default, and write and watch of 1000h to 1FFFh to A. -/
def tableA : AccessTable :=
  let readOnly : Rights := { read := true, write := false, watch := false }
  { defaults := ⟨readOnly, readOnly, readOnly, { readOnly with read := false }⟩
    setup := ⟨true, false, false, false⟩
    zones :=
      [{ first := 0x1000, last := 0x1FFF,
         rights := ⟨{ read := true, write := true, watch := true }, readOnly, readOnly, readOnly⟩ }] }

def restricted : Device := { store with table := some tableA }

theorem test_hyp_DeviceResetClearsRam :
    store.resetHeld = false ∧ store.flight = none ∧ store.mount = .off ∧ State.reset.dev.resetHeld = true := by
  decide +kernel

theorem test_hyp_ReleaseBeginsMount : State.reset.dev.resetHeld = true := rfl

/-- A running commit, whose port was not reset. -/
theorem test_hyp_SupplyFallStopsTheEngine :
    let d := committing (.frameStep ⟨0, 6⟩ cellsC 0)
    d.supply = .good ∧ d.store ≠ .mounting ∧ d.running.toList ++ d.commitQueue = [commitC] ∧ commitC.portReset = false ∧
      d.handle .C .n1 = .committing 5 .n2 0 := by decide +kernel

/-- The segment and the record that each step names. -/
theorem test_hyp_AbandonedStepLeaves :
    (committing (.frameStep ⟨0, 6⟩ cellsC 0)).flight = some (.write (.commit commitC []) false (.frameStep ⟨0, 6⟩ cellsC 0)) ∧
      store.flight = none ∧ store.array[1]? = some blank ∧ store.segments[1]? = some (erasedRecord 2) := by decide +kernel

theorem test_hyp_SupplyRiseResumes :
    low.supply = .low ∧ low.store ≠ .mounting ∧
      (mounting [blank] .low).store = .mounting ∧ (mounting [blank] .low).mount = .scanning := by decide +kernel

/-- The damage of key 4 without its mark, which can be placed, and which cannot: an ACTIVE segment that is full, one ERASED. -/
def marked : Device := store.modEntry 4 fun e => { e with markPending := true }

def crampedBy (r : SegmentRecord) (d : Device) : Device := { d with segments := [r, erasedRecord 2] }

def fullRecord (state : SegmentState) : SegmentRecord :=
  { state := state, eraseCount := 7, sequence := some 3, appendPoint := 128, pins := 0, suspect := false }

/-- No choice; the mark; the fix; a victim; a walk; HOLDING; ERASING; not WANTED. -/
theorem test_hyp_ArbiterChoosesByTheOrder :
    (committing (.openStep 1 4)).flight ≠ none ∧ low.supply = .low ∧ readOnly.store ≠ .normal ∧
      marked.commitQueue = [] ∧ (∃ e ∈ marked.directory, e.markPending = true) ∧ marked.fits 1 = true ∧
      (crampedBy (fullRecord .active) marked).fits 1 = false ∧ (crampedBy (fullRecord .active) marked).erasedCount < 2 ∧
      (crampedBy (fullRecord .sealed) store).pickVictim = some 0 ∧ store.candidates = [] ∧ 3 ≤ store.erasedCount ∧
      store.reclaim = Reclaim.cleared ∧ (∀ r ∈ store.segments, r.suspect = false) ∧
      ({ store with fixes := [.erasing 1] } : Device).lowerOrders.1.flight = some (.eraseFix 1) ∧
      ((crampedBy (fullRecord .sealed) store).lowerOrders.1).reclaim.victim = some 0 := by decide +kernel

/-- With a commit queued and nothing in flight, one choice left: that choice and no further one. -/
theorem test_hyp_ArbiterChoosesByTheOrder_again :
    let d : Device := { marked with commitQueue := [{ commitC with state := .queued, sequence := none }] }
    d.flight = none ∧ d.supply = .good ∧ d.store = .normal ∧ (Device.arbitrate 1 d) = d.choose.1 := by decide +kernel

/-- A commit of port C at the head of the queue. -/
def commitQ : CommitRecord := { commitC with state := .queued, sequence := none }

/-- No room for it: one ERASED segment, which is the reserve, and a SEALED one that is pinned. -/
def tight (r : Reclaim) (fixes : List Fix) : Device :=
  { crampedBy { fullRecord .sealed with pins := 1 } store with commitQueue := [commitQ], reclaim := r, fixes := fixes }

/-- Each end of the head commit's turn; a commit that ends of a port that was not reset, its handle COMMITTING. -/
theorem test_hyp_HeadCommitTurn :
    mayWrite restricted.table .C 5 = false ∧
      ({ restricted with commitQueue := [commitQ] } : Device).choose.2 = true ∧
      ({ store with commitQueue := [commitQ] } : Device).choose.1.running.isSome = true ∧
      ((tight { Reclaim.cleared with state := .holding, victim := some 0 } []).choose.1.commitQueue.map (·.state)) =
        [.waitingSpace] ∧
      (tight Reclaim.cleared [.erasing 0]).choose.1.flight = some (.eraseFix 0) ∧
      (tight { Reclaim.cleared with state := .erasing, victim := some 0 } []).choose.1.flight = some (.eraseVictim 0) ∧
      (tight Reclaim.cleared []).choose.1.commitQueue = [] ∧
      commitQ.portReset = false ∧ (commitQ.members.map (·.handle)).Nodup ∧
      store.handle .C .n1 = .committing 5 .n2 0 := by decide +kernel

/-- The end of a commit whose port was reset: its handle is FREE, its claim and its buffer are released, no notice stands. -/
theorem test_hyp_HeadCommitTurn_port_reset :
    let c := { commitC with portReset := true }
    let d := store.endCommit .failedVerify c
    c.portReset = true ∧ d.handle .C .n1 = .free ∧ (d.buffer .n2).owner = none ∧ (d.lookup 5).map (·.claim) = some none ∧
      (d.port .C).notices = [] := by decide +kernel

/-- A KEPT group of sequence 20 whose seal lies at 0.006. -/
def keeping : Device := { store with groups := .kept 20 ⟨0, 6⟩ 1 :: List.replicate 31 .free }

def headerOf (k : Key) (kind : Kind) (group : Nat) : VersionHeader :=
  { key := k, kind := kind, length := 0, sequence := 4, group := group }

/-- Each row of R122. -/
theorem test_hyp_WalkDecidesByTheTable :
    keeping.decideVersion ⟨0, 6⟩ (headerOf 0xFFFF .groupSeal 20) true = .copy (.groupSeal 0) ∧
      keeping.decideVersion ⟨0, 7⟩ (headerOf 0xFFFF .groupSeal 20) true = .skip ∧
      keeping.decideVersion ⟨0, 1⟩ (headerOf 1 .value 0) true = .copy (.entry 1) ∧
      keeping.decideVersion ⟨0, 3⟩ (headerOf 4 .damageMark 0) true = .copy (.entry 4) ∧
      keeping.decideVersion ⟨0, 2⟩ (headerOf 3 .tombstone 0) true = .dropTombstone ∧
      (keeping.modEntry 3 fun e => { e with pins := 1 }).decideVersion ⟨0, 2⟩ (headerOf 3 .tombstone 0) true =
        .copy (.entry 3) ∧
      keeping.decideVersion ⟨0, 5⟩ (headerOf 5 .value 0) true = .dropStale ∧
      keeping.decideVersion ⟨0, 5⟩ (headerOf 5 .value 20) true = .dropStale ∧
      keeping.decideVersion ⟨0, 5⟩ (headerOf 5 .value 21) true = .skip ∧
      keeping.decideVersion ⟨0, 5⟩ (headerOf 5 .value 0) false = .skip ∧
      keeping.decideVersion ⟨0, 5⟩ (headerOf 6 .value 0) true = .skip := by decide +kernel

/-- A walk of segment 0: past blank frame 6; past a header out of range; to the copy of key 1; a tombstone and a stale version
dropped on the way to its end, where the locations in segment 0 are still named; to an end where none is. -/
theorem test_hyp_WalkDecidesByTheTable_frames :
    let long := store.modCell ⟨0, 1⟩ fun _ => .first
      { header := { headerOf 1 .value 0 with length := 497 }, committed := true, check := .bad, data := [] }
    let walked (d : Device) (pos : Nat) : Nat × Option CopyTarget × Option Nat :=
      let r := Device.walk 0 300 pos d
      (r.1.directory.length, r.2.map (·.target), r.1.reclaim.position)
    walked store 1 = (5, some (.entry 1), some 1) ∧ walked long 1 = (4, some (.entry 4), some 3) ∧
      walked store 6 = (5, some (.entry 1), some 128) ∧
      walked { store with directory := store.directory.drop 4 } 5 = (1, some (.entry 5), some 128) ∧
      walked { store with directory := [] } 1 = (0, none, some 128) ∧
      walked { keeping with directory := [] } 128 = (0, some (.groupSeal 0), some 128) ∧
      (Device.walk 0 300 5 { store with directory := store.directory.drop 4 }).1.reclaim.log.length = 1 := by
  decide +kernel

/-- The turn after the walk: HOLDING while the victim is pinned, ERASING otherwise; a copy with room, and without. -/
theorem test_hyp_WalkDecidesByTheTable_turn :
    let at_ (d : Device) (pos : Nat) : Device :=
      { d with reclaim := { Reclaim.cleared with state := .copying, victim := some 0, position := some pos } }
    ((at_ { store with directory := [] } 128).walkTurn 0).1.reclaim.state = .holding ∧
      ((at_ { crampedBy (fullRecord .reclaiming) store with directory := [] } 128).walkTurn 0).1.reclaim.state = .erasing ∧
      ((at_ store 1).walkTurn 0).1.flight.isSome = true ∧
      ((at_ { store with segments := [fullRecord .reclaiming] } 1).walkTurn 0).1.reclaim.state = .idle ∧
      (store.checkGood ⟨0, 1⟩ = true) := by decide +kernel

/-- A copy of one frame and its successor: the first without its commit mark. -/
theorem test_hyp_WalkDecidesByTheTable_copy :
    let c := store.makeCopy (.entry 1) ⟨0, 1⟩ 2 true
    ((store.cell ⟨0, 1⟩).asFirst).map (·.committed) = some true ∧
      (c.cells.map Cell.asFirst)[0]? = some (((store.cell ⟨0, 1⟩).asFirst).map fun f => { f with committed := false }) ∧
      c.cells[1]? = some (store.cell ⟨0, 2⟩) := by decide +kernel

/-- A kept seal that stands at frame 128: copied by its header's length where it reads in range, else as one frame. -/
theorem test_hyp_WalkDecidesByTheTable_seal :
    let copied (c : Cell) : Option (List Cell) :=
      let d : Device := { keeping with directory := [] }
      ((Device.walk 0 300 128 (d.modCell ⟨0, 6⟩ fun _ => c)).2).map (·.cells)
    let headed (n : Nat) : Cell := .first
      { header := { headerOf 0xFFFF .groupSeal 20 with length := n }, committed := true, check := .bad, data := [] }
    (copied (headed 49)).map (·.length) = some 2 ∧ (copied (headed 497)).map (·.length) = some 1 ∧
      copied .malformed = some [.malformed] := by decide +kernel

/-- Victim 0, of which the walk has dropped the tombstone of key 3 and counted out a version of key 3 and one of key 5, a
member of group 20. -/
def abandonable : Device :=
  let passed (frame : Nat) (k : Key) (group : Nat) (tombstone : Bool) : Passed :=
    { location := ⟨0, frame⟩, key := k, sequence := frame, group := group, tombstone := tombstone }
  { keeping with
    directory := keeping.directory.filter fun e => e.key != 3
    heldSlots := [0]
    reclaim :=
      { Reclaim.cleared with
        state := .copying
        victim := some 0
        log := [passed 1 3 0 false, passed 2 3 0 true, passed 5 5 20 false] } }

/-- Key 3 is GONE again, in place of the held slot; key 5's residue and group 20's member count rise by 1. -/
theorem test_hyp_AbandonedVictimStandsAgain :
    let d := abandonable.abandonVictim
    abandonable.reclaim.victim = some 0 ∧ abandonable.lookup 3 = none ∧
      (d.lookup 3).map (fun e => (e.state, e.location, e.residue)) = some (.gone, some ⟨0, 2⟩, 1) ∧ d.heldSlots = [] ∧
      (d.lookup 5).map (·.residue) = some 2 ∧ d.groups.head? = some (.kept 20 ⟨0, 6⟩ 2) ∧
      (d.segments.head?).map (·.state) = some .sealed := by decide +kernel

/-- The last sequence, taken in a NORMAL store with a commit queued; a group's entry; a damage mark. -/
theorem test_hyp_ProgrammingBegins :
    let last : Device := { store with seqCounter := 0xFFFFFFF0, commitQueue := [commitQ] }
    let spent := last.beginProgram (.damageMark 4 none) false 0
    let grouped := store.beginProgram (.commit { commitQ with group := some 31 } []) false 0
    last.store = .normal ∧ (spent.store, spent.seqCounter, spent.commitQueue) = (.readOnly .spent, 0xFFFFFFF1, []) ∧
      spent.flight.isSome = true ∧ (spent.port .C).notices = [.commitDone 3 .storeFull none] ∧
      grouped.seqCounter = 10 ∧ grouped.groups[31]? = some (.reserved (some 9)) ∧ commitQ.sequence = none ∧
      (grouped.segments.head?).map (·.appendPoint) = some 7 := by decide +kernel

/-- A VALUE of two frames, a seal of two members, a damage mark. -/
theorem test_hyp_ProgrammingBegins_cells :
    let d : Device := { store with buffers := store.buffers.set .n2 (buffer .C .n1 .value (List.replicate 49 0xAA)) }
    let long := { commitC with members := commitC.members.map fun m => { m with length := 49 } }
    let two := { commitC with members := commitC.members ++ commitC.members, group := some 31 }
    (d.ownerCells (.commit long [])).length = 2 ∧ (d.ownerCells (.commit long []))[1]? = some (.more [0xAA]) ∧
      (d.ownerCells (.commit two [⟨0, 6⟩, ⟨0, 7⟩])).map Cell.asFirst =
        [some
          { header := { key := 0xFFFF, kind := .groupSeal, length := 5, sequence := 9, group := 9 }
            committed := false
            check := .over { key := 0xFFFF, kind := .groupSeal, length := 5, sequence := 9, group := 9 } [2, 0, 5, 0, 5]
            data := [2, 0, 5, 0, 5] }] ∧
      ((d.ownerCells (.damageMark 4 (some 9))).map Cell.asFirst).map (·.map (·.header)) =
        [some { key := 4, kind := .damageMark, length := 0, sequence := 9, group := 0 }] := by decide +kernel

/-- The frames by which an item is placed are those programmed: of values of 48, 49 and 496 bytes, a DELETE, a seal, a damage
mark and a copy. -/
theorem test_hyp_ProgrammingBegins_frames :
    let of_ (intent : Intent) (n : Nat) : CommitRecord :=
      { commitC with members := commitC.members.map fun m => { m with intent := intent, length := n } }
    let d : Device := { store with buffers := store.buffers.set .n2 (buffer .C .n1 .value (List.replicate 496 0xAA)) }
    let owners : List Owner := [.commit (of_ .value 48) [], .commit (of_ .value 49) [], .commit (of_ .value 496) [],
      .commit (of_ .delete 496) [], .commit commitC [⟨0, 6⟩], .damageMark 4 (some 9),
      .copy (store.makeCopy (.entry 1) ⟨0, 1⟩ 2 true)]
    owners.map Owner.frames = [1, 2, 8, 1, 1, 1, 2] ∧ owners.map (fun o => (d.ownerCells o).length) = owners.map Owner.frames := by
  decide +kernel

/-- A segment to open; a victim; a version that fits, one that does not, and one with no segment ACTIVE. -/
theorem test_hyp_VersionsArePlacedWhole :
    let mark : Owner := .damageMark 4 none
    store.pickErased = some 2 ∧ (crampedBy (fullRecord .sealed) store).pickVictim = some 0 ∧ store.pickVictim = none ∧
      store.active = some 0 ∧ store.appendPoint 0 + mark.frames ≤ 128 ∧ store.seqCounter < 0xFFFFFFF0 ∧
      (crampedBy (fullRecord .active) store).active = some 0 ∧
      128 < (crampedBy (fullRecord .active) store).appendPoint 0 + mark.frames ∧
      (crampedBy (fullRecord .sealed) store).active = none ∧
      (crampedBy (fullRecord .sealed) store).pickErased = some 1 ∧
      (crampedBy (fullRecord .sealed) store).erasedCount ≤ 1 := by decide +kernel

/-- One image for each row. -/
theorem test_hyp_MountClassifiesByTheFirstRow :
    let h := blank.header
    let at_ (h : SegmentHeader) (frames : List Cell) : SegmentClass := SegmentImage.classify { header := h, frames := frames }
    at_ { h with retired := .whole } [] = .retired ∧ at_ h [.blank] = .erased ∧ at_ h [.blank, .malformed] = .unclean ∧
      at_ { h with opened := .whole, sealed := .malformed, retired := .malformed } [] = .sealed ∧
      at_ { h with opened := .whole } [] = .candidate ∧ at_ { h with erased := .absent } [] = .unclean ∧
      at_ { h with opened := .malformed } [] = .unclean ∧ at_ { h with sealed := .whole } [] = .unclean := by decide +kernel

/-- A member of group 20, or its seal, in one frame. -/
def grouped (k : Key) (kind : Kind) (bytes : List Byte) : Cell :=
  let h : VersionHeader := { key := k, kind := kind, length := bytes.length, sequence := 20, group := 20 }
  .first { header := h, committed := true, check := .over h bytes, data := bytes }

/-- Segment 0 holds key 1 twice, a complete group of keys 2 and 3 of which 3 is lost, an orphan of key 4, and a malformed
frame; segments 1 to 3 are ERASED. -/
def mountable : Device :=
  let orphan : VersionHeader := { headerOf 4 .value 99 with sequence := 7 }
  mounting
    (opened 3 [oneFrame 1 .value 5 [0x11], oneFrame 1 .value 6 [0x22], .malformed, grouped 2 .value [0x33],
      grouped 0xFFFF .groupSeal [2, 0, 2, 0, 3],
      .first { header := orphan, committed := true, check := .over orphan [], data := [] }] :: List.replicate 3 blank) .low

theorem test_hyp_MountBuildsTheDirectory :
    mountable.mount = .scanning ∧ (mountable.scan.map (·.location.frame)) = [1, 2, 4, 5, 6] ∧
      (after .mountScanDone mountable).map (fun d => (d.directory.map (·.key), d.seqCounter)) = some ([1, 2, 3], 21) ∧
      ((after .mountScanDone mountable).bind (·.lookup 3)).map (fun e => (e.state, e.location, e.markPending)) =
        some (.damaged, none, true) ∧
      ((after .mountScanDone mountable).bind (·.lookup 1)).map (fun e => (e.state, e.location, e.residue)) =
        some (.live, some ⟨0, 2⟩, 1) := by decide +kernel

/-- A version of two frames with a bad check: mount moves on by one, to its further frame, which it reads as a header. -/
theorem test_hyp_MountBuildsTheDirectory_further :
    let h : VersionHeader := { key := 1, kind := .value, length := 50, sequence := 5, group := 0 }
    let d := mounting [opened 3 [.first { header := h, committed := false, check := .bad, data := [] }, .more [7, 8]]] .low
    d.scanFrames 0 128 1 = d.scanFrames 0 127 2 ∧ d.cell ⟨0, 2⟩ = .more [7, 8] := ⟨rfl, rfl⟩

/-- One segment of each class: ACTIVE and not kept, SEALED, unclean, RETIRED, ERASED. -/
def classes : Device :=
  let image (opened sealed retired : MarkRead) (sequence : Nat) : SegmentImage :=
    { header :=
        { erased := .whole, eraseCount := 7, opened := opened, sequence := sequence, sealed := sealed, retired := retired }
      frames := List.replicate 4 .blank }
  mounting [image .whole .absent .absent 3, image .whole .absent .absent 2, image .whole .whole .absent 1,
    image .malformed .absent .absent 4, image .whole .whole .whole 5, blank] .low

theorem test_hyp_MountBuildsGroupsAndSegments :
    classes.array.map SegmentImage.classify = [.candidate, .candidate, .sealed, .unclean, .retired, .erased] ∧
      (after .mountScanDone classes).map (fun d => d.segments.map fun r => (r.state, r.appendPoint, r.sequence)) =
        some [(.active, 1, some 3), (.sealed, 128, some 2), (.sealed, 128, some 1), (.sealed, 128, none),
          (.retired, 1, some 5), (.erased, 1, none)] ∧
      (after .mountScanDone classes).map (·.fixes) = some [.sealing 1, .erasing 3] ∧
      (after .mountScanDone mountable).map (fun d => d.groups.head?) = some (some (.kept 20 ⟨0, 5⟩ 1)) := by
  decide +kernel

/-- Of the groups 20 and 21, each with a complete seal, only the one whose version of key 2 is the highest has a current
member; a later version of no group leaves neither with one. -/
theorem test_hyp_MountBuildsGroupsAndSegments_current :
    let found (k : Key) (sequence group frame : Nat) : Found :=
      { location := ⟨0, frame⟩, header := { key := k, kind := .value, length := 0, sequence := sequence, group := group }
        committed := true }
    let both : List Found := [found 2 20 20 1, found 2 21 21 2]
    mountable.hasCurrent both 20 = false ∧ mountable.hasCurrent both 21 = true ∧
      mountable.hasCurrent (both ++ [found 2 22 0 3]) 21 = false ∧
      mountable.headerSequence 0 = 3 := by decide +kernel

/-- The end of mount: NORMAL with four segments, WORN with three, SPENT with the last sequence stored, NO_RESERVE with no
segment ERASED; mount's own erase. -/
theorem test_hyp_MountScanEndsMount :
    let ends (images : List SegmentImage) : Option (StoreState × Nat × Nat) :=
      (after .mountScanDone (mounting images .low)).map fun d => (d.store, d.notRetired, d.erasedCount)
    let unclean : SegmentImage := { blank with header := { blank.header with opened := .malformed } }
    (mounting [blank] .low).mount = .scanning ∧ (mounting [blank] .low).supply = .low ∧
      ends [blank, blank, blank, blank] = some (.normal, 4, 4) ∧ ends [blank, blank, blank] = some (.readOnly .worn, 3, 3) ∧
      ends [opened 9 [oneFrame 1 .value 0xFFFFFFF0 []], blank, blank, blank] = some (.readOnly .spent, 4, 3) ∧
      ends (List.replicate 4 (opened 9 [])) = some (.readOnly .noReserve, 4, 0) ∧
      (after .mountScanDone (mounting (List.replicate 4 unclean) .good)).map (fun d => match d.mount with
        | .erasing i w => (i, w.unclean, d.segments.length, d.store)
        | _ => (9, [], 0, d.store)) = some (0, [0, 1, 2, 3], 4, .mounting) := by
  decide +kernel

/-- During mount's own erase of segment 1: key 1, found in segment 0, has no entry yet, its frame counts live, and the frames
of the three unclean segments dead. -/
theorem test_figures_in_mounts_own_erase :
    let unclean : SegmentImage := { blank with header := { blank.header with opened := .malformed } }
    (after .mountScanDone
      (mounting (opened 9 [oneFrame 1 .value 5 [], oneFrame 1 .value 4 []] :: List.replicate 3 unclean) .good)).map
        (fun d => [d.directory.length, d.entriesUsed, d.seqCounter, d.liveFrames 0, d.freeFrames, d.deadTotal]) =
      some [0, 0, 0, 1, 125, 1 + 3 * 127] := by
  decide +kernel

/-- A stored table that is valid, one that is not, and none. -/
theorem test_hyp_MountScanEndsMount_table :
    let ends (value : List Byte) : Option (Bool × Bool) :=
      (after .mountScanDone (mounting (opened 9 [oneFrame 0 .value 5 value] :: List.replicate 3 blank) .low)).map
        fun d => (d.table.isSome, d.tableInvalid)
    ends [1, 0, 1, 1, 1, 1, 1, 0] = some (true, false) ∧ ends [1] = some (false, true) ∧
      (after .mountScanDone mountable).map (fun d => (d.table, d.tableInvalid)) = some (none, false) := by decide +kernel

/-- Mount erases unclean segment 1 itself, of four SEALED segments. -/
def ownErasing : Device :=
  { mounting (List.replicate 4 blank) .good with
    segments := List.replicate 4 { erasedRecord 6 with state := .sealed, appendPoint := 128 }
    mount := .erasing 1
      { sealFixes := [], unclean := [1, 2], spent := false
        tables := { directory := [], seqCounter := 1, segCounter := 1 } } }

/-- The figures that a command leaves: store, segments not RETIRED and ERASED ones, and the fix list. -/
def figures (i : Instr) (d : Device) : Option (StoreState × Nat × Nat × List Fix) :=
  (after i d).map fun d => (d.store, d.notRetired, d.erasedCount, d.fixes)

theorem test_hyp_MountEraseGivesTheAssignedCount :
    ownErasing.segments[1]? = some { erasedRecord 6 with state := .sealed, appendPoint := 128 } ∧
      ownErasing.array[1]? = some blank ∧ ownErasing.supply = .good ∧ ownErasing.store = .mounting := by decide +kernel

/-- Its end, good and failed; a fall of the supply in it, which leaves segment 1 unclean. -/
theorem test_ends_of_mounts_own_erase :
    figures (.mountEraseDone .good) ownErasing = some (.normal, 4, 1, [.erasing 2]) ∧
      figures (.mountEraseDone (.bad .absent .whole)) ownErasing = some (.readOnly .worn, 3, 0, [.erasing 2]) ∧
      figures (.supplyFall ⟨.blank, .malformed⟩) ownErasing = some (.normal, 4, 0, [.erasing 1, .erasing 2]) := by
  decide +kernel

/-- A device reset in mount's own erase, and one while a frame is programmed. -/
theorem test_hyp_DeviceResetClearsRam_array :
    ownErasing.resetHeld = false ∧
      (after (.deviceReset .pin ⟨.blank, .malformed⟩) ownErasing).map (fun d => (d.array[1]?).map (·.header.erased)) =
        some (some .malformed) ∧
      (after (.deviceReset .pin ⟨.malformed, .absent⟩) (committing (.frameStep ⟨0, 6⟩ cellsC 0))).map
        (fun d => d.cell ⟨0, 6⟩) = some .malformed := by decide +kernel

/-- A supply that rises while mount reads the array. -/
theorem test_hyp_SupplyRiseResumes_mounting :
    (mounting [blank] .low).store = .mounting ∧
      (after .supplyRise (mounting [blank] .low)).map (fun d => (d.supply, d.mount)) = some (.good, .scanning) ∧
      ownErasing.builtTables.isSome = true := by decide +kernel

theorem test_hyp_FramesCarryTheHeldReply :
    let d := store.modPort .B fun q => { q with handling := some initialReply, frame := some FrameOut.lost }
    store.resetHeld = false ∧ State.reset.dev.resetHeld = true ∧ (store.port .D).frame = none ∧
      State.reset.dev.store = .mounting ∧ store.store = .normal ∧ readOnly.store = .readOnly .worn ∧
      (d.port .B).handling = some initialReply ∧ (d.port .B).frame = some FrameOut.lost ∧ d.resetHeld = false := by
  decide +kernel

theorem test_hyp_FramesThatAreNotTaken :
    let d := store.modPort .B fun q => { q with frame := some { busy := true, discarded := false, out := [] } }
    requestParts (.nop .B []) = some (.B, 0x01, []) ∧ State.reset.dev.resetHeld = true ∧
      (d.port .B).frame = some { busy := true, discarded := false, out := [] } ∧
      FrameOut.lost.discarded = true := by decide +kernel

/-- A taken request of an open store, and one of a store that is MOUNTING. -/
theorem test_hyp_takes : store.takes .A ∧ (mounting [blank] .good).takes .A ∧ (mounting [blank] .good).store = .mounting :=
  ⟨(serves_store .A).1, ⟨rfl, rfl⟩, rfl⟩

theorem test_hyp_DecodeFrameOfEncodeRequest :
    wellFormed (.write .A [1, 2]) = true ∧ requestParts (.write .A [1, 2]) = some (.A, 0x07, [1, 2]) ∧
      encodeRequest (.write .A [1, 2]) = some [0x07, 0x02, 0x01, 0x02, 0x0C] := by decide

theorem test_hyp_FormCheckAndMounting :
    wellFormed (.openRead .A [1]) = true ∧ requestParts (.openRead .A [1]) = some (.A, 0x03, [1]) ∧
      ¬ formAllowed 0x03 [1] ∧ formAllowed 0x03 [0, 1] ∧ (mounting [] .good).store = .mounting ∧
      (mounting [] .good).takes .A := by
  refine ⟨by decide, by decide, ?_, rfl, rfl, rfl, rfl⟩
  intro h
  exact absurd (show [(1 : Byte)].length = 2 from h) (by decide)

theorem keysRise_store : store.keysRise := by
  unfold Device.keysRise
  decide +kernel

/-- From 0002h: key 5 is the lowest LIVE one; port D may read none of the user keys. -/
theorem test_hyp_EnumerateFindsTheLowestReadable :
    (∃ e ∈ store.directory, keyOf 0 2 ≤ e.key ∧ e.state = .live ∧ mayRead store.table .B e.key = true ∧
      ∀ x ∈ store.directory, keyOf 0 2 ≤ x.key → x.state = .live → mayRead store.table .B x.key = true → e.key ≤ x.key) ∧
    ∀ x ∈ restricted.directory, keyOf 0 2 ≤ x.key → x.state = .live → mayRead restricted.table .D x.key = false := by
  decide +kernel

/-- The version of key 1 found corrupt. -/
def rotten : Device := store.modCell ⟨0, 1⟩ Cell.misread

theorem test_hyp_OpenReadBindsOrDetectsDamage :
    keyOf 0 1 ≠ 0xFFFF#16 ∧ mayRead store.table .B (keyOf 0 1) = true ∧
      store.lookup (keyOf 0 1) = some { entryOf 1 .live (some ⟨0, 1⟩) 2 (some 5) none with pins := 1 } ∧
      Four.all.find? (fun j => (store.handle .B j).isFree) = some .n1 ∧ store.checkGood ⟨0, 1⟩ = true ∧
      rotten.checkGood ⟨0, 1⟩ = false ∧
      (rotten.lookup (keyOf 0 1)).map (fun e => (e.state, e.location)) = some (.live, some ⟨0, 1⟩) := by decide +kernel

/-- FFFFh; no right; no entry; PENDING; GONE; DAMAGED; LIVE with no handle free. -/
theorem test_hyp_OpensRefuseInOrder_read :
    keyOf 0xFF 0xFF = 0xFFFF#16 ∧ mayRead restricted.table .D (keyOf 0 1) = false ∧ store.lookup (keyOf 0 6) = none ∧
      (store.lookup (keyOf 0 2)).map (·.state) = some .pending ∧ (store.lookup (keyOf 0 3)).map (·.state) = some .gone ∧
      (store.lookup (keyOf 0 4)).map (·.state) = some .damaged ∧ (store.lookup (keyOf 0 1)).map (·.state) = some .live ∧
      ∀ h ∈ Four.all, (fullB.handle .B h).isFree = false := by decide +kernel

/-- A new key and a LIVE one, a GONE one with CREATE, with the one free buffer. -/
theorem test_hyp_OpenWriteTakesTheClaim :
    mayWrite store.table .B (keyOf 0 6) = true ∧ Four.all.find? (fun j => (store.handle .B j).isFree) = some .n1 ∧
      Four.all.find? (fun j => (store.buffer j).owner.isNone) = some .n4 ∧ store.lookup (keyOf 0 6) = none ∧
      store.directory.length + store.heldSlots.length < 1024 ∧
      (store.lookup (keyOf 0 1)).map (fun e => (e.state, e.claim)) = some (.live, none) ∧
      (store.lookup (keyOf 0 3)).map (fun e => (e.state, e.claim)) = some (.gone, none) := by decide +kernel

/-- PRELOAD where there is no value to load: on a GONE key with CREATE, on a DAMAGED one without. -/
theorem test_open_write_preloads_nothing :
    reply .B (.openWrite .B [0, 3, 3]) store = some (.ok, [1, 0, 0, 2]) ∧
      reply .B (.openWrite .B [0, 4, 2]) (store.modEntry 4 fun e => { e with claim := none }) =
        some (.ok, [1, 0, 0, 3]) := by decide +kernel

theorem test_open_write_preload_create : reply .B (.openWrite .B [0, 1, 3]) store = some (.ok, [1, 0, 2, 1]) := by
  decide +kernel

theorem test_hyp_OpenWritePreloads :
    (store.lookup (keyOf 0 1)).map (fun e => (e.state, e.claim, e.location)) = some (.live, none, some ⟨0, 1⟩) ∧
      store.checkGood ⟨0, 1⟩ = true ∧ rotten.checkGood ⟨0, 1⟩ = false ∧ Four.all.find? (fun j => (store.handle .B j).isFree) = some .n1 ∧
      Four.all.find? (fun j => (store.buffer j).owner.isNone) = some .n4 := by decide +kernel

/-- A directory with no room: 1024 in use, 1019 of them held slots. -/
def crowded : Device := { store with heldSlots := List.replicate 1019 0 }

/-- FFFFh; READ_ONLY; no right; claimed; no entry without CREATE; no handle; no buffer; 1024 in use. -/
theorem test_hyp_OpensRefuseInOrder_write :
    keyOf 0xFF 0xFF = 0xFFFF#16 ∧ readOnly.store = .readOnly .worn ∧ mayWrite restricted.table .B (keyOf 0 6) = false ∧
      (store.lookup (keyOf 0 5)).map (·.claim) = some (some (.C, .n1)) ∧ store.lookup (keyOf 0 6) = none ∧
      (∀ h ∈ Four.all, (fullB.handle .B h).isFree = false) ∧ (∀ b ∈ Four.all, (noBuffers.buffer b).owner ≠ none) ∧
      1024 ≤ crowded.directory.length + crowded.heldSlots.length ∧ crowded.lookup (keyOf 0 6) = none ∧
      (crowded.buffer .n4).owner = none := by decide +kernel

/-- Numbers outside 1 to 4; counts and offsets out of range; each state. -/
theorem test_hyp_HandleStateRefusals :
    (0x00 : Byte).toNat = 0 ∧ 4 < (0x05 : Byte).toNat ∧ Four.ofByte 0x04 = some .n4 ∧ store.handle .A .n4 = .free ∧
      store.handle .C .n1 = .committing 5 .n2 0 ∧ store.handle .A .n3 = .expired 9 ∧ store.handle .C .n2 = .revoked 8 ∧
      store.handle .A .n1 = .reading 1 { location := ⟨0, 1⟩, length := 2, sequence := 5 } 0 900 ∧
      64 < (0x41 : Byte).toNat ∧ 496 < nat16 0x01 0xF1 ∧ ¬ 496 < nat16 0x01 0xF0 := by decide +kernel

theorem test_hyp_ReadReturnsBytesAndAdvances :
    Four.ofByte 0x01 = some .n1 ∧ 1 ≤ (0x40 : Byte).toNat ∧ (0x40 : Byte).toNat ≤ 64 ∧
      store.handle .A .n1 = .reading 1 { location := ⟨0, 1⟩, length := 2, sequence := 5 } 0 900 ∧
      store.handle .A .n2 = .writing 2 .n1 1 800 := by decide +kernel

/-- A value of 50 bytes in the frames that a commit writes: its last byte, in the further frame, reads back and its check is
good; with that frame blank, and with the check field not as meant, it is bad. -/
theorem test_hyp_ReadReturnsBytesAndAdvances_array :
    let value : List Byte := List.replicate 49 0xAA ++ [0xBB]
    let h : VersionHeader := { key := 1, kind := .value, length := 50, sequence := 5, group := 0 }
    let first (c : Check) : Cell := .first { header := h, committed := true, check := c, data := value.take 48 }
    let read (c : Check) (further : Cell) : Byte × Bool :=
      let d : Device := { store with array := [opened 3 [first c, further]] }
      (d.valueByte ⟨0, 1⟩ 49, d.checkGood ⟨0, 1⟩)
    value.length = h.length ∧ read (.over h value) (.more (value.drop 48)) = (0xBB, true) ∧
      (read .bad (.more (value.drop 48))).2 = false ∧
      ({ store with array := [opened 3 [first (.over h value), .blank]] } : Device).checkGood ⟨0, 1⟩ = false := by
  decide +kernel

/-- The seal of `mountable` lists the keys 2 and 3; one whose frame holds fewer than its count, those it holds; one whose
frame holds none or reads malformed, no key. -/
theorem test_hyp_ReadReturnsBytesAndAdvances_seal :
    let listed (c : Cell) : List Key := ({ store with array := [opened 3 [c]] } : Device).sealKeysAt ⟨0, 1⟩
    mountable.sealKeysAt ⟨0, 5⟩ = [2, 3] ∧ listed (grouped 0xFFFF .groupSeal [3, 0, 2, 0]) = [2] ∧
      listed (grouped 0xFFFF .groupSeal []) = [] ∧ listed .malformed = [] ∧
      ({ store with array := [opened 3 [.malformed]] } : Device).valueByte ⟨0, 1⟩ 49 = Config.strayByte ⟨0, 2⟩ 1 := by
  refine ⟨?_, ?_, ?_, ?_, rfl⟩ <;> decide +kernel

/-- R27 and R28 on the store: key 3's tombstone is not needed, key 5's older version is stale. -/
theorem test_hyp_StoreInfoReports_figures :
    store.liveFrames 0 = 3 ∧ store.deadFrames 0 = 2 ∧ (store.modEntry 3 fun e => { e with pins := 1 }).liveFrames 0 = 4 ∧
      keeping.liveFrames 0 = 4 ∧ store.freeFrames = 122 + 4 * 127 ∧ store.deadTotal = 2 ∧ store.reclaimable = 0 ∧
      ({ store with segments := [fullRecord .sealed] } : Device).freeFrames = 0 ∧
      ({ store with segments := [fullRecord .sealed] } : Device).reclaimable = 124 := by decide +kernel

/-- SEEK, WRITE, TRUNCATE, CLOSE and the expiry of a WRITING handle. -/
theorem test_hyp_writing :
    Four.ofByte 0x02 = some .n2 ∧ store.handle .A .n2 = .writing 2 .n1 1 800 ∧
      store.lookup 2 = some (entryOf 2 .pending none 0 none (some (.A, .n2))) := by decide +kernel

/-- MARK_DELETE: on DAMAGED key 4, PENDING key 2 and GONE key 3. -/
theorem test_hyp_TruncateAndMarkDelete :
    store.handle .C .n4 = .writing 4 .n3 0 700 ∧ (store.lookup 4).map (·.state) = some .damaged ∧
      (store.lookup 2).map (·.state) = some .pending ∧ (store.lookup 3).map (·.state) = some .gone := by decide +kernel

/-- A store whose victim, segment 0, is held by port A's handle 1 alone. -/
def heldByA : Device := { store with reclaim := { Reclaim.cleared with state := .holding, victim := some 0 } }

/-- The release of the last pin ends HOLDING: by CLOSE, by expiry, by PORT_RESET. -/
theorem test_hyp_endHolding :
    let ends (i : Instr) : Option ReclaimState := (after i { heldByA with supply := .low }).map (·.reclaim.state)
    heldByA.reclaim.state = .holding ∧ ends (.close .A [1]) = some .erasing ∧
      ends (.readingLeaseExpiry .A ⟨.n1, 900⟩) = some .erasing ∧ ends (.portReset .A []) = some .erasing ∧
      ends (.portReset .B []) = some .holding := by decide +kernel

/-- CLOSE of an EXPIRED, a REVOKED and a READING handle, and the expiry of a READING one. -/
theorem test_hyp_CloseFreesTheHandle :
    store.handle .A .n3 = .expired 9 ∧ store.handle .C .n2 = .revoked 8 ∧
      store.handle .A .n1 = .reading 1 { location := ⟨0, 1⟩, length := 2, sequence := 5 } 0 900 := by decide +kernel

/-- A singleton of port A's handle 2. -/
theorem test_hyp_CommitIsAccepted :
    let m : Member := { handle := .n2, key := 2, buffer := .n1, intent := .value, length := 2 }
    store.store = .normal ∧ store.supply = .good ∧ [Four.n2].Nodup ∧
      (m.intent = (store.buffer m.buffer).intent ∧ m.length = (store.buffer m.buffer).length ∧
        store.handle .A .n2 = .writing m.key m.buffer 1 800) ∧
      mayWrite store.table .A m.key = true ∧ m.key ≠ 0x0000#16 ∧
      (store.port .A).notices.length + (store.port .A).reserved < 8 ∧ store.groups.length = 32 ∧
      store.groups[31]? = some .free ∧ m.frames ≤ store.freeFrames + store.reclaimable := by decide +kernel

/-- A valid access table in a buffer: 8 bytes, no zone, SETUP for port A. -/
theorem test_hyp_CommitIsAccepted_table :
    validTable (buffer .A .n2 .value [1, 0, 1, 1, 1, 1, 1, 0]).value = true := by decide +kernel

/-- A list with 5 numbers, with 0, with one twice; a READ_ONLY store; a LOW supply; a writer without its right. -/
theorem test_hyp_CommitRefusedForListStoreOrHandle :
    4 < [(1 : Byte), 2, 3, 4, 1].length ∧ ¬ [(2 : Byte), 2].Nodup ∧ readOnly.store = .readOnly .worn ∧
      low.store = .normal ∧ low.supply = .low ∧ store.handle .A .n4 = .free ∧
      mayWrite restricted.table .A 2 = false ∧ restricted.handle .A .n2 = .writing 2 .n1 1 800 ∧
      (restricted.lookup 2).map (·.state) = some .pending := by decide +kernel

/-- Handles 3 (EXPIRED) and 4 (FREE) behind WRITING handle 2: check 5 names handle 3, the first. Of the WRITING handles 2 of
key 1000h and 3 of key 2, check 6 names handle 3 and revokes it alone. -/
theorem test_hyp_CommitRefusedForListStoreOrHandle_lists :
    let d := restricted.modPort .A fun q =>
      { q with handles := ⟨.free, .writing 0x1000 .n4 0 800, .writing 2 .n1 1 800, .free⟩ }
    reply .A (.commit .A [2, 3, 4]) store = some (.expired, [3]) ∧ mayWrite tableA .A 0x1000 = true ∧
      mayWrite tableA .A 2 = false ∧ reply .A (.commit .A [2, 3]) d = some (.denied, [3]) ∧
      (after (.commit .A [2, 3]) d).map (fun d => (d.handle .A .n2, d.handle .A .n3)) =
        some (.writing 0x1000 .n4 0 1124, .revoked 2) := by decide +kernel

/-- Checks 7 to 10: a table that is not valid, no slot, no group entry, no room. -/
theorem test_hyp_CommitRefusedForTableSlotsGroupOrSpace :
    let full : Device := { store with groups := List.replicate 32 (.kept 20 ⟨0, 5⟩ 1) }
    let m : Member := { handle := .n2, key := 2, buffer := .n1, intent := .value, length := 2 }
    let cramped := crampedBy (fullRecord .active) store
    validTable (store.buffer .n1).value = false ∧
      8 ≤ ((store.modPort .A fun q => { q with reserved := 7 }).port .A).notices.length + 7 ∧
      full.groups.length = 32 ∧ (∀ g ∈ full.groups, g ≠ GroupEntry.free) ∧
      cramped.freeFrames + cramped.reclaimable < m.frames := by decide +kernel

/-- The queue of port A; an empty one; an empty one with overflow. -/
theorem test_hyp_NextNoticeCollects :
    (store.port .A).notices = [.started .pin] ∧ (store.port .B).notices = [] ∧ (store.port .B).overflow = false ∧
      ((store.modPort .B fun q => { q with overflow := true }).port .B).overflow = true := by decide +kernel

/-- Room for one notice more, and none. -/
theorem test_hyp_OfferAndAttention :
    let q (n : Nat) : Port := { Port.cleared with notices := List.replicate n (.supply .low), reserved := 1 }
    (q 6).overflow = false ∧ (q 6).notices.length + (q 6).reserved < 8 ∧ 8 ≤ (q 7).notices.length + (q 7).reserved := by
  decide +kernel

/-- Under the table of `tableA`, which gives port A and port C no write right for keys 2 and 4: both lose a WRITING handle. -/
theorem test_hyp_AccessTableTakesEffect :
    let d := store.replaceTable (some (.value, [1, 0, 1, 1, 1, 1, 1, 0]))
    d.handle .A .n2 = .revoked 2 ∧ d.handle .C .n4 = .revoked 4 ∧ d.handle .A .n1 = store.handle .A .n1 ∧
      d.lookup 2 = none ∧ (d.lookup 4).map (·.claim) = some none ∧ (d.buffer .n1).owner = none ∧
      (d.port .C).notices = [.handleRevoked .n4 4] ∧ (d.port .D).watch = [] := by decide +kernel

/-- R148: a value that meets its seven conditions, with no zone, with two and with eight; and for each condition, in order, one
that fails it alone. -/
theorem test_hyp_AccessTableTakesEffect_valid :
    let head (n setup : Byte) : List Byte := [1, n, 7, 7, 7, 7, setup, 0]
    let zone (first last : Byte) : List Byte := [0, first, 0, last, 7, 7, 7, 7]
    let eight : List Byte := [1, 2, 3, 4, 5, 6, 7, 8].flatMap fun k => zone k k
    ([head 0 15, head 2 1 ++ zone 4 6 ++ zone 1 3, head 8 8 ++ eight, head 1 1 ++ [0xFF, 0xFF, 0xFF, 0xFF, 0, 0, 0, 7]].map
      validTable = [true, true, true, true]) ∧
    [[1, 0, 7, 7, 7, 7, 1], 2 :: (head 0 1).drop 1,
      head 9 1 ++ eight ++ zone 9 9, head 1 1, head 0 1 ++ zone 1 1,
      [1, 0, 7, 7, 7, 7, 1, 1], [1, 0, 8, 7, 7, 7, 1, 0], [1, 0, 7, 7, 7, 8, 1, 0], head 0 0x11,
      head 1 1 ++ [0, 1, 0, 1, 7, 7, 7, 8],
      head 1 1 ++ zone 2 1,
      head 1 1 ++ zone 0 1,
      head 2 1 ++ zone 4 6 ++ zone 1 4,
      head 0 0].all (fun v => !validTable v) = true := by decide +kernel

theorem test_hyp_ReclaimSetsRequested : store.store = .normal ∧ readOnly.store = .readOnly .worn := by decide +kernel

/-- A queued commit of port C, and a running one. -/
theorem test_hyp_PortResetClearsThePort :
    commitC ∈ ({ store with commitQueue := [{ commitC with sequence := none }, commitC] } : Device).commitQueue ∧
      commitC.port = .C ∧ (committing (.openStep 1 4)).flight = some (.write (.commit commitC []) false (.openStep 1 4)) ∧
      (committing (.openStep 1 4)).handle .C .n1 = .committing 5 .n2 0 := by decide +kernel

/-- The ends of steps: the segment and the image they name. -/
theorem test_hyp_step_ends :
    let d := committing (.openStep 2 4)
    d.flight = some (.write (.commit commitC []) false (.openStep 2 4)) ∧ d.segments[2]? = some (erasedRecord 1) ∧
      d.array[2]? = some blank ∧ d.seqCounter < 0xFFFFFFF0 ∧ commitC.sequence ≠ none ∧
      (committing (.sealStep 0 false)).mayOpen (.commit commitC []) = true ∧
      (committing (.sealStep 0 false)).pickErased = some 2 ∧ d.handle .C .n1 = .committing 5 .n2 0 ∧
      ((committing (.frameStep ⟨0, 6⟩ cellsC 0)).array[0]?).map (fun im => decide (6 ≤ im.frames.length)) = some true := by
  decide +kernel

/-- A failed open step of a damage mark and of a copy, first and retried; with no segment left to open. -/
theorem test_hyp_OpenStepEnds_owners :
    let c : Copy := { target := .entry 1, source := ⟨0, 1⟩, cells := [], checkGood := true }
    let opening (o : Owner) (retried : Bool) (n : Nat) : Device :=
      { abandonable with
        store := .readOnly .worn
        flight := some (.write o retried (.openStep 1 4))
        segments := abandonable.segments.take n }
    let ends (o : Owner) (retried : Bool) (n : Nat) : Option (Option EngineUnit × ReclaimState) :=
      (after (.segmentOpenDone (.bad .absent)) (opening o retried n)).map fun d => (d.flight, d.reclaim.state)
    ends (.damageMark 4 none) false 6 =
        some (some (.write (.damageMark 4 none) true (.openStep 2 4)), .copying) ∧
      ends (.damageMark 4 none) true 6 = some (none, .copying) ∧ ends (.copy c) true 6 = some (none, .idle) ∧
      ends (.copy c) false 2 = some (none, .idle) := by decide +kernel

/-- A seal step of a commit where no segment may be opened: STORE_FULL, and after a failed verify FAILED_VERIFY; of a damage
mark that goes on to open a segment; a seal fix with a failed verify. -/
theorem test_hyp_SealStepEnds_owners :
    let sealing (u : EngineUnit) (n : Nat) : Device := { store with flight := some u, segments := store.segments.take n }
    let outcome (failed : Bool) : Option (List Notice) :=
      (after (.segmentSealDone .good) (sealing (.write (.commit commitC []) false (.sealStep 0 failed)) 2)).map
        fun d => (d.port .C).notices
    outcome false = some [.commitDone 3 .storeFull none] ∧ outcome true = some [.commitDone 3 .failedVerify none] ∧
      (after (.segmentSealDone .good) (sealing (.write (.damageMark 4 none) false (.sealStep 0 false)) 6)).map (·.flight) =
        some (some (.write (.damageMark 4 none) false (.openStep 2 4))) ∧
      (after (.segmentSealDone (.bad .absent)) { sealing (.sealFix 1) 6 with fixes := [.sealing 1] }).map
        (fun d => (d.fixes, (d.segments[1]?).map (·.suspect))) = some ([], some true) := by decide +kernel

/-- A commit whose sequence has not been taken, of a member that fits in one frame. -/
theorem test_hyp_OpenStepEnds_first_frame :
    let c := { commitC with sequence := none }
    let d := { committing (.openStep 2 4) with flight := some (.write (.commit c []) true (.openStep 2 4)) }
    d.flight = some (.write (.commit c []) true (.openStep 2 4)) ∧ c.sequence = none ∧ c.members.length = 1 ∧
      (d.buffer .n2).length = 1 ∧ c.portReset = false := by decide +kernel

/-- The switch of a singleton. -/
theorem test_hyp_SingletonSwitch :
    let d := committing (.markStep ⟨0, 6⟩ cellsC)
    d.flight = some (.write (.commit commitC []) false (.markStep ⟨0, 6⟩ cellsC)) ∧ commitC.sequence = some 9 ∧
      commitC.members.map (·.key) = [5] ∧ commitC.portReset = false ∧
      d.lookup 5 = some { entryOf 5 .live (some ⟨0, 4⟩) 1 (some 8) (some (.C, .n1)) with residue := 1 } := by decide +kernel

/-- A group of port C's handles 4 and 1, its members placed and its seal's mark in flight. -/
def groupC : CommitRecord :=
  { commitC with
    members :=
      [{ handle := .n4, key := 4, buffer := .n3, intent := .delete, length := 0 },
        { handle := .n1, key := 5, buffer := .n2, intent := .value, length := 1 }]
    group := some 31 }

theorem test_hyp_GroupSwitch :
    let d : Device :=
      { store with flight := some (.write (.commit groupC [⟨0, 6⟩, ⟨0, 7⟩]) false (.markStep ⟨0, 8⟩ [])) }
    2 ≤ groupC.members.length ∧ [(⟨0, 6⟩ : Loc), ⟨0, 7⟩].length = groupC.members.length ∧ groupC.group = some 31 ∧
      31 < d.groups.length ∧ groupC.sequence = some 9 ∧ (groupC.members.map (·.key)).Nodup ∧
      (∀ m ∈ groupC.members, m.key ≠ 0x0000#16) ∧ (d.lookup 4).isSome ∧ groupC.portReset = false ∧
      ((after (.commitMarkDone true) d).bind (·.lookup 4)).map (fun e => (e.state, e.location, e.residue)) =
        some (.gone, some ⟨0, 6⟩, 1) := by decide +kernel

/-- The mark of the first member is done: the second is programmed. -/
theorem test_hyp_GroupSwitch_member :
    let d : Device := { store with flight := some (.write (.commit groupC []) false (.markStep ⟨0, 6⟩ [])) }
    2 ≤ groupC.members.length ∧ ([] : List Loc).length < groupC.members.length ∧
      (after (.commitMarkDone true) d).map (fun d => match d.flight with
        | some (.write (.commit _ placed) _ (.frameStep _ _ _)) => placed
        | _ => []) = some [⟨0, 6⟩] := by decide +kernel

/-- A damage mark, and a copy with a good check. -/
theorem test_hyp_MarkAndCopySwitch :
    let c : Copy := { target := .entry 1, source := ⟨0, 1⟩, cells := [], checkGood := true }
    let d (o : Owner) : Device := { store with flight := some (.write o false (.markStep ⟨0, 6⟩ [])) }
    (d (.damageMark 4 (some 8))).flight = some (.write (.damageMark 4 (some 8)) false (.markStep ⟨0, 6⟩ [])) ∧
      (d (.copy c)).flight = some (.write (.copy c) false (.markStep ⟨0, 6⟩ [])) ∧
      ((d (.copy c)).lookup 4).isSome ∧ ((d (.copy c)).lookup 1).isSome ∧
      ((after (.commitMarkDone true) (d (.copy { c with checkGood := false }))).bind (·.lookup 1)).map
        (fun e => (e.state, e.markPending, e.location)) = some (.damaged, true, some ⟨0, 6⟩) := by decide +kernel

/-- A copied original is counted out with a good check alone. -/
theorem test_hyp_MarkAndCopySwitch_log :
    let counted (good : Bool) : Option (List (Nat × Key)) :=
      let c : Copy := { target := .entry 1, source := ⟨0, 1⟩, cells := [oneFrame 1 .value 5 [0xAA, 0xBB]], checkGood := good }
      (after (.commitMarkDone true) { store with
        supply := .low, flight := some (.write (.copy c) false (.markStep ⟨0, 6⟩ c.cells)) }).map
          fun d => d.reclaim.log.map fun x => (x.location.frame, x.key)
    counted true = some [(1, 1)] ∧ counted false = some [] := by decide +kernel

/-- The copy of a KEPT group's seal, with a bad check: the entry of its sequence is damaged. -/
theorem test_hyp_MarkAndCopySwitch_seal :
    let c : Copy := { target := .groupSeal 0, source := ⟨0, 5⟩, cells := [], checkGood := false }
    let d : Device :=
      { keeping with
        groups := .kept 8 ⟨0, 5⟩ 1 :: List.replicate 31 .free
        flight := some (.write (.copy c) false (.markStep ⟨0, 6⟩ [])) }
    d.groups[0]? = some (.kept 8 ⟨0, 5⟩ 1) ∧ c.target = .groupSeal 0 ∧
      ((after (.commitMarkDone true) d).bind (·.lookup 5)).map (fun e => (e.state, e.markPending)) =
        some (.damaged, true) := by decide +kernel

/-- A seal fix, an erase and a retire step of segment 1; with 4 segments not RETIRED left, and with 3. -/
theorem test_hyp_EraseAndRetireStepsEnd :
    let d (u : EngineUnit) (n : Nat) : Device :=
      { store with flight := some u, segments := store.segments.take n, array := store.array.take n }
    (d (.sealFix 1) 5).segments[1]? = some (erasedRecord 2) ∧ (d (.sealFix 1) 5).array[1]? = some blank ∧
      (after (.segmentEraseDone .good) (d (.eraseFix 1) 5)).map (fun d => (d.segments[1]?).map (·.eraseCount)) =
        some (some 2) ∧
      (after (.segmentRetireDone .whole) (d (.retireFix 1) 5)).map (fun d => (d.segments[1]?).map (·.state)) =
        some (some .retired) ∧
      (after (.segmentEraseDone (.bad .absent .whole)) (d (.eraseVictim 1) 5)).map (fun d => (d.notRetired, d.store)) =
        some (4, .normal) ∧
      (after (.segmentRetireDone .whole) (d (.retireVictim 1) 4)).map (fun d => (d.notRetired, d.store)) =
        some (3, .readOnly .worn) := by decide +kernel

theorem test_hyp_EventsThatCannotHappenChangeNothing :
    (store.handle .A .n4).leaseRuns = false ∧ store.flight = none ∧ store.mount = .off := by decide +kernel

/-- A key in the zone and in no other, and a user key in none. -/
theorem test_hyp_RightsByTheTable :
    (∃ z ∈ tableA.zones, z.first ≤ 0x1FFF ∧ 0x1FFF ≤ z.last ∧
      ∀ y ∈ tableA.zones, y.first ≤ 0x1FFF → 0x1FFF ≤ y.last → y = z) ∧
    (∀ z ∈ tableA.zones, ¬ (z.first ≤ 0x2000 ∧ 0x2000 ≤ z.last)) ∧ (0x2000 : Key) ≠ 0x0000#16 := by decide +kernel

theorem test_hyp_EveryStepKeepsOneEntryPerKey :
    store.keysRise ∧ store.builtKeysRise ∧ (after (.nop .A []) store).isSome = true := by
  refine ⟨keysRise_store, fun b h => ?_, by decide +kernel⟩
  rw [show store.builtTables = none from rfl] at h
  cases h

/-- A store of the full geometry. -/
def full : Device := { store with array := State.reset.dev.array }

theorem test_hyp_EveryStepKeepsTheGeometry : full.geometry ∧ full.groupTable := by
  refine ⟨⟨rfl, fun im h => ?_⟩, rfl⟩
  rw [List.eq_of_mem_replicate h]
  rfl

theorem test_hyp_EveryStepKeepsLeasesAndWatches : store.leasePeriods ∧ store.watchLists :=
  ⟨fun p => by cases p <;> decide, fun p => by cases p <;> decide⟩

/-- The store while port C's commit runs. -/
theorem test_hyp_EveryStepKeepsTheNoticeSlots : (committing (.openStep 1 4)).slotsKept := by
  refine ⟨fun p => ?_, ⟨fun c h => absurd h (List.not_mem_nil), fun p => ?_⟩, ⟨fun h => ?_, fun h => absurd rfl h⟩,
    fun h => ?_⟩
  · unfold Port.slotsFit
    cases p <;> decide +kernel
  · cases p <;> decide +kernel
  · exact absurd h (by decide +kernel)
  · exact absurd h (by decide +kernel)

end Sys2Proof.Tests
end

section
/-! SUPPORT. What a request does that names a WRITING handle, and WRITE and RENEW on it (R67, R68, R77, R87); the statements
WritePlacesBytes and RenewRenewsThePort. -/

namespace Sys2Proof.Machine

/-! ## A request that names a handle (R67, R68) -/

/-- The named handle is renewed, and the request's rule acts on what that leaves. -/
theorem Device.onHandle_named {p : PortId} {number : Byte} {h : HandleNo} (rule : HandleNo → Device → Device × Answer)
    (d : Device) (hn : Four.ofByte number = some h) :
    d.onHandle p number true rule = rule h (d.renew p h) := by
  simp [Device.onHandle, hn]

/-- A WRITING handle is served. -/
theorem Device.onWriter_writing {d : Device} {p : PortId} {h : HandleNo} {k : Key} {b : BufferNo} {cursor deadline : Nat}
    (rule : Key → BufferNo → Nat → Nat → Device → Device × Answer) (hx : d.handle p h = .writing k b cursor deadline) :
    d.onWriter p h rule = rule k b cursor deadline d := by
  simp [Device.onWriter, hx]

/-- A WRITING handle named by a counted request: only its deadline has moved. -/
theorem Device.renew_countRequest_writing {d : Device} {p : PortId} {h : HandleNo} {k : Key} {b : BufferNo}
    {cursor deadline : Nat} (hx : d.handle p h = .writing k b cursor deadline) :
    (d.countRequest p).renew p h = (d.countRequest p).setHandle p h (.writing k b cursor (d.deadline p)) := by
  have hc : (d.countRequest p).handle p h = .writing k b cursor deadline := by rw [Device.handle_countRequest, hx]
  rw [Device.renew_writing hc, Device.deadline_countRequest]

/-! ## WRITE (R77) -/

/-- 1 to 64 bytes after the handle number pass the form check. -/
theorem formWrite_cons (number : Byte) {data : List Byte} (h1 : 1 ≤ data.length) (h64 : data.length ≤ 64) :
    formWrite (number :: data) = some (number, data) := by
  simp [formWrite, h1, h64]

/-- Past the greatest length nothing is written. -/
theorem Device.write_tooLong {d : Device} {p : PortId} {h : HandleNo} {k : Key} {b : BufferNo} {cursor deadline : Nat}
    {data : List Byte} (hx : d.handle p h = .writing k b cursor deadline) (hl : 496 < cursor + data.length) :
    d.write p data h = (d, refuse .tooLong) := by
  rw [Device.write, Device.onWriter_writing _ hx, if_pos hl]

/-- Otherwise the buffer is the written one, and the cursor stands after the bytes. -/
theorem Device.write_fits {d : Device} {p : PortId} {h : HandleNo} {k : Key} {b : BufferNo} {cursor deadline : Nat}
    {data : List Byte} (hx : d.handle p h = .writing k b cursor deadline) (hl : ¬ 496 < cursor + data.length) :
    d.write p data h =
      ((d.setBuffer b ((d.buffer b).written data cursor)).setHandle p h (.writing k b (cursor + data.length) deadline),
        ok (be16 (cursor + data.length) ++ be16 (max (d.buffer b).length (cursor + data.length)))) := by
  rw [Device.write, Device.onWriter_writing _ hx, if_neg hl]
  rfl

/-- The device after a taken WRITE: the rule acts on the counted device with the handle renewed. -/
theorem exec_write_writing {p : PortId} {number : Byte} {data : List Byte} {h : HandleNo} {s : State} {k : Key}
    {b : BufferNo} {cursor deadline : Nat} (hs : s.dev.serves p) (hn : Four.ofByte number = some h)
    (h1 : 1 ≤ data.length) (h64 : data.length ≤ 64) (hx : s.dev.handle p h = .writing k b cursor deadline) :
    exec (.write p (number :: data)) s = .next ⟨s.pending,
      Device.reply p 0x07 ((s.dev.port p).count + 1)
        (((s.dev.countRequest p).setHandle p h (.writing k b cursor (s.dev.deadline p))).write p data h)⟩ := by
  obtain ⟨htakes, hmounted⟩ := hs
  have harm : exec (.write p (number :: data)) s = execWrite p (number :: data) s := rfl
  rw [harm, execWrite, ran_eq, formWrite_cons number h1 h64, Device.request_ruled _ _ _ _ htakes (.inr hmounted),
    Device.onHandle_named _ _ hn, Device.renew_countRequest_writing hx]

/-- Settles O32: the renewed handle is WRITING still, so WRITE's rule applies, in its two cases. -/
theorem writePlacesBytes : Obligations.WritePlacesBytes := by
  intro p number data h s k b cursor deadline hs hn h1 h64 hx deadline' old
  rw [exec_write_writing hs hn h1 h64 hx]
  have hw : ((s.dev.countRequest p).setHandle p h (.writing k b cursor (s.dev.deadline p))).handle p h =
      .writing k b cursor (s.dev.deadline p) := Device.handle_setHandle_same ..
  by_cases hl : 496 < cursor + data.length
  · rw [if_pos hl, Device.write_tooLong hw hl, refuse, Device.reply_setHandle]
    rfl
  · rw [if_neg hl, Device.write_fits hw hl, ok, Device.setBuffer_setHandle, Device.setHandle_setHandle,
      Device.reply_setBuffer]
    rfl

/-! ## RENEW (R87) -/

/-- The handles whose lease runs are the READING and the WRITING ones. -/
theorem Handle.leaseRuns_iff (x : Handle) :
    x.leaseRuns = true ↔ (∃ k v c t, x = .reading k v c t) ∨ ∃ k b c t, x = .writing k b c t := by
  cases x <;> simp [Handle.leaseRuns]

/-- The number of handles of a port whose lease runs. -/
theorem Device.countIf_leaseRuns (d : Device) (p : PortId) :
    (d.port p).handles.countIf Handle.leaseRuns = (Four.all.filter fun h => (d.handle p h).leaseRuns).length := rfl

/-- On a counted device RENEW finds the port's handles and its period as they were. -/
theorem Device.renewPort_countRequest (d : Device) (p : PortId) :
    (d.countRequest p).renewPort p =
      ((d.countRequest p).modPort p fun q => { q with handles := q.handles.map (Handle.renewed (d.deadline p)) },
        ok [byteOf ((d.port p).handles.countIf Handle.leaseRuns)]) := by
  simp only [Device.renewPort, Device.deadline_countRequest, Device.port_countRequest]

/-- The reply to a RENEW: the port's handles alone are changed, by the period the port itself holds. -/
theorem Device.reply_renewPort (kind : Byte) (d : Device) (p : PortId) :
    Device.reply p kind ((d.port p).count + 1) ((d.countRequest p).renewPort p) =
      (d.modPort p fun q => { q with handles := q.handles.map (Handle.renewed (d.now + 2 ^ q.leaseExp)) }).answered p
        kind .ok [BitVec.ofNat 8 (Four.all.filter fun h => (d.handle p h).leaseRuns).length] := by
  have hperiod : (d.modPort p fun q => { q with handles := q.handles.map (Handle.renewed (d.deadline p)) }) =
      d.modPort p fun q => { q with handles := q.handles.map (Handle.renewed (d.now + 2 ^ q.leaseExp)) } :=
    Device.modPort_congr rfl
  rw [Device.renewPort_countRequest, ok, Device.reply_modPort _ _ _ _ _ _ (fun _ _ => rfl) rfl, hperiod,
    Device.countIf_leaseRuns, byteOf]

/-- Settles O38: the renewed handle by its constructors; MOUNTING is refused before the rule, and else the reply is RENEW's. -/
theorem renewRenewsThePort : Obligations.RenewRenewsThePort := by
  refine ⟨fun x deadline => ⟨?_, x.leaseRuns_iff⟩, fun d p h => rfl, fun p s ht => ?_⟩
  · cases x <;> rfl
  have harm : exec (.renew p []) s = execRenew p [] s := rfl
  have hform : formNone [] = some () := rfl
  rw [harm, execRenew, ran_eq, hform]
  by_cases hm : s.dev.store = .mounting
  · rw [if_pos hm, Device.request_mounting _ _ _ ht hm]
  · rw [if_neg hm, Device.request_ruled _ _ _ _ ht (.inr hm), Device.reply_renewPort]

end Sys2Proof.Machine
end

section
/-! SUPPORT. UNWATCH and WATCH_LIST (R133): what each does to the watch list, and the statement UnwatchAndWatchList. -/

namespace Sys2Proof.Machine

/-! ## UNWATCH (R133) -/

/-- FFFFh names no key: the list stays as it is. -/
theorem Device.unwatch_noKey (p : PortId) (d : Device) : d.unwatch p noKey = (d, refuse .badRequest) := by
  rw [Device.unwatch, if_pos rfl]

/-- Any other key is taken out of the list, whatever the rights of the port, and the reply counts the keys left. -/
theorem Device.unwatch_key (p : PortId) {k : Key} (d : Device) (hk : k ≠ noKey) :
    d.unwatch p k = (d.setWatch p ((d.port p).watch.filter fun x => x != k),
      ok [byteOf ((d.port p).watch.filter fun x => x != k).length]) := by
  rw [Device.unwatch, if_neg hk]

/-- The reply to a request that set its port's watch list alone. -/
theorem Device.reply_setWatch (p : PortId) (keys : List Key) (kind : Byte) (r : Result) (payload : List Byte) (d : Device) :
    Device.reply p kind ((d.port p).count + 1) ((d.countRequest p).setWatch p keys, ⟨r, payload⟩) =
      (d.setWatch p keys).answered p kind r payload :=
  Device.reply_modPort p _ kind r payload d (fun _ _ => rfl) rfl

/-- A taken UNWATCH: MOUNTING first, then the key FFFFh, and else the list without the key. -/
theorem exec_unwatch_key {p : PortId} {s : State} (hi lo : Byte) (ht : s.dev.takes p) :
    exec (.unwatch p [hi, lo]) s = .next ⟨s.pending,
      if s.dev.store = .mounting then s.dev.answered p 0x0F .notReady []
      else if keyOf hi lo = noKey then s.dev.answered p 0x0F .badRequest []
      else (s.dev.setWatch p ((s.dev.port p).watch.filter fun x => x != keyOf hi lo)).answered p 0x0F .ok
        [byteOf ((s.dev.port p).watch.filter fun x => x != keyOf hi lo).length]⟩ := by
  have harm : exec (.unwatch p [hi, lo]) s = execUnwatch p [hi, lo] s := rfl
  have hform : formKey [hi, lo] = some (keyOf hi lo) := rfl
  rw [harm, execUnwatch, ran_eq, hform]
  by_cases hm : s.dev.store = .mounting
  · rw [if_pos hm, Device.request_mounting _ _ _ ht hm]
  · rw [if_neg hm, Device.request_ruled _ _ _ _ ht (.inr hm)]
    by_cases hk : keyOf hi lo = noKey
    · rw [if_pos hk, hk, Device.unwatch_noKey, refuse, Device.reply_counted]
    · rw [if_neg hk, Device.unwatch_key _ _ hk, Device.port_countRequest, ok, Device.reply_setWatch]

/-! ## WATCH_LIST (R133) -/

/-- A taken WATCH_LIST: refused in MOUNTING, and else the count and the keys as the list holds them. -/
theorem exec_watchList_none {p : PortId} {s : State} (ht : s.dev.takes p) :
    exec (.watchList p []) s = .next ⟨s.pending,
      if s.dev.store = .mounting then s.dev.answered p 0x10 .notReady []
      else s.dev.answered p 0x10 .ok (byteOf (s.dev.port p).watch.length :: (s.dev.port p).watch.flatMap keyBytes)⟩ := by
  have harm : exec (.watchList p []) s = execWatchList p [] s := rfl
  have hform : formNone [] = some () := rfl
  rw [harm, execWatchList, ran_eq, hform]
  by_cases hm : s.dev.store = .mounting
  · rw [if_pos hm, Device.request_mounting _ _ _ ht hm]
  · rw [if_neg hm, Device.request_ruled _ _ _ _ ht (.inr hm), Device.port_countRequest, ok, Device.reply_counted]

/-- Settles O41: UNWATCH's checks in their order, and WATCH_LIST's one, each by what the taken request does. -/
theorem unwatchAndWatchList : Obligations.UnwatchAndWatchList := by
  intro p hi lo s ht k left
  exact ⟨exec_unwatch_key hi lo ht, exec_watchList_none ht⟩

end Sys2Proof.Machine
end

section
/-! SUPPORT. What every step keeps of the directory, the array, the group table, the lease periods and the watch lists: the
statements EveryStepKeepsOneEntryPerKey, EveryStepKeepsTheGeometry and EveryStepKeepsLeasesAndWatches. -/

namespace Sys2Proof.Machine

/-! ## The rules of the requests keep what the engine's operations keep -/

namespace Keeps

/-- A handle renewed, and then the rule. -/
theorem onHandle (p : PortId) (number : Byte) (valuesOk : Bool) (rule : HandleNo → Device → Device × Answer)
    (hr : ∀ h d, Keeps d (rule h d).1) (d : Device) : Keeps d (d.onHandle p number valuesOk rule).1 := by
  unfold Device.onHandle
  split
  · exact refl d
  · split
    · exact (renew _ _ d).trans (hr _ _)
    · exact renew _ _ d

theorem onWriter (p : PortId) (h : HandleNo) (rule : Key → BufferNo → Nat → Nat → Device → Device × Answer) (d : Device)
    (hr : ∀ k b c t, Keeps d (rule k b c t d).1) : Keeps d (d.onWriter p h rule).1 := by
  unfold Device.onWriter
  split
  case h_1 k b c t _ => exact hr k b c t
  all_goals exact refl d

theorem openRead (p : PortId) (k : Key) (d : Device) : Keeps d (d.openRead p k).1 := by
  have live : ∀ e l, Keeps d (d.openReadLive p e l).1 := by
    intro e l
    unfold Device.openReadLive
    split
    · exact refl d
    · split
      · exact (pin _ _ d).trans (setHandle _ _ _ _)
      · exact (detectDamage _ d).trans (arbiter _)
  unfold Device.openRead
  split
  · exact refl d
  · split
    · exact refl d
    · split
      · exact refl d
      · split
        · exact live _ _
        all_goals exact refl d

theorem takeClaim (p : PortId) (h : HandleNo) (k : Key) (d : Device) : Keeps d (d.takeClaim p h k) := by
  unfold Device.takeClaim
  split
  · exact addEntry ‹_›
  · exact modEntry _ _ d

theorem openWriter (p : PortId) (h : HandleNo) (b : BufferNo) (k : Key) (preload : Bool) (d : Device) :
    Keeps d (d.openWriter p h b k preload).1 := by
  have opened := ((takeClaim p h k d).trans
    (setBuffer b (((d.takeClaim p h k).buffer b).opened p h (d.preloaded k preload)) _)).trans
    (setHandle p h (.writing k b 0 (((d.takeClaim p h k).setBuffer b
      (((d.takeClaim p h k).buffer b).opened p h (d.preloaded k preload))).deadline p)) _)
  unfold Device.openWriter
  dsimp only
  split
  · exact (opened.trans (detectDamage k _)).trans (arbiter _)
  · exact opened

theorem openWrite (p : PortId) (x : Key × Bool × Bool) (d : Device) : Keeps d (d.openWrite p x).1 := by
  unfold Device.openWrite
  dsimp only
  split
  · exact refl d
  split
  · exact refl d
  split
  · exact refl d
  split
  · exact refl d
  split
  · exact refl d
  split
  · exact refl d
  · exact refl d
  · split
    · exact refl d
    · exact openWriter _ _ _ _ _ d

theorem read (p : PortId) (n : Nat) (h : HandleNo) (d : Device) : Keeps d (d.read p n h).1 := by
  unfold Device.read
  split
  · exact setHandle _ _ _ d
  · exact setHandle _ _ _ d
  all_goals exact refl d

theorem seek (p : PortId) (n : Nat) (h : HandleNo) (d : Device) : Keeps d (d.seek p n h).1 := by
  unfold Device.seek
  split
  case h_1 | h_2 =>
    split
    · exact setHandle _ _ _ d
    · exact refl d
  all_goals exact refl d

theorem write (p : PortId) (data : List Byte) (h : HandleNo) (d : Device) : Keeps d (d.write p data h).1 := by
  refine onWriter p h _ d fun k b c t => ?_
  split
  · exact refl d
  · exact (setBuffer _ _ d).trans (setHandle _ _ _ _)

theorem truncate (p : PortId) (n : Nat) (h : HandleNo) (d : Device) : Keeps d (d.truncate p n h).1 := by
  refine onWriter p h _ d fun k b c t => ?_
  split
  · exact (setBuffer _ _ d).trans (setHandle _ _ _ _)
  · exact refl d

theorem markDelete (p : PortId) (h : HandleNo) (d : Device) : Keeps d (d.markDelete p h).1 := by
  refine onWriter p h _ d fun k b c t => ?_
  split
  · exact (setBuffer _ _ d).trans (setHandle _ _ _ _)
  · exact refl d

theorem close (p : PortId) (h : HandleNo) (d : Device) : Keeps d (d.close p h).1 := by
  unfold Device.close
  split
  · exact (dropReader _ _ _ _ _ d).trans (arbiter _)
  · exact (dropWriter _ _ _ _ _ d).trans (arbiter _)
  · exact refl d
  · exact setHandle _ _ _ d
  · exact setHandle _ _ _ d
  · exact refl d

theorem accept (p : PortId) (hs : List HandleNo) (ms : List Member) (d : Device) : Keeps d (d.accept p hs ms) := by
  have hg : ∀ (g : Option Nat) (d : Device), Keeps d (d.reserveGroup g) := by
    intro g d
    cases g with
    | none => exact refl d
    | some i => exact setGroup i _ d
  have hp : ∀ d : Device, Keeps d (d.modPort p fun q => { q with ticket := q.ticket + 1, reserved := q.reserved + 1 }) :=
    fun d => modPort p _ d fun _ => ⟨rfl, .refl _⟩
  have hq : ∀ (d : Device) (q : List CommitRecord), Keeps d { d with commitQueue := q } :=
    fun _ _ => of_eq rfl rfl rfl rfl rfl
  exact (((foldl _ (fun d h => setHandle p h _ d) hs d).trans (hg _ _)).trans (hp _)).trans (hq _ _)

theorem commitHandles (p : PortId) (hs : List HandleNo) (d : Device) : Keeps d (d.commitHandles p hs).1 := by
  have members : ∀ ms, Keeps d (d.commitMembers p hs ms).1 := by
    intro ms
    unfold Device.commitMembers
    split
    · exact refl d
    split
    · exact refl d
    split
    · exact refl d
    split
    · exact refl d
    · exact (accept p hs ms d).trans (arbiter _)
  unfold Device.commitHandles
  split
  · exact refl d
  · dsimp only
    split
    · exact (foldl _ (fun d m => dropWriter p _ _ _ _ d) _ d).trans (arbiter _)
    · exact members _

theorem commit (p : PortId) (ps : List Byte) (d : Device) : Keeps d (d.commit p ps).1 := by
  unfold Device.commit
  split
  · exact refl d
  · next hs _ =>
    have renewed : Keeps d (d.renewAll p hs) := foldl _ (fun d h => renew p h d) hs d
    dsimp only
    split
    · exact renewed
    · split
      · exact renewed
      · exact renewed.trans (commitHandles p hs _)

theorem reclaimRequest (d : Device) : Keeps d d.reclaimRequest.1 := by
  unfold Device.reclaimRequest
  split
  · exact refl d
  · refine Keeps.trans ?_ (arbiter _)
    unfold Device.requestReclaim
    split
    · exact of_eq rfl rfl rfl rfl rfl
    · exact refl d

/-- PORT_RESET, but for the port's own lease period and watch list. -/
theorem clearHandles (p : PortId) (d : Device) :
    Keeps d ((Four.all.foldl (Device.resetHandle p) d).removeCommits p) := by
  have hh : ∀ (d : Device) (h : HandleNo), Keeps d (d.resetHandle p h) := by
    intro d h
    unfold Device.resetHandle
    split
    · exact dropReader _ _ _ _ _ d
    · exact dropWriter _ _ _ _ _ d
    · exact setHandle _ _ _ d
    · exact setHandle _ _ _ d
    all_goals exact refl d
  have hc : ∀ (d : Device) (c : CommitRecord), Keeps d (d.removeCommit c) := fun d c =>
    (foldl _ (fun d m => dropWriter _ _ _ _ _ d) c.members d).trans (freeGroup _ _)
  have hq : ∀ (d : Device) (q : List CommitRecord), Keeps d { d with commitQueue := q } :=
    fun _ _ => of_eq rfl rfl rfl rfl rfl
  exact ((foldl _ hh Four.all d).trans (hq _ _)).trans (foldl _ hc _ _)

theorem renewPort (p : PortId) (d : Device) : Keeps d (d.renewPort p).1 :=
  modPort p (fun q => { q with handles := q.handles.map (Handle.renewed (d.deadline p)) }) d fun _ => ⟨rfl, .refl _⟩

theorem unwatch (p : PortId) (k : Key) (d : Device) : Keeps d (d.unwatch p k).1 := by
  by_cases hk : k = noKey
  · rw [hk, Device.unwatch_noKey]
    exact refl d
  · rw [Device.unwatch_key p d hk]
    refine ⟨id, id, rfl, fun r => ?_, fun r => ?_, rfl⟩ <;> by_cases hr : r = p
    · rw [hr, Device.setWatch, Device.port_modPort_same]
    · rw [Device.setWatch, Device.port_modPort_other _ _ hr]
    · rw [hr, Device.setWatch, Device.port_modPort_same]
      exact List.filter_sublist
    · rw [Device.setWatch, Device.port_modPort_other _ _ hr]

theorem nextNotice (p : PortId) (d : Device) : Keeps d (d.nextNotice p).1 := by
  unfold Device.nextNotice
  split
  · next rest _ => exact modPort p (fun q => { q with notices := rest }) d fun _ => ⟨rfl, .refl _⟩
  · split
    · exact modPort p (fun q => { q with overflow := false }) d fun _ => ⟨rfl, .refl _⟩
    · exact refl d

/-! ## So do the lease expiries, the frames of a port and the passing of time -/

theorem expireReader (p : PortId) (h : HandleNo) (moment : Nat) (d : Device) : Keeps d (d.expireReader p h moment) := by
  unfold Device.expireReader
  split
  · split
    · have reached : Keeps d (d.reach moment) := of_eq rfl rfl rfl rfl rfl
      exact ((reached.trans (dropReader _ _ _ _ _ _)).trans (modPort p _ _ fun q => offer _ q)).trans (arbiter _)
    · exact refl d
  · exact refl d

theorem expireWriter (p : PortId) (h : HandleNo) (moment : Nat) (d : Device) : Keeps d (d.expireWriter p h moment) := by
  unfold Device.expireWriter
  split
  · split
    · have reached : Keeps d (d.reach moment) := of_eq rfl rfl rfl rfl rfl
      exact ((reached.trans (dropWriter _ _ _ _ _ _)).trans (modPort p _ _ fun q => offer _ q)).trans (arbiter _)
    · exact refl d
  · exact refl d

theorem closeFrame (p : PortId) (d : Device) : Keeps d (d.closeFrame p) := modPort p _ d fun _ => ⟨rfl, .refl _⟩

theorem badFrame (p : PortId) (bytes : List Byte) (d : Device) : Keeps d (d.badFrame p bytes) := by
  unfold Device.badFrame
  split
  · exact closeFrame p d
  · split
    · exact modPort p _ d fun _ => ⟨rfl, .refl _⟩
    · exact closeFrame p d

theorem startFrame (p : PortId) (d : Device) : Keeps d (d.startFrame p) := by
  unfold Device.startFrame
  split
  · exact refl d
  · exact modPort p _ d fun _ => ⟨rfl, .refl _⟩

theorem endHandling (p : PortId) (d : Device) : Keeps d (d.modPort p Port.endHandling) := by
  refine modPort p _ d fun q => ?_
  unfold Port.endHandling
  split <;> exact ⟨rfl, .refl _⟩

theorem idle (d : Device) : Keeps d d.idle := by
  have rotted : Keeps d (d.rotted (Config.rot d.draws)) := by
    refine foldl _ (fun d x => ?_) _ d
    split
    · exact modCell _ _ d
    · exact refl d
  exact rotted.trans (of_eq rfl rfl rfl rfl rfl)

end Keeps

/-! ## What the steps keep that change a lease period, a watch list or mount -/

/-- `d'` has what the three statements ask of it where `d` has. -/
structure Preserves (d d' : Device) : Prop where
  keys : d.keysRise ∧ d.builtKeysRise → d'.keysRise ∧ d'.builtKeysRise
  geometry : d.geometry ∧ d.groupTable → d'.geometry ∧ d'.groupTable
  ports : d.leasePeriods ∧ d.watchLists → d'.leasePeriods ∧ d'.watchLists

/-- The directory that mount holds is decided by where mount stands. -/
theorem Device.builtKeysRise_congr {d d' : Device} (h : d'.mount = d.mount) : d'.builtKeysRise ↔ d.builtKeysRise := by
  rw [Device.builtKeysRise, Device.builtTables, h]
  rfl

/-- A mount that holds no tables. -/
theorem Device.builtKeysRise_of_none {d : Device} (h : d.builtTables = none) : d.builtKeysRise := by
  intro b hb
  rw [h] at hb
  cases hb

theorem Keeps.preserves {d d' : Device} (h : Keeps d d') : Preserves d d' where
  keys hk := ⟨h.keys hk.1, (Device.builtKeysRise_congr h.mount).2 hk.2⟩
  geometry hg := ⟨h.shape hg.1, h.groups.trans hg.2⟩
  ports := by
    rintro ⟨hl, hw⟩
    refine ⟨fun p => by rw [h.lease]; exact hl p, fun p => ?_⟩
    obtain ⟨hlen, hnodup⟩ := hw p
    exact ⟨(h.watch p).length_le.trans hlen, (h.watch p).nodup hnodup⟩

/-- The directory that mount holds in its own erase. -/
theorem Device.built_rises {d : Device} {i : Nat} {w : MountWork} (h : d.mount = .erasing i w) (hb : d.builtKeysRise) :
    w.tables.directory.Pairwise fun x y => x.key < y.key :=
  hb w.tables (by simp [Device.builtTables, h])

theorem Device.eraseImage_ports (i count : Nat) (r : EraseResult) (d : Device) :
    (d.eraseImage i count r).ports = d.ports := by
  cases r <;> rfl

namespace Preserves

theorem trans {d e f : Device} (h : Preserves d e) (g : Preserves e f) : Preserves d f :=
  ⟨g.keys ∘ h.keys, g.geometry ∘ h.geometry, g.ports ∘ h.ports⟩

/-- One port written, its lease period and its watch list within their bounds. -/
theorem modPort (p : PortId) (f : Port → Port) (d : Device)
    (hl : 4 ≤ (d.port p).leaseExp ∧ (d.port p).leaseExp ≤ 14 → 4 ≤ (f (d.port p)).leaseExp ∧ (f (d.port p)).leaseExp ≤ 14)
    (hw : (d.port p).watch.length ≤ 16 ∧ (d.port p).watch.Nodup →
      (f (d.port p)).watch.length ≤ 16 ∧ (f (d.port p)).watch.Nodup) : Preserves d (d.modPort p f) where
  keys := id
  geometry := id
  ports := by
    rintro ⟨hlease, hwatch⟩
    refine ⟨fun r => ?_, fun r => ?_⟩ <;> by_cases hr : r = p
    · rw [hr, Device.port_modPort_same]
      exact hl (hlease p)
    · rw [Device.port_modPort_other f d hr]
      exact hlease r
    · rw [hr, Device.port_modPort_same]
      exact hw (hwatch p)
    · rw [Device.port_modPort_other f d hr]
      exact hwatch r

/-- A request preserves what its rule preserves. -/
theorem request {α : Type} (p : PortId) (kind : Byte) (form : Option α) (always : Bool)
    (rule : α → Device → Device × Answer) (hr : ∀ x d, Preserves d (rule x d).1) (d : Device) :
    Preserves d (d.request p kind form always rule) := by
  have answer : ∀ d, Preserves d (Device.answer form always rule d).1 := by
    intro d
    unfold Device.answer
    split
    · exact (Keeps.refl d).preserves
    · split
      · exact (Keeps.refl d).preserves
      · exact hr _ d
  have counted : Keeps d (d.countRequest p) := .modPort p _ d fun _ => ⟨rfl, .refl _⟩
  unfold Device.request
  split
  · exact (Keeps.closeFrame p d).preserves
  · split
    · refine (counted.preserves.trans (answer _)).trans (Keeps.modPort p _ _ fun _ => ?_).preserves
      exact ⟨rfl, .refl _⟩
    · exact (Keeps.closeFrame p d).preserves

theorem setLease (p : PortId) (n : Nat) (d : Device) : Preserves d (d.setLease p n).1 := by
  unfold Device.setLease
  split
  · next hn => exact modPort p (fun q => { q with leaseExp := n }) d (fun _ => hn) id
  · exact (Keeps.refl d).preserves

theorem watch (p : PortId) (k : Key) (d : Device) : Preserves d (d.watch p k).1 := by
  unfold Device.watch
  dsimp only
  split
  · exact (Keeps.refl d).preserves
  split
  · exact (Keeps.refl d).preserves
  split
  · exact (Keeps.refl d).preserves
  split
  · exact (Keeps.refl d).preserves
  · next hc hroom =>
    refine modPort p (fun q => { q with watch := (d.port p).watch ++ [k] }) d id fun hw => ⟨?_, ?_⟩
    · simp [Config.watchCapacity] at hroom ⊢
      omega
    · have hk : k ∉ (d.port p).watch := by simpa using hc
      simpa [List.nodup_append] using ⟨hw.2, fun a ha hak => hk (hak ▸ ha)⟩

theorem clearPort (p : PortId) (d : Device) : Preserves d (d.clearPort p) := by
  have flight : ∀ (u : Option EngineUnit) (d : Device), Keeps d { d with flight := u } :=
    fun _ _ => .of_eq rfl rfl rfl rfl rfl
  unfold Device.clearPort
  exact ((Keeps.clearHandles p d).trans (flight _ _)).preserves.trans
    (modPort p _ _ (fun _ => by simp [Port.reset]) fun _ => by simp [Port.reset])

/-! ## Mount, the supply and the resets -/

/-- The tables that mount built show, and mount ends. -/
theorem mountEnd {d e : Device} (w : MountWork)
    (hd : d.builtKeysRise → w.tables.directory.Pairwise fun x y => x.key < y.key)
    (ha : shaped d.array → shaped e.array) (hg : d.groups.length = 32 → e.groups.length = 32) (hp : e.ports = d.ports)
    (w' : MountWork) : Preserves d ((e.fill w.tables).mountEnd w') := by
  refine Preserves.trans ?_ (Keeps.mountEnd w' (e.fill w.tables)).preserves
  have port : ∀ p, Device.port { e.fill w.tables with mount := .off } p = d.port p := fun p => congrArg (·.get p) hp
  refine ⟨fun hk => ⟨hd hk.2, Device.builtKeysRise_of_none rfl⟩, fun ⟨hs, ht⟩ => ⟨ha hs, hg ht⟩, fun ⟨hl, hw⟩ => ?_⟩
  exact ⟨fun p => by rw [port]; exact hl p, fun p => by rw [port]; exact hw p⟩

theorem scanDone (d : Device) : Preserves d d.scanDone := by
  unfold Device.scanDone
  split
  · dsimp only
    split
    · next i hi =>
      refine ⟨fun hk => ⟨hk.1, ?_⟩, fun hg => ⟨hg.1, d.fillSegments_groups_length⟩, id⟩
      intro b hb
      obtain rfl : d.buildTables = b := by simpa [Device.builtTables] using hb
      exact d.buildTables_rises
    · exact mountEnd (d := d) (e := d.fillSegments) d.mountWork (fun _ => d.buildTables_rises) id
        (fun _ => d.fillSegments_groups_length) rfl _
  · exact (Keeps.refl d).preserves
  · exact (Keeps.refl d).preserves

theorem mountErased (r : EraseResult) (d : Device) : Preserves d (d.mountErased r) := by
  unfold Device.mountErased
  split
  · next i w hm =>
    have image := Keeps.eraseImage i (((d.segments[i]?).map (·.eraseCount)).getD 0) r d
    have ended : ∀ (e : Device) (w' : MountWork), e.array = (d.eraseImage i _ r).array →
        e.groups = (d.eraseImage i _ r).groups → e.ports = d.ports →
        Preserves d ((e.fill w.tables).mountEnd w') := fun e w' ha hg hp =>
      mountEnd w (Device.built_rises hm) (fun h => ha ▸ image.shape h) (fun h => by rw [hg, image.groups, h]) hp w'
    dsimp only
    split
    · exact ended ((d.eraseImage i _ r).eraseRecord i _) _ rfl rfl (Device.eraseImage_ports ..)
    · exact ended ((d.eraseImage i _ r).retireRecord i) _ rfl rfl (Device.eraseImage_ports ..)
  · exact (Keeps.refl d).preserves
  · exact (Keeps.refl d).preserves

/-- A fall of the supply: in MOUNTING mount's own erase is cut short, else the engine stops. -/
theorem fall (cut : Cut) (d : Device) : Preserves d (d.fall cut) := by
  have supply : Keeps d { d with supply := .low } := .of_eq rfl rfl rfl rfl rfl
  unfold Device.fall
  split
  · exact (Keeps.refl d).preserves
  · refine supply.preserves.trans ?_
    generalize ({ d with supply := .low } : Device) = e
    dsimp only
    split
    · unfold Device.fallInMount
      split
      · next i w hm =>
        have cutErase : Keeps e (e.cutErase i cut.mark) := .modHeader _ _ e
        exact mountEnd (e := e.cutErase i cut.mark) w (Device.built_rises hm) cutErase.shape (fun h => h) rfl _
      · exact (Keeps.refl e).preserves
      · exact (Keeps.refl e).preserves
    · exact ((Keeps.stopEngine cut e).trans (.offerAll _ _)).preserves

theorem rise (d : Device) : Preserves d d.rise := by
  have supply : Keeps d { d with supply := .good } := .of_eq rfl rfl rfl rfl rfl
  unfold Device.rise
  split
  · exact (Keeps.refl d).preserves
  · dsimp only
    split
    · exact supply.preserves
    · exact ((supply.trans (.offerAll _ _)).trans (.arbiter _)).preserves

/-- A device reset: the array keeps its shape, and everything else is cleared. -/
theorem beginReset (cause : Cause) (cut : Cut) (d : Device) : Preserves d (d.beginReset cause cut) := by
  have stopped : shaped d.array → shaped (d.stopArray cut).array := by
    unfold Device.stopArray
    split
    · exact Device.modHeader_shaped _ _
    · exact Device.cutArray_shaped cut
    · exact Device.cutArray_shaped cut
  unfold Device.beginReset
  split
  · split
    · exact Keeps.preserves (.of_eq rfl rfl rfl rfl rfl)
    · exact (Keeps.refl d).preserves
  · have port : ∀ p, (d.keepSel (Device.cleared (d.stopArray cut).array d.supply cause d.now d.draws)).port p =
        { Port.cleared with frame := (d.port p).frame.map fun _ => FrameOut.lost } := by
      intro p
      rw [Device.keepSel, Device.port_mapPorts]
      cases p <;> rfl
    refine ⟨fun _ => ⟨List.Pairwise.nil, Device.builtKeysRise_of_none rfl⟩, fun hg => ⟨stopped hg.1, rfl⟩, fun _ => ?_⟩
    exact ⟨fun p => by rw [port]; simp [Port.cleared], fun p => by rw [port]; exact ⟨Nat.zero_le _, List.nodup_nil⟩⟩

theorem losePower (d : Device) : Keeps d d.losePower := by
  unfold Device.losePower
  split
  · exact .of_eq rfl rfl rfl rfl rfl
  · exact .refl d

/-- The release of a reset puts mount where it holds no tables. -/
theorem release (supply : Supply) (d : Device) : Preserves d (d.release supply) := by
  unfold Device.release
  split
  · have held := Keeps.mapPorts (fun _ q => { q with held := initialReply })
      { d with resetHeld := false, supply := supply, mount := .scanning } fun _ _ => ⟨rfl, .refl _⟩
    have mounts : Preserves d { d with resetHeld := false, supply := supply, mount := .scanning } :=
      ⟨fun hk => ⟨hk.1, Device.builtKeysRise_of_none rfl⟩, id, id⟩
    exact mounts.trans held.preserves
  · exact (Keeps.refl d).preserves

/-! ## Every command -/

theorem exec (i : Instr) {s t : State} (h : exec i s = .next t) : Preserves s.dev t.dev := by
  have run : ∀ {f : Device → Device}, ran f s = .next t → (∀ d, Preserves d (f d)) → Preserves s.dev t.dev := by
    intro f hr hf
    cases hr
    exact hf s.dev
  have kept : ∀ {f : Device → Device}, ran f s = .next t → (∀ d, Keeps d (f d)) → Preserves s.dev t.dev :=
    fun hr hf => run hr fun d => (hf d).preserves
  have asked : ∀ {α : Type} {p : PortId} {kind : Byte} {form : Option α} {always : Bool}
      {rule : α → Device → Device × Answer}, ran (Device.request p kind form always rule) s = .next t →
      (∀ x d, Keeps d (rule x d).1) → Preserves s.dev t.dev :=
    fun h hr => run h (request _ _ _ _ _ fun x d => (hr x d).preserves)
  cases i with
  | nop p ps => exact asked h (fun _ d => .refl d)
  | storeInfo p ps => exact asked h (fun _ d => .refl d)
  | openRead p ps => exact asked h (.openRead p)
  | openWrite p ps => exact asked h (.openWrite p)
  | read p ps => exact asked h (fun x => .onHandle _ _ _ _ (.read p x.2))
  | seek p ps => exact asked h (fun x => .onHandle _ _ _ _ (.seek p x.2))
  | write p ps => exact asked h (fun x => .onHandle _ _ _ _ (.write p x.2))
  | truncate p ps => exact asked h (fun x => .onHandle _ _ _ _ (.truncate p x.2))
  | markDelete p ps => exact asked h (fun _ => .onHandle _ _ _ _ (.markDelete p))
  | close p ps => exact asked h (fun _ => .onHandle _ _ _ _ (.close p))
  | commit p ps => exact asked h (.commit p)
  | renew p ps => exact asked h (fun _ => .renewPort p)
  | setLease p ps => exact run h (request _ _ _ _ _ (setLease p))
  | watch p ps => exact run h (request _ _ _ _ _ (watch p))
  | unwatch p ps => exact asked h (.unwatch p)
  | watchList p ps => exact asked h (fun _ d => .refl d)
  | nextNotice p ps => exact asked h (fun _ => .nextNotice p)
  | enumerate p ps =>
    refine asked h fun k d => ?_
    unfold Device.enumerate
    split <;> exact .refl d
  | reclaim p ps => exact asked h (fun _ => .reclaimRequest)
  | portReset p ps => exact run h (request _ _ _ _ _ fun _ d => (clearPort p d).trans (Keeps.arbiter _).preserves)
  | unknownKindRequest p kind ps => exact asked h (fun _ d => .refl d)
  | portFrameStart p => exact kept h (.startFrame p)
  | idleFrame p bytes => exact kept h (.closeFrame p)
  | malformedFrame p bytes => exact kept h (.badFrame p bytes)
  | badCheckFrame p bytes => exact kept h (.badFrame p bytes)
  | busyFrame p bytes => exact kept h (.closeFrame p)
  | handlingEnd p => exact kept h (.endHandling p)
  | readingLeaseExpiry p e => exact kept h (.expireReader p e.handle e.moment)
  | writingLeaseExpiry p e => exact kept h (.expireWriter p e.handle e.moment)
  | frameProgramDone r => exact kept h (.frameDone r)
  | commitMarkDone verified => exact kept h (.markDone verified)
  | segmentOpenDone r => exact kept h (.openDone r)
  | segmentSealDone r => exact kept h (.sealDone r)
  | segmentEraseDone r => exact kept h (.eraseDone r)
  | segmentRetireDone mark => exact kept h (.retireDone mark)
  | supplyFall cut => exact run h (fall cut)
  | supplyRise => exact run h rise
  | deviceReset cause cut => exact run h (beginReset cause cut)
  | powerLossInReset => exact kept h losePower
  | resetRelease supply => exact run h (release supply)
  | mountScanDone => exact run h scanDone
  | mountEraseDone r => exact run h (mountErased r)

theorem step {s t : State} (h : step s = .next t) : Preserves s.dev t.dev := by
  unfold Machine.step at h
  split at h
  · cases h
    exact (Keeps.idle s.dev).preserves
  · next i rest _ => exact exec (s := { s with pending := rest }) i h

end Preserves

/-- Settles O56: what every step preserves of the directory, and of the one that mount holds. -/
theorem everyStepKeepsOneEntryPerKey : Obligations.EveryStepKeepsOneEntryPerKey :=
  fun _ _ hs h => (Preserves.step h).keys hs

/-- Settles O57: what every step preserves of the array and the group table. -/
theorem everyStepKeepsTheGeometry : Obligations.EveryStepKeepsTheGeometry :=
  fun _ _ hs h => (Preserves.step h).geometry hs

/-- Settles O58: what every step preserves of the ports. -/
theorem everyStepKeepsLeasesAndWatches : Obligations.EveryStepKeepsLeasesAndWatches :=
  fun _ _ hs h => (Preserves.step h).ports hs

end Sys2Proof.Machine
end

section
/-! SUPPORT. What every step keeps of the notice slots: the statement EveryStepKeepsTheNoticeSlots. -/

namespace Sys2Proof.Machine

/-! ## The store is MOUNTING, or the part serves -/

/-- The part of `Device.slotsKept` that stands while the store is MOUNTING: no commit, unit, notice or handle in use. -/
structure MountingIdle (d : Device) : Prop where
  store : d.store = .mounting
  flight : d.flight = none
  queue : d.commitQueue = []
  port : ∀ p, (d.port p).notices = [] ∧ (d.port p).overflow = false ∧ (d.port p).reserved = 0 ∧ ∀ h, d.handle p h = .free
  held : d.resetHeld = true → d.mount = .off

theorem MountingIdle.slotsKept {d : Device} (h : MountingIdle d) : d.slotsKept := by
  have none_running : d.running = none := by simp [Device.running, h.flight]
  refine ⟨fun p => ?_, ⟨by simp [h.queue], fun p => ?_⟩, ⟨fun _ => ⟨h.flight, h.queue, fun p => ?_⟩, fun _ => h.store⟩,
    fun hr => ⟨h.store, h.held hr⟩⟩ <;> obtain ⟨hn, ho, hr, hh⟩ := h.port p
  · simp [Port.slotsFit, hn, hr]
  · simp [hr, none_running, h.queue]
  · exact ⟨hn, ho, hh⟩

namespace Serving

theorem slotsKept {d : Device} (hs : Fits d) : d.slotsKept :=
  ⟨hs.fit, ⟨hs.queue, hs.reserved⟩, ⟨fun hm => absurd hm hs.store, fun hm => absurd hs.mount hm⟩,
    fun hr => by rw [hs.held] at hr; cases hr⟩

end Serving

/-- What keeps the slots, by the store's state. -/
theorem Device.slotsKept_iff (d : Device) : d.slotsKept ↔ MountingIdle d ∨ Serving.Fits d := by
  refine ⟨fun ⟨hfit, hmatch, hmounting, hreset⟩ => ?_, fun h => h.elim MountingIdle.slotsKept Serving.slotsKept⟩
  by_cases hm : d.store = .mounting
  · obtain ⟨hf, hq, hp⟩ := hmounting.1 hm
    have none_running : d.running = none := by simp [Device.running, hf]
    refine .inl ⟨hm, hf, hq, fun p => ⟨(hp p).1, (hp p).2.1, ?_, (hp p).2.2⟩, fun hr => (hreset hr).2⟩
    simp [hmatch.2 p, none_running, hq]
  · have hoff : d.mount = .off := by
      by_contra h
      exact hm (hmounting.2 h)
    have hheld : d.resetHeld = false := by
      cases hr : d.resetHeld with
      | false => rfl
      | true => exact absurd (hreset hr).1 hm
    exact .inr ⟨hfit, hmatch.1, hmatch.2, hm, hoff, hheld⟩

/-- One port written in nothing that the slots or the handles are read from. -/
theorem Device.slotsKept_modPort (p : PortId) (f : Port → Port) {d : Device} (h : d.slotsKept)
    (hf : ∀ q, (f q).notices = q.notices ∧ (f q).overflow = q.overflow ∧ (f q).reserved = q.reserved ∧
      (f q).handles = q.handles) : (d.modPort p f).slotsKept := by
  have port : ∀ r, ((d.modPort p f).port r).notices = (d.port r).notices ∧
      ((d.modPort p f).port r).overflow = (d.port r).overflow ∧
      ((d.modPort p f).port r).reserved = (d.port r).reserved ∧
      ((d.modPort p f).port r).handles = (d.port r).handles := by
    intro r
    by_cases hr : r = p
    · rw [hr, Device.port_modPort_same]
      exact hf _
    · rw [Device.port_modPort_other f d hr]
      exact ⟨rfl, rfl, rfl, rfl⟩
  rcases d.slotsKept_iff.1 h with hm | hs
  · refine MountingIdle.slotsKept ⟨hm.store, hm.flight, hm.queue, fun r => ?_, hm.held⟩
    obtain ⟨hn, ho, hr, hh⟩ := port r
    exact ⟨hn.trans (hm.port r).1, ho.trans (hm.port r).2.1, hr.trans (hm.port r).2.2.1,
      fun j => by rw [Device.handle, hh]; exact (hm.port r).2.2.2 j⟩
  · refine Serving.slotsKept (Serving.fits_calm hs (.modPort p f d fun q => ?_) rfl)
    obtain ⟨hn, _, hr, _⟩ := hf q
    exact ⟨hr, fun h => by rw [Port.slotsFit, hn, hr]; exact h⟩

/-! ## The rules of the requests, in a part that serves -/

theorem Device.dropReader_flight (d : Device) (p : PortId) (h : HandleNo) (k : Key) (v : Bound) (x : Handle) :
    (d.dropReader p h k v x).flight = d.flight := by
  rw [Device.dropReader_eq]

/-- A port at the acceptance of a commit: the next ticket, and a slot reserved (R94). -/
def Port.reserve (q : Port) : Port := { q with ticket := q.ticket + 1, reserved := q.reserved + 1 }

namespace Serving

theorem fits_setHandle (p : PortId) (h : HandleNo) (x : Handle) {d : Device} (hs : Fits d) : Fits (d.setHandle p h x) :=
  fits_calm hs (.setHandle p h x d) rfl

theorem fits_setBuffer (b : BufferNo) (x : Buffer) {d : Device} (hs : Fits d) : Fits (d.setBuffer b x) :=
  fits_calm hs (.of_eq rfl rfl rfl rfl rfl) rfl

theorem fits_dropReader (p : PortId) (h : HandleNo) (k : Key) (v : Bound) (x : Handle) {d : Device} (hs : Fits d) :
    Fits (d.dropReader p h k v x) :=
  fits_calm hs (.dropReader p h k v x d) (d.dropReader_flight ..)

theorem fits_dropWriter (p : PortId) (h : HandleNo) (k : Key) (b : BufferNo) (x : Handle) {d : Device} (hs : Fits d) :
    Fits (d.dropWriter p h k b x) :=
  fits_calm hs (.dropWriter p h k b x d) (d.dropWriter_flight ..)

theorem fits_detectDamage (k : Key) {d : Device} (hs : Fits d) : Fits (d.detectDamage k) :=
  fits_calm hs (.detectDamage k d) (d.detectDamage_flight k)

theorem fits_offer (p : PortId) (n : Notice) {d : Device} (hs : Fits d) : Fits (d.modPort p fun q => q.offer n) :=
  fits_calm hs (.modPort p _ d fun q => Calm.offer n q) rfl

theorem onHandle (p : PortId) (number : Byte) (valuesOk : Bool) {rule : HandleNo → Device → Device × Answer}
    (hr : ∀ h d, Fits d → Fits (rule h d).1) (d : Device) (hs : Fits d) : Fits (d.onHandle p number valuesOk rule).1 := by
  unfold Device.onHandle
  split
  · exact hs
  · have renewed := fun h => fits_setHandle p h ((d.handle p h).renewed (d.deadline p)) hs
    split
    · exact hr _ _ (renewed _)
    · exact renewed _

theorem onWriter (p : PortId) (h : HandleNo) (rule : Key → BufferNo → Nat → Nat → Device → Device × Answer) {d : Device}
    (hr : ∀ k b c t, Fits (rule k b c t d).1) (hs : Fits d) : Fits (d.onWriter p h rule).1 := by
  unfold Device.onWriter
  split
  case h_1 k b c t _ => exact hr k b c t
  all_goals exact hs

theorem openRead (p : PortId) (k : Key) (d : Device) (hs : Fits d) : Fits (d.openRead p k).1 := by
  have live : ∀ e l, Fits (d.openReadLive p e l).1 := by
    intro e l
    unfold Device.openReadLive
    split
    · exact hs
    · split
      · exact fits_setHandle _ _ _ (fits_calm (d' := d.pin e.key l.seg) hs (.of_eq rfl rfl rfl rfl rfl) rfl)
      · exact arbiter (fits_detectDamage _ hs)
  unfold Device.openRead
  split
  · exact hs
  · split
    · exact hs
    · split
      · exact hs
      · split
        · exact live _ _
        all_goals exact hs

theorem openWriter (p : PortId) (h : HandleNo) (b : BufferNo) (k : Key) (preload : Bool) (d : Device) (hs : Fits d) :
    Fits (d.openWriter p h b k preload).1 := by
  have claimed : Fits (d.takeClaim p h k) := by
    unfold Device.takeClaim
    split <;> exact fits_calm hs (.of_eq rfl rfl rfl rfl rfl) rfl
  have opened : ∀ x t, Fits (((d.takeClaim p h k).setBuffer b x).setHandle p h (.writing k b 0 t)) :=
    fun x t => fits_setHandle _ _ _ (fits_setBuffer _ _ claimed)
  unfold Device.openWriter
  dsimp only
  split
  · exact arbiter (fits_detectDamage k (opened _ _))
  · exact opened _ _

theorem openWrite (p : PortId) (x : Key × Bool × Bool) (d : Device) (hs : Fits d) : Fits (d.openWrite p x).1 := by
  unfold Device.openWrite
  dsimp only
  split
  · exact hs
  split
  · exact hs
  split
  · exact hs
  split
  · exact hs
  split
  · exact hs
  split
  · exact hs
  · exact hs
  · split
    · exact hs
    · exact openWriter _ _ _ _ _ d hs

theorem read (p : PortId) (n : Nat) (h : HandleNo) (d : Device) (hs : Fits d) : Fits (d.read p n h).1 := by
  unfold Device.read
  split
  · exact fits_setHandle _ _ _ hs
  · exact fits_setHandle _ _ _ hs
  all_goals exact hs

theorem seek (p : PortId) (n : Nat) (h : HandleNo) (d : Device) (hs : Fits d) : Fits (d.seek p n h).1 := by
  unfold Device.seek
  split
  case h_1 | h_2 =>
    split
    · exact fits_setHandle _ _ _ hs
    · exact hs
  all_goals exact hs

theorem write (p : PortId) (data : List Byte) (h : HandleNo) (d : Device) (hs : Fits d) : Fits (d.write p data h).1 := by
  refine onWriter p h _ (fun k b c t => ?_) hs
  split
  · exact hs
  · exact fits_setHandle _ _ _ (fits_setBuffer _ _ hs)

theorem truncate (p : PortId) (n : Nat) (h : HandleNo) (d : Device) (hs : Fits d) : Fits (d.truncate p n h).1 := by
  refine onWriter p h _ (fun k b c t => ?_) hs
  split
  · exact fits_setHandle _ _ _ (fits_setBuffer _ _ hs)
  · exact hs

theorem markDelete (p : PortId) (h : HandleNo) (d : Device) (hs : Fits d) : Fits (d.markDelete p h).1 := by
  refine onWriter p h _ (fun k b c t => ?_) hs
  split
  · exact fits_setHandle _ _ _ (fits_setBuffer _ _ hs)
  · exact hs

theorem close (p : PortId) (h : HandleNo) (d : Device) (hs : Fits d) : Fits (d.close p h).1 := by
  unfold Device.close
  split
  · exact arbiter (fits_dropReader _ _ _ _ _ hs)
  · exact arbiter (fits_dropWriter _ _ _ _ _ hs)
  · exact hs
  · exact fits_setHandle _ _ _ hs
  · exact fits_setHandle _ _ _ hs
  · exact hs

/-- R93, R94: a record queued with a slot reserved for it, where the port has one free. -/
theorem fits_queued {d : Device} {c : CommitRecord} (hs : Fits d) (hroom : (d.port c.port).canReserve = true)
    (hc : c.portReset = false) :
    Fits { d.modPort c.port Port.reserve with commitQueue := d.commitQueue ++ [c] } := by
  have hroom : (d.port c.port).notices.length + (d.port c.port).reserved < 8 := of_decide_eq_true hroom
  refine ⟨fun r => ?_, fun x hx => ?_, fun r => ?_, hs.store, hs.mount, hs.held⟩
  · show ((d.modPort c.port Port.reserve).port r).slotsFit
    by_cases hr : r = c.port
    · rw [hr, Device.port_modPort_same]
      show (d.port c.port).notices.length + ((d.port c.port).reserved + 1) ≤ 8
      omega
    · rw [Device.port_modPort_other _ d hr]
      exact hs.fit r
  · rcases List.mem_append.1 hx with hx | hx
    · exact hs.queue x hx
    · rwa [List.mem_singleton.1 hx]
  · show ((d.modPort c.port Port.reserve).port r).reserved = holding r (d.running.toList ++ (d.commitQueue ++ [c]))
    rw [holding, ← List.append_assoc, List.filter_append, List.length_append]
    by_cases hr : r = c.port
    · rw [hr, Device.port_modPort_same]
      show (d.port c.port).reserved + 1 = _
      rw [hs.reserved, holding]
      simp [hc]
    · rw [Device.port_modPort_other _ d hr, hs.reserved, holding]
      simp [Ne.symm hr]

/-- R92 to R94: a slot is free where the commit is accepted, and the record takes it. -/
theorem accept (p : PortId) (hs : List HandleNo) (ms : List Member) {d : Device} (hd : Fits d)
    (hroom : (d.port p).canReserve = true) : Fits (d.accept p hs ms) := by
  have reserve : ∀ (g : Option Nat) (d : Device), Calm d (d.reserveGroup g) ∧ (d.reserveGroup g).flight = d.flight ∧
      (d.reserveGroup g).port p = d.port p := by
    intro g d
    cases g with
    | none => exact ⟨.refl d, rfl, rfl⟩
    | some i => exact ⟨.of_eq rfl rfl rfl rfl rfl, rfl, rfl⟩
  obtain ⟨hcalm, hflight, hport⟩ := reserve (d.groupFor ms) (hs.foldl (Device.commitHandle p) d)
  obtain ⟨hframe, _⟩ := Device.commitHandles_eq p hs d
  have handles : Calm d (hs.foldl (Device.commitHandle p) d) := .foldl _ (fun d h => .setHandle p h _ d) hs d
  have reserved : Fits ((hs.foldl (Device.commitHandle p) d).reserveGroup (d.groupFor ms)) :=
    fits_calm hd (handles.trans hcalm) (by rw [hflight, hframe]; rfl)
  let record : CommitRecord :=
    { port := p, ticket := (d.port p).ticket, members := ms, group := d.groupFor ms, state := .queued,
      sequence := none, portReset := false }
  refine fits_queued (c := record) reserved ?_ rfl
  show (Device.port _ p).canReserve = true
  rw [hport, hframe, Device.port_modPort_same]
  exact hroom

/-- Handles revoked one after another. -/
theorem fits_revoked (p : PortId) (ms : List Member) {d : Device} (hd : Fits d) :
    Fits (ms.foldl (Device.revokeMember p) d) := by
  induction ms generalizing d with
  | nil => exact hd
  | cons m rest ih => exact ih (fits_dropWriter _ _ _ _ _ hd)

theorem commitHandles (p : PortId) (hs : List HandleNo) (d : Device) (hd : Fits d) : Fits (d.commitHandles p hs).1 := by
  have members : ∀ ms, Fits (d.commitMembers p hs ms).1 := by
    intro ms
    unfold Device.commitMembers
    split
    · exact hd
    split
    · exact hd
    split
    · exact hd
    split
    · exact hd
    · next hroom _ _ => exact arbiter (accept p hs ms hd (by simpa using hroom))
  unfold Device.commitHandles
  split
  · exact hd
  · dsimp only
    split
    · exact arbiter (fits_revoked p _ hd)
    · exact members _

theorem renewAll (p : PortId) (hs : List HandleNo) {d : Device} (hd : Fits d) : Fits (d.renewAll p hs) := by
  induction hs generalizing d with
  | nil => exact hd
  | cons h rest ih => exact ih (fits_setHandle p h _ hd)

theorem commit (p : PortId) (ps : List Byte) (d : Device) (hd : Fits d) : Fits (d.commit p ps).1 := by
  unfold Device.commit
  split
  · exact hd
  · next hs _ =>
    have renewed := renewAll p hs hd
    dsimp only
    split
    · exact renewed
    · split
      · exact renewed
      · exact commitHandles p hs _ renewed

theorem renewPort (p : PortId) (d : Device) (hs : Fits d) : Fits (d.renewPort p).1 :=
  fits_calm hs (.modPort p (fun q => { q with handles := q.handles.map (Handle.renewed (d.deadline p)) }) d
    fun _ => ⟨rfl, id⟩) rfl

theorem setLease (p : PortId) (n : Nat) (d : Device) (hs : Fits d) : Fits (d.setLease p n).1 := by
  unfold Device.setLease
  split
  · exact fits_calm hs (.modPort p (fun q => { q with leaseExp := n }) d fun _ => ⟨rfl, id⟩) rfl
  · exact hs

theorem setWatch (p : PortId) (ks : List Key) {d : Device} (hs : Fits d) : Fits (d.setWatch p ks) :=
  fits_calm hs (.modPort p (fun q => { q with watch := ks }) d fun _ => ⟨rfl, id⟩) rfl

theorem watch (p : PortId) (k : Key) (d : Device) (hs : Fits d) : Fits (d.watch p k).1 := by
  unfold Device.watch
  dsimp only
  split
  · exact hs
  split
  · exact hs
  split
  · exact hs
  split
  · exact hs
  · exact setWatch p _ hs

theorem unwatch (p : PortId) (k : Key) (d : Device) (hs : Fits d) : Fits (d.unwatch p k).1 := by
  by_cases hk : k = noKey
  · rw [hk, Device.unwatch_noKey]
    exact hs
  · rw [Device.unwatch_key p d hk]
    exact setWatch p _ hs

theorem nextNotice (p : PortId) (d : Device) (hs : Fits d) : Fits (d.nextNotice p).1 := by
  unfold Device.nextNotice
  split
  · next n rest hn =>
    have taken : Calm d (d.modPort p fun q => { q with notices := rest }) := by
      refine ⟨rfl, rfl, rfl, rfl, fun r => ?_, fun r hfit => ?_⟩ <;> by_cases hr : r = p
      · rw [hr, Device.port_modPort_same]
      · rw [Device.port_modPort_other _ d hr]
      · rw [hr, Port.slotsFit, hn] at hfit
        rw [hr, Device.port_modPort_same]
        exact (Nat.add_le_add_right (Nat.le_succ rest.length) _).trans hfit
      · rwa [Device.port_modPort_other _ d hr]
    exact fits_calm hs taken rfl
  · split
    · exact fits_calm hs (.modPort p (fun q => { q with overflow := false }) d fun _ => ⟨rfl, id⟩) rfl
    · exact hs

theorem enumerate (p : PortId) (k : Key) (d : Device) (hs : Fits d) : Fits (d.enumerate p k).1 := by
  unfold Device.enumerate
  split <;> exact hs

theorem reclaimRequest (d : Device) (hs : Fits d) : Fits d.reclaimRequest.1 := by
  unfold Device.reclaimRequest
  split
  · exact hs
  · refine arbiter ?_
    unfold Device.requestReclaim
    split
    · exact fits_calm hs (.of_eq rfl rfl rfl rfl rfl) rfl
    · exact hs

/-! ## PORT_RESET (R88, R110, R162) -/

/-- The queue is the commits of the other ports, and nothing else that the slots are read from has changed. -/
theorem clearHandles_calm (p : PortId) (d : Device) :
    Calm { d with commitQueue := d.commitQueue.filter fun c => c.port != p }
        ((Four.all.foldl (Device.resetHandle p) d).removeCommits p) ∧
      ((Four.all.foldl (Device.resetHandle p) d).removeCommits p).flight = d.flight := by
  have reset : ∀ (d : Device) (h : HandleNo), Calm d (d.resetHandle p h) := by
    intro d h
    unfold Device.resetHandle
    split
    · exact .dropReader _ _ _ _ _ d
    · exact .dropWriter _ _ _ _ _ d
    · exact .setHandle _ _ _ d
    · exact .setHandle _ _ _ d
    all_goals exact .refl d
  have removed : ∀ (d : Device) (c : CommitRecord), Calm d (d.removeCommit c) := fun d c =>
    (Calm.foldl _ (fun d m => .dropWriter _ _ _ _ _ d) c.members d).trans (.freeGroup _ _)
  have h1 := Calm.foldl _ reset Four.all d
  have hflight := portClears_foldl (p := p) (Device.resetHandle p) Four.all (fun h _ d => d.resetHandle_clears p h) d
  have hremoved := Device.removeCommits_clears p (Four.all.foldl (Device.resetHandle p) d)
  generalize Four.all.foldl (Device.resetHandle p) d = e at h1 hflight hremoved
  have h2 : Calm { d with commitQueue := d.commitQueue.filter fun c => c.port != p }
      { e with commitQueue := e.commitQueue.filter fun c => c.port != p } :=
    ⟨by rw [h1.queue], h1.store, h1.mount, h1.held, h1.reserved, h1.fit⟩
  refine ⟨h2.trans (.foldl _ removed _ _), ?_⟩
  rw [hremoved]
  show e.flight = d.flight
  rw [hflight]

/-- The commit in flight goes on; on its own port it holds no reservation any more. -/
theorem holding_portReset (p r : PortId) (u : Option EngineUnit) {d e : Device} (hd : d.flight = u)
    (he : e.flight = u.map (EngineUnit.portReset p)) :
    holding r e.running.toList = if r = p then 0 else holding r d.running.toList := by
  match u with
  | some (.write (.commit c placed) retried w) =>
    have hrun : e.running = some (if c.port = p then { c with portReset := true } else c) := by
      simp [Device.running, he, EngineUnit.portReset, Owner.portReset]
    have hrun' : d.running = some c := by simp [Device.running, hd]
    rw [hrun, hrun']
    by_cases hc : c.port = p
    · simp only [hc, if_pos, Option.toList, holding]
      by_cases hr : r = p
      · simp [hr]
      · simp [hr, hc, Ne.symm hr]
    · by_cases hr : r = p
      · simp [hr, hc, holding]
      · simp [hr, hc]
  | none | some (.write (.damageMark _ _) _ _) | some (.write (.copy _) _ _) | some (.eraseVictim _)
  | some (.retireVictim _) | some (.sealFix _) | some (.eraseFix _) | some (.retireFix _) =>
    simp [Device.running, hd, he, EngineUnit.portReset, Owner.portReset, holding]

theorem clearPort (p : PortId) {d : Device} (hs : Fits d) : Fits (d.clearPort p) := by
  obtain ⟨hcalm, hflight⟩ := clearHandles_calm p d
  have hclear : d.clearPort p = Device.modPort p Port.reset { (Four.all.foldl (Device.resetHandle p) d).removeCommits p with
      flight := ((Four.all.foldl (Device.resetHandle p) d).removeCommits p).flight.map (EngineUnit.portReset p) } := rfl
  rw [hclear]
  generalize (Four.all.foldl (Device.resetHandle p) d).removeCommits p = e at hcalm hflight
  have hport : ∀ r, Device.port (Device.modPort p Port.reset { e with flight := e.flight.map (EngineUnit.portReset p) }) r =
      if r = p then (e.port p).reset else e.port r := by
    intro r
    by_cases hr : r = p
    · rw [hr, Device.port_modPort_same, if_pos rfl]
      rfl
    · rw [Device.port_modPort_other _ _ hr, if_neg hr]
      rfl
  have hqueue : ∀ c ∈ e.commitQueue, c ∈ d.commitQueue ∧ c.port ≠ p := by
    intro c hc
    rw [hcalm.queue] at hc
    simpa using hc
  refine ⟨fun r => ?_, fun c hc => hs.queue c (hqueue c hc).1, fun r => ?_, fun h => hs.store (hcalm.store.symm.trans h),
    hcalm.mount.trans hs.mount, hcalm.held.trans hs.held⟩
  · rw [hport]
    split
    · simp [Port.slotsFit, Port.reset]
    · exact hcalm.fit r (hs.fit r)
  · have hrun := holding_portReset p r d.flight rfl
      (e := Device.modPort p Port.reset { e with flight := e.flight.map (EngineUnit.portReset p) }) (by rw [← hflight]; rfl)
    have hq : holding r e.commitQueue = if r = p then 0 else holding r d.commitQueue := by
      rw [hcalm.queue]
      by_cases hr : r = p
      · rw [if_pos hr, holding, List.length_eq_zero_iff, List.filter_eq_nil_iff, hr]
        simp +contextual
      · rw [if_neg hr, holding, holding, List.filter_filter]
        congr 1
        refine List.filter_congr fun c _ => ?_
        by_cases hc : c.port = r <;> simp [hc, hr]
    rw [hport, holding, List.filter_append, List.length_append]
    show _ = holding r _ + holding r e.commitQueue
    rw [hrun, hq]
    by_cases hr : r = p
    · simp [hr, Port.reset]
    · have hres := hs.reserved r
      rw [holding, List.filter_append, List.length_append] at hres
      simp only [if_neg hr]
      rw [hcalm.reserved r]
      exact hres

/-! ## Expiries -/

theorem expireReader (p : PortId) (h : HandleNo) (moment : Nat) {d : Device} (hs : Fits d) :
    Fits (d.expireReader p h moment) := by
  unfold Device.expireReader
  split
  · split
    · have reached : Fits (d.reach moment) := fits_calm hs (.of_eq rfl rfl rfl rfl rfl) rfl
      exact arbiter (fits_offer _ _ (fits_dropReader _ _ _ _ _ reached))
    · exact hs
  · exact hs

theorem expireWriter (p : PortId) (h : HandleNo) (moment : Nat) {d : Device} (hs : Fits d) :
    Fits (d.expireWriter p h moment) := by
  unfold Device.expireWriter
  split
  · split
    · have reached : Fits (d.reach moment) := fits_calm hs (.of_eq rfl rfl rfl rfl rfl) rfl
      exact arbiter (fits_offer _ _ (fits_dropWriter _ _ _ _ _ reached))
    · exact hs
  · exact hs

end Serving

/-! ## The end of mount (R170) -/

theorem Device.mountStore_ne (d : Device) (w : MountWork) : d.mountStore w ≠ .mounting := by
  unfold Device.mountStore
  split
  · simp
  · split
    · simp
    · split <;> simp

theorem Device.mountTable_frame (d : Device) :
    d.mountTable = { d with table := d.mountTable.table, tableInvalid := d.mountTable.tableInvalid } := by
  unfold Device.mountTable
  split
  · rfl
  · split <;> rfl

/-- STARTED, and with the supply LOW a SUPPLY notice, on a port that holds nothing. -/
theorem Device.announce_fits {d : Device} (hs : Serving.Fits d)
    (hn : ∀ p, (d.port p).notices = [] ∧ (d.port p).reserved = 0) :
    Serving.Fits d.announce := by
  have started : Serving.Fits (d.mapPorts fun _ q => { q with notices := q.notices ++ [.started d.cause] }) := by
    refine ⟨fun p => ?_, hs.queue, fun p => ?_, hs.store, hs.mount, hs.held⟩
    · rw [Device.port_mapPorts]
      simp [Port.slotsFit, hn p]
    · rw [Device.port_mapPorts]
      exact hs.reserved p
  unfold Device.announce
  dsimp only
  split
  · exact Serving.fits_calm started (.offerAll _ _) rfl
  · exact started

/-- Mount ends in a part that serves. -/
theorem MountingIdle.mountEnd {d e : Device} (h : MountingIdle d) (hm : d.mount ≠ .off) (w : MountWork)
    (hp : e.ports = d.ports) (hq : e.commitQueue = d.commitQueue) (hf : e.flight = d.flight)
    (hh : e.resetHeld = d.resetHeld) : Serving.Fits (e.mountEnd w) := by
  have hport : ∀ p, (e.port p) = d.port p := fun p => congrArg (·.get p) hp
  have held : e.resetHeld = false := by
    rw [hh]
    cases hr : d.resetHeld with
    | false => rfl
    | true => exact absurd (h.held hr) hm
  have hflight : e.flight = none := hf.trans h.flight
  have hqueue : e.commitQueue = [] := hq.trans h.queue
  have begun : ∀ st fixes, st ≠ .mounting → Serving.Fits { e with store := st, fixes := fixes, mount := .off } := by
    intro st fixes hst
    have none_running : Device.running { e with store := st, fixes := fixes, mount := .off } = none := by
      simp [Device.running, hflight]
    refine ⟨fun p => ?_, by simp [hqueue], fun p => ?_, hst, rfl, held⟩ <;> obtain ⟨hn, _, hr, _⟩ := h.port p
    · show (e.port p).slotsFit
      simp [Port.slotsFit, hport, hn, hr]
    · show (e.port p).reserved = _
      rw [none_running]
      simp [hport, hr, holding, hqueue]
  have tabled : ∀ d : Device, Serving.Fits d → Serving.Fits d.mountTable := by
    intro d hd
    rw [d.mountTable_frame]
    exact Serving.fits_calm hd (.of_eq rfl rfl rfl rfl rfl) rfl
  refine Serving.arbiter (Device.announce_fits (tabled _ (begun _ _ (e.mountStore_ne w))) fun p => ?_)
  rw [Device.mountTable_frame]
  show (e.port p).notices = [] ∧ (e.port p).reserved = 0
  rw [hport]
  exact ⟨(h.port p).1, (h.port p).2.2.1⟩

/-! ## The steps of a part by its store's state -/

/-- A step that does nothing while the store is MOUNTING. -/
theorem Device.slotsKept_of {d d' : Device} (h : d.slotsKept) (hm : MountingIdle d → d' = d)
    (hs : Serving.Fits d → Serving.Fits d') : d'.slotsKept := by
  rcases d.slotsKept_iff.1 h with hd | hd
  · rwa [hm hd]
  · exact (hs hd).slotsKept

namespace MountingIdle

/-- The parts that a MOUNTING store's slots are read from, as they were. -/
theorem congr {d d' : Device} (h : MountingIdle d) (h1 : d'.store = d.store) (h2 : d'.flight = d.flight)
    (h3 : d'.commitQueue = d.commitQueue) (h4 : d'.ports = d.ports) (h5 : d'.resetHeld = true → d'.mount = .off) :
    MountingIdle d' := by
  have hport : ∀ p, d'.port p = d.port p := fun p => congrArg (·.get p) h4
  refine ⟨h1.trans h.store, h2.trans h.flight, h3.trans h.queue, fun p => ?_, h5⟩
  simp only [Device.handle, hport]
  exact h.port p

end MountingIdle

/-- A request: it is counted and answered, and its rule runs in a part that serves, or changes nothing. -/
theorem Device.slotsKept_request {α : Type} (p : PortId) (kind : Byte) (form : Option α) (always : Bool)
    (rule : α → Device → Device × Answer) (hr : ∀ x d, Serving.Fits d → Serving.Fits (rule x d).1)
    (ha : always = true → ∀ x d, (rule x d).1 = d) {d : Device} (h : d.slotsKept) :
    (d.request p kind form always rule).slotsKept := by
  have closed : (d.closeFrame p).slotsKept := Device.slotsKept_modPort p _ h fun _ => ⟨rfl, rfl, rfl, rfl⟩
  have answered : ∀ d : Device, d.slotsKept → (Device.answer form always rule d).1.slotsKept := by
    intro d hd
    unfold Device.answer
    split
    · exact hd
    · split
      · exact hd
      · next x _ hserves =>
        cases always with
        | true => rwa [ha rfl]
        | false =>
          rcases d.slotsKept_iff.1 hd with hm | hs
          · simp [hm.store] at hserves
          · exact (hr _ _ hs).slotsKept
  unfold Device.request
  split
  · exact closed
  · split
    · refine Device.slotsKept_modPort p _ (answered _ (Device.slotsKept_modPort p _ h fun _ => ?_)) fun _ => ?_ <;>
        exact ⟨rfl, rfl, rfl, rfl⟩
    · exact closed

/-! ## Ends of steps with no unit in flight (log 14) -/

section
variable {d : Device}

theorem Device.frameDone_none (r : ProgramResult) (h : d.flight = none) : d.frameDone r = d := by
  simp [Device.frameDone, h]

theorem Device.markDone_none (verified : Bool) (h : d.flight = none) : d.markDone verified = d := by
  simp [Device.markDone, h]

theorem Device.openDone_none (r : MarkResult) (h : d.flight = none) : d.openDone r = d := by
  simp [Device.openDone, h]

theorem Device.sealDone_none (r : MarkResult) (h : d.flight = none) : d.sealDone r = d := by
  simp [Device.sealDone, h]

theorem Device.eraseDone_none (r : EraseResult) (h : d.flight = none) : d.eraseDone r = d := by
  simp [Device.eraseDone, h]

theorem Device.retireDone_none (m : MarkRead) (h : d.flight = none) : d.retireDone m = d := by
  simp [Device.retireDone, h]

end

/-! ## Frames, mount, the supply and the resets -/

namespace Device

theorem slotsKept_badFrame (p : PortId) (bytes : List Byte) {d : Device} (h : d.slotsKept) :
    (d.badFrame p bytes).slotsKept := by
  unfold Device.badFrame Device.closeFrame
  split
  · exact slotsKept_modPort p _ h fun _ => ⟨rfl, rfl, rfl, rfl⟩
  · split <;> exact slotsKept_modPort p _ h fun _ => ⟨rfl, rfl, rfl, rfl⟩

theorem slotsKept_startFrame (p : PortId) {d : Device} (h : d.slotsKept) : (d.startFrame p).slotsKept := by
  unfold Device.startFrame
  split
  · exact h
  · exact slotsKept_modPort p _ h fun _ => ⟨rfl, rfl, rfl, rfl⟩

theorem slotsKept_endHandling (p : PortId) {d : Device} (h : d.slotsKept) : (d.modPort p Port.endHandling).slotsKept := by
  refine slotsKept_modPort p _ h fun q => ?_
  unfold Port.endHandling
  split <;> exact ⟨rfl, rfl, rfl, rfl⟩

/-- No lease runs while the store is MOUNTING. -/
theorem slotsKept_expireReader (p : PortId) (h : HandleNo) (moment : Nat) {d : Device} (hd : d.slotsKept) :
    (d.expireReader p h moment).slotsKept :=
  slotsKept_of hd (fun hm => by simp [Device.expireReader, (hm.port p).2.2.2 h]) (Serving.expireReader p h moment)

theorem slotsKept_expireWriter (p : PortId) (h : HandleNo) (moment : Nat) {d : Device} (hd : d.slotsKept) :
    (d.expireWriter p h moment).slotsKept :=
  slotsKept_of hd (fun hm => by simp [Device.expireWriter, (hm.port p).2.2.2 h]) (Serving.expireWriter p h moment)

/-- The rot of the array is of the array alone. -/
theorem rotted_frame (cells : List (Nat × Nat × Cell)) (d : Device) :
    d.rotted cells = { d with array := (d.rotted cells).array } := by
  induction cells generalizing d with
  | nil => rfl
  | cons x rest ih =>
    have hcons : d.rotted (x :: rest) = Device.rotted rest (if 1 ≤ x.2.1 ∧ x.2.1 ≤ Config.lastFrame then
        d.modCell ⟨x.1, x.2.1⟩ fun _ => x.2.2 else d) := rfl
    rw [hcons]
    split
    · exact ih _
    · exact ih d

theorem slotsKept_idle {d : Device} (h : d.slotsKept) : d.idle.slotsKept := by
  rw [Device.idle, Device.rotted_frame]
  rcases d.slotsKept_iff.1 h with hm | hs
  · exact (hm.congr rfl rfl rfl rfl hm.held).slotsKept
  · exact Serving.slotsKept (Serving.fits_calm hs (.of_eq rfl rfl rfl rfl rfl) rfl)

theorem slotsKept_scanDone {d : Device} (h : d.slotsKept) : d.scanDone.slotsKept := by
  unfold Device.scanDone
  split
  case h_1 hscan =>
    rcases d.slotsKept_iff.1 h with hm | hs
    · have hon : d.mount ≠ .off := by simp [hscan]
      dsimp only
      split
      · refine MountingIdle.slotsKept (hm.congr rfl rfl rfl rfl fun hr => ?_)
        exact absurd (hm.held hr) hon
      · exact (hm.mountEnd (e := d.fillSegments.fill d.mountWork.tables) hon _ rfl rfl rfl rfl).slotsKept
    · rw [hs.mount] at hscan
      cases hscan
  all_goals exact h

theorem eraseImage_frame (i count : Nat) (r : EraseResult) (d : Device) :
    d.eraseImage i count r = { d with array := (d.eraseImage i count r).array } := by
  cases r <;> rfl

theorem slotsKept_mountErased (r : EraseResult) {d : Device} (h : d.slotsKept) : (d.mountErased r).slotsKept := by
  unfold Device.mountErased
  split
  case h_1 i w herase =>
    rcases d.slotsKept_iff.1 h with hm | hs
    · have hon : d.mount ≠ .off := by simp [herase]
      have ended : ∀ (e : Device) (w' : MountWork), e.ports = d.ports → e.commitQueue = d.commitQueue →
          e.flight = d.flight →
          e.resetHeld = d.resetHeld → (e.mountEnd w').slotsKept :=
        fun e w' hp hq hf hh => (hm.mountEnd hon w' hp hq hf hh).slotsKept
      dsimp only
      rw [eraseImage_frame]
      split <;> exact ended _ _ rfl rfl rfl rfl
    · rw [hs.mount] at herase
      cases herase
  all_goals exact h

theorem stopEngine_flight (cut : Cut) (d : Device) : (d.stopEngine cut).flight = none := by
  have ended : ∀ d : Device, d.endRunning.flight = none := by
    intro d
    unfold Device.endRunning
    split
    · rw [Device.endCommit_ends .failedSupply (d.setFlight none) _]
      rfl
    · rfl
  rw [Device.stopEngine, Device.endQueue_ends]
  exact ended _

theorem slotsKept_fall (cut : Cut) {d : Device} (h : d.slotsKept) : (d.fall cut).slotsKept := by
  unfold Device.fall
  split
  · exact h
  rcases d.slotsKept_iff.1 h with hm | hs
  · have low : MountingIdle { d with supply := .low } := hm.congr rfl rfl rfl rfl hm.held
    rw [if_pos hm.store]
    unfold Device.fallInMount
    split
    · next i w herase =>
      generalize ({ d with supply := .low } : Device) = e at low herase
      exact (low.mountEnd (e := (e.cutErase i cut.mark).fill w.tables) (by simp [herase]) w rfl rfl rfl rfl).slotsKept
    · exact low.slotsKept
    · exact low.slotsKept
  · have low : Serving.Fits { d with supply := .low } := Serving.fits_calm hs (.of_eq rfl rfl rfl rfl rfl) rfl
    rw [if_neg hs.store]
    have stopped := Serving.stopEngine cut low
    rw [← Serving.running_none (stopEngine_flight cut _)] at stopped
    exact Serving.slotsKept (Serving.fits_calm stopped (.offerAll _ _) rfl)

theorem slotsKept_rise {d : Device} (h : d.slotsKept) : d.rise.slotsKept := by
  unfold Device.rise
  split
  · exact h
  rcases d.slotsKept_iff.1 h with hm | hs
  · rw [if_pos hm.store]
    exact (hm.congr rfl rfl rfl rfl hm.held).slotsKept
  · have good : Serving.Fits { d with supply := .good } := Serving.fits_calm hs (.of_eq rfl rfl rfl rfl rfl) rfl
    rw [if_neg hs.store]
    exact (Serving.arbiter (Serving.fits_calm good (.offerAll _ _) rfl)).slotsKept

theorem slotsKept_beginReset (cause : Cause) (cut : Cut) {d : Device} (h : d.slotsKept) :
    (d.beginReset cause cut).slotsKept := by
  have caused : Device.slotsKept { d with cause := .powerOn } := h
  unfold Device.beginReset
  split
  · split
    · exact caused
    · exact h
  · refine MountingIdle.slotsKept ⟨rfl, rfl, rfl, fun p => ?_, fun _ => rfl⟩
    simp only [Device.handle, Device.keepSel, Device.port_mapPorts]
    cases p <;> exact ⟨rfl, rfl, rfl, fun h => by cases h <;> rfl⟩

theorem slotsKept_losePower {d : Device} (h : d.slotsKept) : d.losePower.slotsKept := by
  unfold Device.losePower
  split <;> exact h

theorem slotsKept_release (supply : Supply) {d : Device} (h : d.slotsKept) : (d.release supply).slotsKept := by
  unfold Device.release
  split
  · next hheld =>
    rcases d.slotsKept_iff.1 h with hm | hs
    · refine MountingIdle.slotsKept ⟨hm.store, hm.flight, hm.queue, fun p => ?_, fun hr => by cases hr⟩
      simp only [Device.handle, Device.port_mapPorts]
      exact hm.port p
    · rw [hs.held] at hheld
      cases hheld
  · exact h

end Device

/-! ## Every command -/

theorem exec_slotsKept (i : Instr) {s t : State} (hs : s.dev.slotsKept) (h : exec i s = .next t) : t.dev.slotsKept := by
  have run : ∀ {f : Device → Device}, ran f s = .next t → (f s.dev).slotsKept → t.dev.slotsKept := by
    intro f hr hf
    cases hr
    exact hf
  have asked : ∀ {α : Type} {p : PortId} {kind : Byte} {form : Option α} {rule : α → Device → Device × Answer},
      ran (Device.request p kind form false rule) s = .next t →
      (∀ x d, Serving.Fits d → Serving.Fits (rule x d).1) → t.dev.slotsKept :=
    fun h hr => run h (Device.slotsKept_request _ _ _ _ _ hr (fun ha => by cases ha) hs)
  have reported : ∀ {α : Type} {p : PortId} {kind : Byte} {form : Option α} {always : Bool}
      {rule : α → Device → Device × Answer}, ran (Device.request p kind form always rule) s = .next t →
      (∀ x d, (rule x d).1 = d) → t.dev.slotsKept :=
    fun h hr => run h (Device.slotsKept_request _ _ _ _ _ (fun x d hd => by rwa [hr]) (fun _ => hr) hs)
  have step : ∀ {f : Device → Device}, ran f s = .next t → (MountingIdle s.dev → f s.dev = s.dev) →
      (Serving.Fits s.dev → Serving.Fits (f s.dev)) → t.dev.slotsKept :=
    fun hr hm hf => run hr (Device.slotsKept_of hs hm hf)
  have closed : ∀ {p : PortId}, ran (Device.closeFrame p) s = .next t → t.dev.slotsKept :=
    fun hr => run hr (Device.slotsKept_modPort _ _ hs fun _ => ⟨rfl, rfl, rfl, rfl⟩)
  cases i with
  | nop p ps => exact reported h fun _ _ => rfl
  | storeInfo p ps => exact reported h fun _ _ => rfl
  | openRead p ps => exact asked h (Serving.openRead p)
  | openWrite p ps => exact asked h (Serving.openWrite p)
  | read p ps => exact asked h fun x => Serving.onHandle _ _ _ (Serving.read p x.2)
  | seek p ps => exact asked h fun x => Serving.onHandle _ _ _ (Serving.seek p x.2)
  | write p ps => exact asked h fun x => Serving.onHandle _ _ _ (Serving.write p x.2)
  | truncate p ps => exact asked h fun x => Serving.onHandle _ _ _ (Serving.truncate p x.2)
  | markDelete p ps => exact asked h fun _ => Serving.onHandle _ _ _ (Serving.markDelete p)
  | close p ps => exact asked h fun _ => Serving.onHandle _ _ _ (Serving.close p)
  | commit p ps => exact asked h (Serving.commit p)
  | renew p ps => exact asked h fun _ => Serving.renewPort p
  | setLease p ps => exact asked h (Serving.setLease p)
  | watch p ps => exact asked h (Serving.watch p)
  | unwatch p ps => exact asked h (Serving.unwatch p)
  | watchList p ps => exact reported h fun _ _ => rfl
  | nextNotice p ps => exact asked h fun _ => Serving.nextNotice p
  | enumerate p ps => exact asked h (Serving.enumerate p)
  | reclaim p ps => exact asked h fun _ => Serving.reclaimRequest
  | portReset p ps => exact asked h fun _ d hd => Serving.arbiter (Serving.clearPort p hd)
  | unknownKindRequest p kind ps => exact reported h fun _ _ => rfl
  | portFrameStart p => exact run h (Device.slotsKept_startFrame p hs)
  | idleFrame p bytes => exact closed h
  | malformedFrame p bytes => exact run h (Device.slotsKept_badFrame p bytes hs)
  | badCheckFrame p bytes => exact run h (Device.slotsKept_badFrame p bytes hs)
  | busyFrame p bytes => exact closed h
  | handlingEnd p => exact run h (Device.slotsKept_endHandling p hs)
  | readingLeaseExpiry p e => exact run h (Device.slotsKept_expireReader p e.handle e.moment hs)
  | writingLeaseExpiry p e => exact run h (Device.slotsKept_expireWriter p e.handle e.moment hs)
  | frameProgramDone r => exact step h (fun hm => Device.frameDone_none r hm.flight) (Serving.frameDone r)
  | commitMarkDone verified => exact step h (fun hm => Device.markDone_none verified hm.flight) (Serving.markDone verified)
  | segmentOpenDone r => exact step h (fun hm => Device.openDone_none r hm.flight) (Serving.openDone r)
  | segmentSealDone r => exact step h (fun hm => Device.sealDone_none r hm.flight) (Serving.sealDone r)
  | segmentEraseDone r => exact step h (fun hm => Device.eraseDone_none r hm.flight) (Serving.eraseDone r)
  | segmentRetireDone mark => exact step h (fun hm => Device.retireDone_none mark hm.flight) (Serving.retireDone mark)
  | supplyFall cut => exact run h (Device.slotsKept_fall cut hs)
  | supplyRise => exact run h (Device.slotsKept_rise hs)
  | deviceReset cause cut => exact run h (Device.slotsKept_beginReset cause cut hs)
  | powerLossInReset => exact run h (Device.slotsKept_losePower hs)
  | resetRelease supply => exact run h (Device.slotsKept_release supply hs)
  | mountScanDone => exact run h (Device.slotsKept_scanDone hs)
  | mountEraseDone r => exact run h (Device.slotsKept_mountErased r hs)

/-- Settles O59: a MOUNTING store holds no notice and no reservation, and every other step keeps a part that serves within
its slots. -/
theorem everyStepKeepsTheNoticeSlots : Obligations.EveryStepKeepsTheNoticeSlots := by
  intro s t hs h
  unfold step at h
  split at h
  · cases h
    exact Device.slotsKept_idle hs
  · next i rest _ => exact exec_slotsKept (s := { s with pending := rest }) i hs h

end Sys2Proof.Machine
end

section
/-! SUPPORT. Steps, resets and the supply: the statements StepRunsTheFrontCommand, EmptyQueueLetsTimePass,
DeviceResetClearsRam, ReleaseBeginsMount, AbandonedStepLeaves, SupplyRiseResumes, EventsThatCannotHappenChangeNothing
and ResetMeetsTheInvariants. -/

namespace Sys2Proof.Machine

/-! ## Steps -/

/-- Settles O1: the step's case of a queue that is not empty. -/
theorem stepRunsTheFrontCommand : Obligations.StepRunsTheFrontCommand := fun _ _ _ => rfl

/-- The rot of frames leaves every header. -/
theorem Device.rotted_headers (cells : List (Nat × Nat × Cell)) (d : Device) :
    (d.rotted cells).array.map (·.header) = d.array.map (·.header) := by
  have one : ∀ (l : Loc) (f : Cell → Cell) (d : Device), (d.modCell l f).array.map (·.header) = d.array.map (·.header) := by
    intro l f d
    refine List.ext_getElem? fun j => ?_
    simp only [Device.modCell, List.getElem?_map, List.getElem?_modify]
    split <;> simp [SegmentImage.modFrame, Function.comp_def]
  induction cells generalizing d with
  | nil => rfl
  | cons x rest ih =>
    refine (ih _).trans ?_
    dsimp only
    split
    · exact one _ _ d
    · rfl

/-- A place of a list given a value, whatever it held. -/
theorem modify_const {α : Type} (xs : List α) (i : Nat) (x : α) : xs.modify i (fun _ => x) = xs.set i x := by
  refine List.ext_getElem? fun j => ?_
  rw [List.getElem?_modify, List.getElem?_set]
  split
  · next h =>
    subst h
    cases hx : xs[i]? with
    | none => simpa using hx
    | some y => simp [(List.getElem?_eq_some_iff.1 hx).1]
  · simp

/-- A frame that is to read as `c` whatever it read as. -/
theorem Device.modCell_const (i frame : Nat) (c : Cell) (d : Device) :
    d.modCell ⟨i, frame⟩ (fun _ => c) =
      { d with array := d.array.modify i fun im => { im with frames := im.frames.set (frame - 1) c } } := by
  have hframe : SegmentImage.modFrame frame (fun _ => c) = fun im => { im with frames := im.frames.set (frame - 1) c } :=
    funext fun im => by rw [SegmentImage.modFrame, modify_const]
  rw [Device.modCell, hframe]

/-- Settles O2: what the rot and the clock change, and the recursion of the rot over the frames named. -/
theorem emptyQueueLetsTimePass : Obligations.EmptyQueueLetsTimePass := by
  refine fun d => ⟨?_, d.rotted_headers _, rfl, fun i frame c rest => ?_⟩
  · show Host.Outcome.next (State.mk [] d.idle) = _
    rw [Device.idle, Device.rotted_frame]
  · rw [← Device.modCell_const]
    rfl

/-! ## Device resets (R160, R161) -/

theorem exec_deviceReset (cause : Cause) (cut : Cut) (s : State) :
    exec (.deviceReset cause cut) s = .next ⟨s.pending, s.dev.beginReset cause cut⟩ := rfl

/-- A reset that begins. -/
theorem Device.beginReset_fresh {d : Device} (cause : Cause) (cut : Cut) (h : d.resetHeld = false) :
    d.beginReset cause cut = d.keepSel (Device.cleared (d.stopArray cut).array d.supply cause d.now d.draws) := by
  simp [Device.beginReset, h]

theorem Device.stopArray_idle {d : Device} (cut : Cut) (hf : d.flight = none) (hm : d.mount = .off) :
    d.stopArray cut = d := by
  simp [Device.stopArray, hm, Device.cutArray, hf]

theorem Device.stopArray_erasing {d : Device} {i : Nat} {w : MountWork} (cut : Cut) (h : d.mount = .erasing i w) :
    d.stopArray cut = d.cutErase i cut.mark := by
  simp [Device.stopArray, h]

theorem Device.stopArray_unit {d : Device} (cut : Cut) (h : ∀ i w, d.mount ≠ .erasing i w) :
    d.stopArray cut = d.cutArray cut := by
  cases hm : d.mount with
  | off | scanning => simp [Device.stopArray, hm]
  | erasing i w => exact absurd hm (h i w)

/-- The ports of a part whose reset has begun. -/
theorem Device.port_keepSel_cleared (old : Device) (a : List SegmentImage) (supply : Supply) (cause : Cause)
    (now draws : Nat)
    (p : PortId) : (old.keepSel (Device.cleared a supply cause now draws)).port p =
      { Port.cleared with frame := (old.port p).frame.map fun _ => FrameOut.lost } := by
  rw [Device.keepSel, Device.port_mapPorts]
  cases p <;> rfl

/-- Settles O3: a cleared device with the array as the step that was cut leaves it; and the causes of a reset already
held. -/
theorem deviceResetClearsRam : Obligations.DeviceResetClearsRam := by
  refine ⟨fun cause cut s hr => ?_, fun cut s hr => ?_, fun s hr => ?_⟩
  · refine ⟨_, exec_deviceReset cause cut s, rfl, ?_⟩
    dsimp only
    rw [Device.beginReset_fresh cause cut hr]
    refine ⟨rfl, rfl, rfl, rfl, fun p => ?_, fun b => ?_, rfl, rfl, rfl, rfl, rfl, rfl, rfl, rfl, rfl, rfl, rfl, rfl, rfl,
      fun hf hm => ?_, fun i w hm => ?_, fun hm => ?_⟩
    · simp only [Device.handle, Device.port_keepSel_cleared]
      refine ⟨fun h => by cases h <;> rfl, rfl, rfl, rfl, rfl, rfl, rfl, rfl, rfl, ?_⟩
      trivial
    · cases b <;> exact ⟨rfl, rfl, rfl⟩
    · rw [Device.stopArray_idle cut hf hm]
      rfl
    · rw [Device.stopArray_erasing cut hm]
      rfl
    · rw [Device.stopArray_unit cut hm]
      rfl
  · simp only [exec_deviceReset, Device.beginReset, hr, if_true, reduceCtorEq, if_false, and_self]
  · show Host.Outcome.next (State.mk s.pending s.dev.losePower) = _
    rw [Device.losePower, if_pos hr]

/-! ## The release of a reset -/

/-- Settles O4: the release's changes; and the run of a factory part. -/
theorem releaseBeginsMount : Obligations.ReleaseBeginsMount := by
  refine ⟨fun supply s hr => ?_, ?_⟩
  · refine ⟨⟨s.pending, s.dev.release supply⟩, rfl, rfl, ?_, fun p => ?_⟩
    · dsimp only
      rw [Device.release, if_pos hr]
      rfl
    · dsimp only
      rw [Device.release, if_pos hr, Device.port_mapPorts]
      rfl
  · refine ⟨_, _, rfl, rfl, ?_⟩
    refine ⟨by decide +kernel, by decide +kernel, by decide +kernel, by decide +kernel, by decide +kernel,
      by decide +kernel, by decide +kernel, fun p => ?_⟩
    cases p <;> decide +kernel

/-! ## A step cut short (R31) -/

/-- One header written. -/
theorem Device.modHeader_at {d : Device} {i : Nat} {im : SegmentImage} (f : SegmentHeader → SegmentHeader)
    (h : d.array[i]? = some im) : (d.modHeader i f).array = d.array.set i { im with header := f im.header } := by
  rw [Device.modHeader, modify_at _ h]

/-- One record written. -/
theorem Device.modSegment_at {d : Device} {i : Nat} {r : SegmentRecord} (f : SegmentRecord → SegmentRecord)
    (h : d.segments[i]? = some r) : (d.modSegment i f).segments = d.segments.set i (f r) := by
  rw [Device.modSegment, modify_at _ h]

/-- An erase cut short leaves no whole ERASED mark, and no other mark at all. -/
theorem Device.cutErase_at {d : Device} {i : Nat} {im : SegmentImage} (mark : MarkRead) (h : d.array[i]? = some im) :
    ∃ x, (d.cutErase i mark).array = d.array.set i { im with header := x } ∧ x.erased ≠ .whole ∧ x.opened = .absent ∧
      x.sealed = .absent ∧ x.retired = .absent := by
  refine ⟨_, Device.modHeader_at _ h, ?_, rfl, rfl, rfl⟩
  simp only [erasedHeader]
  split <;> simp

/-- Settles O6: the array and the segment table by the unit in flight. -/
theorem abandonedStepLeaves : Obligations.AbandonedStepLeaves := by
  refine fun cut d o retried => ⟨fun h => ?_, fun l cells n h => ?_, fun l cells h => ?_, fun i n im r him hr => ?_⟩
  · simp [Device.cutArray, Device.cutTable, h]
  · simp [Device.cutArray, Device.cutTable, h]
  · simp [Device.cutArray, Device.cutTable, h]
  · refine ⟨fun h => ?_, fun failed h => ?_, fun h => ?_, fun h => ?_, fun h => ?_, fun mark => d.cutErase_at mark him⟩
    · simp only [Device.cutArray, Device.cutTable, h]
      exact ⟨Device.modHeader_at _ him, Device.modSegment_at _ hr⟩
    · simp only [Device.cutArray, Device.cutTable, h]
      exact ⟨Device.modHeader_at _ him, Device.modSegment_at _ hr⟩
    · simp only [Device.cutArray, Device.cutTable, h]
      exact ⟨Device.modHeader_at _ him, trivial⟩
    · rcases h with h | h <;> simp only [Device.cutArray, Device.cutTable, h] <;>
        exact ⟨Device.modHeader_at _ him, trivial⟩
    · rcases h with h | h <;> simp only [Device.cutArray, Device.cutTable, h] <;>
        exact ⟨d.cutErase_at cut.mark him, trivial⟩

/-! ## The supply (R158, R159, R171) -/

theorem exec_supplyRise (s : State) : exec .supplyRise s = .next ⟨s.pending, s.dev.rise⟩ := rfl

theorem exec_supplyFall (cut : Cut) (s : State) : exec (.supplyFall cut) s = .next ⟨s.pending, s.dev.fall cut⟩ := rfl

theorem Device.rise_mounting {d : Device} (h : d.store = .mounting) : d.rise = { d with supply := .good } := by
  unfold Device.rise
  split
  · next hs => rw [← hs]
  · exact if_pos h

theorem Device.fall_mounting {d : Device} (cut : Cut) (h : d.store = .mounting) (hs : d.supply = .good) :
    d.fall cut = Device.fallInMount cut { d with supply := .low } := by
  simp [Device.fall, hs, h]

/-- Settles O7: the rise and the fall by the store's state, and in MOUNTING by where mount stands. -/
theorem supplyRiseResumes : Obligations.SupplyRiseResumes := by
  refine ⟨fun s hs hm => ?_, fun s hm => ?_, fun cut s hm => ⟨fun hscan => ?_, fun i w herase hs => ?_⟩⟩
  · rw [exec_supplyRise, Device.rise, if_neg (by simp [hs]), if_neg hm]
    rfl
  · rw [exec_supplyRise, Device.rise_mounting hm]
  · rw [exec_supplyFall]
    cases hs : s.dev.supply with
    | low =>
      rw [Device.fall, if_pos hs, ← hs]
    | good =>
      rw [Device.fall_mounting cut hm hs]
      simp only [Device.fallInMount, hscan]
  · rw [exec_supplyFall, Device.fall_mounting cut hm hs]
    simp only [Device.fallInMount, herase]
    rfl

/-! ## Events that cannot happen (log 14) -/

theorem Device.expireReader_other {d : Device} {p : PortId} {h : HandleNo} (hl : (d.handle p h).leaseRuns = false)
    (moment : Nat) : d.expireReader p h moment = d := by
  cases hx : d.handle p h with
  | reading k v c t => rw [hx] at hl; cases hl
  | free | writing | committing | expired | revoked => simp [Device.expireReader, hx]

theorem Device.expireWriter_other {d : Device} {p : PortId} {h : HandleNo} (hl : (d.handle p h).leaseRuns = false)
    (moment : Nat) : d.expireWriter p h moment = d := by
  cases hx : d.handle p h with
  | writing k b c t => rw [hx] at hl; cases hl
  | free | reading | committing | expired | revoked => simp [Device.expireWriter, hx]

/-- A command whose meaning changes nothing. -/
theorem ran_unchanged {f : Device → Device} {s : State} (h : f s.dev = s.dev) : ran f s = .next s := by
  rw [ran_eq, h]

/-- Settles O54: each of these events finds nothing to end. -/
theorem eventsThatCannotHappenChangeNothing : Obligations.EventsThatCannotHappenChangeNothing := by
  refine ⟨fun p h s hl moment => ?_, fun s i hf hi => ?_, fun s r hm => ?_⟩
  · exact ⟨ran_unchanged (Device.expireReader_other hl moment), ran_unchanged (Device.expireWriter_other hl moment)⟩
  · rcases hi with ⟨r, rfl⟩ | ⟨v, rfl⟩ | ⟨r, rfl⟩ | ⟨r, rfl⟩ | ⟨r, rfl⟩ | ⟨m, rfl⟩
    · exact ran_unchanged (Device.frameDone_none r hf)
    · exact ran_unchanged (Device.markDone_none v hf)
    · exact ran_unchanged (Device.openDone_none r hf)
    · exact ran_unchanged (Device.sealDone_none r hf)
    · exact ran_unchanged (Device.eraseDone_none r hf)
    · exact ran_unchanged (Device.retireDone_none m hf)
  · exact ⟨ran_unchanged (by simp [Device.scanDone, hm]), ran_unchanged (by simp [Device.mountErased, hm])⟩

/-! ## The reset state -/

/-- Settles O60: a factory part in a held reset has no directory, no notice and no reservation. -/
theorem resetMeetsTheInvariants : Obligations.ResetMeetsTheInvariants := by
  have port : ∀ p, State.reset.dev.port p = Port.cleared := by
    intro p
    cases p <;> rfl
  refine ⟨List.Pairwise.nil, Device.builtKeysRise_of_none rfl, ⟨List.length_replicate, fun im him => ?_⟩,
    List.length_replicate, fun p => ?_, fun p => ?_, MountingIdle.slotsKept ⟨rfl, rfl, rfl, fun p => ?_, fun _ => rfl⟩⟩
  · rw [List.eq_of_mem_replicate him]
    exact List.length_replicate
  · rw [port]
    decide
  · rw [port]
    exact ⟨Nat.zero_le _, List.nodup_nil⟩
  · simp only [Device.handle, port]
    exact ⟨rfl, rfl, rfl, fun h => by cases h <;> rfl⟩

end Sys2Proof.Machine
end

section
/-! SUPPORT. Port frames and the taking of a request: the statements FramesCarryTheHeldReply, FramesThatAreNotTaken,
DecodeFrameOfEncodeRequest, FormCheckAndMounting and SetLeaseSetsThePeriod. -/

namespace Sys2Proof.Machine

/-! ## Fields of several bytes (R177) -/

/-- Two bytes side by side. -/
theorem nat16_append (hi lo : Byte) : nat16 hi lo = (hi ++ lo).toNat := by
  rw [BitVec.toNat_append, ← Nat.shiftLeft_add_eq_or_of_lt lo.isLt, Nat.shiftLeft_eq]
  rfl

theorem keyOf_append (hi lo : Byte) : keyOf hi lo = hi ++ lo := by
  rw [keyOf, nat16_append]
  simp

theorem keyBytes_extract (k : Key) : keyBytes k = [k.extractLsb' 8 8, k.extractLsb' 0 8] := by
  have hi : BitVec.ofNat 8 (k.toNat / 2 ^ 8) = k.extractLsb' 8 8 := by
    apply BitVec.eq_of_toNat_eq
    simp [Nat.shiftRight_eq_div_pow]
  have lo : BitVec.ofNat 8 k.toNat = k.extractLsb' 0 8 := by
    apply BitVec.eq_of_toNat_eq
    simp
  rw [keyBytes, be16, hi, lo]

/-- A handle number is the byte that stands for it. -/
theorem Four.ofByte_eq_some (b : Byte) (h : Four) : Four.ofByte b = some h ↔ b = h.toByte := by
  refine ⟨fun hb => ?_, fun hb => by rw [hb, Four.ofByte_toByte]⟩
  unfold Four.ofByte at hb
  split at hb
  case h_5 => cases hb
  all_goals
    next hn =>
      cases hb
      exact BitVec.eq_of_toNat_eq hn

/-! ## The status byte (R177) -/

/-- The status byte's fields, put together from their places. -/
theorem statusByte_fields : ∀ handling attention overflow low : Bool, ∀ code ∈ [(0 : Byte), 1, 2],
    let b := bit 7 handling ||| bit 6 attention ||| bit 5 overflow ||| (code <<< 3) ||| bit 2 low
    b.getLsbD 7 = handling ∧ b.getLsbD 6 = attention ∧ b.getLsbD 5 = overflow ∧
      b.extractLsb' 3 2 = code.extractLsb' 0 2 ∧ b.getLsbD 2 = low ∧ b.extractLsb' 0 2 = 0b00#2 := by
  decide

theorem StoreState.code_mem (st : StoreState) : st.code ∈ [(0 : Byte), 1, 2] := by
  cases st <;> simp [StoreState.code]

/-! ## The fall of SEL (R172, R175) -/

theorem exec_portFrameStart (p : PortId) (s : State) :
    exec (.portFrameStart p) s = .next ⟨s.pending, s.dev.startFrame p⟩ := rfl

/-- The frame that a fall of SEL begins. -/
theorem Device.startFrame_none {d : Device} {p : PortId} (h : (d.port p).frame = none) :
    d.startFrame p = d.modPort p fun q => { q with
      frame := some (if d.resetHeld then FrameOut.lost
        else {
          busy := (d.port p).handling.isSome
          discarded := false
          out := (d.port p).held.bytes (d.statusByte p) }) } := by
  unfold Device.startFrame
  rw [h]
  exact Device.modPort_congr rfl

/-- Settles O19: the frame a fall of SEL begins and what it sends, the places in the status byte, the codes, and the end of
handling. -/
theorem framesCarryTheHeldReply : Obligations.FramesCarryTheHeldReply := by
  refine ⟨fun p s hf => ⟨fun hr => ?_, fun hr => ?_⟩, fun p d f i hf => ⟨fun h => ?_, fun hr hd => ?_⟩, fun p d => ?_,
    by decide, ⟨by decide, by decide, by decide, Four.ofByte_eq_some⟩, fun n k hi lo => ?_, fun p s r hr => ?_⟩
  · rw [exec_portFrameStart, Device.startFrame_none hf, hr]
    rfl
  · rw [exec_portFrameStart, Device.startFrame_none hf, hr]
    rfl
  · rw [Device.sdo, hf]
    rcases h with h | h <;> simp [h]
  · rw [Device.sdo, hf]
    simp only [hr, hd, Bool.or_self, Bool.false_eq_true, if_false, FrameOut.sent]
    split
    · next h => rw [List.getElem?_eq_getElem h]; rfl
    · next h => rw [List.getElem?_eq_none (by omega)]; rfl
  · obtain ⟨h7, h6, h5, h43, h2, h10⟩ := statusByte_fields (d.port p).handling.isSome (d.port p).attention
      (d.port p).overflow (d.supply == .low) _ d.store.code_mem
    refine ⟨h7, h6, h5, ⟨fun hs => ?_, fun hs => ?_, fun r hs => ?_⟩, h2, h10⟩ <;>
      exact h43.trans (by rw [hs]; rfl)
  · exact ⟨rfl, by simp [be32, be24, be16], keyBytes_extract k, keyOf_append hi lo, nat16_append hi lo⟩
  · show Host.Outcome.next (State.mk s.pending (s.dev.modPort p Port.endHandling)) = _
    rw [Device.modPort_congr (g := fun q => { q with held := r, handling := none })]
    simp only [Port.endHandling, hr]

/-! ## The commands that are requests (R178, R179) -/

/-- R178: no bit above bits 0 and 1 is set. -/
theorem options_clear : ∀ options : Byte, options.toNat < 4 ↔ options &&& 0xFC = 0 := by decide

/-- A kind that no request has is below 01h or above 14h. -/
theorem unknownKind_range {kind : Byte} (h : unknownKind kind = true) : kind.toNat < 1 ∨ 20 < kind.toNat := by
  simpa using (Bool.and_eq_true_iff.1 h).2

theorem unknownKind_formAllowed {kind : Byte} {ps' : List Byte} {p : PortId}
    (h : wellFormed (.unknownKindRequest p kind ps') = true) (ps : List Byte) : ¬ formAllowed kind ps := by
  have hk := unknownKind_range (Bool.and_eq_true_iff.1 h).1
  unfold formAllowed
  split
  case h_21 => exact not_false
  all_goals omega

theorem unknownKind_decodeRequest {kind : Byte} (h : unknownKind kind = true) (p : PortId) (ps : List Byte) :
    decodeRequest p kind ps = .unknownKindRequest p kind ps := by
  have hk := unknownKind_range h
  unfold decodeRequest
  split
  case h_21 => rfl
  all_goals omega

/-- A request is its kind's form check and rule, run on its port. `always` is true of NOP, of STORE_INFO and of a kind
that no request has; the forms are those that R179 allows. -/
theorem exec_request {i : Instr} {p : PortId} {kind : Byte} {ps : List Byte} (h : requestParts i = some (p, kind, ps)) :
    ∃ (α : Type) (form : Option α) (always : Bool) (rule : α → Device → Device × Answer),
      (∀ s, exec i s = .next ⟨s.pending, s.dev.request p kind form always rule⟩) ∧
      (wellFormed i = true → (form.isSome = true ↔ formAllowed kind ps)) ∧
      (kind ≠ 0x01 → kind ≠ 0x02 → form.isSome = true → always = false) := by
  have empty : ∀ xs : List Byte, (formNone xs).isSome = true ↔ xs.length = 0 := by
    intro xs
    cases xs <;> simp [formNone]
  have key : ∀ xs : List Byte, (formKey xs).isSome = true ↔ xs.length = 2 := by
    intro xs
    match xs with
    | [] | [_] | [_, _] | _ :: _ :: _ :: _ => simp [formKey]
  have handle : ∀ xs : List Byte, (formHandle xs).isSome = true ↔ xs.length = 1 := by
    intro xs
    match xs with
    | [] | [_] | _ :: _ :: _ => simp [formHandle]
  have word : ∀ xs : List Byte, (formHandleWord xs).isSome = true ↔ xs.length = 3 := by
    intro xs
    match xs with
    | [] | [_] | [_, _] | [_, _, _] | _ :: _ :: _ :: _ :: _ => simp [formHandleWord]
  cases i <;> cases h
  case nop => exact ⟨_, _, _, _, fun _ => rfl, fun _ => empty ps, fun h => absurd rfl h⟩
  case storeInfo => exact ⟨_, _, _, _, fun _ => rfl, fun _ => empty ps, fun _ h => absurd rfl h⟩
  case openRead => exact ⟨_, _, _, _, fun _ => rfl, fun _ => key ps, fun _ _ _ => rfl⟩
  case openWrite =>
    refine ⟨_, _, _, _, fun _ => rfl, fun _ => ?_, fun _ _ _ => rfl⟩
    match ps with
    | [] | [_] | [_, _] | _ :: _ :: _ :: _ :: _ => simp [formOpenWrite, formAllowed]
    | [hi, lo, options] => simp [formOpenWrite, formAllowed, options_clear]
  case read =>
    refine ⟨_, _, _, _, fun _ => rfl, fun _ => ?_, fun _ _ _ => rfl⟩
    match ps with
    | [] | [_] | [_, _] | _ :: _ :: _ :: _ => simp [formRead, formAllowed]
  case seek => exact ⟨_, _, _, _, fun _ => rfl, fun _ => word ps, fun _ _ _ => rfl⟩
  case write =>
    refine ⟨_, _, _, _, fun _ => rfl, fun _ => ?_, fun _ _ _ => rfl⟩
    match ps with
    | [] => simp [formWrite, formAllowed]
    | h :: data =>
      simp only [formWrite, formAllowed, List.length_cons]
      split
      · simpa using by omega
      · simpa using by omega
  case truncate => exact ⟨_, _, _, _, fun _ => rfl, fun _ => word ps, fun _ _ _ => rfl⟩
  case markDelete => exact ⟨_, _, _, _, fun _ => rfl, fun _ => handle ps, fun _ _ _ => rfl⟩
  case close => exact ⟨_, _, _, _, fun _ => rfl, fun _ => handle ps, fun _ _ _ => rfl⟩
  case commit => exact ⟨_, _, _, _, fun _ => rfl, fun _ => ⟨fun _ => trivial, fun _ => rfl⟩, fun _ _ _ => rfl⟩
  case renew => exact ⟨_, _, _, _, fun _ => rfl, fun _ => empty ps, fun _ _ _ => rfl⟩
  case setLease =>
    refine ⟨_, _, _, _, fun _ => rfl, fun _ => ?_, fun _ _ _ => rfl⟩
    match ps with
    | [] | [_] | _ :: _ :: _ => simp [formLease, formAllowed]
  case watch => exact ⟨_, _, _, _, fun _ => rfl, fun _ => key ps, fun _ _ _ => rfl⟩
  case unwatch => exact ⟨_, _, _, _, fun _ => rfl, fun _ => key ps, fun _ _ _ => rfl⟩
  case watchList => exact ⟨_, _, _, _, fun _ => rfl, fun _ => empty ps, fun _ _ _ => rfl⟩
  case nextNotice => exact ⟨_, _, _, _, fun _ => rfl, fun _ => empty ps, fun _ _ _ => rfl⟩
  case enumerate => exact ⟨_, _, _, _, fun _ => rfl, fun _ => key ps, fun _ _ _ => rfl⟩
  case reclaim => exact ⟨_, _, _, _, fun _ => rfl, fun _ => empty ps, fun _ _ _ => rfl⟩
  case portReset => exact ⟨_, _, _, _, fun _ => rfl, fun _ => empty ps, fun _ _ _ => rfl⟩
  case unknownKindRequest =>
    exact ⟨_, _, _, _, fun _ => rfl, fun hw => iff_of_false (by simp) (unknownKind_formAllowed hw ps),
        fun _ _ h => by cases h⟩

/-! ## Frames that are not taken (R172, R173, R175) -/

/-- A port that takes nothing: a reset is held, or the frame in progress is busy or was discarded. -/
theorem Device.untaken {d : Device} {p : PortId}
    (h : d.resetHeld = true ∨ ∃ f, (d.port p).frame = some f ∧ (f.busy = true ∨ f.discarded = true)) :
    d.resetHeld = true ∨ (d.port p).takes = false := by
  refine h.imp_right ?_
  rintro ⟨f, hf, hb | hd⟩ <;> simp [Port.takes, *]

theorem Device.badFrame_untaken {d : Device} {p : PortId} (bytes : List Byte)
    (h : d.resetHeld = true ∨ (d.port p).takes = false) : d.badFrame p bytes = d.closeFrame p := by
  unfold Device.badFrame
  rcases h with h | h <;> simp [h]

theorem Device.request_untaken {α : Type} {d : Device} {p : PortId} (kind : Byte) (form : Option α) (always : Bool)
    (rule : α → Device → Device × Answer) (h : d.resetHeld = true ∨ (d.port p).takes = false) :
    d.request p kind form always rule = d.closeFrame p := by
  unfold Device.request
  rcases h with h | h <;> simp [h]

theorem exec_badFrame (p : PortId) (bytes : List Byte) (s : State) :
    exec (.malformedFrame p bytes) s = .next ⟨s.pending, s.dev.badFrame p bytes⟩ ∧
      exec (.badCheckFrame p bytes) s = .next ⟨s.pending, s.dev.badFrame p bytes⟩ := ⟨rfl, rfl⟩

/-- Settles O20: a frame that is not taken is only closed; a bad one that is taken leaves a BAD_REQUEST reply. -/
theorem framesThatAreNotTaken : Obligations.FramesThatAreNotTaken := by
  refine ⟨fun p bytes s => ⟨rfl, rfl, fun h => ?_⟩, fun p kind rest s ht => ?_⟩
  · have hu := Device.untaken h
    obtain ⟨hmal, hbad⟩ := exec_badFrame p bytes s
    refine ⟨by rw [hmal, Device.badFrame_untaken bytes hu]; rfl, by rw [hbad, Device.badFrame_untaken bytes hu]; rfl, ?_⟩
    intro i kind ps hi
    obtain ⟨α, form, always, rule, hexec, -, -⟩ := exec_request hi
    rw [hexec, Device.request_untaken kind form always rule hu]
    rfl
  · obtain ⟨hmal, hbad⟩ := exec_badFrame p (kind :: rest) s
    have hframe : s.dev.badFrame p (kind :: rest) = s.dev.modPort p fun q =>
        { q with frame := none, held := { kind := kind, count := q.count, result := .badRequest, payload := [] } } := by
      simp [Device.badFrame, ht.1, ht.2]
    rw [hmal, hbad, hframe]
    exact ⟨rfl, rfl⟩

/-! ## Form check and MOUNTING (R13, R178) -/

/-- Settles O22: the form check by kind, then the store state, then NOP's rule. -/
theorem formCheckAndMounting : Obligations.FormCheckAndMounting := by
  refine fun p s ht => ⟨fun i kind ps hw hi => ?_, ?_, fun kind ps => ?_⟩
  · obtain ⟨α, form, always, rule, hexec, hform, halways⟩ := exec_request hi
    refine ⟨fun hnot => ?_, fun hallowed h1 h2 hm => ?_⟩
    · have hnone : form = none := by
        rw [← Option.not_isSome_iff_eq_none, hform hw]
        exact hnot
      rw [hexec, hnone, Device.request_badForm kind always rule ht]
    · have hsome := (hform hw).2 hallowed
      obtain ⟨x, rfl⟩ := Option.isSome_iff_exists.1 hsome
      rw [hexec, halways h1 h2 hsome, Device.request_mounting kind x rule ht hm]
  · show Host.Outcome.next (State.mk s.pending (s.dev.request p 0x01 (some ()) true fun _ d => (d, ok []))) = _
    rw [Device.request_ruled _ _ _ _ ht (.inl rfl), ok, Device.reply_counted]
  · show Host.Outcome.next (State.mk s.pending (s.dev.request p kind none true fun _ d => (d, refuse .badRequest))) = _
    rw [Device.request_badForm _ _ _ ht]

/-! ## Decoding what was encoded (R173, R179) -/

/-- The bytes of a frame that carries at most 66 parameter bytes are a complete frame. -/
theorem classifyFrame_frameBytes {kind : Byte} {ps : List Byte} (hk : kind ≠ 0xFF#8) (hl : ps.length ≤ 66) :
    classifyFrame (frameBytes kind ps) = .complete kind ps := by
  have hlen : (BitVec.ofNat 8 ps.length).toNat = ps.length := by
    rw [BitVec.toNat_ofNat]
    omega
  have hbody : frameBytes kind ps = kind :: BitVec.ofNat 8 ps.length ::
      (ps ++ [checkSum (kind :: BitVec.ofNat 8 ps.length :: ps)]) := rfl
  simp [hbody, classifyFrame, hk, hlen, Nat.not_lt.2 hl]

/-- The request that a complete frame of its kind carries. -/
theorem decodeRequest_parts {i : Instr} {p : PortId} {kind : Byte} {ps : List Byte} (hw : wellFormed i = true)
    (h : requestParts i = some (p, kind, ps)) : decodeRequest p kind ps = i ∧ kind ≠ 0xFF#8 ∧ ps.length ≤ 66 := by
  cases i <;> cases h
  case unknownKindRequest =>
    obtain ⟨hk, hl⟩ := Bool.and_eq_true_iff.1 hw
    refine ⟨unknownKind_decodeRequest hk p ps, ?_, of_decide_eq_true hl⟩
    simpa using (Bool.and_eq_true_iff.1 hk).1
  all_goals exact ⟨rfl, by decide, of_decide_eq_true hw⟩

/-- Settles O21: a request's bytes are a complete frame of its kind and parameters. -/
theorem decodeFrameOfEncodeRequest : Obligations.DecodeFrameOfEncodeRequest := by
  intro i p kind ps bytes hw hi hb
  obtain ⟨hdecode, hk, hl⟩ := decodeRequest_parts hw hi
  have hbytes : bytes = frameBytes kind ps := by
    rw [encodeRequest, hi] at hb
    exact (Option.some.inj hb).symm
  rw [hbytes, decodeFrame, classifyFrame_frameBytes hk hl]
  exact hdecode

/-! ## SET_LEASE (R82) -/

/-- Settles O39: SET_LEASE's two cases. -/
theorem setLeaseSetsThePeriod : Obligations.SetLeaseSetsThePeriod := by
  intro p n s ⟨ht, hm⟩
  show Host.Outcome.next (State.mk s.pending (s.dev.request p 0x0D (some n.toNat) false (Device.setLease p))) = _
  rw [Device.request_ruled _ _ _ _ ht (.inr hm), Device.setLease]
  split
  · rw [ok, Device.reply_modPort _ _ _ _ _ _ (fun _ _ => rfl) rfl]
    simp [byteOf]
  · rw [refuse, Device.reply_counted]

end Sys2Proof.Machine
end

section
/-! SUPPORT. Requests that name a handle: the statements HandleStateRefusals, SeekSetsTheCursor, TruncateAndMarkDelete and
CloseFreesTheHandle. -/

namespace Sys2Proof.Machine

/-! ## A rule before the count of its request -/

/-- The rule does to a counted device what it does to the device before the count. -/
def CommutesWithCount (p : PortId) (rule : Device → Device × Answer) : Prop :=
  ∀ d : Device, rule (d.countRequest p) = ((rule d).1.countRequest p, (rule d).2) ∧
    ((rule d).1.port p).count = (d.port p).count

/-- The reply of such a rule. -/
theorem CommutesWithCount.reply {p : PortId} {rule : Device → Device × Answer} (h : CommutesWithCount p rule) (kind : Byte)
    (d : Device) : Device.reply p kind ((d.port p).count + 1) (rule (d.countRequest p)) =
      (rule d).1.answered p kind (rule d).2.result (rule d).2.payload := by
  obtain ⟨hrule, hcount⟩ := h d
  rw [hrule, ← hcount]
  exact Device.reply_counted ..

theorem Device.renew_countRequest (p : PortId) (h : HandleNo) (d : Device) :
    (d.countRequest p).renew p h = (d.renew p h).countRequest p := by
  simp only [Device.renew, Device.handle_countRequest, Device.deadline_countRequest, Device.setHandle_countRequest]

theorem Device.count_renew (p : PortId) (h : HandleNo) (d : Device) : ((d.renew p h).port p).count = (d.port p).count :=
  Device.count_setHandle ..

theorem Device.valueByte_countRequest (p : PortId) (d : Device) (l : Loc) (i : Nat) :
    (d.countRequest p).valueByte l i = d.valueByte l i := rfl

namespace CommutesWithCount

/-- A request that writes a buffer and a handle. -/
theorem setBuffer_setHandle (p : PortId) (h : HandleNo) (x : Handle) (b : BufferNo) (y : Buffer) (d : Device) :
    (((d.countRequest p).setBuffer b y).setHandle p h x = ((d.setBuffer b y).setHandle p h x).countRequest p) ∧
      (((d.setBuffer b y).setHandle p h x).port p).count = (d.port p).count := by
  refine ⟨?_, Device.count_setHandle ..⟩
  rw [Device.setBuffer_countRequest, Device.setHandle_countRequest]

theorem onWriter (p : PortId) (h : HandleNo) (rule : Key → BufferNo → Nat → Nat → Device → Device × Answer)
    (hr : ∀ k b c t, CommutesWithCount p (rule k b c t)) : CommutesWithCount p (Device.onWriter p h rule) := by
  intro d
  unfold Device.onWriter
  rw [Device.handle_countRequest]
  cases d.handle p h with
  | writing k b c t => exact hr k b c t d
  | free | reading | committing | expired | revoked => exact ⟨rfl, rfl⟩

theorem read (p : PortId) (n : Nat) (h : HandleNo) : CommutesWithCount p (Device.read p n h) := by
  intro d
  unfold Device.read
  rw [Device.handle_countRequest]
  cases d.handle p h with
  | reading | writing =>
    refine ⟨?_, Device.count_setHandle ..⟩
    simp only [Device.buffer_countRequest, Device.setHandle_countRequest, Device.valueBytes, Device.valueByte_countRequest]
  | free | committing | expired | revoked => exact ⟨rfl, rfl⟩

theorem seek (p : PortId) (n : Nat) (h : HandleNo) : CommutesWithCount p (Device.seek p n h) := by
  intro d
  unfold Device.seek
  rw [Device.handle_countRequest]
  cases d.handle p h with
  | reading k v c t =>
    by_cases hn : n ≤ v.length
    · simp only [hn, if_true]
      exact ⟨by rw [Device.setHandle_countRequest], Device.count_setHandle ..⟩
    · simp only [hn, if_false]
      exact ⟨trivial, trivial⟩
  | writing k b c t =>
    by_cases hn : n ≤ (d.buffer b).length
    · simp only [Device.buffer_countRequest, hn, if_true]
      exact ⟨by rw [Device.setHandle_countRequest], Device.count_setHandle ..⟩
    · simp only [Device.buffer_countRequest, hn, if_false]
      exact ⟨trivial, trivial⟩
  | free | committing | expired | revoked => exact ⟨rfl, rfl⟩

/-- A condition that the count does not touch, a writing of a buffer and a handle, or a refusal. -/
theorem writesOrRefuses {p : PortId} {h : HandleNo} {c : Device → Prop} [DecidablePred c] {b : BufferNo} {x : Handle}
    {y : Device → Buffer} {a : Device → Answer} {r : Result} (hc : ∀ d : Device, c (d.countRequest p) ↔ c d)
    (hy : ∀ d : Device, y (d.countRequest p) = y d ∧ a (d.countRequest p) = a d) :
    CommutesWithCount p fun d => if c d then ((d.setBuffer b (y d)).setHandle p h x, a d) else (d, refuse r) := by
  intro d
  obtain ⟨hbuffer, hanswer⟩ := hy d
  by_cases hd : c d
  · simp only [hc, hd, if_true, hbuffer, hanswer]
    exact ⟨by rw [(setBuffer_setHandle ..).1], (setBuffer_setHandle ..).2⟩
  · simp only [hc, hd, if_false, and_self]

theorem truncate (p : PortId) (n : Nat) (h : HandleNo) : CommutesWithCount p (Device.truncate p n h) :=
  onWriter p h _ fun _ _ _ _ => writesOrRefuses (fun _ => Iff.rfl) fun _ => ⟨rfl, rfl⟩

theorem markDelete (p : PortId) (h : HandleNo) : CommutesWithCount p (Device.markDelete p h) :=
  onWriter p h _ fun _ _ _ _ => writesOrRefuses (fun _ => Iff.rfl) fun _ => ⟨rfl, rfl⟩

end CommutesWithCount

/-! ## R67's two stages -/

/-- The device after a request that names a handle, by its number, by its other parameters, and by its rule on the device
whose handle is renewed. -/
theorem Device.reply_onHandle (p : PortId) (number kind : Byte) (valuesOk : Bool)
    (rule : HandleNo → Device → Device × Answer) (d : Device) :
    Device.reply p kind ((d.port p).count + 1) ((d.countRequest p).onHandle p number valuesOk rule) =
      match Four.ofByte number with
      | none => d.answered p kind .badRequest []
      | some h =>
        if valuesOk then
          Device.reply p kind (((d.renew p h).port p).count + 1) (rule h ((d.renew p h).countRequest p))
        else (d.renew p h).answered p kind .badRequest [] := by
  unfold Device.onHandle
  cases Four.ofByte number with
  | none => exact Device.reply_counted ..
  | some h =>
    simp only [Device.renew_countRequest]
    cases valuesOk with
    | true => simp only [if_true, Device.count_renew]
    | false =>
      rw [← Device.count_renew p h d]
      exact Device.reply_counted ..

/-- A request that names a handle, its rule one that commutes with the count. -/
theorem Device.reply_named {p : PortId} {number : Byte} {h : HandleNo} (kind : Byte) (valuesOk : Bool)
    (rule : HandleNo → Device → Device × Answer) (hr : CommutesWithCount p (rule h)) (d : Device)
    (hn : Four.ofByte number = some h) :
    Device.reply p kind ((d.port p).count + 1) ((d.countRequest p).onHandle p number valuesOk rule) =
      if valuesOk then
        (rule h (d.renew p h)).1.answered p kind (rule h (d.renew p h)).2.result (rule h (d.renew p h)).2.payload
      else (d.renew p h).answered p kind .badRequest [] := by
  rw [Device.reply_onHandle, hn]
  dsimp only
  split
  · rw [hr.reply]
  · rfl

/-- What the six requests refuse by the state of the handle they name. -/
structure RefusesByState (kind : Byte) (p : PortId) (h : HandleNo) (rule : Device → Device × Answer) : Prop where
  free : ∀ d : Device, d.handle p h = .free → rule d = (d, refuse .badHandle)
  committing : ∀ (d : Device) k b c, d.handle p h = .committing k b c → rule d = (d, refuse .busy)
  expired : kind ≠ 0x0A → ∀ (d : Device) k, d.handle p h = .expired k → rule d = (d, refuse .expired)
  revoked : kind ≠ 0x0A → ∀ (d : Device) k, d.handle p h = .revoked k → rule d = (d, refuse .revoked)
  reading : kind = 0x07 ∨ kind = 0x08 ∨ kind = 0x09 → ∀ (d : Device) k b c t, d.handle p h = .reading k b c t →
    rule d = (d, refuse .badHandle)

theorem refusesByState_read (p : PortId) (n : Nat) (h : HandleNo) : RefusesByState 0x05 p h (Device.read p n h) := by
  constructor <;> intros <;> simp_all [Device.read]

theorem refusesByState_seek (p : PortId) (n : Nat) (h : HandleNo) : RefusesByState 0x06 p h (Device.seek p n h) := by
  constructor <;> intros <;> simp_all [Device.seek]

theorem refusesByState_onWriter (kind : Byte) (p : PortId) (h : HandleNo)
    (rule : Key → BufferNo → Nat → Nat → Device → Device × Answer) :
    RefusesByState kind p h (Device.onWriter p h rule) := by
  constructor <;> intros <;> simp_all [Device.onWriter]

theorem refusesByState_close (p : PortId) (h : HandleNo) : RefusesByState 0x0A p h (Device.close p h) := by
  constructor <;> intros <;> simp_all [Device.close]

/-- The six requests that name a handle: what their first stage asks of the parameters, and what their rule refuses. -/
theorem exec_named {p : PortId} {number count hi lo : Byte} {bytes : List Byte} {s : State} {i : Instr} {kind : Byte}
    (hs : s.dev.serves p)
    (hik : i = .read p [number, count] ∧ kind = 0x05 ∨ i = .seek p [number, hi, lo] ∧ kind = 0x06 ∨
      i = .write p (number :: bytes) ∧ kind = 0x07 ∨ i = .truncate p [number, hi, lo] ∧ kind = 0x08 ∨
      i = .markDelete p [number] ∧ kind = 0x09 ∨ i = .close p [number] ∧ kind = 0x0A)
    (hb : kind = 0x07 → 1 ≤ bytes.length ∧ bytes.length ≤ 64) :
    ∃ (valuesOk : Bool) (rule : HandleNo → Device → Device × Answer),
      exec i s = .next ⟨s.pending, Device.reply p kind ((s.dev.port p).count + 1)
        ((s.dev.countRequest p).onHandle p number valuesOk rule)⟩ ∧
      (valuesOk = true ↔ ¬ ((kind = 0x05 ∧ (count.toNat = 0 ∨ 64 < count.toNat)) ∨
        ((kind = 0x06 ∨ kind = 0x08) ∧ 496 < nat16 hi lo))) ∧
      ∀ h, RefusesByState kind p h (rule h) := by
  obtain ⟨ht, hm⟩ := hs
  have ruled : ∀ {α : Type} (kind : Byte) (form : Option α) (x : α) (rule : α → Device → Device × Answer), form = some x →
      Host.Outcome.next (State.mk s.pending (s.dev.request p kind form false rule)) =
        (.next ⟨s.pending, Device.reply p kind ((s.dev.port p).count + 1) (rule x (s.dev.countRequest p))⟩ :
          Host.Outcome State Fault Refusal) := by
    intro α kind form x rule hx
    rw [hx, Device.request_ruled kind false x rule ht (.inr hm)]
  rcases hik with ⟨rfl, rfl⟩ | ⟨rfl, rfl⟩ | ⟨rfl, rfl⟩ | ⟨rfl, rfl⟩ | ⟨rfl, rfl⟩ | ⟨rfl, rfl⟩
  · refine ⟨_, _, ruled 0x05 (formRead [number, count]) (number, count.toNat) _ rfl, ?_, refusesByState_read p _⟩
    simp
    omega
  · refine ⟨_, _, ruled 0x06 (formHandleWord [number, hi, lo]) (number, nat16 hi lo) _ rfl, ?_, refusesByState_seek p _⟩
    simp
  · obtain ⟨h1, h64⟩ := hb rfl
    exact ⟨_, _, ruled 0x07 _ _ _ (formWrite_cons number h1 h64), by simp, fun h => refusesByState_onWriter _ p h _⟩
  · refine ⟨_, _, ruled 0x08 (formHandleWord [number, hi, lo]) (number, nat16 hi lo) _ rfl, ?_,
      fun h => refusesByState_onWriter _ p h _⟩
    simp
  · exact ⟨_, _, ruled 0x09 (formHandle [number]) number _ rfl, by simp, fun h => refusesByState_onWriter _ p h _⟩
  · exact ⟨_, _, ruled 0x0A (formHandle [number]) number _ rfl, by simp, refusesByState_close p⟩

/-- No handle number is 0 or above 4. -/
theorem Four.ofByte_none {b : Byte} (h : b.toNat = 0 ∨ 4 < b.toNat) : Four.ofByte b = none := by
  unfold Four.ofByte
  split
  case h_5 => rfl
  all_goals omega

/-- Settles O29: the number, then the other parameters, then the handle's state. -/
theorem handleStateRefusals : Obligations.HandleStateRefusals := by
  intro p number count hi lo bytes s i kind hs hik hb
  obtain ⟨valuesOk, rule, hexec, hok, hrefuses⟩ := exec_named (hi := hi) (lo := lo) hs hik hb
  refine ⟨fun hn => ?_, fun h hn => ⟨fun hout => ?_, fun hin => ?_⟩⟩
  · rw [hexec, Device.reply_onHandle, Four.ofByte_none hn]
  · have hfalse : valuesOk = false := by
      rw [← Bool.not_eq_true, hok]
      exact not_not_intro hout
    rw [hexec, Device.reply_onHandle, hn, hfalse]
    rfl
  · have refused : ∀ r, rule h ((s.dev.renew p h).countRequest p) = ((s.dev.renew p h).countRequest p, refuse r) →
        exec i s = .next ⟨s.pending, (s.dev.renew p h).answered p kind r []⟩ := by
      intro r hr
      rw [hexec, Device.reply_onHandle, hn, hok.2 hin]
      dsimp only
      rw [if_pos rfl, hr, refuse, Device.reply_counted]
    have handle : ∀ x, s.dev.handle p h = x → ((s.dev.renew p h).countRequest p).handle p h =
        x.renewed (s.dev.deadline p) := by
      intro x hx
      rw [Device.handle_countRequest, Device.handle_renew_same, hx]
    have kept : ∀ x, s.dev.handle p h = x → x.leaseRuns = false → s.dev.renew p h = s.dev :=
      fun x hx hl => Device.renew_other (by rw [hx, hl])
    refine ⟨fun hx => ?_, fun k b c hx => ?_, fun hk k => ⟨fun hx => ?_, fun hx => ?_⟩, fun hk k b c t hx => ?_⟩
    · rw [← kept _ hx rfl]
      exact refused _ ((hrefuses h).free _ (handle _ hx))
    · rw [← kept _ hx rfl]
      exact refused _ ((hrefuses h).committing _ k b c (handle _ hx))
    · rw [← kept _ hx rfl]
      exact refused _ ((hrefuses h).expired hk _ k (handle _ hx))
    · rw [← kept _ hx rfl]
      exact refused _ ((hrefuses h).revoked hk _ k (handle _ hx))
    · have hr := refused _ ((hrefuses h).reading hk _ k b c _ (handle _ hx))
      rwa [Device.renew_reading hx] at hr

/-! ## SEEK, TRUNCATE and MARK_DELETE (R76, R78, R79) -/

/-- A taken request that names a handle, its rule one that commutes with the count. -/
theorem request_named {p : PortId} {number kind : Byte} {h : HandleNo} {s : State} {α : Type} (form : Option α) {x : α}
    (valuesOk : Bool) (rule : HandleNo → Device → Device × Answer) (hs : s.dev.serves p)
    (hr : CommutesWithCount p (rule h)) (hn : Four.ofByte number = some h) (r : α → Device → Device × Answer)
    (hx : form = some x) (hrule : r x = Device.onHandle p number valuesOk rule) :
    s.dev.request p kind form false r = if valuesOk then
        (rule h (s.dev.renew p h)).1.answered p kind (rule h (s.dev.renew p h)).2.result
          (rule h (s.dev.renew p h)).2.payload
      else (s.dev.renew p h).answered p kind .badRequest [] := by
  rw [hx, Device.request_ruled kind false x r hs.1 (.inr hs.2), hrule, Device.reply_named kind valuesOk rule hr _ hn]

theorem exec_seek {p : PortId} {number : Byte} {h : HandleNo} {s : State} (hi lo : Byte) (hs : s.dev.serves p)
    (hn : Four.ofByte number = some h) : exec (.seek p [number, hi, lo]) s = .next ⟨s.pending,
      if nat16 hi lo ≤ 496 then
        ((s.dev.renew p h).seek p (nat16 hi lo) h).1.answered p 0x06 ((s.dev.renew p h).seek p (nat16 hi lo) h).2.result
          ((s.dev.renew p h).seek p (nat16 hi lo) h).2.payload
      else (s.dev.renew p h).answered p 0x06 .badRequest []⟩ := by
  show Host.Outcome.next (State.mk s.pending (s.dev.request p 0x06 (formHandleWord [number, hi, lo]) false _)) = _
  rw [request_named (formHandleWord [number, hi, lo]) (decide (nat16 hi lo ≤ 496)) (Device.seek p (nat16 hi lo)) hs
    (CommutesWithCount.seek p _ h) hn _ (x := (number, nat16 hi lo)) rfl rfl]
  simp only [decide_eq_true_eq]

/-- Settles O31: the offset against 496, then against the length of what the handle holds. -/
theorem seekSetsTheCursor : Obligations.SeekSetsTheCursor := by
  intro p number hi lo h s hs hn
  dsimp only
  generalize hnat : nat16 hi lo = n
  refine ⟨fun k v cursor deadline hx => ?_, fun k b cursor deadline hx => ?_⟩
  · rw [exec_seek hi lo hs hn, hnat, Device.renew_reading hx]
    by_cases h496 : n ≤ 496
    · by_cases hlen : n ≤ v.length
      · rw [if_pos h496, if_pos ⟨h496, hlen⟩]
        simp only [Device.seek, Device.handle_setHandle_same, hlen, if_true, Device.setHandle_setHandle]
        rfl
      · rw [if_pos h496, if_neg fun hc => hlen hc.2]
        simp only [Device.seek, Device.handle_setHandle_same, hlen, if_false]
        rfl
    · rw [if_neg h496, if_neg fun hc => h496 hc.1]
      rfl
  · rw [exec_seek hi lo hs hn, hnat, Device.renew_writing hx]
    by_cases h496 : n ≤ 496
    · by_cases hlen : n ≤ (s.dev.buffer b).length
      · rw [if_pos h496, if_pos ⟨h496, hlen⟩]
        simp only [Device.seek, Device.handle_setHandle_same, Device.buffer_setHandle, hlen, if_true,
          Device.setHandle_setHandle]
        rfl
      · rw [if_pos h496, if_neg fun hc => hlen hc.2]
        simp only [Device.seek, Device.handle_setHandle_same, Device.buffer_setHandle, hlen, if_false]
        rfl
    · rw [if_neg h496, if_neg fun hc => h496 hc.1]
      rfl

/-- Where the key's entry stands MARK_DELETE is accepted on LIVE and on DAMAGED. -/
theorem Device.deletable_of {d : Device} {k : Key} {e : Entry} (h : d.lookup k = some e) :
    d.deletable k = (e.state == .live || e.state == .damaged) := by
  rw [Device.deletable, h]
  rfl

/-- Settles O33: TRUNCATE's length against 496 and the buffer's length; MARK_DELETE by the state of the key's entry. -/
theorem truncateAndMarkDelete : Obligations.TruncateAndMarkDelete := by
  refine ⟨fun p number hi lo h s k b cursor deadline hs hn hx => ?_,
      fun p number h s k b cursor deadline e hs hn hx he => ?_⟩
  · show Host.Outcome.next (State.mk s.pending (s.dev.request p 0x08 (formHandleWord [number, hi, lo]) false _)) = _
    rw [request_named (formHandleWord [number, hi, lo]) (decide (nat16 hi lo ≤ 496)) (Device.truncate p (nat16 hi lo)) hs
      (CommutesWithCount.truncate p _ h) hn _ (x := (number, nat16 hi lo)) rfl rfl, Device.renew_writing hx]
    generalize nat16 hi lo = n
    dsimp only
    by_cases h496 : n ≤ 496
    · by_cases hlen : n ≤ (s.dev.buffer b).length
      · rw [if_pos (decide_eq_true h496), if_pos ⟨h496, hlen⟩, Device.truncate,
          Device.onWriter_writing _ (Device.handle_setHandle_same ..)]
        simp only [Device.buffer_setHandle, hlen, if_true, Device.setBuffer_setHandle, Device.setHandle_setHandle]
        rfl
      · rw [if_pos (decide_eq_true h496), if_neg fun hc => hlen hc.2, Device.truncate,
          Device.onWriter_writing _ (Device.handle_setHandle_same ..)]
        simp only [Device.buffer_setHandle, hlen, if_false]
        rfl
    · rw [if_neg (by simpa using h496), if_neg fun hc => h496 hc.1]
      rfl
  · have run : exec (.markDelete p [number]) s = .next ⟨s.pending,
        (((s.dev.renew p h).markDelete p h).1.answered p 0x09 ((s.dev.renew p h).markDelete p h).2.result
          ((s.dev.renew p h).markDelete p h).2.payload)⟩ := by
      show Host.Outcome.next (State.mk s.pending (s.dev.request p 0x09 (formHandle [number]) false _)) = _
      rw [request_named (formHandle [number]) true (Device.markDelete p) hs (CommutesWithCount.markDelete p h) hn _
        (x := number)
        rfl rfl]
      rfl
    have deletable : (s.dev.setHandle p h (.writing k b cursor (s.dev.deadline p))).deletable k =
        (e.state == .live || e.state == .damaged) := Device.deletable_of he
    rw [run, Device.renew_writing hx, Device.markDelete, Device.onWriter_writing _ (Device.handle_setHandle_same ..),
        deletable]
    refine ⟨fun hst => ?_, fun hst => ?_⟩
    · rw [if_pos (by rcases hst with h | h <;> simp [h])]
      simp only [Device.buffer_setHandle, Device.setBuffer_setHandle, Device.setHandle_setHandle]
      rfl
    · rw [if_neg (by rcases hst with h | h <;> simp [h])]
      rfl

/-! ## CLOSE (R81) -/

/-- A port whose request is counted, its handle FREE, before its reply. -/
theorem Device.free_counted (p : PortId) (h : HandleNo) (d : Device) :
    (d.countRequest p).setHandle p h .free =
      d.modPort p fun q => { q with handles := q.handles.set h .free, frame := none, count := q.count + 1 } := by
  rw [Device.countRequest, Device.setHandle, Device.modPort_modPort]

theorem exec_close {p : PortId} {number : Byte} {h : HandleNo} {s : State} (hs : s.dev.serves p)
    (hn : Four.ofByte number = some h) : exec (.close p [number]) s = .next ⟨s.pending,
      Device.reply p 0x0A ((s.dev.port p).count + 1) (((s.dev.renew p h).countRequest p).close p h)⟩ := by
  show Host.Outcome.next (State.mk s.pending (s.dev.request p 0x0A (some number) false _)) = _
  rw [Device.request_ruled _ _ _ _ hs.1 (.inr hs.2), Device.reply_onHandle, hn]
  simp only [if_true, Device.count_renew]

/-- The controller's state after the release of a pin: ERASING from HOLDING where the victim has no pin left. -/
theorem Device.endHolding_state (d : Device) :
    (d.reclaim.state = .holding → (∀ i r, d.reclaim.victim = some i → d.segments[i]? = some r → r.pins = 0) →
      d.endHolding.reclaim.state = .erasing) ∧
    (d.reclaim.state ≠ .holding ∨ ¬ (∀ i r, d.reclaim.victim = some i → d.segments[i]? = some r → r.pins = 0) →
      d.endHolding.reclaim.state = d.reclaim.state) := by
  have unpinned : (d.reclaim.victim.bind (d.segments[·]?)).all (fun r => r.pins == 0) = true ↔
      ∀ i r, d.reclaim.victim = some i → d.segments[i]? = some r → r.pins = 0 := by
    rw [Option.all_eq_true]
    refine ⟨fun h i r hi hr => ?_, fun h r hr => ?_⟩
    · simpa using h r (by rw [hi]; exact hr)
    · obtain ⟨i, hi, hr⟩ := Option.bind_eq_some_iff.1 hr
      simpa using h i r hi hr
  unfold Device.endHolding
  refine ⟨fun hs hp => by rw [if_pos ⟨hs, unpinned.2 hp⟩], fun hn => ?_⟩
  rw [if_neg fun hc => hn.elim (fun h => h hc.1) fun h => h (unpinned.1 hc.2)]

/-- Settles O34: CLOSE by the state of the handle. -/
theorem closeFreesTheHandle : Obligations.CloseFreesTheHandle := by
  intro p number h s hs hn taken reply
  have freed : ∀ x, (((s.dev.setHandle p h x).countRequest p).setHandle p h .free) = taken := by
    intro x
    rw [Device.setHandle_countRequest, Device.setHandle_setHandle, ← Device.setHandle_countRequest, Device.free_counted]
  have handle : ∀ x, ((s.dev.setHandle p h x).countRequest p).handle p h = x := fun x => by
    rw [Device.handle_countRequest, Device.handle_setHandle_same]
  refine ⟨fun k hx => ?_, fun k v cursor deadline hx => ?_, fun k b cursor deadline e hx he => ?_⟩
  · have kept : s.dev.renew p h = s.dev := Device.renew_other (by rcases hx with hx | hx <;> rw [hx] <;> rfl)
    rw [exec_close hs hn, kept]
    rcases hx with hx | hx <;> simp only [Device.close, Device.handle_countRequest, hx, Device.free_counted] <;> rfl
  · intro segments unpinned
    rw [exec_close hs hn, Device.renew_reading hx]
    have hclose := handle (.reading k v cursor (s.dev.deadline p))
    generalize hd : (s.dev.setHandle p h (.reading k v cursor (s.dev.deadline p))).countRequest p = d at hclose
    have hstate := (((d.modEntry k fun e => { e with pins := e.pins - 1 }).modSegment v.location.seg fun r =>
      { r with pins := r.pins - 1 }).endHolding_state)
    have hfree := freed (.reading k v cursor (s.dev.deadline p))
    rw [hd] at hfree
    refine ⟨(d.dropReader p h k v .free).reclaim.state, ?_, fun h1 h2 => ?_, fun hor => ?_⟩
    · simp only [Device.close, hclose]
      rw [d.dropReader_eq]
      dsimp only
      rw [hfree]
      subst hd
      rfl
    · subst hd
      exact hstate.1 h1 h2
    · subst hd
      exact hstate.2 hor
  · rw [exec_close hs hn, Device.renew_writing hx]
    have hclose := handle (.writing k b cursor (s.dev.deadline p))
    have hlookup : ((s.dev.setHandle p h (.writing k b cursor (s.dev.deadline p))).countRequest p).lookup k = some e := he
    simp only [Device.close, hclose]
    rw [Device.dropWriter_eq p h b .free hlookup, freed]
    rfl

end Sys2Proof.Machine
end

section
/-! SUPPORT. Rights, watches, notices, RECLAIM, ENUMERATE, lease expiry and mount's classes: the statements
RightsByTheTable, MountClassifiesByTheFirstRow, WatchAnswersByTheFirstRow, NoticesAreQueuedAndCollected,
ReclaimSetsRequested, EnumerateFindsTheLowestReadable and LeaseExpiryEndsTheHandle. -/

namespace Sys2Proof.Machine

/-! ## Rights (R149) -/

/-- One zone alone includes the key: its rights are the port's. -/
theorem AccessTable.rights_of_zone {t : AccessTable} {k : Key} {z : Zone} (p : PortId) (hz : z ∈ t.zones)
    (hfirst : z.first ≤ k) (hlast : k ≤ z.last) (hone : ∀ y ∈ t.zones, y.first ≤ k → k ≤ y.last → y = z) :
    t.rights p k = z.rights.get p := by
  unfold AccessTable.rights
  cases hf : t.zones.find? fun z => decide (z.first ≤ k) && decide (k ≤ z.last) with
  | none => exact absurd (List.find?_eq_none.1 hf z hz) (by simp [hfirst, hlast])
  | some y =>
    have hy : y.first ≤ k ∧ k ≤ y.last := by simpa using List.find?_some hf
    rw [hone y (List.mem_of_find?_eq_some hf) hy.1 hy.2]

/-- No zone includes the key: the port has its default rights. -/
theorem AccessTable.rights_of_default {t : AccessTable} {k : Key} (p : PortId)
    (hnone : ∀ z ∈ t.zones, ¬ (z.first ≤ k ∧ k ≤ z.last)) : t.rights p k = t.defaults.get p := by
  unfold AccessTable.rights
  rw [List.find?_eq_none.2 (by simpa using hnone)]

/-- Settles O55: the absent table, key 0000h, and a user key by its zone or the default rights. -/
theorem rightsByTheTable : Obligations.RightsByTheTable := by
  intro p k
  refine ⟨⟨rfl, rfl, rfl⟩, fun t => ⟨⟨rfl, rfl, rfl⟩, fun hk => ?_⟩⟩
  simp only [mayRead, mayWrite, mayWatch, hk, if_false]
  refine ⟨fun z hz hfirst hlast hone => ?_, fun hnone => ?_⟩
  · rw [AccessTable.rights_of_zone p hz hfirst hlast hone]
    exact ⟨rfl, rfl, rfl⟩
  · rw [AccessTable.rights_of_default p hnone]
    exact ⟨rfl, rfl, rfl⟩

/-! ## Mount's classes (R163) -/

theorem Cell.isBlank_iff (c : Cell) : c.isBlank = true ↔ c = .blank := by
  cases c <;> simp [Cell.isBlank]

/-- Settles O14: R163's rows, each under the conditions that no row before it matches. -/
theorem mountClassifiesByTheFirstRow : Obligations.MountClassifiesByTheFirstRow := by
  intro im
  unfold SegmentImage.classify
  dsimp only
  refine ⟨fun hr => if_pos hr, fun hr he ho hs => ?_, fun hr he ho hs => ?_, fun hr he ho hs => ?_, fun hr hrest => ?_⟩
  · have blanks : im.frames.all Cell.isBlank = true ↔ ∀ c ∈ im.frames, c = .blank := by
      simp only [List.all_eq_true, Cell.isBlank_iff]
    simp only [hr, if_false, he, ho, hs, and_self, if_true, blanks]
  · simp [hr, he, ho, hs]
  · simp [hr, he, ho, hs]
  · rcases hrest with he | ho | ⟨ho, hs⟩
    · simp [hr, he]
    · simp [hr, ho]
    · simp [hr, ho, hs]

/-! ## WATCH (R132) -/

/-- Settles O40: WATCH's rows, in their order. -/
theorem watchAnswersByTheFirstRow : Obligations.WatchAnswersByTheFirstRow := by
  intro p hi lo s ht k list
  show Host.Outcome.next (State.mk s.pending (s.dev.request p 0x0E (some k) false (Device.watch p))) = _
  by_cases hm : s.dev.store = .mounting
  · rw [if_pos hm, Device.request_mounting _ _ _ ht hm]
  · have hlist : ((s.dev.countRequest p).port p).watch = list := by rw [Device.port_countRequest]
    have htable : (s.dev.countRequest p).table = s.dev.table := rfl
    rw [if_neg hm, Device.request_ruled _ _ _ _ ht (.inr hm), Device.watch, hlist, htable]
    by_cases hk : k = 0xFFFF#16
    · rw [if_pos hk, if_pos hk, refuse, Device.reply_counted]
    rw [if_neg hk, if_neg hk]
    by_cases hr : mayWatch s.dev.table p k = false
    · rw [if_pos hr, if_pos hr, refuse, Device.reply_counted]
    rw [if_neg hr, if_neg hr]
    by_cases hin : k ∈ list
    · rw [if_pos (List.contains_iff_mem.2 hin), if_pos hin, ok, Device.reply_counted, byteOf]
    rw [if_neg (fun h => hin (List.contains_iff_mem.1 h)), if_neg hin]
    by_cases hfull : 16 ≤ list.length
    · rw [if_pos hfull, if_pos hfull, refuse, Device.reply_counted]
    · have hset : s.dev.setWatch p (list ++ [k]) = s.dev.modPort p fun q => { q with watch := q.watch ++ [k] } :=
        Device.modPort_congr rfl
      rw [if_neg hfull, if_neg hfull, ok, Device.reply_setWatch, hset, byteOf]

/-! ## The notice queue (R141, R144, R145, R182) -/

theorem be16_extract (n : Nat) :
    be16 n = [(BitVec.ofNat 16 n).extractLsb' 8 8, (BitVec.ofNat 16 n).extractLsb' 0 8] := by
  have hhi : BitVec.ofNat 8 (n / 2 ^ 8) = (BitVec.ofNat 16 n).extractLsb' 8 8 := by
    apply BitVec.eq_of_toNat_eq
    simp only [BitVec.toNat_ofNat, BitVec.extractLsb'_toNat, Nat.shiftRight_eq_div_pow]
    omega
  have hlo : BitVec.ofNat 8 n = (BitVec.ofNat 16 n).extractLsb' 0 8 := by
    apply BitVec.eq_of_toNat_eq
    simp only [BitVec.toNat_ofNat, BitVec.extractLsb'_toNat, Nat.shiftRight_eq_div_pow]
    omega
  rw [be16, hhi, hlo]

theorem be32_extract (n : Nat) :
    be32 n = [(BitVec.ofNat 32 n).extractLsb' 24 8, (BitVec.ofNat 32 n).extractLsb' 16 8,
      (BitVec.ofNat 32 n).extractLsb' 8 8, (BitVec.ofNat 32 n).extractLsb' 0 8] := by
  have hbyte : ∀ i, i ≤ 24 → BitVec.ofNat 8 (n / 2 ^ i) = (BitVec.ofNat 32 n).extractLsb' i 8 := by
    intro i hi
    apply BitVec.eq_of_getLsbD_eq
    intro j hj
    simp only [BitVec.getLsbD_ofNat, BitVec.getLsbD_extractLsb', Nat.testBit_div_two_pow, hj, decide_true, Bool.true_and]
    rw [Nat.add_comm]
    simp only [show i + j < 32 by omega, decide_true, Bool.true_and]
  have h0 := hbyte 0 (by omega)
  rw [Nat.pow_zero, Nat.div_one] at h0
  rw [be32, be24, be16, hbyte 24 (by omega), hbyte 16 (by omega), hbyte 8 (by omega), h0]

/-- NEXT_NOTICE, taken in a store that is not MOUNTING. -/
theorem exec_nextNotice {p : PortId} {s : State} (ht : s.dev.takes p) (hm : s.dev.store ≠ .mounting) :
    exec (.nextNotice p []) s = .next ⟨s.pending,
      Device.reply p 0x11 ((s.dev.port p).count + 1) ((s.dev.countRequest p).nextNotice p)⟩ := by
  show Host.Outcome.next (State.mk s.pending (s.dev.request p 0x11 (some ()) false fun _ => Device.nextNotice p)) = _
  rw [Device.request_ruled _ _ _ _ ht (.inr hm)]

/-- Settles O42: an offer by R141's rows, NEXT_NOTICE by the queue and the overflow bit, and the notices' bytes. -/
theorem noticesAreQueuedAndCollected : Obligations.NoticesAreQueuedAndCollected := by
  refine ⟨fun n q => ⟨fun ho hl => ?_, fun ho hl => ?_, fun ho => ?_, ?_⟩,
      fun p s ht => ⟨fun hm => ?_, fun hm => ⟨?_, ?_, ?_⟩⟩, ?_⟩
  · rw [Port.offer_eq, if_neg (by simp [ho]), if_pos hl]
  · rw [Port.offer_eq, if_neg (by simp [ho]), if_neg (by omega)]
  · rw [Port.offer_eq, if_pos ho]
  · simp [Port.attention]
  · show Host.Outcome.next (State.mk s.pending (s.dev.request p 0x11 (some ()) false fun _ => Device.nextNotice p)) = _
    rw [Device.request_mounting _ _ _ ht hm]
  · intro n rest hn
    rw [exec_nextNotice ht hm]
    simp only [Device.nextNotice, Device.port_countRequest, hn, ok]
    rw [Device.reply_modPort _ _ _ _ _ _ (fun _ _ => rfl) rfl, byteOf]
  · intro hn ho
    rw [exec_nextNotice ht hm]
    simp only [Device.nextNotice, Device.port_countRequest, hn, ho, if_true, ok]
    rw [Device.reply_modPort _ _ _ _ _ _ (fun _ _ => rfl) rfl]
    rfl
  · intro hn ho
    rw [exec_nextNotice ht hm]
    simp only [Device.nextNotice, Device.port_countRequest, hn, ho, Bool.false_eq_true, if_false, ok]
    rw [Device.reply_counted]
    rfl
  · intro k sequence length ticket h _ _ key word four two number
    have hnumber : h.toByte = number := by cases h <;> rfl
    simp only [Notice.bytes, keyBytes_extract, be32_extract, be16_extract, hnumber, Option.getD_some]
    exact ⟨rfl, rfl, rfl, rfl, rfl, rfl, rfl, rfl, rfl, rfl, rfl, rfl, rfl, rfl, rfl⟩

/-! ## RECLAIM (R130) -/

/-- The requested flag after a RECLAIM. -/
theorem Device.requestReclaim_eq (d : Device) : d.requestReclaim =
    { d with reclaim := { d.reclaim with requested := d.reclaimUseful || d.reclaim.requested } } := by
  unfold Device.requestReclaim
  cases d.reclaimUseful <;> simp

theorem Device.reclaimUseful_iff (d : Device) :
    d.reclaimUseful = true ↔ d.reclaim.state ≠ .idle ∨ d.candidates ≠ [] ∨ d.fixes ≠ [] := by
  simp [Device.reclaimUseful, or_assoc]

theorem Device.reclaimUseful_countRequest (d : Device) (p : PortId) :
    (d.countRequest p).reclaimUseful = d.reclaimUseful := rfl

/-- Settles O43: the flag by R130's condition, on the counted device; READ_ONLY refuses. -/
theorem reclaimSetsRequested : Obligations.ReclaimSetsRequested := by
  intro p s ⟨ht, hm⟩
  have run : exec (.reclaim p []) s = .next ⟨s.pending,
      Device.reply p 0x13 ((s.dev.port p).count + 1) (s.dev.countRequest p).reclaimRequest⟩ := by
    show Host.Outcome.next (State.mk s.pending (s.dev.request p 0x13 (some ()) false fun _ => Device.reclaimRequest)) = _
    rw [Device.request_ruled _ _ _ _ ht (.inr hm)]
  refine ⟨fun hstore => ?_, fun r hstore => ?_⟩
  · refine ⟨(s.dev.countRequest p).requestReclaim, s.dev.reclaimUseful || s.dev.reclaim.requested, ?_, ?_, ?_⟩
    · have hwrites : (s.dev.countRequest p).store.isReadOnly = false := by
        rw [Device.countRequest_store, hstore, StoreState.isReadOnly]
      rw [run, Device.reclaimRequest, hwrites, Device.requestReclaim_eq, Device.reclaimUseful_countRequest]
      have hflag : byteOf (s.dev.reclaimUseful || s.dev.reclaim.requested).toNat =
          if s.dev.reclaimUseful || s.dev.reclaim.requested then 0x01 else 0x00 := by
        cases s.dev.reclaimUseful || s.dev.reclaim.requested <;> rfl
      rw [← hflag]
      rfl
    · rw [Device.requestReclaim_eq]
      rfl
    · rw [Bool.or_eq_true, Device.reclaimUseful_iff, or_comm]
  · have hrefuses : (s.dev.countRequest p).store.isReadOnly = true := by
      rw [Device.countRequest_store, hstore, StoreState.isReadOnly]
    rw [run, Device.reclaimRequest, if_pos hrefuses, refuse, Device.reply_counted]

/-! ## ENUMERATE (R64) -/

/-- In rising order of key, the first entry that passes a test is the one of lowest key. -/
theorem find?_lowest {es : List Entry} {test : Entry → Bool} {e : Entry} (hr : es.Pairwise fun x y => x.key < y.key)
    (he : e ∈ es) (ht : test e = true) (hlow : ∀ x ∈ es, test x = true → e.key ≤ x.key) : es.find? test = some e := by
  cases hf : es.find? test with
  | none => exact absurd ht (List.find?_eq_none.1 hf e he)
  | some x =>
    obtain ⟨hx, before, after, rfl, hbefore⟩ := List.find?_eq_some_iff_append.1 hf
    have hle := hlow x (by simp) hx
    rcases List.mem_append.1 he with hb | hb
    · exact absurd ht (by simpa using hbefore e hb)
    rcases List.mem_cons.1 hb with rfl | ha
    · rfl
    · have hlt := List.rel_of_pairwise_cons (List.pairwise_append.1 hr).2.1 ha
      exact absurd hle (BitVec.not_le.2 hlt)

/-- Settles O24: the search finds the lowest entry that is LIVE and readable, or none. -/
theorem enumerateFindsTheLowestReadable : Obligations.EnumerateFindsTheLowestReadable := by
  intro p hi lo s ⟨ht, hm⟩ hr
  have run : exec (.enumerate p [hi, lo]) s = .next ⟨s.pending,
      Device.reply p 0x12 ((s.dev.port p).count + 1) ((s.dev.countRequest p).enumerate p (keyOf hi lo))⟩ := by
    show Host.Outcome.next (State.mk s.pending (s.dev.request p 0x12 (some (keyOf hi lo)) false (Device.enumerate p))) = _
    rw [Device.request_ruled _ _ _ _ ht (.inr hm)]
  have search : (s.dev.countRequest p).enumerated p (keyOf hi lo) = s.dev.directory.find? fun e =>
      decide (keyOf hi lo ≤ e.key) && e.state == .live && mayRead s.dev.table p e.key := rfl
  refine ⟨fun e he hfrom hlive hread hlow => ?_, fun hnone => ?_⟩
  · rw [run, Device.enumerate, search, find?_lowest hr he (by simp [hfrom, hlive, hread]) fun x hx hpass => ?_]
    · exact congrArg _ (congrArg _ (Device.reply_counted ..))
    · simp only [Bool.and_eq_true, decide_eq_true_eq, beq_iff_eq] at hpass
      obtain ⟨⟨hxfrom, hxlive⟩, hxread⟩ := hpass
      exact hlow x hx hxfrom hxlive hxread
  · rw [run, Device.enumerate, search, List.find?_eq_none.2 fun x hx hpass => ?_]
    · exact congrArg _ (congrArg _ (Device.reply_counted ..))
    · simp only [Bool.and_eq_true, decide_eq_true_eq, beq_iff_eq] at hpass
      obtain ⟨⟨hxfrom, hxlive⟩, hxread⟩ := hpass
      rw [hnone x hx hxfrom hxlive] at hxread
      exact Bool.false_ne_true hxread

/-! ## Lease expiry (R83 to R85) -/

/-- A handle changed and a notice offered to its port. -/
theorem Device.offer_setHandle (p : PortId) (h : HandleNo) (x : Handle) (n : Notice) (d : Device) :
    ((d.setHandle p h x).modPort p fun q => q.offer n) =
      d.modPort p fun q => { q.offer n with handles := q.handles.set h x } := by
  simp only [Device.setHandle, Device.modPort_modPort, Port.offer_with_handles]

/-- The release of a pin. -/
theorem Device.unpin_eq (k : Key) (i : Nat) (d : Device) : d.unpin k i = { d with
    directory := (d.modEntry k fun e => { e with pins := e.pins - 1 }).directory
    segments := d.segments.modify i fun r => { r with pins := r.pins - 1 }
    reclaim := { d.reclaim with state := (d.unpin k i).reclaim.state } } := by
  unfold Device.unpin
  rw [Device.endHolding_eq]
  rfl

/-- Settles O45: the expiry's two handles, before and from their deadline on. -/
theorem leaseExpiryEndsTheHandle : Obligations.LeaseExpiryEndsTheHandle := by
  intro p h moment s now' expired
  have early : ∀ deadline, now' < deadline → (s.dev.reach moment).ranOut deadline = false := fun deadline hd =>
    decide_eq_false (Nat.not_le.2 hd)
  have due : ∀ deadline, deadline ≤ now' → (s.dev.reach moment).ranOut deadline = true := fun deadline hd =>
    decide_eq_true hd
  refine ⟨fun k v cursor deadline hx => ⟨fun hd => ?_, fun hd => ?_⟩,
    fun k b cursor deadline e hx he => ⟨fun hd => ?_, fun hd => ?_⟩⟩
  · refine ran_unchanged ?_
    simp only [Device.expireReader, hx, early deadline hd, Bool.false_eq_true, if_false]
  · intro segments unpinned
    have hstate := ((((s.dev.reach moment).modEntry k fun e => { e with pins := e.pins - 1 }).modSegment v.location.seg
      fun r => { r with pins := r.pins - 1 }).endHolding_state)
    refine ⟨((s.dev.reach moment).unpin k v.location.seg).reclaim.state, ?_, hstate.1, hstate.2⟩
    show Host.Outcome.next (State.mk s.pending (s.dev.expireReader p h moment)) = _
    simp only [Device.expireReader, hx, due deadline hd, if_true]
    rw [Device.dropReader, Device.offerExpired, Device.offer_setHandle, Device.unpin_eq]
    rfl
  · refine ran_unchanged ?_
    simp only [Device.expireWriter, hx, early deadline hd, Bool.false_eq_true, if_false]
  · have hlookup : (s.dev.reach moment).lookup k = some e := he
    show Host.Outcome.next (State.mk s.pending (s.dev.expireWriter p h moment)) = _
    simp only [Device.expireWriter, hx, due deadline hd, if_true]
    rw [Device.dropWriter, Device.offerExpired, Device.offer_setHandle, Device.releaseClaim_eq hlookup]
    rfl

end Sys2Proof.Machine
end

section
/-! SUPPORT. How a version reads in the array, and READ: the statement ReadReturnsBytesAndAdvances. -/

namespace Sys2Proof.Machine

/-! ## The value bytes of a version (R6, R75) -/

/-- A list read through an option is read whole exactly where each of its elements is. -/
theorem mapM_eq_some_iff {α β : Type} (f : α → Option β) (xs : List α) (ys : List β) :
    xs.mapM f = some ys ↔ List.Forall₂ (fun x y => f x = some y) xs ys := by
  induction xs generalizing ys with
  | nil => cases ys <;> simp
  | cons x rest ih =>
    cases ys with
    | nil => cases hx : f x <;> cases hr : rest.mapM f <;> simp [hx, hr]
    | cons y more =>
      rw [List.forall₂_cons, ← ih]
      cases hx : f x <;> cases hr : rest.mapM f <;> simp [hx, hr]

/-- The first bytes of a version, where its frames hold them. -/
theorem Device.heldBytes_eq_some {d : Device} {l : Loc} {n : Nat} {bytes : List Byte} :
    d.heldBytes l n = some bytes ↔ bytes.length = n ∧ ∀ i, i < n → d.heldByte l i = bytes[i]? := by
  rw [Device.heldBytes, mapM_eq_some_iff, List.forall₂_iff_get]
  constructor
  · rintro ⟨hlen, hget⟩
    rw [List.length_range] at hlen
    refine ⟨hlen.symm, fun i hi => ?_⟩
    have := hget i (by simpa using hi) (by omega)
    rw [List.getElem?_eq_getElem (by omega)]
    simpa using this
  · rintro ⟨hlen, hget⟩
    refine ⟨by simp [hlen], fun i hi hi' => ?_⟩
    have := hget i (by simpa using hi)
    rw [List.getElem?_eq_getElem (by omega)] at this
    simpa using this

theorem Device.heldBytes_none {d : Device} {l : Loc} {n i : Nat} (hi : i < n) (h : d.heldByte l i = none) :
    d.heldBytes l n = none := by
  cases hb : d.heldBytes l n with
  | none => rfl
  | some bytes =>
    obtain ⟨hlen, hget⟩ := Device.heldBytes_eq_some.1 hb
    rw [hget i hi, List.getElem?_eq_getElem (by omega)] at h
    simp at h

/-- Byte `i` in the first frame, or in the further one that R6 puts it in. -/
theorem Device.heldByte_eq (d : Device) (l : Loc) (i : Nat) : d.heldByte l i =
    if i < 48 then (d.cell l).asFirst.bind fun f => f.data[i]?
    else (d.cell ⟨l.seg, l.frame + (1 + (i - 48) / 64)⟩).asMore.bind fun bytes => bytes[(i - 48) % 64]? := by
  unfold Device.heldByte partOf
  split
  · simp [Device.part, Option.bind_map]
  · rw [Nat.add_comm 1]
    rfl

/-- A check agrees where the two CRCs are one. -/
theorem Check.good_over (h h' : VersionHeader) (bytes bytes' : List Byte) :
    (Check.over h' bytes').good h bytes = true ↔ Config.crc h' bytes' = Config.crc h bytes := by
  simp only [Check.good, Bool.or_eq_true, decide_eq_true_eq, beq_iff_eq]
  refine ⟨fun hg => ?_, .inr⟩
  rcases hg with ⟨rfl, rfl⟩ | hcrc
  · rfl
  · exact hcrc

theorem Device.checkGood_noFirst {d : Device} {l : Loc} (h : (d.cell l).asFirst = none) : d.checkGood l = false := by
  unfold Device.checkGood
  rw [h]

theorem Device.checkGood_noBytes {d : Device} {l : Loc} {f : First} (h : (d.cell l).asFirst = some f)
    (hb : d.heldBytes l f.header.length = none) : d.checkGood l = false := by
  simp only [Device.checkGood, h, hb]

theorem Device.checkGood_bytes {d : Device} {l : Loc} {f : First} {bytes : List Byte} (h : (d.cell l).asFirst = some f)
    (hb : d.heldBytes l f.header.length = some bytes) : d.checkGood l = f.check.good f.header bytes := by
  simp only [Device.checkGood, h, hb]

theorem Device.checkGood_bad {d : Device} {l : Loc} {f : First} (h : (d.cell l).asFirst = some f) (hc : f.check = .bad) :
    d.checkGood l = false := by
  cases hb : d.heldBytes l f.header.length with
  | none => exact Device.checkGood_noBytes h hb
  | some bytes => rw [Device.checkGood_bytes h hb, hc, Check.good]

/-! ## A seal's keys (R5) -/

theorem keyOf_extract (k : Key) : keyOf (k.extractLsb' 8 8) (k.extractLsb' 0 8) = k := by
  rw [keyOf_append]
  ext i hi
  simp only [BitVec.getElem_append, BitVec.getElem_extractLsb']
  split
  · simp [BitVec.getLsbD_eq_getElem hi]
  · simp [show 8 + (i - 8) = i by omega, BitVec.getLsbD_eq_getElem hi]

/-- Keys written one after another are read back, as many as are counted or as there are. -/
theorem takeKeys_flatMap (keys : List Key) (rest : List Byte) (n : Nat) (hn : keys.length ≤ n)
    (h : keys.length = n ∨ rest.length ≤ 1) :
    takeKeys n (keys.flatMap (fun k => [k.extractLsb' 8 8, k.extractLsb' 0 8]) ++ rest) = keys := by
  induction keys generalizing n with
  | nil =>
    rcases h with rfl | hr
    · simp [takeKeys]
    · match rest, hr with
      | [], _ => simp [takeKeys]
      | [b], _ => simp [takeKeys]
  | cons k more ih =>
    match n, hn with
    | m + 1, hn =>
      simp only [List.length_cons, Nat.add_right_cancel_iff, Nat.add_le_add_iff_right] at h hn
      simp only [List.flatMap_cons, List.cons_append, List.nil_append, takeKeys, keyOf_extract, ih m hn h]

/-! ## READ (R75) -/

theorem exec_read {p : PortId} {number count : Byte} {h : HandleNo} {s : State} (hs : s.dev.serves p)
    (hn : Four.ofByte number = some h) (h1 : 1 ≤ count.toNat) (h64 : count.toNat ≤ 64) :
    exec (.read p [number, count]) s = .next ⟨s.pending,
      ((s.dev.renew p h).read p count.toNat h).1.answered p 0x05 ((s.dev.renew p h).read p count.toNat h).2.result
        ((s.dev.renew p h).read p count.toNat h).2.payload⟩ := by
  show Host.Outcome.next (State.mk s.pending (s.dev.request p 0x05 (formRead [number, count]) false _)) = _
  rw [request_named (formRead [number, count]) (decide (1 ≤ count.toNat) && decide (count.toNat ≤ 64))
    (Device.read p count.toNat) hs (CommutesWithCount.read p _ h) hn _ (x := (number, count.toNat)) rfl rfl]
  simp only [h1, h64, decide_true, Bool.and_self, if_true]

/-- Settles O30: how the frames of a version hold its bytes and its check, and READ on the renewed handle. -/
theorem readReturnsBytesAndAdvances : Obligations.ReadReturnsBytesAndAdvances := by
  unfold Obligations.ReadReturnsBytesAndAdvances
  intro asFirst asFurther
  have hfirst : ∀ c : Cell, asFirst c = c.asFirst := fun c => by cases c <;> rfl
  have hmore : ∀ c : Cell, asFurther c = c.asMore := fun c => by cases c <;> rfl
  refine ⟨fun d l => ?_, fun p number count h s hs hn h1 h64 =>
    ⟨fun k v cursor deadline hx => ?_, fun k b cursor deadline hx => ?_⟩⟩
  · intro first further held stray
    have hheld : ∀ i, held i = d.heldByte l i := fun i => by
      rw [Device.heldByte_eq, ← hfirst, ← hmore]
    refine ⟨fun i => ?_, fun hnone => ?_, fun f hf => ⟨fun hbad => ?_, fun i hi hnone => ?_, ?_, fun hdata => ?_, ?_⟩⟩
    · have hstray : Config.strayByte (l.plus (partOf i).1) (partOf i).2 = stray i := by
        by_cases hi : i < 48 <;> simp [stray, partOf, hi, Loc.plus]
      rw [hheld, ← hstray, Device.valueByte]
    · have hnone' : (d.cell l).asFirst = none := (hfirst _).symm.trans hnone
      exact ⟨Device.checkGood_noFirst hnone', by simp [Device.sealKeysAt, Device.part, hnone', sealKeys]⟩
    · exact Device.checkGood_bad ((hfirst _).symm.trans hf) hbad
    · exact Device.checkGood_noBytes ((hfirst _).symm.trans hf) (Device.heldBytes_none hi ((hheld i).symm.trans hnone))
    · intro bytes bytes' h' hlen hbytes hover
      have hb : d.heldBytes l f.header.length = some bytes :=
        Device.heldBytes_eq_some.2 ⟨hlen, fun i hi => (hheld i).symm.trans (hbytes i hi)⟩
      rw [Device.checkGood_bytes ((hfirst _).symm.trans hf) hb, hover, Check.good_over]
    · have hf' : (d.cell l).asFirst = some f := (hfirst _).symm.trans hf
      simp [Device.sealKeysAt, Device.part, hf', hdata, sealKeys]
    · intro count keys rest hle hor hdata
      have hf' : (d.cell l).asFirst = some f := (hfirst _).symm.trans hf
      simp only [Device.sealKeysAt, Device.part, hf', Option.map_some, Option.getD_some, hdata, List.cons_append, sealKeys]
      exact takeKeys_flatMap keys rest _ hle hor
  · rw [exec_read hs hn h1 h64, Device.renew_reading hx]
    simp only [Device.read, Device.handle_setHandle_same, Device.setHandle_setHandle]
    rfl
  · rw [exec_read hs hn h1 h64, Device.renew_writing hx]
    simp only [Device.read, Device.handle_setHandle_same, Device.buffer_setHandle, Device.setHandle_setHandle]
    rfl

end Sys2Proof.Machine
end

section
/-! SUPPORT. OPEN_READ and OPEN_WRITE: the statements OpenReadBindsOrDetectsDamage, OpenWriteTakesTheClaim,
OpenWritePreloads and OpensRefuseInOrder. -/

namespace Sys2Proof.Machine

/-! ## The lowest FREE handle and the lowest free buffer -/

theorem Device.findFirst_free (d : Device) (p : PortId) :
    (d.port p).handles.findFirst Handle.isFree = Four.all.find? fun j => decide (d.handle p j = .free) := by
  have hfree : ∀ x : Handle, x.isFree = decide (x = .free) := fun x => by cases x <;> rfl
  simp only [Quad.findFirst, hfree]
  rfl

theorem Device.findFirst_free_none {d : Device} {p : PortId} (h : ∀ j, d.handle p j ≠ .free) :
    (d.port p).handles.findFirst Handle.isFree = none := by
  rw [Device.findFirst_free, List.find?_eq_none]
  simpa using fun j _ => h j

theorem Four.mem_all (i : Four) : i ∈ Four.all := by cases i <;> decide

theorem Device.findFirst_free_some {d : Device} {p : PortId} (h : ∃ j, d.handle p j = .free) :
    ∃ j, (d.port p).handles.findFirst Handle.isFree = some j := by
  obtain ⟨j, hj⟩ := h
  rw [Device.findFirst_free]
  exact Option.isSome_iff_exists.1 (List.find?_isSome.2 ⟨j, Four.mem_all j, by simp [hj]⟩)

theorem Device.findFirst_buffer (d : Device) :
    d.buffers.findFirst Buffer.isFree = Four.all.find? fun j => (d.buffer j).owner.isNone := rfl

theorem Device.findFirst_buffer_none {d : Device} (h : ∀ b, (d.buffer b).owner ≠ none) :
    d.buffers.findFirst Buffer.isFree = none := by
  rw [Device.findFirst_buffer, List.find?_eq_none]
  simpa using fun j _ => h j

theorem Device.findFirst_buffer_some {d : Device} (h : ∃ b, (d.buffer b).owner = none) :
    ∃ b, d.buffers.findFirst Buffer.isFree = some b := by
  obtain ⟨b, hb⟩ := h
  rw [Device.findFirst_buffer]
  exact Option.isSome_iff_exists.1 (List.find?_isSome.2 ⟨b, Four.mem_all b, by simp [hb]⟩)

/-- The count of a request changes no handle. -/
theorem Device.handles_countRequest (d : Device) (p : PortId) :
    ((d.countRequest p).port p).handles = (d.port p).handles := by
  rw [Device.port_countRequest]

/-! ## Damage found on a LIVE entry (R59, R60, R137, R151) -/

theorem Device.offerWatchers_eq (k : Key) (n : Notice) (d : Device) :
    d.offerWatchers k n = d.mapPorts fun _ q => if k ∈ q.watch then q.offer n else q := by
  simp only [Device.offerWatchers, List.contains_iff_mem]

/-- Damage found where it was not known: the entry is DAMAGED with its mark pending, and watchers are told. -/
theorem Device.detectDamage_new {d : Device} {k : Key} {e : Entry} (h : d.lookup k = some e)
    (hnew : ¬ (e.state = .damaged ∧ e.markPending = true)) :
    d.detectDamage k =
      let found := (d.modEntry k fun e => { e with state := .damaged, markPending := true }).mapPorts fun _ q =>
        if k ∈ q.watch then q.offer (.damaged k) else q
      if k = accessKey then { found with table := none, tableInvalid := false } else found := by
  unfold Device.detectDamage
  rw [h]
  dsimp only
  rw [if_neg hnew, Device.offerWatchers_eq]

theorem Device.detectDamage_live {d : Device} {k : Key} {e : Entry} (h : d.lookup k = some e) (hl : e.state = .live) :
    d.detectDamage k =
      let found := (d.modEntry k fun e => { e with state := .damaged, markPending := true }).mapPorts fun _ q =>
        if k ∈ q.watch then q.offer (.damaged k) else q
      if k = accessKey then { found with table := none, tableInvalid := false } else found :=
  Device.detectDamage_new h (by simp [hl])

theorem Device.lookup_congr {d d' : Device} (h : d'.directory = d.directory) (k : Key) : d'.lookup k = d.lookup k := by
  rw [Device.lookup, h, Device.lookup]

/-- Two changes of one entry in turn are one change. -/
theorem Device.modEntry_modEntry {k : Key} {f g u : Entry → Entry} (d : Device)
    (h : ∀ e, { g { f e with key := e.key } with key := e.key } = { u e with key := e.key }) :
    (d.modEntry k f).modEntry k g = d.modEntry k u := by
  have hchange : Entry.changeAt k g ∘ Entry.changeAt k f = Entry.changeAt k u := by
    funext e
    simp only [Function.comp_apply, Entry.changeAt]
    by_cases he : e.key = k
    · simp only [he, if_true]
      rw [← he]
      exact h e
    · simp only [he, if_false]
  simp only [Device.modEntry, List.map_map, hchange]

/-! ## OPEN_READ (R71, R72) -/

theorem exec_openRead {p : PortId} {s : State} (hi lo : Byte) (hs : s.dev.serves p) :
    exec (.openRead p [hi, lo]) s = .next ⟨s.pending,
      Device.reply p 0x03 ((s.dev.port p).count + 1) ((s.dev.countRequest p).openRead p (keyOf hi lo))⟩ := by
  show Host.Outcome.next (State.mk s.pending (s.dev.request p 0x03 (some (keyOf hi lo)) false (Device.openRead p))) = _
  rw [Device.request_ruled _ _ _ _ hs.1 (.inr hs.2)]

/-- The checks passed: the version's check decides. -/
theorem Device.openRead_live {d : Device} {p : PortId} {k : Key} {e : Entry} {l : Loc} (hk : k ≠ 0xFFFF#16)
    (hr : mayRead d.table p k = true) (he : d.lookup k = some e) (hlive : e.state = .live) (hl : e.location = some l) :
    d.openRead p k = d.openReadLive p e l := by
  unfold Device.openRead
  rw [if_neg hk, if_neg (by simp [hr]), he]
  dsimp only
  rw [hlive, hl]

/-- Settles O25: the version's check, good or bad, on the counted device. -/
theorem openReadBindsOrDetectsDamage : Obligations.OpenReadBindsOrDetectsDamage := by
  intro p hi lo s e l h hs k hk hr he hlive hl hfree
  have hopen : (s.dev.countRequest p).openRead p k = (s.dev.countRequest p).openReadLive p e l :=
    Device.openRead_live hk hr he hlive hl
  have hfirst : ((s.dev.countRequest p).port p).handles.findFirst Handle.isFree = some h := by
    rw [Device.handles_countRequest, Device.findFirst_free, hfree]
  have hkey : e.key = k := Device.lookup_key he
  have hcheck : (s.dev.countRequest p).checkGood l = s.dev.checkGood l := rfl
  rw [exec_openRead hi lo hs, hopen, Device.openReadLive, hfirst]
  dsimp only
  rw [hcheck, hkey]
  refine ⟨fun hgood => ?_, fun hbad => ?_⟩
  · have hbind : (s.dev.countRequest p).bindReader p h e l = (Device.countRequest p ((s.dev.modEntry k fun e =>
        { e with pins := e.pins + 1 }).modSegment l.seg fun r => { r with pins := r.pins + 1 })).setHandle p h
          (.reading k { location := l, length := e.length, sequence := e.sequence.getD 0 } 0 (s.dev.deadline p)) := by
      rw [Device.bindReader, Device.deadline_countRequest, hkey]
      rfl
    rw [if_pos hgood, hbind]
    exact congrArg _ (congrArg _ (Device.reply_setHandle ..))
  · rw [if_neg (by simp [hbad]), Device.detectDamage_live (by exact he) hlive]
    rfl

/-! ## OPEN_WRITE (R73, R74) -/

theorem exec_openWrite {p : PortId} {s : State} (hi lo options : Byte) (ho : options.toNat < 4) (hs : s.dev.serves p) :
    exec (.openWrite p [hi, lo, options]) s = .next ⟨s.pending,
      Device.reply p 0x04 ((s.dev.port p).count + 1)
        ((s.dev.countRequest p).openWrite p (keyOf hi lo, options.getLsbD 0, options.getLsbD 1))⟩ := by
  have hform : formOpenWrite [hi, lo, options] = some (keyOf hi lo, options.getLsbD 0, options.getLsbD 1) := if_pos ho
  show Host.Outcome.next (State.mk s.pending (s.dev.request p 0x04 (formOpenWrite [hi, lo, options]) false _)) = _
  rw [hform, Device.request_ruled _ _ _ _ hs.1 (.inr hs.2)]

theorem StoreState.isReadOnly_false {st : StoreState} (h : ∀ r, st ≠ .readOnly r) : st.isReadOnly = false := by
  cases st with
  | readOnly r => exact absurd rfl (h r)
  | normal | mounting => rfl

/-- R73's checks passed. -/
theorem Device.openWrite_opens {d : Device} {p : PortId} {k : Key} {create : Bool} {h : HandleNo} {b : BufferNo}
    (preload : Bool) (hk : k ≠ 0xFFFF#16) (hs : ∀ r, d.store ≠ .readOnly r) (hw : mayWrite d.table p k = true)
    (hc : (d.lookup k).bind (·.claim) = none) (ho : (opensWithout (d.lookup k) || create) = true)
    (hh : (d.port p).handles.findFirst Handle.isFree = some h) (hb : d.buffers.findFirst Buffer.isFree = some b)
    (hroom : d.lookup k = none → d.entriesUsed < 1024) :
    d.openWrite p (k, create, preload) = d.openWriter p h b k preload := by
  have hfull : ¬ ((d.lookup k).isNone && decide (Config.directoryCapacity ≤ d.entriesUsed)) = true := by
    rw [Bool.and_eq_true, decide_eq_true_eq, Option.isNone_iff_eq_none, not_and, Nat.not_le]
    exact hroom
  simp only [Device.openWrite, hk, if_false, StoreState.isReadOnly_false hs, Bool.false_eq_true, hw, hc, ho, hh, hb,
    Bool.true_eq_false, Option.isSome_none, if_neg hfull]

/-- Where PRELOAD finds no damage: the claim, the buffer with the value, the WRITING handle. -/
theorem Device.openWriter_opened {d : Device} {k : Key} {preload : Bool} (p : PortId) (h : HandleNo) (b : BufferNo)
    (hd : d.preloadDamaged k preload = false) :
    d.openWriter p h b k preload =
      (((d.takeClaim p h k).setBuffer b (((d.takeClaim p h k).buffer b).opened p h (d.preloaded k preload))).setHandle p h
          (.writing k b 0 ((d.takeClaim p h k).deadline p)),
        ok (h.toByte :: (be16 (d.preloaded k preload).length ++ [(d.takeClaim p h k).stateCode k]))) := by
  simp only [Device.openWriter, hd, Bool.false_eq_true, if_false]
  rfl

theorem Device.takeClaim_new {d : Device} {k : Key} (p : PortId) (h : HandleNo) (hl : d.lookup k = none) :
    d.takeClaim p h k = d.addEntry (Entry.fresh k (p, h)) := by
  simp only [Device.takeClaim, hl]

theorem Device.takeClaim_old {d : Device} {k : Key} {e : Entry} (p : PortId) (h : HandleNo) (hl : d.lookup k = some e) :
    d.takeClaim p h k = d.modEntry k fun e => { e with claim := some (p, h) } := by
  simp only [Device.takeClaim, hl]

theorem Device.stateCode_of {d : Device} {k : Key} {e : Entry} (h : d.lookup k = some e) :
    d.stateCode k = e.state.code := by
  rw [Device.stateCode, h]

theorem Buffer.opened_empty (p : PortId) (h : HandleNo) (b : Buffer) :
    b.opened p h [] = { b with owner := some (p, h), intent := .value, length := 0 } := by
  simp [Buffer.opened, placeBytes]

/-- PRELOAD loads nothing and finds no damage but on a LIVE key. -/
theorem Device.preload_other {d : Device} {k : Key} {preload : Bool}
    (h : ∀ e, d.lookup k = some e → e.state = .live → preload = false) :
    d.preloaded k preload = [] ∧ d.preloadDamaged k preload = false := by
  unfold Device.preloaded Device.preloadDamaged
  cases he : d.lookup k with
  | none => exact ⟨rfl, rfl⟩
  | some e =>
    dsimp only
    cases hs : e.state with
    | live => cases e.location <;> simp [h e he hs]
    | pending | gone | damaged => exact ⟨rfl, rfl⟩

/-- The reply to an OPEN_WRITE that loads `value` and finds no damage. -/
theorem Device.reply_openWriter {d : Device} {k : Key} {preload : Bool} {value : List Byte} {code : Byte} (p : PortId)
    (h : HandleNo) (b : BufferNo) (claimed : Device)
    (hload : d.preloaded k preload = value ∧ d.preloadDamaged k preload = false)
    (hclaim : (d.countRequest p).takeClaim p h k = claimed.countRequest p)
    (hbuffer : claimed.buffer b = d.buffer b) (hcount : (claimed.port p).count = (d.port p).count)
    (hcode : claimed.stateCode k = code) :
    Device.reply p 0x04 ((d.port p).count + 1) ((d.countRequest p).openWriter p h b k preload) =
      ((claimed.setBuffer b ((d.buffer b).opened p h value)).setHandle p h
        (.writing k b 0 (claimed.deadline p))).answered p 0x04 .ok (h.toByte :: (be16 value.length ++ [code])) := by
  obtain ⟨hvalue, hdamaged⟩ := hload
  have hvalue' : (d.countRequest p).preloaded k preload = value := hvalue
  have hcode' : (claimed.countRequest p).stateCode k = code := hcode
  rw [Device.openWriter_opened p h b (by exact hdamaged), hvalue', hclaim, Device.deadline_countRequest,
    Device.buffer_countRequest, hbuffer, hcode', ← hcount, ok, Device.reply_setBuffer]

/-- Settles O26: R73's checks are passed, and the claim is taken on a new entry or on the one there is. -/
theorem openWriteTakesTheClaim : Obligations.OpenWriteTakesTheClaim := by
  intro p hi lo options s h b hs hk hstore hw hfree hbuffer
  generalize hkey : keyOf hi lo = k at hk hw ⊢
  have hfirst : ((s.dev.countRequest p).port p).handles.findFirst Handle.isFree = some h := by
    rw [Device.handles_countRequest, Device.findFirst_free, hfree]
  refine ⟨fun ho hnone hroom => ?_, fun e he hclaim hrow => ?_⟩
  · have hbits : options.toNat < 4 ∧ options.getLsbD 0 = true := by rcases ho with rfl | rfl <;> decide
    have hadd : (s.dev.countRequest p).takeClaim p h k = (s.dev.addEntry (Entry.fresh k (p, h))).countRequest p :=
      Device.takeClaim_new p h hnone
    have hcode : (s.dev.addEntry (Entry.fresh k (p, h))).stateCode k = 0x00 :=
      Device.stateCode_of (Device.lookup_addEntry (e := Entry.fresh k (p, h)) hnone)
    rw [exec_openWrite hi lo options hbits.1 hs, hkey, Device.openWrite_opens (d := s.dev.countRequest p) _ hk hstore hw
      (by rw [Device.lookup_countRequest, hnone]; rfl) (by rw [hbits.2, Bool.or_true]) hfirst hbuffer fun _ => hroom,
      Device.reply_openWriter p h b _ (Device.preload_other fun e he => by rw [hnone] at he; contradiction) hadd rfl rfl
      hcode, Buffer.opened_empty]
    rfl
  · have hbits : options.toNat < 4 ∧ (opensWithout (some e) || options.getLsbD 0) = true ∧
        (e.state = .live → options.getLsbD 1 = false) := by
      rcases hrow with ⟨hst, rfl | rfl⟩ | ⟨hst, ho⟩ | ⟨hst, rfl | rfl⟩
      · exact ⟨by decide, by simp [opensWithout, hst], fun _ => by decide⟩
      · exact ⟨by decide, by simp [opensWithout, hst], fun _ => by decide⟩
      · exact ⟨ho, by simp [opensWithout, hst], fun hl => by rw [hst] at hl; contradiction⟩
      · exact ⟨by decide, by simp, fun hl => by rw [hst] at hl; contradiction⟩
      · exact ⟨by decide, by simp, fun hl => by rw [hst] at hl; contradiction⟩
    obtain ⟨hfour, hopens, hload⟩ := hbits
    have hmod : (s.dev.countRequest p).takeClaim p h k =
        (s.dev.modEntry k fun e => { e with claim := some (p, h) }).countRequest p := Device.takeClaim_old p h he
    have hcode : (s.dev.modEntry k fun e => { e with claim := some (p, h) }).stateCode k = e.state.code :=
      (Device.stateCode_of (Device.lookup_modEntry_same _ he)).trans rfl
    have hnoClaim : ((s.dev.countRequest p).lookup k).bind (·.claim) = none := by
      rw [Device.lookup_countRequest, he]
      exact hclaim
    rw [exec_openWrite hi lo options hfour hs, hkey,
        Device.openWrite_opens (d := s.dev.countRequest p) _ hk hstore hw hnoClaim
      (by rw [Device.lookup_countRequest, he]; exact hopens) hfirst hbuffer
      fun hnone => by rw [Device.lookup_countRequest, he] at hnone; contradiction]
    rw [Device.reply_openWriter p h b _ (Device.preload_other fun e' he' hl => ?_) hmod rfl rfl hcode, Buffer.opened_empty]
    · rfl
    · rw [he] at he'
      obtain rfl := Option.some.inj he'
      exact hload hl

/-! ## PRELOAD of a LIVE key (R60, R74) -/

theorem Device.preload_live {d : Device} {k : Key} {e : Entry} {l : Loc} (he : d.lookup k = some e)
    (hlive : e.state = .live) (hl : e.location = some l) :
    d.preloaded k true = (if d.checkGood l then d.valueBytes l 0 e.length else []) ∧
      d.preloadDamaged k true = !d.checkGood l := by
  simp only [Device.preloaded, Device.preloadDamaged, he, hlive, hl, Bool.true_and, and_self]

/-- Where PRELOAD finds damage: the claim, the empty buffer, the WRITING handle, and then the damage. -/
theorem Device.openWriter_damaged {d : Device} {k : Key} (p : PortId) (h : HandleNo) (b : BufferNo)
    (hload : d.preloaded k true = []) (hd : d.preloadDamaged k true = true) :
    d.openWriter p h b k true =
      let opened := (((d.takeClaim p h k).setBuffer b (((d.takeClaim p h k).buffer b).opened p h [])).setHandle p h
          (.writing k b 0 ((d.takeClaim p h k).deadline p)))
      ((opened.detectDamage k).arbiter, ok [h.toByte, 0x00, 0x00, (opened.detectDamage k).stateCode k]) := by
  simp only [Device.openWriter, hload, hd, if_true]
  rfl

/-- The code of an entry found damaged. -/
theorem Device.stateCode_detectDamage {d : Device} {k : Key} {e : Entry} (h : d.lookup k = some e) (hl : e.state = .live) :
    (d.detectDamage k).stateCode k = 0x03 := by
  have hdir : (d.detectDamage k).directory =
      (d.modEntry k fun e => { e with state := .damaged, markPending := true }).directory := by
    rw [Device.detectDamage_live h hl]
    dsimp only
    split <;> rfl
  have hfound : (d.detectDamage k).lookup k = some { e with state := .damaged, markPending := true, key := k } := by
    rw [Device.lookup_congr hdir]
    exact Device.lookup_modEntry_same _ h
  rw [Device.stateCode_of hfound]
  rfl

/-- Settles O27: PRELOAD of a LIVE key, its check good or bad. -/
theorem openWritePreloads : Obligations.OpenWritePreloads := by
  intro p hi lo options s e l h b hs ho hk hstore hw he hclaim hlive hl hfree hbuffer
  generalize hkey : keyOf hi lo = k at hk hw he ⊢
  intro writing value
  have hbits : options.toNat < 4 ∧ options.getLsbD 1 = true := by rcases ho with rfl | rfl <;> decide
  have hfirst : ((s.dev.countRequest p).port p).handles.findFirst Handle.isFree = some h := by
    rw [Device.handles_countRequest, Device.findFirst_free, hfree]
  have hnoClaim : ((s.dev.countRequest p).lookup k).bind (·.claim) = none := by
    rw [Device.lookup_countRequest, he]
    exact hclaim
  have run : exec (.openWrite p [hi, lo, options]) s = .next ⟨s.pending,
      Device.reply p 0x04 ((s.dev.port p).count + 1) ((s.dev.countRequest p).openWriter p h b k true)⟩ := by
    rw [exec_openWrite hi lo options hbits.1 hs, hkey, hbits.2,
        Device.openWrite_opens (d := s.dev.countRequest p) _ hk hstore hw hnoClaim
      (by rw [Device.lookup_countRequest, he]; simp [opensWithout, hlive]) hfirst hbuffer
      fun hnone => by rw [Device.lookup_countRequest, he] at hnone; contradiction]
  obtain ⟨hloaded, hdamaged⟩ := Device.preload_live he hlive hl
  have hclaimed : (s.dev.countRequest p).takeClaim p h k =
      (s.dev.modEntry k fun e => { e with claim := some (p, h) }).countRequest p := Device.takeClaim_old p h he
  rw [run]
  refine ⟨fun hgood => ?_, fun hbad => ?_⟩
  · have hvalue : s.dev.preloaded k true = value := by
      rw [hloaded, if_pos hgood]
      simp only [Device.valueBytes, Nat.zero_add]
      rfl
    have hlength : value.length = e.length := by simp [value]
    have hcode : (s.dev.modEntry k fun e => { e with claim := some (p, h) }).stateCode k = 0x01 := by
      rw [Device.stateCode_of (Device.lookup_modEntry_same _ he)]
      simp only [hlive]
      rfl
    have hopened : (s.dev.buffer b).opened p h value =
        { owner := some (p, h)
          intent := .value
          length := e.length
          bytes := value ++ (s.dev.buffer b).bytes.drop e.length } := by
      simp [Buffer.opened, placeBytes, hlength]
    rw [Device.reply_openWriter p h b _ ⟨hvalue, by rw [hdamaged, hgood]; rfl⟩ hclaimed rfl rfl hcode, hopened, hlength]
    rfl
  · have hempty : (s.dev.countRequest p).preloaded k true = [] := hloaded.trans (if_neg (by simp [hbad]))
    have hfinds : (s.dev.countRequest p).preloadDamaged k true = true := by
      show s.dev.preloadDamaged k true = true
      rw [hdamaged, hbad]
      rfl
    rw [Device.openWriter_damaged p h b hempty hfinds, hclaimed, Device.deadline_countRequest,
      Device.buffer_countRequest, Buffer.opened_empty]
    dsimp only
    have hlook : ((((s.dev.modEntry k fun e => { e with claim := some (p, h) }).countRequest p).setBuffer b
        { (s.dev.modEntry k fun e => { e with claim := some (p, h) }).buffer b with
          owner := some (p, h)
          intent := .value
          length := 0 }).setHandle p h
        (.writing k b 0 ((s.dev.modEntry k fun e => { e with claim := some (p, h) }).deadline p))).lookup k =
          some { e with claim := some (p, h), key := k } := Device.lookup_modEntry_same _ he
    rw [Device.stateCode_detectDamage hlook hlive, Device.detectDamage_live hlook hlive]
    dsimp only
    have hfused : (((s.dev.countRequest p).modEntry k fun e => { e with claim := some (p, h) }).modEntry k fun e =>
        { e with state := .damaged, markPending := true }) = (s.dev.countRequest p).modEntry k fun e =>
          { e with claim := some (p, h), state := .damaged, markPending := true } :=
      Device.modEntry_modEntry _ fun _ => rfl
    have hfound := congrArg (fun d : Device => (((d.setBuffer b
      { s.dev.buffer b with owner := some (p, h), intent := .value, length := 0 }).setHandle p h writing).mapPorts
        fun _ q => if k ∈ q.watch then q.offer (.damaged k) else q)) hfused
    dsimp only at hfound
    refine congrArg _ (congrArg _ ?_)
    rw [Device.reply]
    dsimp only
    have hgoal : ∀ found found' : Device, found = found' →
        (if k = accessKey then { found with table := none, tableInvalid := false } else found) =
          if k = accessKey then { found' with table := none, tableInvalid := false } else found' := by
      rintro found _ rfl
      rfl
    exact congrArg _ (congrArg _ (hgoal _ _ hfound))

/-! ## The refusals (R71, R73) -/

/-- A refusal on the counted device. -/
theorem Device.reply_refuse {d : Device} {p : PortId} {kind : Byte} {r : Result} {x : Device × Answer}
    (h : x = (d.countRequest p, refuse r)) :
    Device.reply p kind ((d.port p).count + 1) x = d.answered p kind r [] := by
  rw [h, refuse, Device.reply_counted]

/-- Settles O28: each refusal under the conditions that no check before it refuses. -/
theorem opensRefuseInOrder : Obligations.OpensRefuseInOrder := by
  refine ⟨fun p hi lo s hs => ?_, fun p hi lo options s hs ho => ?_⟩
  · intro refused k
    have refuses : ∀ r, (s.dev.countRequest p).openRead p k = (s.dev.countRequest p, refuse r) → refused r := by
      intro r hr
      exact (exec_openRead hi lo hs).trans (congrArg _ (congrArg _ (Device.reply_refuse hr)))
    refine ⟨fun hk => ?_, fun hk hr => ?_, fun hk hr hn => ?_, fun e hk hr he =>
      ⟨fun hst => ?_, fun hst => ?_, fun hst => ?_, fun hst hl hfree => ?_⟩⟩ <;> apply refuses <;> unfold Device.openRead
    · rw [if_pos hk]
    · rw [if_neg hk, if_pos (by exact hr)]
    all_goals rw [if_neg hk, if_neg (by rw [Device.countRequest_table, hr]; decide), Device.lookup_countRequest]
    · rw [hn]
    · rw [he]
      simp only [hst]
    · rw [he]
      simp only [hst]
    · rw [he]
      simp only [hst]
    · obtain ⟨l, hl'⟩ := Option.ne_none_iff_exists'.1 hl
      rw [he]
      simp only [hst, hl', Device.openReadLive, Device.handles_countRequest, Device.findFirst_free_none hfree]
  · intro refused k e
    have refuses : ∀ r, (s.dev.countRequest p).openWrite p (k, options.getLsbD 0, options.getLsbD 1) =
        (s.dev.countRequest p, refuse r) → refused r := by
      intro r hr
      exact (exec_openWrite hi lo options ho hs).trans (congrArg _ (congrArg _ (Device.reply_refuse hr)))
    have hlook : (s.dev.countRequest p).lookup k = e := rfl
    refine ⟨fun hk => ?_, fun hk hro => ?_, fun hk hst hw => ?_, fun hk hst hw => ⟨fun hc => ?_, fun hc =>
      ⟨fun hcreate hgone => ?_, fun hopen => ⟨fun hfree => ?_,
          fun hfree => ⟨fun hbuf => ?_, fun hbuf hnone hroom => ?_⟩⟩⟩⟩⟩ <;>
      apply refuses <;> unfold Device.openWrite <;> dsimp only
    · rw [if_pos hk]
    · obtain ⟨r, hr⟩ := hro
      rw [if_neg hk, if_pos (by rw [Device.countRequest_store, hr]; rfl)]
    all_goals rw [if_neg hk, if_neg (by rw [Device.countRequest_store, hst]; decide)]
    · rw [if_pos (by exact hw)]
    all_goals rw [if_neg (by rw [Device.countRequest_table, hw]; decide), hlook]
    · obtain ⟨x, c, hx, hcl⟩ := hc
      rw [if_pos (by rw [hx, Option.bind_some, hcl]; rfl)]
    all_goals
      have hnoClaim : ¬ (e.bind (·.claim)).isSome = true := by
        cases hx : e with
        | none => simp
        | some x => simp [hc x hx]
      rw [if_neg hnoClaim]
    · have hshut : opensWithout e = false := by
        cases hx : e with
        | none => rfl
        | some x => rcases hgone x hx with h | h <;> simp [opensWithout, h]
      rw [if_pos (by rw [hshut, hcreate]; rfl)]
    all_goals
      have hopens : ¬ (opensWithout e || options.getLsbD 0) = false := by
        rcases hopen with h | ⟨x, hx, h | h⟩
        · simp [h]
        · simp [hx, opensWithout, h]
        · simp [hx, opensWithout, h]
      rw [if_neg hopens, Device.handles_countRequest, Device.countRequest_buffers]
    · rw [Device.findFirst_free_none hfree]
    · obtain ⟨h, hh⟩ := Device.findFirst_free_some hfree
      rw [hh, Device.findFirst_buffer_none hbuf]
    · obtain ⟨h, hh⟩ := Device.findFirst_free_some hfree
      obtain ⟨b, hb⟩ := Device.findFirst_buffer_some hbuf
      rw [hh, hb]
      dsimp only
      have hfull : decide (Config.directoryCapacity ≤ (s.dev.countRequest p).entriesUsed) = true := decide_eq_true hroom
      rw [if_pos (by rw [hnone, hfull]; rfl)]

end Sys2Proof.Machine
end

section
/-! SUPPORT. The end of several writers in turn, the end of a commit, and the head commit's turn: the statement
HeadCommitTurn. -/

namespace Sys2Proof.Machine

/-! ## What is read of a device after steps taken in turn -/

/-- What no step changes, all of them leave as it was. -/
theorem foldl_keeps {β γ : Type} {step : Device → β → Device} (f : Device → γ) (ms : List β)
    (h : ∀ m ∈ ms, ∀ d, f (step d m) = f d) (d : Device) : f (ms.foldl step d) = f d := by
  induction ms generalizing d with
  | nil => rfl
  | cons m rest ih =>
    rw [List.foldl_cons, ih (fun x hx => h x (List.mem_cons_of_mem m hx)), h m List.mem_cons_self]

/-- Steps that each bring about the same change where they touch: it is brought about where any of them touches. `P` is
what is known of the device before the steps that are left. -/
theorem foldl_touches {β ι α : Type} {step : Device → β → Device} (obs : Device → ι → α) (change : α → α)
    (touches : β → ι → Prop) (P : List β → Device → Prop) (hchange : ∀ a, change (change a) = change a)
    (hP : ∀ m rest d, P (m :: rest) d → P rest (step d m))
    (hstep : ∀ m rest d i, P (m :: rest) d →
      (touches m i → obs (step d m) i = change (obs d i)) ∧ (¬ touches m i → obs (step d m) i = obs d i))
    (ms : List β) (d : Device) (hd : P ms d) (i : ι) :
    ((∃ m ∈ ms, touches m i) → obs (ms.foldl step d) i = change (obs d i)) ∧
      ((∀ m ∈ ms, ¬ touches m i) → obs (ms.foldl step d) i = obs d i) := by
  induction ms generalizing d with
  | nil => exact ⟨fun ⟨m, hm, _⟩ => absurd hm List.not_mem_nil, fun _ => rfl⟩
  | cons m rest ih =>
    obtain ⟨htouched, hkept⟩ := hstep m rest d i hd
    obtain ⟨ihtouched, ihkept⟩ := ih _ (hP m rest d hd)
    rw [List.foldl_cons]
    refine ⟨fun ⟨x, hx, hxi⟩ => ?_, fun hnone => ?_⟩
    · by_cases hmore : ∃ y ∈ rest, touches y i
      · rw [ihtouched hmore]
        by_cases hm : touches m i
        · rw [htouched hm, hchange]
        · rw [hkept hm]
      · rw [ihkept fun y hy hyi => hmore ⟨y, hy, hyi⟩]
        rcases List.mem_cons.1 hx with rfl | hx
        · exact htouched hxi
        · exact absurd ⟨x, hx, hxi⟩ hmore
    · rw [ihkept fun y hy => hnone y (List.mem_cons_of_mem m hy), hkept (hnone m List.mem_cons_self)]

/-- Steps that each give their own place a value of its own. -/
theorem foldl_places {β ι α : Type} {step : Device → β → Device} (obs : Device → ι → α) (place : β → ι) (value : β → α)
    (P : List β → Device → Prop) (hP : ∀ m rest d, P (m :: rest) d → P rest (step d m))
    (hstep : ∀ m rest d, P (m :: rest) d →
      obs (step d m) (place m) = value m ∧ ∀ i, i ≠ place m → obs (step d m) i = obs d i)
    (ms : List β) (hn : (ms.map place).Nodup) (d : Device) (hd : P ms d) :
    (∀ m ∈ ms, obs (ms.foldl step d) (place m) = value m) ∧
      ∀ i, i ∉ ms.map place → obs (ms.foldl step d) i = obs d i := by
  induction ms generalizing d with
  | nil => exact ⟨fun m hm => absurd hm List.not_mem_nil, fun _ _ => rfl⟩
  | cons m rest ih =>
    obtain ⟨hout, hrest⟩ := List.nodup_cons.1 hn
    obtain ⟨hvalue, hother⟩ := hstep m rest d hd
    obtain ⟨ihvalue, ihother⟩ := ih hrest _ (hP m rest d hd)
    rw [List.foldl_cons]
    refine ⟨fun x hx => ?_, fun i hi => ?_⟩
    · rcases List.mem_cons.1 hx with rfl | hx
      · rw [ihother _ hout, hvalue]
      · exact ihvalue x hx
    · obtain ⟨hne, hi⟩ := not_or.1 (fun h => hi (List.mem_cons.2 h))
      rw [ihother i hi, hother i hne]

/-! ## The end of a writer (R48, R56, R70) -/

/-- The entry that the end of its claim leaves: none of a PENDING one. -/
def Entry.released (e : Entry) : Option Entry := if e.state = .pending then none else some { e with claim := none }

theorem Entry.released_released (x : Option Entry) :
    (x.bind Entry.released).bind Entry.released = x.bind Entry.released := by
  cases x with
  | none => rfl
  | some e => by_cases h : e.state = .pending <;> simp [Entry.released, h]

theorem Device.lookup_removeEntry (d : Device) (k j : Key) :
    (d.removeEntry k).lookup j = if j = k then none else d.lookup j := by
  unfold Device.lookup Device.removeEntry
  rw [List.find?_filter]
  split
  case isTrue hj =>
    subst hj
    rw [List.find?_eq_none]
    intro x _ hx
    simp at hx
  case isFalse hj =>
    congr 1
    funext x
    by_cases hx : x.key = j
    · simp [hx, hj]
    · simp [hx]

theorem Device.lookup_releaseClaim (d : Device) (k j : Key) :
    (d.releaseClaim k).lookup j = if j = k then (d.lookup j).bind Entry.released else d.lookup j := by
  cases hl : d.lookup k with
  | none =>
    rw [Device.releaseClaim_absent hl]
    split
    case isTrue hj => rw [hj, hl]; rfl
    case isFalse => rfl
  | some e =>
    unfold Device.releaseClaim
    rw [hl]
    dsimp only
    by_cases hp : e.state = .pending
    · rw [if_pos hp, Device.lookup_removeEntry]
      split
      case isTrue hj => rw [hj, hl]; simp [Entry.released, hp]
      case isFalse => rfl
    · rw [if_neg hp]
      split
      case isTrue hj =>
        rw [hj, Device.lookup_modEntry_same _ hl, hl]
        simp [Entry.released, hp, Device.lookup_key hl]
      case isFalse hj => exact Device.lookup_modEntry_other _ hj

theorem Device.lookup_dropWriter (d : Device) (p : PortId) (h : HandleNo) (k : Key) (b : BufferNo) (x : Handle) (j : Key) :
    (d.dropWriter p h k b x).lookup j = if j = k then (d.lookup j).bind Entry.released else d.lookup j :=
  Device.lookup_releaseClaim d k j

theorem Device.buffer_dropWriter (d : Device) (p : PortId) (h : HandleNo) (k : Key) (b : BufferNo) (x : Handle)
    (c : BufferNo) :
    (d.dropWriter p h k b x).buffer c = if c = b then Buffer.cleared else d.buffer c := by
  rw [Device.dropWriter_frame]
  exact Quad.get_set ..

theorem Device.handle_dropWriter (d : Device) (p : PortId) (h : HandleNo) (k : Key) (b : BufferNo) (x : Handle)
    (j : HandleNo) :
    (d.dropWriter p h k b x).handle p j = if j = h then x else d.handle p j := by
  split
  case isTrue hj => rw [hj, Device.handle_dropWriter_same]
  case isFalse hj => exact Device.handle_dropWriter_other d p k b x hj

/-! ## Ports whose handles alone have changed -/

theorem portClears_port_same {p : PortId} {d d' : Device} (h : portClears p d d') :
    d'.port p = { d.port p with handles := (d'.port p).handles } := by
  unfold portClears at h
  generalize hh : (d'.port p).handles = H at h ⊢
  rw [h]
  exact Device.port_modPort_same p (fun q => { q with handles := H }) d

theorem portClears_port_other {p q : PortId} {d d' : Device} (h : portClears p d d') (hq : q ≠ p) :
    d'.port q = d.port q := by
  unfold portClears at h
  rw [h]
  exact Device.port_modPort_other (fun q => { q with handles := (d'.port p).handles }) d hq

/-! ## The end of a commit with an outcome other than DONE (R103, R108, R110) -/

theorem Device.returnWriter_clears (p : PortId) (h : HandleNo) (d : Device) : portClears p d (d.returnWriter p h) := by
  unfold Device.returnWriter
  split
  · exact Device.setHandle_clears ..
  · exact portClears_refl p d

theorem Device.endMember_clears (c : CommitRecord) (o : CommitOutcome) (d : Device) (m : Member) :
    portClears c.port d (d.endMember c o m) := by
  unfold Device.endMember
  split
  · exact d.dropWriter_clears ..
  · split
    · exact d.dropWriter_clears ..
    · exact d.returnWriter_clears ..

theorem Device.endMembers_clears (c : CommitRecord) (o : CommitOutcome) (d : Device) :
    portClears c.port d (c.members.foldl (Device.endMember c o) d) :=
  portClears_foldl _ _ (fun m _ d => d.endMember_clears c o m) d

/-- R110: after a reset of its port a commit's writers are dropped. -/
theorem Device.endMember_reset {c : CommitRecord} (h : c.portReset = true) (o : CommitOutcome) (d : Device) (m : Member) :
    d.endMember c o m = d.dropWriter c.port m.handle m.key m.buffer .free := by
  rw [Device.endMember, if_pos h]

/-- R108: a writer without its right is revoked. -/
theorem Device.endMember_denied {c : CommitRecord} (h : c.portReset = false) {o : CommitOutcome} {d : Device} {m : Member}
    (hd : o = .denied ∧ mayWrite d.table c.port m.key = false) :
    d.endMember c o m = d.dropWriter c.port m.handle m.key m.buffer (.revoked m.key) := by
  rw [Device.endMember, if_neg (by simp [h]), if_pos hd]

/-- R103: another writer returns. -/
theorem Device.endMember_returns {c : CommitRecord} (h : c.portReset = false) {o : CommitOutcome} {d : Device} {m : Member}
    (hd : ¬ (o = .denied ∧ mayWrite d.table c.port m.key = false)) :
    d.endMember c o m = d.returnWriter c.port m.handle := by
  rw [Device.endMember, if_neg (by simp [h]), if_neg hd]

theorem Device.returnWriter_frame (p : PortId) (h : HandleNo) (d : Device) :
    d.returnWriter p h = { d with ports := (d.returnWriter p h).ports } := by
  unfold Device.returnWriter
  split <;> rfl

theorem Device.lookup_returnWriter (p : PortId) (h : HandleNo) (d : Device) (k : Key) :
    (d.returnWriter p h).lookup k = d.lookup k := by
  rw [Device.returnWriter_frame]
  rfl

theorem Device.buffer_returnWriter (p : PortId) (h : HandleNo) (d : Device) (b : BufferNo) :
    (d.returnWriter p h).buffer b = d.buffer b := by
  rw [Device.returnWriter_frame]
  rfl

theorem Device.returnWriter_committing {d : Device} {p : PortId} {h : HandleNo} {k : Key} {b : BufferNo} {x : Nat}
    (hx : d.handle p h = .committing k b x) : d.returnWriter p h = d.setHandle p h (.writing k b x (d.deadline p)) := by
  rw [Device.returnWriter, hx]

theorem Device.handle_returnWriter_other (d : Device) (p : PortId) {h j : HandleNo} (hj : j ≠ h) :
    (d.returnWriter p h).handle p j = d.handle p j := by
  unfold Device.returnWriter
  split
  · exact Device.handle_setHandle_other _ d p hj
  · rfl

/-- Which writers the end of a commit drops. -/
def drops (c : CommitRecord) (o : CommitOutcome) (table : Option AccessTable) (m : Member) : Prop :=
  c.portReset = true ∨ (o = .denied ∧ mayWrite table c.port m.key = false)

theorem Device.endMember_drops {c : CommitRecord} {o : CommitOutcome} {d : Device} {m : Member} (h : drops c o d.table m) :
    ∃ x, d.endMember c o m = d.dropWriter c.port m.handle m.key m.buffer x := by
  cases hr : c.portReset with
  | true => exact ⟨_, Device.endMember_reset hr o d m⟩
  | false => exact ⟨_, Device.endMember_denied hr (h.resolve_left (by simp [hr]))⟩

theorem Device.endMember_keeps {c : CommitRecord} {o : CommitOutcome} {d : Device} {m : Member}
    (h : ¬ drops c o d.table m) : d.endMember c o m = d.returnWriter c.port m.handle := by
  obtain ⟨hr, hd⟩ := not_or.1 h
  exact Device.endMember_returns (by simpa using hr) hd

theorem Device.endMember_table (c : CommitRecord) (o : CommitOutcome) (d : Device) (m : Member) :
    (d.endMember c o m).table = d.table := by
  rw [d.endMember_ends c o m]

/-- The entries after the end of a commit's members. -/
theorem Device.lookup_endMembers (c : CommitRecord) (o : CommitOutcome) (d : Device) (k : Key) :
    ((∃ m ∈ c.members, drops c o d.table m ∧ m.key = k) →
      (c.members.foldl (Device.endMember c o) d).lookup k = (d.lookup k).bind Entry.released) ∧
    ((∀ m ∈ c.members, ¬ (drops c o d.table m ∧ m.key = k)) →
      (c.members.foldl (Device.endMember c o) d).lookup k = d.lookup k) := by
  refine foldl_touches Device.lookup (·.bind Entry.released) (fun m k => drops c o d.table m ∧ m.key = k)
    (fun _ e => e.table = d.table) Entry.released_released (fun m _ e he => (e.endMember_table c o m).trans he)
    (fun m _ e k he => ⟨fun ⟨hm, hk⟩ => ?_, fun hm => ?_⟩) c.members d rfl k
  · obtain ⟨x, hx⟩ := Device.endMember_drops (he ▸ hm)
    rw [hx, Device.lookup_dropWriter, if_pos hk.symm]
  · by_cases hdrop : drops c o e.table m
    · obtain ⟨x, hx⟩ := Device.endMember_drops hdrop
      rw [hx, Device.lookup_dropWriter, if_neg fun hk => hm ⟨he ▸ hdrop, hk.symm⟩]
    · rw [Device.endMember_keeps hdrop, Device.lookup_returnWriter]

/-- The buffers after the end of a commit's members. -/
theorem Device.buffer_endMembers (c : CommitRecord) (o : CommitOutcome) (d : Device) (b : BufferNo) :
    ((∃ m ∈ c.members, drops c o d.table m ∧ m.buffer = b) →
      (c.members.foldl (Device.endMember c o) d).buffer b = Buffer.cleared) ∧
    ((∀ m ∈ c.members, ¬ (drops c o d.table m ∧ m.buffer = b)) →
      (c.members.foldl (Device.endMember c o) d).buffer b = d.buffer b) := by
  refine foldl_touches Device.buffer (fun _ => Buffer.cleared) (fun m b => drops c o d.table m ∧ m.buffer = b)
    (fun _ e => e.table = d.table) (fun _ => rfl) (fun m _ e he => (e.endMember_table c o m).trans he)
    (fun m _ e b he => ⟨fun ⟨hm, hb⟩ => ?_, fun hm => ?_⟩) c.members d rfl b
  · obtain ⟨x, hx⟩ := Device.endMember_drops (he ▸ hm)
    rw [hx, Device.buffer_dropWriter, if_pos hb.symm]
  · by_cases hdrop : drops c o e.table m
    · obtain ⟨x, hx⟩ := Device.endMember_drops hdrop
      rw [hx, Device.buffer_dropWriter, if_neg fun hb => hm ⟨he ▸ hdrop, hb.symm⟩]
    · rw [Device.endMember_keeps hdrop, Device.buffer_returnWriter]

theorem Device.groups_endMembers (c : CommitRecord) (o : CommitOutcome) (d : Device) :
    (c.members.foldl (Device.endMember c o) d).groups = d.groups := by
  refine foldl_keeps (·.groups) c.members (fun m _ e => ?_) d
  by_cases hdrop : drops c o e.table m
  · obtain ⟨x, hx⟩ := Device.endMember_drops hdrop
    rw [hx, Device.dropWriter_frame]
  · rw [Device.endMember_keeps hdrop, Device.returnWriter_frame]

theorem Device.getElem?_freeGroup (d : Device) (g : Option Nat) (i : Nat) : (d.freeGroup g).groups[i]? =
    if g = some i then (d.groups[i]?).map fun _ => GroupEntry.free else d.groups[i]? := by
  cases g with
  | none => simp [Device.freeGroup]
  | some j =>
    show (d.groups.set j .free)[i]? = _
    rw [List.getElem?_set']
    by_cases hj : j = i
    · rw [if_pos hj, if_pos (congrArg some hj)]
      rfl
    · rw [if_neg hj, if_neg fun h => hj (Option.some.inj h)]

/-- The end of a commit: the end of its members, its group entry, and its COMMIT_DONE. -/
theorem Device.endCommit_reset {c : CommitRecord} (h : c.portReset = true) (o : CommitOutcome) (d : Device) :
    d.endCommit o c = (c.members.foldl (Device.endMember c o) d).freeGroup c.group := by
  rw [Device.endCommit, if_pos h]

theorem Device.endCommit_told {c : CommitRecord} (h : c.portReset = false) (o : CommitOutcome) (d : Device) :
    d.endCommit o c = ((c.members.foldl (Device.endMember c o) d).freeGroup c.group).modPort c.port
      (Port.placeDone (.commitDone c.ticket o none)) := by
  rw [Device.endCommit, if_neg (by simp [h])]

/-- A group entry freed changes nothing else. -/
theorem Device.freeGroup_frame (g : Option Nat) (d : Device) :
    d.freeGroup g = { d with groups := (d.freeGroup g).groups } := by
  cases g <;> rfl

theorem Device.port_freeGroup (g : Option Nat) (d : Device) (p : PortId) : (d.freeGroup g).port p = d.port p := by
  rw [Device.freeGroup_frame]
  rfl

/-- Buffers and directory change in the end of the members alone. -/
theorem Device.endCommit_members (o : CommitOutcome) (d : Device) (c : CommitRecord) :
    (d.endCommit o c).buffers = (c.members.foldl (Device.endMember c o) d).buffers ∧
      (d.endCommit o c).directory = (c.members.foldl (Device.endMember c o) d).directory := by
  unfold Device.endCommit
  dsimp only
  rw [Device.freeGroup_frame]
  split <;> exact ⟨rfl, rfl⟩

theorem Device.lookup_endCommit (o : CommitOutcome) (d : Device) (c : CommitRecord) (k : Key) :
    (d.endCommit o c).lookup k = (c.members.foldl (Device.endMember c o) d).lookup k :=
  Device.lookup_congr (d.endCommit_members o c).2 k

theorem Device.buffer_endCommit (o : CommitOutcome) (d : Device) (c : CommitRecord) (b : BufferNo) :
    (d.endCommit o c).buffer b = (c.members.foldl (Device.endMember c o) d).buffer b :=
  congrArg (fun x : Quad Buffer => x.get b) (d.endCommit_members o c).1

/-- With another outcome than DENIED, and no reset of the port, no buffer and no entry changes. -/
theorem Device.endCommit_returns {o : CommitOutcome} {c : CommitRecord} (d : Device) (hr : c.portReset = false)
    (ho : o ≠ .denied) : (d.endCommit o c).buffers = d.buffers ∧ (d.endCommit o c).directory = d.directory := by
  have step : ∀ m ∈ c.members, ∀ e : Device, (e.endMember c o m).buffers = e.buffers ∧
      (e.endMember c o m).directory = e.directory := by
    intro m _ e
    rw [Device.endMember_returns hr fun h => ho h.1, Device.returnWriter_frame]
    exact ⟨rfl, rfl⟩
  obtain ⟨hbuffers, hdirectory⟩ := d.endCommit_members o c
  exact ⟨hbuffers.trans (foldl_keeps (·.buffers) c.members (fun m hm e => (step m hm e).1) d),
    hdirectory.trans (foldl_keeps (·.directory) c.members (fun m hm e => (step m hm e).2) d)⟩

theorem Device.handle_modPort_placeDone (d : Device) (p q : PortId) (n : Notice) (h : HandleNo) :
    (d.modPort q (Port.placeDone n)).handle p h = d.handle p h := by
  cases p <;> cases q <;> rfl

theorem Device.handle_endCommit (o : CommitOutcome) (d : Device) (c : CommitRecord) (p : PortId) (h : HandleNo) :
    (d.endCommit o c).handle p h = (c.members.foldl (Device.endMember c o) d).handle p h := by
  unfold Device.endCommit
  dsimp only
  rw [Device.freeGroup_frame]
  split
  · rfl
  · rw [Device.handle_modPort_placeDone]
    rfl

theorem Device.getElem?_endCommit (o : CommitOutcome) (d : Device) (c : CommitRecord) (i : Nat) :
    (d.endCommit o c).groups[i]? =
      if c.group = some i then (d.groups[i]?).map fun _ => GroupEntry.free else d.groups[i]? := by
  rw [← Device.groups_endMembers c o d, ← Device.getElem?_freeGroup]
  unfold Device.endCommit
  dsimp only
  split <;> rfl

/-- The end of a commit leaves another port as it was. -/
theorem Device.port_endCommit_other (o : CommitOutcome) (d : Device) (c : CommitRecord) {q : PortId} (hq : q ≠ c.port) :
    (d.endCommit o c).port q = d.port q := by
  have hfreed : ((c.members.foldl (Device.endMember c o) d).freeGroup c.group).port q = d.port q := by
    rw [Device.port_freeGroup]
    exact portClears_port_other (Device.endMembers_clears c o d) hq
  unfold Device.endCommit
  dsimp only
  split
  · exact hfreed
  · rw [Device.port_modPort_other _ _ hq, hfreed]

/-- Its own port keeps all but its handles, and what COMMIT_DONE takes. -/
theorem Device.port_endCommit_reset {c : CommitRecord} (h : c.portReset = true) (o : CommitOutcome) (d : Device) :
    (d.endCommit o c).port c.port = { d.port c.port with handles := ((d.endCommit o c).port c.port).handles } := by
  rw [Device.endCommit_reset h, Device.port_freeGroup]
  exact portClears_port_same (Device.endMembers_clears c o d)

theorem Device.port_endCommit_told {c : CommitRecord} (h : c.portReset = false) (o : CommitOutcome) (d : Device) :
    (d.endCommit o c).port c.port = { d.port c.port with
      handles := ((d.endCommit o c).port c.port).handles
      notices := (d.port c.port).notices ++ [.commitDone c.ticket o none]
      reserved := (d.port c.port).reserved - 1 } := by
  have hmembers := portClears_port_same (Device.endMembers_clears c o d)
  rw [Device.endCommit_told h, Device.port_modPort_same, Device.port_freeGroup, hmembers]
  rfl

/-- After a reset of the port the members' handles are FREE. -/
theorem Device.handle_endCommit_reset {c : CommitRecord} (h : c.portReset = true) (o : CommitOutcome) (d : Device)
    (j : HandleNo) : (d.endCommit o c).handle c.port j =
      if j ∈ c.members.map (·.handle) then .free else d.handle c.port j := by
  have hfold := foldl_touches (step := Device.endMember c o) (fun e j => e.handle c.port j) (fun _ => .free)
    (fun m j => m.handle = j) (fun _ _ => True) (fun _ => rfl) (fun _ _ _ _ => trivial)
    (fun m _ e j _ => ⟨fun hj => by rw [Device.endMember_reset h, Device.handle_dropWriter, if_pos hj.symm],
      fun hj => by rw [Device.endMember_reset h, Device.handle_dropWriter,
          if_neg fun hc => hj hc.symm]⟩) c.members d trivial j
  rw [Device.handle_endCommit]
  split
  case isTrue hj =>
    obtain ⟨m, hm, hmj⟩ := List.mem_map.1 hj
    exact hfold.1 ⟨m, hm, hmj⟩
  case isFalse hj => exact hfold.2 fun m hm hmj => hj (List.mem_map.2 ⟨m, hm, hmj⟩)

theorem Device.deadline_congr {p : PortId} {d d' : Device} (h : portClears p d d') : d'.deadline p = d.deadline p := by
  have hnow : d'.now = d.now := by
    unfold portClears at h
    rw [h]
  rw [Device.deadline, Device.deadline, hnow, portClears_port_same h]

/-- The handles of a commit whose port was not reset: each member's own end, on the device before. -/
theorem Device.handle_endCommit_told (c : CommitRecord) (o : CommitOutcome) (d : Device)
    (hn : (c.members.map (·.handle)).Nodup) :
    (∀ m ∈ c.members, (d.endCommit o c).handle c.port m.handle = (d.endMember c o m).handle c.port m.handle) ∧
      ∀ j, j ∉ c.members.map (·.handle) → (d.endCommit o c).handle c.port j = d.handle c.port j := by
  simp only [Device.handle_endCommit]
  have other : ∀ (e : Device) (m : Member) (j : HandleNo), j ≠ m.handle →
      (e.endMember c o m).handle c.port j = e.handle c.port j := by
    intro e m j hj
    by_cases hdrop : drops c o e.table m
    · obtain ⟨x, hx⟩ := Device.endMember_drops hdrop
      rw [hx, Device.handle_dropWriter_other _ _ _ _ _ hj]
    · rw [Device.endMember_keeps hdrop, Device.handle_returnWriter_other _ _ hj]
  refine foldl_places (fun e j => e.handle c.port j) (·.handle) (fun m => (d.endMember c o m).handle c.port m.handle)
    (fun ms e => e.table = d.table ∧ e.deadline c.port = d.deadline c.port ∧ (ms.map (·.handle)).Nodup ∧
      ∀ m ∈ ms, e.handle c.port m.handle = d.handle c.port m.handle)
    (fun m rest e ⟨ht, hdl, hnd, hh⟩ => ?_) (fun m rest e ⟨ht, hdl, _, hh⟩ => ⟨?_, other e m⟩) c.members hn d
    ⟨rfl, rfl, hn, fun _ _ => rfl⟩
  · obtain ⟨hout, hrest⟩ := List.nodup_cons.1 hnd
    refine ⟨(e.endMember_table c o m).trans ht, (Device.deadline_congr (e.endMember_clears c o m)).trans hdl, hrest,
      fun x hx => ?_⟩
    have hne : x.handle ≠ m.handle := fun hxm => hout (List.mem_map.2 ⟨x, hx, hxm⟩)
    rw [other e m _ hne, hh x (List.mem_cons_of_mem m hx)]
  · have hm := hh m List.mem_cons_self
    cases hr : c.portReset with
    | true => simp only [Device.endMember_reset hr, Device.handle_dropWriter_same]
    | false =>
      by_cases hd : o = .denied ∧ mayWrite d.table c.port m.key = false
      · rw [Device.endMember_denied hr (ht.symm ▸ hd), Device.endMember_denied hr hd, Device.handle_dropWriter_same,
          Device.handle_dropWriter_same]
      · rw [Device.endMember_returns hr (ht.symm ▸ hd), Device.endMember_returns hr hd, Device.returnWriter,
          Device.returnWriter, hm]
        split
        · rw [Device.handle_setHandle_same, Device.handle_setHandle_same, hdl]
        · exact hm

/-! ## The head commit's turn (R97 to R99, R114) -/

theorem Device.choose_head {d : Device} {c : CommitRecord} {rest : List CommitRecord} (h : d.commitQueue = c :: rest) :
    d.choose = d.headTurn c rest := by
  rw [Device.choose, h]

theorem Device.rightsHeld_false (d : Device) (c : CommitRecord) :
    d.rightsHeld c = false ↔ ∃ m ∈ c.members, mayWrite d.table c.port m.key = false := by
  simp [Device.rightsHeld]

theorem any_erasing {fixes : List Fix} {test : Fix → Bool} (he : ∀ i, test (.erasing i) = true)
    (hs : ∀ i, test (.sealing i) = false) : fixes.any test = true ↔ ∃ i, Fix.erasing i ∈ fixes := by
  rw [List.any_eq_true]
  constructor
  · rintro ⟨f, hf, htest⟩
    cases f with
    | erasing i => exact ⟨i, hf⟩
    | sealing i => rw [hs] at htest; contradiction
  · rintro ⟨i, hi⟩
    exact ⟨_, hi, he i⟩

/-- Whether reclaim can still make room, of a controller that is not HOLDING. -/
theorem Device.reclaimCanHelp_iff {d : Device} (h : d.reclaim.state ≠ .holding) : d.reclaimCanHelp = true ↔
    (d.reclaim.state = .copying ∨ d.reclaim.state = .erasing ∨
      (d.reclaim.state = .idle ∧ (d.candidates ≠ [] ∨ ∃ i, Fix.erasing i ∈ d.fixes))) := by
  unfold Device.reclaimCanHelp
  rw [Bool.or_eq_true, Bool.or_eq_true, any_erasing (fun _ => rfl) fun _ => rfl]
  cases hs : d.reclaim.state with
  | holding => exact absurd hs h
  | idle | copying | erasing => simp

/-- Settles O9: the turn's checks in order, the placement's rows, and the end of a commit by whether its port was reset. -/
theorem headCommitTurn : Obligations.HeadCommitTurn := by
  refine ⟨fun d c rest hq => ?_, fun f room fresh fs => ?_, fun d c o hr => ?_, fun d c o hr hn hh => ?_⟩
  · intro behind denied space canHelp
    rw [Device.choose_head hq, Device.headTurn]
    have hspace : d.spaceCheck c.members = space := by
      show placeAll (itemFrames c.members) d.roomAtHand (d.erasedCount - 1) = placeAll (itemFrames c.members) _ _
      unfold Device.roomAtHand
      cases d.active <;> rfl
    refine ⟨fun hd => ?_, fun hd hs => ?_, fun hd hs => ⟨fun hhold => ?_, fun hcan => ?_, fun hhold hcan => ?_⟩⟩
    · rw [if_pos ((d.rightsHeld_false c).2 hd)]
    · rw [if_neg fun h => hd ((d.rightsHeld_false c).1 h), if_pos (hspace.trans hs)]
    all_goals rw [if_neg fun h => hd ((d.rightsHeld_false c).1 h), if_neg (by rw [hspace, hs]; decide)]
    · rw [if_pos hhold]
    · have hhold : d.reclaim.state ≠ .holding := by rcases hcan with h | h | h <;> simp [h]
      rw [if_neg hhold, if_pos ((Device.reclaimCanHelp_iff hhold).2 hcan)]
    · rw [if_neg hhold, if_neg fun h => hcan ((Device.reclaimCanHelp_iff hhold).1 h)]
  · refine ⟨rfl, fun hf => ?_, fun hf => ?_, fun hf => ?_⟩ <;> rw [placeAll.eq_def] <;> dsimp only
    · rw [if_pos hf]
    · rw [if_neg (Nat.not_le.2 hf)]
    · rw [if_neg (Nat.not_le.2 hf)]
  · intro t
    have hdrop : ∀ m, drops c o d.table m := fun m => .inl hr
    refine ⟨Device.handle_endCommit_reset hr o d, fun b => ?_, fun k => ?_, Device.getElem?_endCommit o d c,
      d.endCommit_ends o c, Device.port_endCommit_reset hr o d, fun q hq => Device.port_endCommit_other o d c hq⟩
    · show (d.endCommit o c).buffer b = _
      rw [Device.buffer_endCommit]
      split
      case isTrue hb =>
        obtain ⟨m, hm, hmb⟩ := List.mem_map.1 hb
        exact (Device.buffer_endMembers c o d b).1 ⟨m, hm, hdrop m, hmb⟩
      case isFalse hb =>
        exact (Device.buffer_endMembers c o d b).2 fun m hm hmb => hb (List.mem_map.2 ⟨m, hm, hmb.2⟩)
    · show (d.endCommit o c).lookup k = _
      rw [Device.lookup_endCommit]
      by_cases hk : k ∈ c.members.map (·.key)
      · obtain ⟨m, hm, hmk⟩ := List.mem_map.1 hk
        rw [(Device.lookup_endMembers c o d k).1 ⟨m, hm, hdrop m, hmk⟩]
        simp only [hk, if_true]
        rfl
      · rw [(Device.lookup_endMembers c o d k).2 fun m hm hmk => hk (List.mem_map.2 ⟨m, hm, hmk.2⟩)]
        simp only [hk, if_false, Option.bind_fun_some]
  · intro t
    have hhandles := Device.handle_endCommit_told c o d hn
    have hdrops : ∀ m, drops c o d.table m ↔ o = .denied ∧ mayWrite d.table c.port m.key = false := fun m => by
      simp [drops, hr]
    refine ⟨fun m hm => ?_, hhandles.2, d.endCommit_ends o c, fun ho => ?_, fun b => ?_, fun k => ?_,
      Device.getElem?_endCommit o d c, Device.port_endCommit_told hr o d, fun q hq => Device.port_endCommit_other o d c hq⟩
    · show if _ then (d.endCommit o c).handle c.port m.handle = _ else ∀ x, _ → (d.endCommit o c).handle c.port m.handle = _
      rw [hhandles.1 m hm]
      split
      case isTrue hd => rw [Device.endMember_denied hr hd, Device.handle_dropWriter_same]
      case isFalse hd =>
        intro x hx
        rw [Device.endMember_returns hr hd, Device.returnWriter_committing hx, Device.handle_setHandle_same]
        rfl
    · exact d.endCommit_returns hr ho
    · show (d.endCommit o c).buffer b = _
      rw [Device.buffer_endCommit]
      split
      case isTrue hb =>
        obtain ⟨ho, m, hm, hmb, hw⟩ := hb
        exact (Device.buffer_endMembers c o d b).1 ⟨m, hm, (hdrops m).2 ⟨ho, hw⟩, hmb⟩
      case isFalse hb =>
        refine (Device.buffer_endMembers c o d b).2 fun m hm ⟨hmd, hmb⟩ => hb ?_
        obtain ⟨ho, hw⟩ := (hdrops m).1 hmd
        exact ⟨ho, m, hm, hmb, hw⟩
    · show (d.endCommit o c).lookup k = _
      rw [Device.lookup_endCommit]
      by_cases hk : o = .denied ∧ mayWrite d.table c.port k = false ∧ k ∈ c.members.map (·.key)
      · obtain ⟨ho, hw, hin⟩ := id hk
        obtain ⟨m, hm, rfl⟩ := List.mem_map.1 hin
        rw [(Device.lookup_endMembers c o d m.key).1 ⟨m, hm, (hdrops m).2 ⟨ho, hw⟩, rfl⟩]
        simp only [hk, and_self, if_true]
        rfl
      · rw [(Device.lookup_endMembers c o d k).2 fun m hm ⟨hmd, hmk⟩ => hk ?_]
        · simp only [hk, if_false, Option.bind_fun_some]
        · subst hmk
          obtain ⟨ho, hw⟩ := (hdrops m).1 hmd
          exact ⟨ho, hw, List.mem_map_of_mem hm⟩

end Sys2Proof.Machine
end

section
/-! SUPPORT. COMMIT's checks in order, and its acceptance: the statements CommitIsAccepted,
CommitRefusedForListStoreOrHandle and CommitRefusedForTableSlotsGroupOrSpace. -/

namespace Sys2Proof.Machine

/-! ## The list and the renewal (R68, R89, R90) -/

theorem exec_commit {p : PortId} {s : State} (ps : List Byte) (hs : s.dev.serves p) :
    exec (.commit p ps) s = .next ⟨s.pending,
      Device.reply p 0x0B ((s.dev.port p).count + 1) ((s.dev.countRequest p).commit p ps)⟩ := by
  show Host.Outcome.next (State.mk s.pending (s.dev.request p 0x0B (some ps) false (Device.commit p))) = _
  rw [Device.request_ruled _ _ _ _ hs.1 (.inr hs.2)]

theorem Device.renewAll_countRequest (p : PortId) (hs : List HandleNo) (d : Device) :
    (d.countRequest p).renewAll p hs = (d.renewAll p hs).countRequest p := by
  induction hs generalizing d with
  | nil => rfl
  | cons h rest ih =>
    show ((d.countRequest p).renew p h).renewAll p rest = _
    rw [Device.renew_countRequest, ih]
    rfl

theorem Device.renewAll_frame (p : PortId) (hs : List HandleNo) (d : Device) :
    d.renewAll p hs = { d with ports := (d.renewAll p hs).ports } := by
  rw [(d.renewAll_eq p hs).1]
  rfl

theorem Device.port_renewAll (p : PortId) (hs : List HandleNo) (d : Device) :
    (d.renewAll p hs).port p = { d.port p with handles := ((d.renewAll p hs).port p).handles } := by
  have h := congrArg (fun e : Device => e.port p) (d.renewAll_eq p hs).1
  exact h.trans (Device.port_modPort_same ..)

theorem Device.port_renewAll_other (p : PortId) (hs : List HandleNo) (d : Device) {q : PortId} (hq : q ≠ p) :
    (d.renewAll p hs).port q = d.port q := by
  rw [(d.renewAll_eq p hs).1]
  exact Device.port_modPort_other _ d hq

/-- The reply to a COMMIT that renewed its handles and changed nothing else. -/
theorem Device.reply_renewAll (p : PortId) (hs : List HandleNo) (r : Result) (payload : List Byte) (d : Device) :
    Device.reply p 0x0B ((d.port p).count + 1) ((d.countRequest p).renewAll p hs, ⟨r, payload⟩) =
      (hs.foldl (fun d h => d.renew p h) d).answered p 0x0B r payload := by
  have hcount : ((d.renewAll p hs).port p).count = (d.port p).count := by rw [Device.port_renewAll]
  rw [Device.renewAll_countRequest, ← hcount, Device.reply_counted]
  rfl

/-- A list that is no list of one to four distinct handle numbers is refused. -/
theorem commitList_bad {ps : List Byte}
    (h : ps = [] ∨ 4 < ps.length ∨ (∃ b ∈ ps, b.toNat = 0 ∨ 4 < b.toNat) ∨ ¬ ps.Nodup) : commitList ps = none := by
  unfold commitList
  cases hm : ps.mapM Four.ofByte with
  | none => rfl
  | some hs =>
    have hall := (mapM_eq_some_iff _ _ _).1 hm
    have hmap : ps = hs.map Four.toByte := by
      clear hm h
      induction hall with
      | nil => rfl
      | cons hb _ ih => rw [List.map_cons, ← ih, (Four.ofByte_eq_some _ _).1 hb]
    have hlength : ps.length = hs.length := hall.length_eq
    dsimp only
    rw [if_neg]
    rintro ⟨h1, h4, hn⟩
    rcases h with rfl | h | ⟨b, hb, hb'⟩ | h
    · simp at hlength
      omega
    · omega
    · obtain ⟨x, _, hx⟩ := List.mem_map.1 (hmap ▸ hb)
      have hsome := Four.ofByte_toByte x
      rw [hx, Four.ofByte_none hb'] at hsome
      contradiction
    · refine h (hmap ▸ (((noneTwice_iff hs).1 hn).map fun x y hxy => ?_))
      have := congrArg Four.ofByte hxy
      rw [Four.ofByte_toByte, Four.ofByte_toByte] at this
      exact Option.some.inj this

/-- The checks of a well-formed list, on the device whose handles are renewed. -/
theorem Device.commit_listed {d : Device} {p : PortId} {hs : List HandleNo} (hne : hs ≠ []) (hn : hs.Nodup) :
    d.commit p (hs.map Four.toByte) =
      if d.store.isReadOnly then (d.renewAll p hs, refuse .readOnly)
      else if d.supply = .low then (d.renewAll p hs, refuse .supplyLow)
      else (d.renewAll p hs).commitHandles p hs := by
  unfold Device.commit
  rw [commitList_map hne hn]
  dsimp only
  rw [Device.renewAll_frame]

/-! ## Check 5 (R91) -/

theorem Handle.commitRefusal_renewed (t : Nat) (x : Handle) : (x.renewed t).commitRefusal = x.commitRefusal := by
  cases x <;> rfl

theorem Device.commitRefusal_renewAll (p : PortId) (hs : List HandleNo) (d : Device) (j : HandleNo) :
    ((d.renewAll p hs).handle p j).commitRefusal = (d.handle p j).commitRefusal := by
  rw [(d.renewAll_eq p hs).2]
  split
  · rw [Handle.commitRefusal_renewed]
  · rfl

theorem Device.offender_none {d : Device} {p : PortId} {hs : List HandleNo}
    (h : ∀ j ∈ hs, (d.handle p j).commitRefusal = none) : d.offender p hs = none := by
  induction hs with
  | nil => rfl
  | cons j rest ih =>
    rw [Device.offender, h j List.mem_cons_self]
    exact ih fun x hx => h x (List.mem_cons_of_mem j hx)

theorem Device.offender_first {d : Device} {p : PortId} {before after : List HandleNo} {h : HandleNo} {r : Result}
    (hb : ∀ j ∈ before, (d.handle p j).commitRefusal = none) (hr : (d.handle p h).commitRefusal = some r) :
    d.offender p (before ++ h :: after) = some (h, r) := by
  induction before with
  | nil => rw [List.nil_append, Device.offender, hr]
  | cons j rest ih =>
    rw [List.cons_append, Device.offender, hb j List.mem_cons_self]
    exact ih fun x hx => hb x (List.mem_cons_of_mem j hx)

/-! ## Check 6 (R91) -/

/-- A member is of the handle it names. -/
theorem Device.memberOf_eq_some {d : Device} {p : PortId} {h : HandleNo} {m : Member} :
    d.memberOf p h = some m ↔ m.handle = h ∧ m.intent = (d.buffer m.buffer).intent ∧
      m.length = (d.buffer m.buffer).length ∧ ∃ cursor deadline,
          d.handle p h = .writing m.key m.buffer cursor deadline := by
  unfold Device.memberOf
  cases hx : d.handle p h with
  | writing k b c t =>
    simp only [Option.some.injEq, Handle.writing.injEq]
    constructor
    · rintro rfl
      exact ⟨rfl, rfl, rfl, _, _, rfl, rfl, rfl, rfl⟩
    · rintro ⟨rfl, hi, hl, _, _, rfl, rfl, _, _⟩
      cases m
      simp_all
  | free | reading | committing | expired | revoked => simp

/-- The members that lack their right. -/
theorem Device.mem_deniedMembers {d : Device} {p : PortId} {hs : List HandleNo} {m : Member} :
    m ∈ d.deniedMembers p (hs.filterMap (d.memberOf p)) ↔
      ∃ j ∈ hs, d.memberOf p j = some m ∧ mayWrite d.table p m.key = false := by
  simp only [Device.deniedMembers, List.mem_filter, List.mem_filterMap, Bool.not_eq_true', exists_and_right.symm, and_assoc]

theorem memberOf_handles (d : Device) (p : PortId) (hs : List HandleNo) :
    ((hs.filterMap (d.memberOf p)).map (·.handle)).Sublist hs := by
  induction hs with
  | nil => exact .slnil
  | cons h rest ih =>
    cases hm : d.memberOf p h with
    | none => rw [List.filterMap_cons_none hm]; exact ih.cons h
    | some m =>
      rw [List.filterMap_cons_some hm, List.map_cons, (Device.memberOf_eq_some.1 hm).1]
      exact ih.cons_cons h

/-- The first member that lacks its right is of the first such handle. -/
theorem Device.deniedMembers_first {d : Device} {p : PortId} {before after : List HandleNo} {h : HandleNo} {m : Member}
    (hb : ∀ j ∈ before, ∀ x, d.memberOf p j = some x → mayWrite d.table p x.key = true)
    (hm : d.memberOf p h = some m) (hw : mayWrite d.table p m.key = false) :
    d.deniedMembers p ((before ++ h :: after).filterMap (d.memberOf p)) =
      m :: d.deniedMembers p (after.filterMap (d.memberOf p)) := by
  have hnone : d.deniedMembers p (before.filterMap (d.memberOf p)) = [] := by
    rw [List.eq_nil_iff_forall_not_mem]
    intro x hx
    obtain ⟨j, hj, hjx, hxw⟩ := Device.mem_deniedMembers.1 hx
    rw [hb j hj x hjx] at hxw
    contradiction
  unfold Device.deniedMembers at *
  rw [List.filterMap_append, List.filter_append, hnone, List.nil_append, List.filterMap_cons_some hm,
    List.filter_cons_of_pos (by simp [hw])]

/-- The writers a COMMIT revokes: ports, buffers and directory alone change. -/
theorem Device.revokeMembers_frame (p : PortId) (ms : List Member) (d : Device) :
    ms.foldl (Device.revokeMember p) d = { d with
      ports := (ms.foldl (Device.revokeMember p) d).ports
      buffers := (ms.foldl (Device.revokeMember p) d).buffers
      directory := (ms.foldl (Device.revokeMember p) d).directory } := by
  have hgroups : (ms.foldl (Device.revokeMember p) d).groups = d.groups :=
    foldl_keeps (·.groups) ms (fun m _ e => by rw [Device.revokeMember, Device.dropWriter_frame]) d
  have hframe : commitEnds d (ms.foldl (Device.revokeMember p) d) :=
    commitEnds_foldl _ (fun e m => e.dropWriter_ends ..) ms d
  unfold commitEnds at hframe
  rw [hgroups] at hframe
  exact hframe

theorem Device.revokeMembers_clears (p : PortId) (ms : List Member) (d : Device) :
    portClears p d (ms.foldl (Device.revokeMember p) d) :=
  portClears_foldl _ ms (fun _ _ e => e.dropWriter_clears ..) d

theorem Device.lookup_revokeMembers (p : PortId) (ms : List Member) (d : Device) (k : Key) :
    ((∃ m ∈ ms, m.key = k) → (ms.foldl (Device.revokeMember p) d).lookup k = (d.lookup k).bind Entry.released) ∧
      ((∀ m ∈ ms, m.key ≠ k) → (ms.foldl (Device.revokeMember p) d).lookup k = d.lookup k) :=
  foldl_touches Device.lookup (·.bind Entry.released) (fun m k => m.key = k) (fun _ _ => True) Entry.released_released
    (fun _ _ _ _ => trivial)
    (fun m _ e k _ => ⟨fun hk => by rw [Device.revokeMember, Device.lookup_dropWriter, if_pos hk.symm],
      fun hk => by rw [Device.revokeMember, Device.lookup_dropWriter, if_neg (Ne.symm hk)]⟩) ms d trivial k

theorem Device.buffer_revokeMembers (p : PortId) (ms : List Member) (d : Device) (b : BufferNo) :
    ((∃ m ∈ ms, m.buffer = b) → (ms.foldl (Device.revokeMember p) d).buffer b = Buffer.cleared) ∧
      ((∀ m ∈ ms, m.buffer ≠ b) → (ms.foldl (Device.revokeMember p) d).buffer b = d.buffer b) :=
  foldl_touches Device.buffer (fun _ => Buffer.cleared) (fun m b => m.buffer = b) (fun _ _ => True) (fun _ => rfl)
    (fun _ _ _ _ => trivial)
    (fun m _ e k _ => ⟨fun hk => by rw [Device.revokeMember, Device.buffer_dropWriter, if_pos hk.symm],
      fun hk => by rw [Device.revokeMember, Device.buffer_dropWriter, if_neg (Ne.symm hk)]⟩) ms d trivial b

theorem Device.handle_revokeMembers (p : PortId) {ms : List Member} (hn : (ms.map (·.handle)).Nodup) (d : Device) :
    (∀ m ∈ ms, (ms.foldl (Device.revokeMember p) d).handle p m.handle = .revoked m.key) ∧
      ∀ j, j ∉ ms.map (·.handle) → (ms.foldl (Device.revokeMember p) d).handle p j = d.handle p j :=
  foldl_places (fun e j => e.handle p j) (·.handle) (fun m => .revoked m.key) (fun _ _ => True) (fun _ _ _ _ => trivial)
    (fun m _ e _ => ⟨by rw [Device.revokeMember, Device.handle_dropWriter_same],
      fun j hj => by rw [Device.revokeMember, Device.handle_dropWriter_other _ _ _ _ _ hj]⟩) ms hn d trivial

/-- The COMMIT that check 6 refuses, on the device whose handles are renewed: `lost` is what each handle of the list that
lacks its right claims. -/
structure RevokesLost (p : PortId) (hs : List HandleNo) (lost : HandleNo → Option (Key × BufferNo)) (D d : Device) :
    Prop where
  frame : d = { D with ports := d.ports, buffers := d.buffers, directory := d.directory }
  clears : portClears p D d
  revoked : ∀ j ∈ hs, ∀ k b, lost j = some (k, b) → d.handle p j = .revoked k
  kept : ∀ j, (j ∈ hs → lost j = none) → d.handle p j = D.handle p j
  buffer : ∀ b, ((∃ j ∈ hs, ∃ k, lost j = some (k, b)) → d.buffer b = Buffer.cleared) ∧
    ((∀ j ∈ hs, ∀ k, lost j ≠ some (k, b)) → d.buffer b = D.buffer b)
  lookup : ∀ k, ((∃ j ∈ hs, ∃ b, lost j = some (k, b)) → d.lookup k = (D.lookup k).bind Entry.released) ∧
    ((∀ j ∈ hs, ∀ b, lost j ≠ some (k, b)) → d.lookup k = D.lookup k)

/-- Revoking the members without their right is revoking the handles that lack it. -/
theorem Device.revokesLost {D : Device} {p : PortId} {hs : List HandleNo} {lost : HandleNo → Option (Key × BufferNo)}
    (hn : hs.Nodup) (hlost : ∀ j ∈ hs, ∀ k b, lost j = some (k, b) ↔
      (∃ cursor deadline, D.handle p j = .writing k b cursor deadline) ∧ mayWrite D.table p k = false) :
    RevokesLost p hs lost D
      ((D.deniedMembers p (hs.filterMap (D.memberOf p))).foldl (Device.revokeMember p) D) := by
  have hmem : ∀ k b j, (j ∈ hs ∧ lost j = some (k, b)) ↔
      ∃ m ∈ D.deniedMembers p (hs.filterMap (D.memberOf p)), m.handle = j ∧ m.key = k ∧ m.buffer = b := by
    intro k b j
    constructor
    · rintro ⟨hj, hl⟩
      obtain ⟨hx, hw⟩ := (hlost j hj k b).1 hl
      exact ⟨⟨j, k, b, (D.buffer b).intent, (D.buffer b).length⟩,
        Device.mem_deniedMembers.2 ⟨j, hj, Device.memberOf_eq_some.2 ⟨rfl, rfl, rfl, hx⟩, hw⟩, rfl, rfl, rfl⟩
    · rintro ⟨m, hm, hmj, rfl, rfl⟩
      obtain ⟨i, hi, him, hw⟩ := Device.mem_deniedMembers.1 hm
      obtain ⟨hmi, _, _, hx⟩ := Device.memberOf_eq_some.1 him
      obtain rfl : i = j := hmi.symm.trans hmj
      exact ⟨hi, (hlost i hi _ _).2 ⟨hx, hw⟩⟩
  have hnodup : ((D.deniedMembers p (hs.filterMap (D.memberOf p))).map (·.handle)).Nodup :=
    (List.filter_sublist.map _).trans (memberOf_handles D p hs) |>.nodup hn
  generalize D.deniedMembers p (hs.filterMap (D.memberOf p)) = ms at hmem hnodup ⊢
  obtain ⟨hrevoked, hkept⟩ := Device.handle_revokeMembers p hnodup D
  refine ⟨Device.revokeMembers_frame p ms D, Device.revokeMembers_clears p ms D, fun j hj k b hl => ?_,
      fun j hj => hkept j ?_,
    fun b => ⟨fun ⟨j, hj, k, hl⟩ => ?_, fun hnone => ?_⟩, fun k => ⟨fun ⟨j, hj, b, hl⟩ => ?_, fun hnone => ?_⟩⟩
  · obtain ⟨m, hm, rfl, rfl, _⟩ := (hmem k b j).1 ⟨hj, hl⟩
    exact hrevoked m hm
  · intro hin
    obtain ⟨m, hm, rfl⟩ := List.mem_map.1 hin
    obtain ⟨hj', hl⟩ := (hmem m.key m.buffer m.handle).2 ⟨m, hm, rfl, rfl, rfl⟩
    rw [hj hj'] at hl
    contradiction
  · obtain ⟨m, hm, _, _, hb⟩ := (hmem k b j).1 ⟨hj, hl⟩
    exact (Device.buffer_revokeMembers p ms D b).1 ⟨m, hm, hb⟩
  · refine (Device.buffer_revokeMembers p ms D b).2 fun m hm hb => ?_
    obtain ⟨hj, hl⟩ := (hmem m.key b m.handle).2 ⟨m, hm, rfl, rfl, hb⟩
    exact hnone _ hj _ hl
  · obtain ⟨m, hm, _, hk, _⟩ := (hmem k b j).1 ⟨hj, hl⟩
    exact (Device.lookup_revokeMembers p ms D k).1 ⟨m, hm, hk⟩
  · refine (Device.lookup_revokeMembers p ms D k).2 fun m hm hk => ?_
    obtain ⟨hj, hl⟩ := (hmem k m.buffer m.handle).2 ⟨m, hm, rfl, hk, rfl⟩
    exact hnone _ hj _ hl

/-- A list of handles that are WRITING and of which some lack their right: DENIED, with the number of the first of those. -/
theorem Device.commitHandles_denied {D : Device} {p : PortId} {before after : List HandleNo} {h : HandleNo} {m : Member}
    (hall : ∀ j ∈ before ++ h :: after, (D.handle p j).commitRefusal = none)
    (hb : ∀ j ∈ before, ∀ x, D.memberOf p j = some x → mayWrite D.table p x.key = true)
    (hm : D.memberOf p h = some m) (hw : mayWrite D.table p m.key = false) :
    D.commitHandles p (before ++ h :: after) =
      (((D.deniedMembers p ((before ++ h :: after).filterMap (D.memberOf p))).foldl (Device.revokeMember p) D).arbiter,
        ⟨.denied, [h.toByte]⟩) := by
  rw [Device.commitHandles, Device.offender_none hall]
  dsimp only
  rw [Device.deniedMembers_first hb hm hw]
  dsimp only
  rw [(Device.memberOf_eq_some.1 hm).1]

/-- Settles O36: the list, the store, the supply, the first handle that is not WRITING, and the handles without right. -/
theorem commitRefusedForListStoreOrHandle : Obligations.CommitRefusedForListStoreOrHandle := by
  intro p ps s hs
  refine ⟨fun hbad => ?_, fun hl hne hn hps => ⟨fun hro => ?_, fun hst hlow => ?_⟩, fun hl hne hn hps hst hgood => ?_⟩
  · rw [exec_commit ps hs, Device.commit, commitList_bad hbad]
    exact congrArg _ (congrArg _ (Device.reply_counted ..))
  · obtain ⟨r, hr⟩ := hro
    have hreadOnly : (s.dev.countRequest p).store.isReadOnly = true := by rw [Device.countRequest_store, hr]; rfl
    rw [hps, exec_commit _ hs, Device.commit_listed hne hn, if_pos hreadOnly, refuse, Device.reply_renewAll]
  all_goals
    have hwrites : ¬ (s.dev.countRequest p).store.isReadOnly = true := by
      rw [Device.countRequest_store, hst]
      decide
  · rw [hps, exec_commit _ hs, Device.commit_listed hne hn, if_neg hwrites, if_pos (by exact hlow), refuse,
      Device.reply_renewAll]
  · intro refusal lost before h after hsplit
    have hnotLow : ¬ (s.dev.countRequest p).supply = .low := by
      rw [Device.countRequest_supply, hgood]
      decide
    have run : exec (.commit p ps) s = .next ⟨s.pending, Device.reply p 0x0B ((s.dev.port p).count + 1)
        (((s.dev.countRequest p).renewAll p hl).commitHandles p hl)⟩ := by
      rw [hps, exec_commit _ hs, Device.commit_listed hne hn, if_neg hwrites, if_neg hnotLow]
    have hrefusal : ∀ j, (((s.dev.countRequest p).renewAll p hl).handle p j).commitRefusal = refusal j := by
      intro j
      rw [Device.commitRefusal_renewAll, Device.handle_countRequest]
      simp only [refusal]
      cases s.dev.handle p j <;> rfl
    subst hsplit
    refine ⟨fun r hb hr => ?_, fun hall hb hr => ?_⟩
    · rw [run, Device.commitHandles,
        Device.offender_first (fun j hj => (hrefusal j).trans (hb j hj)) ((hrefusal h).trans hr)]
      exact congrArg _ (congrArg _ (Device.reply_renewAll ..))
    · have hhandle : ∀ j, ((s.dev.countRequest p).renewAll p (before ++ h :: after)).handle p j =
          if j ∈ before ++ h :: after then (s.dev.handle p j).renewed (s.dev.deadline p) else s.dev.handle p j := by
        intro j
        rw [((s.dev.countRequest p).renewAll_eq p _).2 j, Device.handle_countRequest, Device.deadline_countRequest]
      have hframe := (s.dev.countRequest p).renewAll_frame p (before ++ h :: after)
      have hport := (s.dev.countRequest p).port_renewAll p (before ++ h :: after)
      have hother := fun q (hq : q ≠ p) => ((s.dev.countRequest p).port_renewAll_other p (before ++ h :: after) hq).trans
        (s.dev.port_countRequest_other hq)
      generalize (s.dev.countRequest p).renewAll p (before ++ h :: after) = D at run hrefusal hhandle hframe hport hother
      have htable : D.table = s.dev.table := by rw [hframe]; rfl
      have hlost : ∀ j k b, lost j = some (k, b) ↔
          (∃ c t, s.dev.handle p j = .writing k b c t) ∧ mayWrite s.dev.table p k = false := by
        intro j k b
        simp only [lost]
        cases hx : s.dev.handle p j with
        | writing k' b' c t =>
          by_cases hw : mayWrite s.dev.table p k' = true
          · simp only [hw, if_true, reduceCtorEq, Handle.writing.injEq, false_iff]
            rintro ⟨⟨_, _, rfl, _⟩, hf⟩
            rw [hw] at hf
            contradiction
          · simp only [hw, if_false, Bool.false_eq_true, Option.some.injEq, Prod.mk.injEq, Handle.writing.injEq]
            constructor
            · rintro ⟨rfl, rfl⟩
              exact ⟨⟨c, t, rfl, rfl, rfl, rfl⟩, by simpa using hw⟩
            · rintro ⟨⟨_, _, rfl, rfl, _, _⟩, _⟩
              exact ⟨rfl, rfl⟩
        | free | reading | committing | expired | revoked => simp
      have hwriting : ∀ j ∈ before ++ h :: after, ∀ k b c t, s.dev.handle p j = .writing k b c t →
          D.handle p j = .writing k b c (s.dev.deadline p) := by
        intro j hj k b c t hx
        rw [hhandle, if_pos hj, hx]
        rfl
      have hback : ∀ j ∈ before ++ h :: after, ∀ k b c t, D.handle p j = .writing k b c t →
          ∃ t, s.dev.handle p j = .writing k b c t := by
        intro j hj k b c t hx
        rw [hhandle, if_pos hj] at hx
        cases hy : s.dev.handle p j <;> rw [hy] at hx <;> simp only [Handle.renewed, reduceCtorEq,
            Handle.writing.injEq] at hx
        obtain ⟨rfl, rfl, rfl, _⟩ := hx
        exact ⟨_, rfl⟩
      have hlostD : ∀ j ∈ before ++ h :: after, ∀ k b, lost j = some (k, b) ↔
          (∃ c t, D.handle p j = .writing k b c t) ∧ mayWrite D.table p k = false := by
        intro j hj k b
        rw [hlost, htable]
        refine and_congr_left fun _ => ⟨fun ⟨c, t, hx⟩ => ⟨c, _, hwriting j hj k b c t hx⟩, fun ⟨c, t, hx⟩ => ?_⟩
        obtain ⟨t', hx'⟩ := hback j hj k b c t hx
        exact ⟨c, t', hx'⟩
      obtain ⟨⟨k, b⟩, hk⟩ := Option.ne_none_iff_exists'.1 hr
      obtain ⟨hx, hw⟩ := (hlostD h (by simp) k b).1 hk
      have hm : D.memberOf p h = some ⟨h, k, b, (D.buffer b).intent, (D.buffer b).length⟩ :=
        Device.memberOf_eq_some.2 ⟨rfl, rfl, rfl, hx⟩
      have hbefore : ∀ j ∈ before, ∀ x, D.memberOf p j = some x → mayWrite D.table p x.key = true := by
        intro j hj x hxj
        obtain ⟨_, _, _, hxw⟩ := Device.memberOf_eq_some.1 hxj
        by_contra hno
        have := (hlostD j (by simp [hj]) x.key x.buffer).2 ⟨hxw, by simpa using hno⟩
        rw [hb j hj] at this
        contradiction
      rw [run, Device.commitHandles_denied (fun j hj => (hrefusal j).trans (hall j hj)) hbefore hm hw]
      have hrevokes := Device.revokesLost hn hlostD
      generalize (D.deniedMembers p _).foldl (Device.revokeMember p) D = d at hrevokes ⊢
      refine ⟨d, rfl, ?_, fun j hj k b c t hx => ⟨fun hl => hrevokes.revoked j hj k b hl, fun hl => ?_⟩, fun j hj => ?_, ?_,
        fun q hq => ?_, fun b => ⟨(hrevokes.buffer b).1, fun hnone => ?_⟩, fun k => ⟨fun hany => ?_, fun hnone => ?_⟩⟩
      · rw [hrevokes.frame, hframe]
        rfl
      · rw [hrevokes.kept j fun _ => hl, hwriting j hj k b c t hx]
        rfl
      · rw [hrevokes.kept j fun hin => absurd hin hj, hhandle, if_neg hj]
      · rw [portClears_port_same hrevokes.clears, hport, Device.port_countRequest]
      · rw [portClears_port_other hrevokes.clears hq, hother q hq]
      · rw [(hrevokes.buffer b).2 hnone, hframe]
        rfl
      · rw [(hrevokes.lookup k).1 hany, hframe]
        rfl
      · rw [(hrevokes.lookup k).2 hnone, hframe]
        rfl

end Sys2Proof.Machine
end

section
/-! SUPPORT. COMMIT of WRITING handles whose rights are held, by its last checks: the statements
CommitRefusedForTableSlotsGroupOrSpace and CommitIsAccepted. -/

namespace Sys2Proof.Machine

/-! ## The members of a list of WRITING handles (R96) -/

/-- What the statements say of the members of a list of handles. -/
def areMembers (d : Device) (p : PortId) (hs : List HandleNo) (ms : List Member) : Prop :=
  List.Forall₂ (fun h m => m.handle = h ∧ m.intent = (d.buffer m.buffer).intent ∧ m.length = (d.buffer m.buffer).length ∧
    ∃ cursor deadline, d.handle p h = .writing m.key m.buffer cursor deadline) hs ms

theorem areMembers.writing {d : Device} {p : PortId} {hs : List HandleNo} {ms : List Member} (h : areMembers d p hs ms) :
    ∀ j ∈ hs, ∃ k b c t, d.handle p j = .writing k b c t := by
  induction h with
  | nil => exact fun _ hj => absurd hj List.not_mem_nil
  | cons hm _ ih =>
    obtain ⟨_, _, _, c, t, hx⟩ := hm
    intro j hj
    rcases List.mem_cons.1 hj with rfl | hj
    · exact ⟨_, _, c, t, hx⟩
    · exact ih j hj

/-- The device a COMMIT finds: its request counted, its handles renewed. -/
def Device.named (p : PortId) (hs : List HandleNo) (d : Device) : Device := (d.countRequest p).renewAll p hs

theorem Device.named_frame (p : PortId) (hs : List HandleNo) (d : Device) :
    d.named p hs = { d with ports := (d.named p hs).ports } := by
  unfold Device.named
  rw [Device.renewAll_frame]
  rfl

theorem Device.handle_named (p : PortId) (hs : List HandleNo) (d : Device) (j : HandleNo) :
    (d.named p hs).handle p j = if j ∈ hs then (d.handle p j).renewed (d.deadline p) else d.handle p j := by
  rw [Device.named, ((d.countRequest p).renewAll_eq p hs).2 j, Device.handle_countRequest, Device.deadline_countRequest]

theorem Device.port_named (p : PortId) (hs : List HandleNo) (d : Device) : (d.named p hs).port p =
    { d.port p with handles := ((d.named p hs).port p).handles, frame := none, count := (d.port p).count + 1 } := by
  unfold Device.named
  rw [Device.port_renewAll, Device.port_countRequest]

theorem Device.port_named_other (p : PortId) (hs : List HandleNo) (d : Device) {q : PortId} (hq : q ≠ p) :
    (d.named p hs).port q = d.port q :=
  ((d.countRequest p).port_renewAll_other p hs hq).trans (d.port_countRequest_other hq)

theorem Device.buffer_named (p : PortId) (hs : List HandleNo) (d : Device) (b : BufferNo) :
    (d.named p hs).buffer b = d.buffer b := by
  rw [Device.named_frame]
  rfl

/-- The renewed handles give the members named. -/
theorem filterMap_memberOf {d : Device} {p : PortId} {hs : List HandleNo} {ms : List Member} (h : areMembers d p hs ms) :
    hs.filterMap ((d.named p hs).memberOf p) = ms := by
  have key : ∀ (all hs : List HandleNo) (ms : List Member), (∀ j ∈ hs, j ∈ all) → areMembers d p hs ms →
      hs.filterMap ((d.named p all).memberOf p) = ms := by
    intro all hs ms hall hf
    induction hf with
    | nil => rfl
    | @cons j m rest more hm _ ih =>
      obtain ⟨hj, hi, hl, c, t, hx⟩ := hm
      have hmem : (d.named p all).memberOf p j = some m := by
        refine Device.memberOf_eq_some.2 ⟨hj, ?_, ?_, c, d.deadline p, ?_⟩
        · rw [Device.buffer_named, hi]
        · rw [Device.buffer_named, hl]
        · rw [Device.handle_named, if_pos (hall j List.mem_cons_self), hx]
          rfl
      rw [List.filterMap_cons_some hmem, ih fun x hx => hall x (List.mem_cons_of_mem j hx)]
  exact key hs hs ms (fun _ => id) h

/-- A COMMIT of WRITING handles whose rights are held comes to its last checks. -/
theorem exec_commit_members {p : PortId} {hs : List HandleNo} {ms : List Member} {s : State} (hserves : s.dev.serves p)
    (hst : s.dev.store = .normal) (hgood : s.dev.supply = .good) (hne : hs ≠ []) (hn : hs.Nodup)
    (hms : areMembers s.dev p hs ms) (hw : ∀ m ∈ ms, mayWrite s.dev.table p m.key = true) :
    exec (.commit p (hs.map Four.toByte)) s = .next ⟨s.pending, Device.reply p 0x0B ((s.dev.port p).count + 1)
      ((s.dev.named p hs).commitMembers p hs ms)⟩ := by
  have hwrites : ¬ (s.dev.countRequest p).store.isReadOnly = true := by
    rw [Device.countRequest_store, hst]
    decide
  have hnotLow : ¬ (s.dev.countRequest p).supply = .low := by
    rw [Device.countRequest_supply, hgood]
    decide
  have hall : ∀ j ∈ hs, ((s.dev.named p hs).handle p j).commitRefusal = none := by
    intro j hj
    obtain ⟨k, b, c, t, hx⟩ := hms.writing j hj
    rw [Device.handle_named, if_pos hj, hx]
    rfl
  have hdenied : (s.dev.named p hs).deniedMembers p ms = [] := by
    rw [Device.deniedMembers, List.filter_eq_nil_iff]
    intro m hm
    rw [Device.named_frame, hw m hm]
    decide
  rw [exec_commit _ hserves, Device.commit_listed hne hn, if_neg hwrites, if_neg hnotLow]
  show Host.Outcome.next (State.mk s.pending (Device.reply p 0x0B _ ((s.dev.named p hs).commitHandles p hs))) = _
  rw [Device.commitHandles, Device.offender_none hall]
  dsimp only
  rw [filterMap_memberOf hms, hdenied]

/-! ## Checks 7 to 10 (R92) -/

theorem Device.tableOk_iff (d : Device) (m : Member) : d.tableOk m = true ↔
    (m.key = 0x0000#16 → m.intent = .value → validTable (d.buffer m.buffer).value = true) := by
  unfold Device.tableOk
  cases hi : m.intent <;> by_cases hk : m.key = 0x0000#16 <;> simp [hk]

/-- A group table of 32 entries has fewer than 32 in use where one is free. -/
theorem Device.groupsUsed_lt {d : Device} (h : d.groups.length = 32) :
    d.groupsUsed < 32 ↔ ∃ i : Nat, d.groups[i]? = some GroupEntry.free := by
  have hfree : ∀ g : GroupEntry, g.isFree = true ↔ g = .free := fun g => by cases g <;> simp [GroupEntry.isFree]
  rw [Device.groupsUsed, ← h, ← List.mem_iff_getElem?]
  constructor
  · intro hlt
    by_contra hno
    have hall : d.groups.filter (fun g => !g.isFree) = d.groups := by
      refine List.filter_eq_self.2 fun g hg => ?_
      rw [Bool.not_eq_true', ← Bool.not_eq_true, hfree]
      rintro rfl
      exact hno hg
    rw [hall] at hlt
    exact Nat.lt_irrefl _ hlt
  · intro hin
    refine List.length_filter_lt_length_iff_exists.2 ⟨_, hin, ?_⟩
    simp [GroupEntry.isFree]

theorem itemFrames_sum (ms : List Member) :
    (itemFrames ms).sum = (ms.map Member.frames).sum + (if ms.length = 1 then 0 else 1) := by
  unfold itemFrames
  split <;> simp

/-- The last checks on the device a COMMIT finds, by the device before. -/
theorem Device.checks_named (p : PortId) (hs : List HandleNo) (ms : List Member) (d : Device) (hg : d.groups.length = 32) :
    (ms.all (d.named p hs).tableOk = true ↔
      ∀ m ∈ ms, m.key = 0x0000#16 → m.intent = .value → validTable (d.buffer m.buffer).value = true) ∧
    (((d.named p hs).port p).canReserve = true ↔ (d.port p).notices.length + (d.port p).reserved < 8) ∧
    ((d.named p hs).groupRoom ms = true ↔ ms.length = 1 ∨ ∃ i : Nat, d.groups[i]? = some GroupEntry.free) ∧
    ((d.named p hs).frameRoom ms = true ↔
      (ms.map Member.frames).sum + (if ms.length = 1 then 0 else 1) ≤ d.freeFrames + d.reclaimable) := by
  refine ⟨?_, ?_, ?_, ?_⟩
  · rw [List.all_eq_true]
    refine forall₂_congr fun m _ => ?_
    rw [Device.tableOk_iff, Device.buffer_named]
  · rw [Device.port_named]
    exact decide_eq_true_iff
  · rw [← Device.groupsUsed_lt hg, Device.named_frame, Device.groupRoom, Bool.or_eq_true, decide_eq_true_iff,
      decide_eq_true_iff]
    rfl
  · rw [← itemFrames_sum, Device.named_frame, Device.frameRoom, decide_eq_true_iff]
    rfl

/-- Settles O37: checks 7 to 10, each where no check before it refuses. -/
theorem commitRefusedForTableSlotsGroupOrSpace : Obligations.CommitRefusedForTableSlotsGroupOrSpace := by
  intro p hs ms s hserves hst hgood hne hn hms hw hg refused tables slot entry
  obtain ⟨htables, hslot, hentry, hframes⟩ := Device.checks_named p hs ms s.dev hg
  have refuses : ∀ r, (s.dev.named p hs).commitMembers p hs ms = (s.dev.named p hs, refuse r) → refused r := by
    intro r hr
    refine (exec_commit_members hserves hst hgood hne hn hms hw).trans (congrArg _ (congrArg _ ?_))
    rw [hr]
    exact Device.reply_renewAll ..
  refine ⟨fun ht => ?_, fun ht hsl => ?_, fun ht hsl he => ?_, fun ht hsl he hf => ?_⟩ <;> apply refuses <;>
    rw [Device.commitMembers]
  · rw [if_pos (by rw [← Bool.not_eq_true, htables]; exact ht)]
  all_goals rw [if_neg (by rw [← Bool.not_eq_true, htables]; exact not_not_intro ht)]
  · rw [if_pos (by rw [← Bool.not_eq_true, hslot]; exact hsl)]
  all_goals rw [if_neg (by rw [← Bool.not_eq_true, hslot]; exact not_not_intro hsl)]
  · rw [if_pos (by rw [← Bool.not_eq_true, hentry]; exact he)]
  · rw [if_neg (by rw [← Bool.not_eq_true, hentry]; exact not_not_intro he),
      if_pos (by rw [← Bool.not_eq_true, hframes]; exact Nat.not_le.2 hf)]

/-! ## Acceptance (R93, R94) -/

/-- The group table entry of a group: the lowest free one. -/
theorem Device.groupFor_spec (d : Device) (ms : List Member) :
    (ms.length = 1 → d.groupFor ms = none) ∧
      (ms.length ≠ 1 → (∃ i : Nat, d.groups[i]? = some GroupEntry.free) →
        ∃ i : Nat, d.groupFor ms = some i ∧ d.groups[i]? = some GroupEntry.free) := by
  refine ⟨fun h => if_pos h, fun h ⟨i, hi⟩ => ?_⟩
  rw [Device.groupFor, if_neg h]
  cases hf : d.groups.findIdx? GroupEntry.isFree with
  | none =>
    have := List.findIdx?_eq_none_iff.1 hf _ (List.mem_of_getElem? hi)
    contradiction
  | some j =>
    obtain ⟨hj, hfree, _⟩ := List.findIdx?_eq_some_iff_getElem.1 hf
    refine ⟨j, rfl, ?_⟩
    rw [List.getElem?_eq_getElem hj]
    cases hx : d.groups[j] with
    | free => rfl
    | reserved | kept => rw [hx] at hfree; contradiction

theorem Device.reserveGroup_frame (g : Option Nat) (d : Device) :
    d.reserveGroup g = { d with groups := (d.reserveGroup g).groups } := by
  cases g <;> rfl

theorem Device.commitHandle_frame (p : PortId) (hs : List HandleNo) (d : Device) : hs.foldl (Device.commitHandle p) d =
    { d with ports := (hs.foldl (Device.commitHandle p) d).ports } := by
  rw [(Device.commitHandles_eq p hs d).1]
  rfl

/-- What acceptance changes. -/
theorem Device.accept_eq (p : PortId) (hs : List HandleNo) (ms : List Member) (d : Device) : d.accept p hs ms = { d with
    ports := (d.accept p hs ms).ports
    groups := (d.reserveGroup (d.groupFor ms)).groups
    commitQueue := d.commitQueue ++
      [{ port := p, ticket := (d.port p).ticket, members := ms, group := d.groupFor ms, state := .queued
         sequence := none, portReset := false }] } := by
  unfold Device.accept
  dsimp only
  rw [Device.reserveGroup_frame, Device.commitHandle_frame]
  cases d.groupFor ms <;> rfl

theorem Device.port_accept (p : PortId) (hs : List HandleNo) (ms : List Member) (d : Device) (q : PortId) :
    (d.accept p hs ms).port q = ((hs.foldl (Device.commitHandle p) d).modPort p Port.reserve).port q := by
  unfold Device.accept
  dsimp only
  rw [Device.reserveGroup_frame]
  rfl

/-- Settles O35: no check refuses, and acceptance is taken apart. -/
theorem commitIsAccepted : Obligations.CommitIsAccepted := by
  intro p hs ms s hserves hst hgood hne hn hms hw htables hslot hentry hg hframes
  have hpos : 1 ≤ ms.length := by
    rw [← List.Forall₂.length_eq hms]
    exact List.length_pos_of_ne_nil hne
  have hroom : ms.length = 1 ∨ ∃ i : Nat, s.dev.groups[i]? = some GroupEntry.free := by
    rcases Nat.lt_or_ge 1 ms.length with h | h
    · exact .inr (hentry h)
    · exact .inl (Nat.le_antisymm h hpos)
  obtain ⟨ctables, cslot, centry, cframes⟩ := Device.checks_named p hs ms s.dev hg
  have hrun : exec (.commit p (hs.map Four.toByte)) s = .next ⟨s.pending, Device.reply p 0x0B ((s.dev.port p).count + 1)
      (((s.dev.named p hs).accept p hs ms).arbiter, ok [((s.dev.named p hs).port p).ticket])⟩ := by
    rw [exec_commit_members hserves hst hgood hne hn hms hw, Device.commitMembers,
      if_neg (by rw [ctables.2 htables]; decide), if_neg (by rw [cslot.2 hslot]; decide),
      if_neg (by rw [centry.2 hroom]; decide), if_neg (by rw [cframes.2 hframes]; decide)]
  have hticket : ((s.dev.named p hs).port p).ticket = (s.dev.port p).ticket := by rw [Device.port_named]
  have hgroups : (s.dev.named p hs).groups = s.dev.groups := by rw [Device.named_frame]
  have hcommitted := Device.commitHandles_eq p hs (s.dev.named p hs)
  have hhandle : ∀ j, ((s.dev.named p hs).accept p hs ms).handle p j =
      if j ∈ hs then ((s.dev.named p hs).handle p j).committed else (s.dev.named p hs).handle p j := by
    intro j
    rw [← hcommitted.2 j, Device.handle, Device.port_accept, Device.port_modPort_same]
    rfl
  obtain ⟨hone, hgroup⟩ := (s.dev.named p hs).groupFor_spec ms
  refine ⟨(s.dev.named p hs).accept p hs ms, (s.dev.named p hs).groupFor ms, ?_, ?_, fun h hh k b cursor deadline hx => ?_,
    fun h hh => ?_, ?_, fun h1 => ⟨hone h1, ?_⟩, fun h2 => ?_, fun q hq => ?_⟩
  · rw [hrun, hticket]
    rfl
  · rw [Device.accept_eq, hticket, Device.named_frame]
  · rw [hhandle, if_pos hh, Device.handle_named, if_pos hh, hx]
    rfl
  · rw [hhandle, if_neg hh, Device.handle_named, if_neg hh]
  · have hport := congrArg (fun e : Device => e.port p) hcommitted.1
    rw [Device.port_accept, Device.port_modPort_same]
    refine (congrArg Port.reserve (hport.trans (Device.port_modPort_same ..))).trans ?_
    rw [Device.port_named]
    rfl
  · rw [Device.accept_eq, hone h1]
    exact hgroups
  · obtain ⟨i, hi, hfree⟩ := hgroup (by omega) (by rw [hgroups]; exact hentry h2)
    refine ⟨i, hi, hgroups ▸ hfree, ?_⟩
    rw [Device.accept_eq, hi, ← hgroups]
    rfl
  · rw [Device.port_accept, Device.port_modPort_other _ _ hq, hcommitted.1, Device.port_modPort_other _ _ hq,
      Device.port_named_other p hs _ hq]

end Sys2Proof.Machine
end

section
/-! SUPPORT. PORT_RESET, by what each handle of the port and each of its commits gives back: the statement
PortResetClearsThePort. -/

namespace Sys2Proof.Machine

/-! ## What a handle gives back (R88) -/

/-- A READING handle whose key and segment pass a test. -/
def Handle.reads (test : Key → Nat → Bool) : Handle → Bool
  | .reading k v _ _ => test k v.location.seg
  | _ => false

/-- A WRITING handle of a key. -/
def Handle.claims (j : Key) : Handle → Bool
  | .writing k _ _ _ => k == j
  | _ => false

/-- A WRITING handle with a buffer. -/
def Handle.fills (b : BufferNo) : Handle → Bool
  | .writing _ c _ _ => c == b
  | _ => false

/-- The entry after `n` pins and, where `r` says so, its claim are given back. -/
def Entry.givenBack (n : Nat) (r : Bool) (e : Entry) : Option Entry :=
  if r = true ∧ e.state = .pending then none
  else some { e with claim := if r then none else e.claim, pins := e.pins - n }

theorem Entry.givenBack_none (x : Option Entry) : x.bind (Entry.givenBack 0 false) = x := by
  cases x <;> simp [Entry.givenBack]

theorem Entry.givenBack_givenBack (x : Option Entry) (n m : Nat) (r q : Bool) :
    (x.bind (Entry.givenBack n r)).bind (Entry.givenBack m q) = x.bind (Entry.givenBack (n + m) (r || q)) := by
  cases x with
  | none => rfl
  | some e => cases r <;> cases q <;> by_cases h : e.state = .pending <;> simp [Entry.givenBack, h, Nat.sub_sub]

theorem Entry.released_eq (x : Option Entry) : x.bind Entry.released = x.bind (Entry.givenBack 0 true) := by
  cases x with
  | none => rfl
  | some e => simp [Entry.released, Entry.givenBack]

theorem Device.lookup_dropReader (d : Device) (p : PortId) (h : HandleNo) (k : Key) (v : Bound) (x : Handle) (j : Key) :
    (d.dropReader p h k v x).lookup j = (d.lookup j).bind (Entry.givenBack (k == j).toNat false) := by
  have hdir : (d.dropReader p h k v x).directory = (d.modEntry k fun e => { e with pins := e.pins - 1 }).directory := by
    rw [Device.dropReader_eq]
  rw [Device.lookup_congr hdir]
  by_cases hj : j = k
  · subst hj
    cases hl : d.lookup j with
    | none =>
      have hnone : ∀ y ∈ d.directory, ¬ y.key = j := by simpa [Device.lookup] using hl
      rw [Device.lookup, Device.modEntry, List.find?_map, Option.bind_none, Option.map_eq_none_iff, List.find?_eq_none]
      intro y hy
      simpa using hnone y hy
    | some e =>
      rw [Device.lookup_modEntry_same _ hl]
      simp [Entry.givenBack, Device.lookup_key hl]
  · rw [Device.lookup_modEntry_other _ hj, beq_false_of_ne (Ne.symm hj)]
    exact (Entry.givenBack_none _).symm

/-- What the reset of one handle does to the entries. -/
theorem Device.lookup_resetHandle (d : Device) (p : PortId) (h : HandleNo) (j : Key) : (d.resetHandle p h).lookup j =
    (d.lookup j).bind
      (Entry.givenBack ((d.handle p h).reads fun k _ => k == j).toNat ((d.handle p h).claims j)) := by
  unfold Device.resetHandle
  cases d.handle p h with
  | reading k v c t => exact Device.lookup_dropReader ..
  | writing k b c t =>
    dsimp only [Handle.reads, Handle.claims]
    rw [Device.lookup_dropWriter]
    by_cases hj : j = k
    · subst hj
      rw [if_pos rfl, Entry.released_eq, beq_self_eq_true]
      rfl
    · rw [if_neg hj, beq_false_of_ne (Ne.symm hj)]
      exact (Entry.givenBack_none _).symm
  | free | committing | expired | revoked => exact (Entry.givenBack_none _).symm

/-- A segment's record after `n` pins are given back. -/
def SegmentRecord.givenBack (n : Nat) (r : SegmentRecord) : SegmentRecord := { r with pins := r.pins - n }

theorem SegmentRecord.givenBack_none (x : Option SegmentRecord) : x.map (SegmentRecord.givenBack 0) = x := by
  cases x <;> rfl

theorem SegmentRecord.givenBack_givenBack (x : Option SegmentRecord) (n m : Nat) :
    (x.map (SegmentRecord.givenBack n)).map (SegmentRecord.givenBack m) = x.map (SegmentRecord.givenBack (n + m)) := by
  cases x <;> simp [SegmentRecord.givenBack, Nat.sub_sub]

/-- The reset of a handle that is not READING leaves segments and controller as they were. -/
theorem Device.resetHandle_other {d : Device} {p : PortId} {h : HandleNo}
    (hx : (d.handle p h).reads (fun _ _ => true) = false) :
    (d.resetHandle p h).segments = d.segments ∧ (d.resetHandle p h).reclaim = d.reclaim := by
  unfold Device.resetHandle
  cases hy : d.handle p h with
  | reading k v c t => rw [hy] at hx; contradiction
  | writing k b c t =>
    dsimp only
    rw [Device.dropWriter_frame]
    exact ⟨rfl, rfl⟩
  | free | committing | expired | revoked => exact ⟨rfl, rfl⟩

theorem Device.resetHandle_reading {d : Device} {p : PortId} {h : HandleNo} {k : Key} {v : Bound} {c t : Nat}
    (hx : d.handle p h = .reading k v c t) : d.resetHandle p h = d.dropReader p h k v .free := by
  rw [Device.resetHandle, hx]

theorem Device.segments_resetHandle (d : Device) (p : PortId) (h : HandleNo) (i : Nat) :
    (d.resetHandle p h).segments[i]? =
      (d.segments[i]?).map (SegmentRecord.givenBack ((d.handle p h).reads fun _ x => x == i).toNat) := by
  cases hx : d.handle p h with
  | reading k v c t =>
    rw [Device.resetHandle_reading hx, Device.dropReader_eq]
    show (d.segments.modify v.location.seg _)[i]? = _
    rw [List.getElem?_modify, Handle.reads]
    by_cases hi : v.location.seg = i
    · rw [beq_iff_eq.2 hi]
      cases d.segments[i]? <;> simp [hi, SegmentRecord.givenBack]
    · rw [beq_false_of_ne hi]
      cases d.segments[i]? <;> simp [hi, SegmentRecord.givenBack]
  | writing | free | committing | expired | revoked =>
    rw [(Device.resetHandle_other (by rw [hx]; rfl)).1]
    exact (SegmentRecord.givenBack_none _).symm

/-! ## The handles in turn -/

/-- How many of some handles are READING and pass a test. -/
def Device.readers (d : Device) (p : PortId) (hs : List HandleNo) (test : Key → Nat → Bool) : Nat :=
  (hs.filter fun h => (d.handle p h).reads test).length

theorem Device.readers_cons (d : Device) (p : PortId) (h : HandleNo) (hs : List HandleNo) (test : Key → Nat → Bool) :
    d.readers p (h :: hs) test = ((d.handle p h).reads test).toNat + d.readers p hs test := by
  unfold Device.readers
  rw [List.filter_cons]
  cases (d.handle p h).reads test <;> simp [Nat.add_comm]

/-- The handles that are left are as they were before the reset of another. -/
theorem Device.resetHandle_rest {d : Device} {p : PortId} {h : HandleNo} {rest : List HandleNo} (hn : (h :: rest).Nodup) :
    ∀ j ∈ rest, (d.resetHandle p h).handle p j = d.handle p j := by
  intro j hj
  have hne : j ≠ h := fun hjh => (List.nodup_cons.1 hn).1 (hjh ▸ hj)
  rw [Device.handle_resetHandle, if_neg hne]

theorem Device.readers_congr {d e : Device} {p : PortId} {hs : List HandleNo} (test : Key → Nat → Bool)
    (h : ∀ j ∈ hs, e.handle p j = d.handle p j) : e.readers p hs test = d.readers p hs test := by
  unfold Device.readers
  rw [List.filter_congr fun j hj => by rw [h j hj]]

theorem Device.readers_zero {d : Device} {p : PortId} {hs : List HandleNo} (h : d.readers p hs (fun _ _ => true) = 0)
    (test : Key → Nat → Bool) : d.readers p hs test = 0 := by
  unfold Device.readers at h ⊢
  rw [List.length_eq_zero_iff, List.filter_eq_nil_iff] at h ⊢
  intro j hj hread
  refine h j hj ?_
  cases hx : d.handle p j with
  | reading => rfl
  | writing | free | committing | expired | revoked => rw [hx] at hread; contradiction

/-- Whether one of some handles is WRITING and holds the claim of a key. -/
def Device.claimed (d : Device) (p : PortId) (hs : List HandleNo) (j : Key) : Bool :=
  hs.any fun h => (d.handle p h).claims j

theorem Device.claimed_congr {d e : Device} {p : PortId} {hs : List HandleNo} (k : Key)
    (h : ∀ j ∈ hs, e.handle p j = d.handle p j) : e.claimed p hs k = d.claimed p hs k := by
  rw [Bool.eq_iff_iff, Device.claimed, Device.claimed, List.any_eq_true, List.any_eq_true]
  exact exists_congr fun j => and_congr_right fun hj => by rw [h j hj]

theorem Device.lookup_resetHandles {p : PortId} {hs : List HandleNo} (hn : hs.Nodup) (d : Device) (j : Key) :
    (hs.foldl (Device.resetHandle p) d).lookup j = (d.lookup j).bind
      (Entry.givenBack (d.readers p hs fun k _ => k == j) (d.claimed p hs j)) := by
  induction hs generalizing d with
  | nil => exact (Entry.givenBack_none _).symm
  | cons h rest ih =>
    have hrest := Device.resetHandle_rest (d := d) (p := p) hn
    rw [List.foldl_cons, ih (List.nodup_cons.1 hn).2, Device.lookup_resetHandle, Entry.givenBack_givenBack,
      Device.readers_congr _ hrest, Device.claimed_congr j hrest, Device.readers_cons]
    rfl

theorem Device.segments_resetHandles {p : PortId} {hs : List HandleNo} (hn : hs.Nodup) (d : Device) (i : Nat) :
    (hs.foldl (Device.resetHandle p) d).segments[i]? =
      (d.segments[i]?).map (SegmentRecord.givenBack (d.readers p hs fun _ x => x == i)) := by
  induction hs generalizing d with
  | nil => exact (SegmentRecord.givenBack_none _).symm
  | cons h rest ih =>
    rw [List.foldl_cons, ih (List.nodup_cons.1 hn).2, Device.segments_resetHandle, SegmentRecord.givenBack_givenBack,
      Device.readers_congr _ (Device.resetHandle_rest hn), Device.readers_cons]

theorem Device.buffer_resetHandles {p : PortId} {hs : List HandleNo} (hn : hs.Nodup) (d : Device) (b : BufferNo) :
    ((∃ h ∈ hs, (d.handle p h).fills b = true) → (hs.foldl (Device.resetHandle p) d).buffer b = Buffer.cleared) ∧
      ((∀ h ∈ hs, ¬ (d.handle p h).fills b = true) → (hs.foldl (Device.resetHandle p) d).buffer b = d.buffer b) := by
  refine foldl_touches Device.buffer (fun _ => Buffer.cleared) (fun h b => (d.handle p h).fills b = true)
    (fun rest e => rest.Nodup ∧ ∀ h ∈ rest, e.handle p h = d.handle p h) (fun _ => rfl)
    (fun h rest e ⟨hnr, he⟩ => ⟨(List.nodup_cons.1 hnr).2, fun j hj => ?_⟩) (fun h rest e b ⟨_, he⟩ => ?_) hs d
    ⟨hn, fun _ _ => rfl⟩ b
  · rw [Device.resetHandle_rest hnr j hj, he j (List.mem_cons_of_mem h hj)]
  · have hsame := he h List.mem_cons_self
    rw [← hsame, Device.resetHandle]
    cases hx : e.handle p h with
    | writing k c x t =>
      simp only [Handle.fills, beq_iff_eq, Device.buffer_dropWriter]
      exact ⟨fun hc => if_pos hc.symm, fun hc => if_neg (Ne.symm hc)⟩
    | reading k v x t =>
      simp only [Handle.fills, Bool.false_eq_true, not_false_eq_true, false_imp_iff, true_imp_iff, true_and]
      rw [Device.dropReader_eq]
      rfl
    | free | committing | expired | revoked => exact ⟨fun h => absurd h Bool.false_ne_true, fun _ => rfl⟩

theorem Device.groups_resetHandles (p : PortId) (hs : List HandleNo) (d : Device) :
    (hs.foldl (Device.resetHandle p) d).groups = d.groups := by
  refine foldl_keeps (·.groups) hs (fun h _ e => ?_) d
  unfold Device.resetHandle
  cases e.handle p h with
  | reading => dsimp only; rw [Device.dropReader_eq]
  | writing => dsimp only; rw [Device.dropWriter_frame]
  | free | committing | expired | revoked => rfl

/-! ## The victim's last pin (R125) -/

/-- No pin is left on the victim. -/
def unpinned (victim : Option Nat) (segments : List SegmentRecord) : Prop :=
  ∀ (i : Nat) (r : SegmentRecord), victim = some i → segments[i]? = some r → r.pins = 0

theorem unpinned_givenBack {victim : Option Nat} {xs ys : List SegmentRecord} {n : Nat → Nat}
    (h : ∀ i : Nat, ys[i]? = (xs[i]?).map (SegmentRecord.givenBack (n i)))
    (hx : unpinned victim xs) : unpinned victim ys := by
  intro i r hi hr
  rw [h i] at hr
  obtain ⟨x, hxi, rfl⟩ := Option.map_eq_some_iff.1 hr
  rw [SegmentRecord.givenBack, hx i x hi hxi, Nat.zero_sub]

theorem Device.victim_resetHandle (d : Device) (p : PortId) (h : HandleNo) :
    (d.resetHandle p h).reclaim.victim = d.reclaim.victim := by
  rw [d.resetHandle_clears p h]

/-- The reset of a READING handle: the release of the victim's last pin ends HOLDING. -/
theorem Device.state_resetHandle {d : Device} {p : PortId} {h : HandleNo}
    (hx : (d.handle p h).reads (fun _ _ => true) = true) :
    (d.reclaim.state = .holding → unpinned d.reclaim.victim (d.resetHandle p h).segments →
      (d.resetHandle p h).reclaim.state = .erasing) ∧
    (d.reclaim.state ≠ .holding ∨ ¬ unpinned d.reclaim.victim (d.resetHandle p h).segments →
      (d.resetHandle p h).reclaim.state = d.reclaim.state) := by
  cases hy : d.handle p h with
  | reading k v c t =>
    have hstate := (((d.modEntry k fun e => { e with pins := e.pins - 1 }).modSegment v.location.seg fun r =>
      { r with pins := r.pins - 1 }).endHolding_state)
    have hsegments : (d.resetHandle p h).segments = d.segments.modify v.location.seg fun r =>
        { r with pins := r.pins - 1 } := by
      rw [Device.resetHandle_reading hy, Device.dropReader_eq]
    rw [hsegments, Device.resetHandle_reading hy]
    exact hstate
  | writing | free | committing | expired | revoked => rw [hy] at hx; contradiction

theorem Device.state_resetHandles {p : PortId} {hs : List HandleNo} (hn : hs.Nodup) (d : Device) :
    let t := hs.foldl (Device.resetHandle p) d
    let free := 0 < d.readers p hs (fun _ _ => true) ∧ unpinned d.reclaim.victim t.segments
    (d.reclaim.state = .holding → free → t.reclaim.state = .erasing) ∧
      (d.reclaim.state ≠ .holding ∨ ¬ free → t.reclaim.state = d.reclaim.state) := by
  induction hs generalizing d with
  | nil => exact ⟨fun _ hf => absurd hf.1 (Nat.lt_irrefl 0), fun _ => rfl⟩
  | cons h rest ih =>
    have hrest := Device.resetHandle_rest (d := d) (p := p) hn
    have hleft := (List.nodup_cons.1 hn).2
    obtain ⟨ihfree, ihkept⟩ := ih hleft (d.resetHandle p h)
    have hafter := Device.segments_resetHandles (p := p) hleft (d.resetHandle p h)
    simp only [Device.victim_resetHandle, Device.readers_congr _ hrest] at ihfree ihkept hafter
    rw [List.foldl_cons]
    generalize rest.foldl (Device.resetHandle p) (d.resetHandle p h) = t at ihfree ihkept hafter ⊢
    dsimp only
    rw [Device.readers_cons]
    cases hx : (d.handle p h).reads (fun _ _ => true) with
    | false =>
      rw [(Device.resetHandle_other hx).2] at ihfree ihkept
      rw [Bool.toNat_false, Nat.zero_add]
      exact ⟨ihfree, ihkept⟩
    | true =>
      obtain ⟨hends, hstays⟩ := Device.state_resetHandle hx
      have hpos : 0 < true.toNat + d.readers p rest (fun _ _ => true) := by simp
      have hsame : ¬ 0 < d.readers p rest (fun _ _ => true) → unpinned d.reclaim.victim t.segments →
          unpinned d.reclaim.victim (d.resetHandle p h).segments := by
        intro hzero ht i r hi hr
        have hnone := Device.readers_zero (Nat.eq_zero_of_not_pos hzero) fun _ x => x == i
        refine ht i r hi ?_
        rw [hafter i, hnone, SegmentRecord.givenBack_none, hr]
      by_cases hhold : d.reclaim.state = .holding
      · by_cases hnow : unpinned d.reclaim.victim (d.resetHandle p h).segments
        · have hdone := ihkept (.inl (by rw [hends hhold hnow]; decide))
          rw [hends hhold hnow] at hdone
          refine ⟨fun _ _ => hdone, fun hno => ?_⟩
          rcases hno with hno | hno
          · exact absurd hhold hno
          · exact absurd ⟨hpos, unpinned_givenBack hafter hnow⟩ hno
        · have hstill := hstays (.inr hnow)
          rw [hstill] at ihfree ihkept
          refine ⟨fun _ hf => ihfree hhold ⟨?_, hf.2⟩, fun hno => ihkept (.inr fun hf => ?_)⟩
          · by_contra hzero
            exact hnow (hsame hzero hf.2)
          · rcases hno with hno | hno
            · exact hno hhold
            · exact hno ⟨hpos, hf.2⟩
      · have hstill := hstays (.inl hhold)
        rw [hstill] at ihkept
        exact ⟨fun hc => absurd hc hhold, fun _ => ihkept (.inl hhold)⟩

/-! ## The commits of the port (R110) -/

/-- The commits of a port that have not begun. -/
def Device.unbegun (d : Device) (p : PortId) : List CommitRecord := d.commitQueue.filter fun c => c.port == p

theorem Device.mem_unbegun {d : Device} {p : PortId} {c : CommitRecord} :
    c ∈ d.unbegun p ↔ c ∈ d.commitQueue ∧ c.port = p := by
  rw [Device.unbegun, List.mem_filter, beq_iff_eq]

theorem Device.removeCommit_ends (c : CommitRecord) (d : Device) : commitEnds d (d.removeCommit c) :=
  commitEnds_trans (commitEnds_foldl _ (fun e _ => e.dropWriter_ends ..) c.members d) (Device.freeGroup_ends _ c.group)

theorem Device.removeCommits_ends (p : PortId) (d : Device) :
    commitEnds { d with commitQueue := d.commitQueue.filter fun c => c.port != p } (d.removeCommits p) :=
  commitEnds_foldl _ (fun e c => e.removeCommit_ends c) _ _

theorem Device.lookup_removeCommit (c : CommitRecord) (d : Device) (k : Key) :
    ((∃ m ∈ c.members, m.key = k) → (d.removeCommit c).lookup k = (d.lookup k).bind Entry.released) ∧
      (¬ (∃ m ∈ c.members, m.key = k) → (d.removeCommit c).lookup k = d.lookup k) := by
  have hfold := foldl_touches (step := fun (d : Device) (m : Member) => d.dropWriter c.port m.handle m.key m.buffer .free)
    Device.lookup (·.bind Entry.released) (fun m k => m.key = k) (fun _ _ => True) Entry.released_released
    (fun _ _ _ _ => trivial)
    (fun m _ e k _ => ⟨fun hk => by rw [Device.lookup_dropWriter, if_pos hk.symm],
      fun hk => by rw [Device.lookup_dropWriter, if_neg (Ne.symm hk)]⟩) c.members d trivial k
  have hfreed : (d.removeCommit c).lookup k =
      (c.members.foldl (fun d m => d.dropWriter c.port m.handle m.key m.buffer .free) d).lookup k := by
    unfold Device.removeCommit
    rw [Device.freeGroup_frame]
    rfl
  rw [hfreed]
  exact ⟨hfold.1, fun hno => hfold.2 fun m hm hk => hno ⟨m, hm, hk⟩⟩

theorem Device.buffer_removeCommit (c : CommitRecord) (d : Device) (b : BufferNo) :
    ((∃ m ∈ c.members, m.buffer = b) → (d.removeCommit c).buffer b = Buffer.cleared) ∧
      (¬ (∃ m ∈ c.members, m.buffer = b) → (d.removeCommit c).buffer b = d.buffer b) := by
  have hfold := foldl_touches (step := fun (d : Device) (m : Member) => d.dropWriter c.port m.handle m.key m.buffer .free)
    Device.buffer (fun _ => Buffer.cleared) (fun m b => m.buffer = b) (fun _ _ => True) (fun _ => rfl)
    (fun _ _ _ _ => trivial)
    (fun m _ e b _ => ⟨fun hb => by rw [Device.buffer_dropWriter, if_pos hb.symm],
      fun hb => by rw [Device.buffer_dropWriter, if_neg (Ne.symm hb)]⟩) c.members d trivial b
  have hfreed : (d.removeCommit c).buffer b =
      (c.members.foldl (fun d m => d.dropWriter c.port m.handle m.key m.buffer .free) d).buffer b := by
    unfold Device.removeCommit
    rw [Device.freeGroup_frame]
    rfl
  rw [hfreed]
  exact ⟨hfold.1, fun hno => hfold.2 fun m hm hb => hno ⟨m, hm, hb⟩⟩

theorem Device.getElem?_removeCommit (c : CommitRecord) (d : Device) (i : Nat) : (d.removeCommit c).groups[i]? =
    if c.group = some i then (d.groups[i]?).map fun _ => GroupEntry.free else d.groups[i]? := by
  have hkept : (c.members.foldl (fun d m => d.dropWriter c.port m.handle m.key m.buffer .free) d).groups = d.groups :=
    foldl_keeps (·.groups) c.members (fun m _ e => by rw [Device.dropWriter_frame]) d
  unfold Device.removeCommit
  rw [Device.getElem?_freeGroup, hkept]

/-- What the removal of the port's commits does to entries, buffers and the group table. -/
theorem Device.lookup_removeCommits (p : PortId) (d : Device) (k : Key) :
    ((∃ c ∈ d.unbegun p, ∃ m ∈ c.members, m.key = k) → (d.removeCommits p).lookup k = (d.lookup k).bind Entry.released) ∧
      (¬ (∃ c ∈ d.unbegun p, ∃ m ∈ c.members, m.key = k) → (d.removeCommits p).lookup k = d.lookup k) := by
  have hfold := foldl_touches Device.lookup (·.bind Entry.released)
    (fun (c : CommitRecord) k => ∃ m ∈ c.members, m.key = k)
    (fun _ _ => True) Entry.released_released (fun _ _ _ _ => trivial)
    (fun c _ e k _ => e.lookup_removeCommit c k) (d.unbegun p)
    { d with commitQueue := d.commitQueue.filter fun c => c.port != p } trivial k
  exact ⟨hfold.1, fun hno => hfold.2 fun c hc hm => hno ⟨c, hc, hm⟩⟩

theorem Device.buffer_removeCommits (p : PortId) (d : Device) (b : BufferNo) :
    ((∃ c ∈ d.unbegun p, ∃ m ∈ c.members, m.buffer = b) → (d.removeCommits p).buffer b = Buffer.cleared) ∧
      (¬ (∃ c ∈ d.unbegun p, ∃ m ∈ c.members, m.buffer = b) → (d.removeCommits p).buffer b = d.buffer b) := by
  have hfold := foldl_touches Device.buffer (fun _ => Buffer.cleared)
    (fun (c : CommitRecord) b => ∃ m ∈ c.members, m.buffer = b) (fun _ _ => True) (fun _ => rfl) (fun _ _ _ _ => trivial)
    (fun c _ e b _ => e.buffer_removeCommit c b) (d.unbegun p)
    { d with commitQueue := d.commitQueue.filter fun c => c.port != p } trivial b
  exact ⟨hfold.1, fun hno => hfold.2 fun c hc hm => hno ⟨c, hc, hm⟩⟩

theorem Device.getElem?_removeCommits (p : PortId) (d : Device) (i : Nat) :
    ((∃ c ∈ d.unbegun p, c.group = some i) →
      (d.removeCommits p).groups[i]? = (d.groups[i]?).map fun _ => GroupEntry.free) ∧
      (¬ (∃ c ∈ d.unbegun p, c.group = some i) → (d.removeCommits p).groups[i]? = d.groups[i]?) := by
  have hfold := foldl_touches (fun (e : Device) (i : Nat) => e.groups[i]?) (Option.map fun _ => GroupEntry.free)
    (fun (c : CommitRecord) i => c.group = some i) (fun _ _ => True) (fun x => by cases x <;> rfl) (fun _ _ _ _ => trivial)
    (fun c _ e i _ => ⟨fun hi => (e.getElem?_removeCommit c i).trans (if_pos hi),
      fun hi => (e.getElem?_removeCommit c i).trans (if_neg hi)⟩) (d.unbegun p)
    { d with commitQueue := d.commitQueue.filter fun c => c.port != p } trivial i
  exact ⟨hfold.1, fun hno => hfold.2 fun c hc hm => hno ⟨c, hc, hm⟩⟩

/-! ## PORT_RESET (R162) -/

theorem exec_portReset {p : PortId} {s : State} (hs : s.dev.serves p) : exec (.portReset p []) s = .next ⟨s.pending,
    Device.reply p 0x14 ((s.dev.port p).count + 1) (((s.dev.countRequest p).clearPort p).arbiter, ok [])⟩ := by
  show Host.Outcome.next (State.mk s.pending (s.dev.request p 0x14 (some ()) false fun _ d =>
    ((d.clearPort p).arbiter, ok []))) = _
  rw [Device.request_ruled _ _ _ _ hs.1 (.inr hs.2)]

/-- The device after the resets of the port's handles. -/
def Device.handlesReset (p : PortId) (d : Device) : Device := Four.all.foldl (Device.resetHandle p) d

theorem Device.handlesReset_clears (p : PortId) (d : Device) : portClears p d (d.handlesReset p) :=
  portClears_foldl _ _ (fun h _ e => e.resetHandle_clears p h) d

/-- What PORT_RESET changes of the port besides its handles. -/
theorem Device.clearPort_eq (p : PortId) (d : Device) : d.clearPort p =
    { ((d.handlesReset p).removeCommits p) with flight := d.flight.map (EngineUnit.portReset p) }.modPort p Port.reset := by
  have h1 : (d.handlesReset p).flight = d.flight := by rw [d.handlesReset_clears p]
  have h2 : ((d.handlesReset p).removeCommits p).flight = (d.handlesReset p).flight := by
    rw [(d.handlesReset p).removeCommits_ends p]
  rw [← h1, ← h2]
  rfl

theorem Device.clearPort_frame (p : PortId) (d : Device) : d.clearPort p = { d with
    ports := (d.clearPort p).ports
    buffers := (d.clearPort p).buffers
    directory := (d.clearPort p).directory
    segments := (d.clearPort p).segments
    groups := (d.clearPort p).groups
    commitQueue := d.commitQueue.filter fun c => c.port != p
    flight := d.flight.map (EngineUnit.portReset p)
    reclaim := { d.reclaim with state := (d.clearPort p).reclaim.state } } := by
  have h1 := d.handlesReset_clears p
  have h2 := (d.handlesReset p).removeCommits_ends p
  unfold portClears at h1
  unfold commitEnds at h2
  rw [Device.clearPort_eq]
  generalize (d.handlesReset p).removeCommits p = t at h2 ⊢
  generalize d.handlesReset p = e at h1 h2
  rw [h2, h1]
  rfl

theorem Device.port_clearPort (p : PortId) (d : Device) :
    (d.clearPort p).port p = Port.reset { d.port p with handles := ((d.clearPort p).port p).handles } := by
  have hport := portClears_port_same (d.handlesReset_clears p)
  have hcommits := portClears_port_same ((d.handlesReset p).removeCommits_clears p)
  rw [Device.clearPort_eq, Device.port_modPort_same]
  show Port.reset (((d.handlesReset p).removeCommits p).port p) = _
  rw [hcommits]
  show Port.reset { (d.handlesReset p).port p with handles := _ } = _
  rw [hport]
  rfl

theorem Device.port_clearPort_other (p : PortId) (d : Device) {q : PortId} (hq : q ≠ p) :
    (d.clearPort p).port q = d.port q := by
  rw [Device.clearPort_eq, Device.port_modPort_other _ _ hq]
  show ((d.handlesReset p).removeCommits p).port q = _
  refine (portClears_port_other ((d.handlesReset p).removeCommits_clears p) hq).trans ?_
  show (d.handlesReset p).port q = d.port q
  exact portClears_port_other (d.handlesReset_clears p) hq

/-- What PORT_RESET leaves is read after the removal of the port's commits. -/
theorem Device.clearPort_reads (p : PortId) (d : Device) :
    (d.clearPort p).directory = ((d.handlesReset p).removeCommits p).directory ∧
    (d.clearPort p).buffers = ((d.handlesReset p).removeCommits p).buffers ∧
    (d.clearPort p).groups = ((d.handlesReset p).removeCommits p).groups ∧
    (d.clearPort p).segments = (d.handlesReset p).segments ∧ (d.clearPort p).reclaim = (d.handlesReset p).reclaim := by
  have hends := (d.handlesReset p).removeCommits_ends p
  refine ⟨rfl, rfl, rfl, ?_, ?_⟩ <;> rw [Device.clearPort_eq]
  · show ((d.handlesReset p).removeCommits p).segments = _
    rw [hends]
  · show ((d.handlesReset p).removeCommits p).reclaim = _
    rw [hends]

theorem Device.queue_handlesReset (p : PortId) (d : Device) : (d.handlesReset p).commitQueue = d.commitQueue := by
  rw [d.handlesReset_clears p]

theorem Device.handle_clearPort (p : PortId) (d : Device) (j : HandleNo) : (d.clearPort p).handle p j =
    if ∃ c ∈ d.commitQueue, c.port = p ∧ ∃ m ∈ c.members, m.handle = j then .free else (d.handle p j).afterReset := by
  have hremoved := (d.handlesReset p).handle_removeCommits p j
  rw [Device.queue_handlesReset, Device.handlesReset, Device.handle_resetHandles] at hremoved
  rw [← hremoved, Device.handle, Device.clearPort_eq, Device.port_modPort_same]
  rfl

theorem Device.claimed_iff (d : Device) (p : PortId) (k : Key) :
    d.claimed p Four.all k = true ↔ ∃ h b c t, d.handle p h = .writing k b c t := by
  rw [Device.claimed, List.any_eq_true]
  constructor
  · rintro ⟨h, _, hx⟩
    cases hy : d.handle p h with
    | writing k' b c t =>
      rw [hy] at hx
      exact ⟨h, b, c, t, by rw [hy, beq_iff_eq.1 hx]⟩
    | free | reading | committing | expired | revoked => rw [hy] at hx; contradiction
  · rintro ⟨h, b, c, t, hx⟩
    exact ⟨h, Four.mem_all h, by rw [hx]; exact beq_self_eq_true k⟩

theorem Handle.fills_iff (b : BufferNo) (x : Handle) : x.fills b = true ↔ ∃ k c t, x = .writing k b c t := by
  cases x <;> simp [Handle.fills]

/-- The entries after a PORT_RESET, by the pins and the claims given back. -/
theorem Device.lookup_clearPort (p : PortId) (d : Device) (k : Key) (released : Prop)
    (hr : released ↔ (∃ h b c t, d.handle p h = .writing k b c t) ∨
      ∃ c, (c ∈ d.commitQueue ∧ c.port = p) ∧ ∃ m ∈ c.members, m.key = k) :
    (released → (d.clearPort p).lookup k =
      (d.lookup k).bind (Entry.givenBack (d.readers p Four.all fun x _ => x == k) true)) ∧
    (¬ released → (d.clearPort p).lookup k =
      (d.lookup k).bind (Entry.givenBack (d.readers p Four.all fun x _ => x == k) false)) := by
  have hhandles := Device.lookup_resetHandles (p := p) (hs := Four.all) (by decide) d k
  obtain ⟨hgone, hkept⟩ := (d.handlesReset p).lookup_removeCommits p k
  have hunbegun : (∃ c ∈ (d.handlesReset p).unbegun p, ∃ m ∈ c.members, m.key = k) ↔
      ∃ c, (c ∈ d.commitQueue ∧ c.port = p) ∧ ∃ m ∈ c.members, m.key = k := by
    simp only [Device.mem_unbegun, Device.queue_handlesReset]
  rw [Device.lookup_congr (d.clearPort_reads p).1, hr, ← d.claimed_iff p k, ← hunbegun]
  change (d.handlesReset p).lookup k = _ at hhandles
  refine ⟨fun hany => ?_, fun hno => ?_⟩
  · by_cases hc : ∃ c ∈ (d.handlesReset p).unbegun p, ∃ m ∈ c.members, m.key = k
    · rw [hgone hc, hhandles, Entry.released_eq, Entry.givenBack_givenBack, Nat.add_zero, Bool.or_true]
    · rw [hkept hc, hhandles, hany.resolve_right hc]
  · obtain ⟨hclaim, hc⟩ := not_or.1 hno
    rw [hkept hc, hhandles, Bool.eq_false_iff.2 hclaim]

/-- Settles O44: the port's handles, its commits, its own fields, and what the others keep, each by its lemma. -/
theorem portResetClearsThePort : Obligations.PortResetClearsThePort := by
  intro p s hs removed reading released emptied unpinned'
  have hhandle : ∀ h, (s.dev.countRequest p).handle p h = s.dev.handle p h := s.dev.handle_countRequest p p
  have hreading : ∀ test, (s.dev.countRequest p).readers p Four.all test = reading test := by
    intro test
    show (Four.all.filter _).length = (Four.all.filter _).length
    congr 1
    refine List.filter_congr fun h _ => ?_
    rw [hhandle]
    cases s.dev.handle p h <;> rfl
  have hreleased : ∀ k, released k ↔ (∃ h b c t, (s.dev.countRequest p).handle p h = .writing k b c t) ∨
      ∃ c, (c ∈ (s.dev.countRequest p).commitQueue ∧ c.port = p) ∧ ∃ m ∈ c.members, m.key = k := by
    intro k
    simp only [hhandle]
    rfl
  obtain ⟨_, _, hgroups, hsegments, hreclaim⟩ := (s.dev.countRequest p).clearPort_reads p
  have hsegment := fun i => (congrArg (fun xs : List SegmentRecord => xs[i]?) hsegments).trans
    (Device.segments_resetHandles (p := p) (hs := Four.all) (by decide) (s.dev.countRequest p) i)
  have hstate := Device.state_resetHandles (p := p) (hs := Four.all) (by decide) (s.dev.countRequest p)
  have hbuffer : ∀ b, ((s.dev.countRequest p).clearPort p).buffer b =
      (((s.dev.countRequest p).handlesReset p).removeCommits p).buffer b := fun _ => rfl
  have hfree : unpinned' ((s.dev.countRequest p).clearPort p).segments ↔
      0 < (s.dev.countRequest p).readers p Four.all (fun _ _ => true) ∧ unpinned (s.dev.countRequest p).reclaim.victim
        ((s.dev.countRequest p).handlesReset p).segments := by
    rw [hreading, hsegments]
    rfl
  have hqueue : ∀ c, c ∈ ((s.dev.countRequest p).handlesReset p).unbegun p ↔ removed c := fun c => by
    rw [Device.mem_unbegun, Device.queue_handlesReset]
    rfl
  refine ⟨(s.dev.countRequest p).clearPort p, exec_portReset hs, ?_, fun h hx => ?_, fun h hc => ?_,
      fun h k b x hx hno => ?_,
    fun k => ⟨fun hk => ?_, fun hk => ?_⟩, fun b => ⟨fun hb => ?_, fun hb => ?_⟩, fun i => ?_,
    fun i => ⟨fun hi => ?_, fun hi => ?_⟩, fun hh hu => ?_, fun hh => ?_, ?_, fun q hq => ?_⟩
  · rw [Device.port_clearPort, Device.port_countRequest]
    rfl
  · rw [Device.handle_clearPort, hhandle]
    split
    · rfl
    · cases hy : s.dev.handle p h with
      | committing k b c => exact absurd hy (hx k b c)
      | free | reading | writing | expired | revoked => rfl
  · obtain ⟨c, ⟨hc, hcp⟩, hm⟩ := hc
    rw [Device.handle_clearPort, if_pos ⟨c, hc, hcp, hm⟩]
  · rw [Device.handle_clearPort, if_neg fun ⟨c, hc, hcp, m, hm, hmh⟩ => hno c ⟨hc, hcp⟩ m hm hmh, hhandle, hx]
    rfl
  · rw [((s.dev.countRequest p).lookup_clearPort p k _ (hreleased k)).1 hk, hreading]
    show (s.dev.lookup k).bind _ = _
    cases s.dev.lookup k with
    | none => rfl
    | some e => simp [Entry.givenBack]
  · rw [((s.dev.countRequest p).lookup_clearPort p k _ (hreleased k)).2 hk, hreading]
    show (s.dev.lookup k).bind _ = _
    cases s.dev.lookup k <;> rfl
  · rw [hbuffer b]
    by_cases hc : ∃ c, removed c ∧ ∃ m ∈ c.members, m.buffer = b
    · obtain ⟨c, hc, hm⟩ := hc
      exact (((s.dev.countRequest p).handlesReset p).buffer_removeCommits p b).1 ⟨c, (hqueue c).2 hc, hm⟩
    · rw [(((s.dev.countRequest p).handlesReset p).buffer_removeCommits p b).2
        fun ⟨c, hcq, hm⟩ => hc ⟨c, (hqueue c).1 hcq, hm⟩]
      obtain ⟨h, hx⟩ := hb.resolve_right hc
      exact (Device.buffer_resetHandles (p := p) (hs := Four.all) (by decide) (s.dev.countRequest p) b).1
        ⟨h, Four.mem_all h, by rw [hhandle, Handle.fills_iff]; exact hx⟩
  · obtain ⟨hclaim, hc⟩ := not_or.1 hb
    rw [hbuffer b, (((s.dev.countRequest p).handlesReset p).buffer_removeCommits p b).2
      fun ⟨c, hcq, hm⟩ => hc ⟨c, (hqueue c).1 hcq, hm⟩]
    exact (Device.buffer_resetHandles (p := p) (hs := Four.all) (by decide) (s.dev.countRequest p) b).2
      fun h _ hx => hclaim ⟨h, by rw [hhandle, Handle.fills_iff] at hx; exact hx⟩
  · rw [hsegment, hreading]
    rfl
  · obtain ⟨c, hc, hg⟩ := hi
    rw [hgroups, (((s.dev.countRequest p).handlesReset p).getElem?_removeCommits p i).1 ⟨c, (hqueue c).2 hc, hg⟩,
      Device.handlesReset, Device.groups_resetHandles]
    rfl
  · rw [hgroups, (((s.dev.countRequest p).handlesReset p).getElem?_removeCommits p i).2
      fun ⟨c, hc, hg⟩ => hi c ((hqueue c).1 hc) hg, Device.handlesReset, Device.groups_resetHandles]
    rfl
  · rw [hreclaim]
    exact hstate.1 hh (hfree.1 hu)
  · rw [hreclaim]
    exact hstate.2 (hh.imp_right fun hu hf => hu (hfree.2 hf))
  · rw [Device.clearPort_frame]
    have hflight : ∀ x : Option EngineUnit, x.map (EngineUnit.portReset p) = match x with
        | some (.write (.commit c placed) retried w) =>
          some (.write (.commit (if c.port = p then { c with portReset := true } else c) placed) retried w)
        | x => x := by
      intro x
      rcases x with _ | ⟨_ | _, _, _⟩ | _ <;> rfl
    rw [hflight]
    rfl
  · rw [Device.port_clearPort_other p _ hq, Device.port_countRequest_other _ hq]

end Sys2Proof.Machine
end

section
/-! SUPPORT. The ends of the engine's steps: the statements FrameStepEnds, OpenStepEnds, SealStepEnds and
EraseAndRetireStepsEnd. -/

namespace Sys2Proof.Machine

/-! ## Frames (R26, R32) -/

theorem exec_frameProgramDone (r : ProgramResult) (s : State) :
    exec (.frameProgramDone r) s = .next ⟨s.pending, s.dev.frameDone r⟩ := rfl

theorem exec_commitMarkDone (v : Bool) (s : State) : exec (.commitMarkDone v) s = .next ⟨s.pending, s.dev.markDone v⟩ := rfl

/-- A frame of a version that is to read as `c`. -/
theorem Device.modCell_plus {d : Device} {l : Loc} {im : SegmentImage} (n : Nat) (c : Cell)
    (h : d.array[l.seg]? = some im) :
    (d.modCell (l.plus n) fun _ => c).array =
      d.array.set l.seg { im with frames := im.frames.set (l.frame + n - 1) c } := by
  rw [Loc.plus, Device.modCell_const, modify_at _ h]

/-- Settles O47: the frame as its step leaves it, and the step that follows. -/
theorem frameStepEnds : Obligations.FrameStepEnds := by
  refine ⟨fun s o retried l cells n hf => ⟨?_, fun left => ?_, fun im c him _ hc => ?_⟩, fun s o retried l cells hf => ?_⟩
  · refine (exec_frameProgramDone .good s).trans ?_
    simp only [Device.frameDone, hf]
    rfl
  · refine (exec_frameProgramDone (.bad left) s).trans ?_
    simp only [Device.frameDone, hf]
    cases left <;> rfl
  · have hcell : (cells[n]?).getD .blank = c := by rw [hc, Option.getD_some]
    refine ⟨?_, rfl, Device.modCell_plus n _ him, ?_, ?_⟩
    · rw [Device.programFrame, hcell, Device.modCell_plus n c him]
    · rw [Device.leaveFrame, hcell, Device.modCell_plus n _ him]
      cases c <;> rfl
    · rw [Device.leaveFrame, Device.programFrame, hcell, Device.modCell_plus n c him]
  · rw [exec_commitMarkDone, Device.markDone, hf]
    rfl

/-! ## Segments opened (R24, R34, R36) -/

/-- The open step begins. -/
theorem Device.openFor_opens {d : Device} {o : Owner} {j : Nat} (retried : Bool) (hm : d.mayOpen o = true)
    (hj : d.pickErased = some j) : d.openFor o retried = { d with
      segCounter := d.segCounter + 1, flight := some (.write o retried (.openStep j d.segCounter)) } := by
  simp only [Device.openFor, hm, if_true, hj]
  rfl

/-- Where no segment may be opened the unit ends. -/
theorem Device.openFor_refused {d : Device} {o : Owner} (retried : Bool)
    (h : ∀ j, ¬ (d.mayOpen o = true ∧ d.pickErased = some j)) :
    d.openFor o retried = d.failOwner o (if retried then .failedVerify else .storeFull) := by
  unfold Device.openFor
  cases hm : d.mayOpen o with
  | false => rfl
  | true =>
    cases hj : d.pickErased with
    | none => rfl
    | some j => exact absurd ⟨hm, hj⟩ (h j)

/-- The end of a commit of one key whose port was not reset. -/
theorem Device.endCommit_singleton {c : CommitRecord} {m : Member} {k : Key} {b : BufferNo} {x : Nat} (d : Device)
    (o : CommitOutcome) (ho : o ≠ .denied) (hm : c.members = [m]) (hg : c.group = none) (hr : c.portReset = false)
    (hx : d.handle c.port m.handle = .committing k b x) :
    d.endCommit o c = (d.setHandle c.port m.handle (.writing k b x (d.deadline c.port))).modPort c.port
      (Port.placeDone (.commitDone c.ticket o none)) := by
  rw [Device.endCommit_told hr, hm, hg, List.foldl_cons, List.foldl_nil, Device.endMember_returns hr fun h => ho h.1,
    Device.returnWriter_committing hx]
  rfl

theorem exec_segmentOpenDone (r : MarkResult) (s : State) :
    exec (.segmentOpenDone r) s = .next ⟨s.pending, s.dev.openDone r⟩ := rfl

theorem Device.openDone_good {d : Device} {o : Owner} {retried : Bool} {i n : Nat}
    (hf : d.flight = some (.write o retried (.openStep i n))) :
    d.openDone .good = ((d.setOpenMark i n .whole).openRecord i n).beginProgram o retried i := by
  simp only [Device.openDone, hf]

theorem Device.openDone_bad {d : Device} {o : Owner} {retried : Bool} {i n : Nat} {mark : MarkRead}
    (hf : d.flight = some (.write o retried (.openStep i n))) :
    d.openDone (.bad mark) = (((d.setOpenMark i n mark).failOpenRecord i n true).retry o retried).arbiter := by
  simp only [Device.openDone, hf]

/-- Settles O51: the segment's record and header by the verify, and how the owner goes on. -/
theorem openStepEnds : Obligations.OpenStepEnds := by
  intro s o retried i n r im hf hr him
  refine ⟨?_, fun mark => ?_⟩
  · rw [exec_segmentOpenDone, Device.openDone_good hf]
    rw [Device.setOpenMark, Device.openRecord, Device.modHeader, Device.modSegment, modify_at _ him]
    dsimp only
    rw [modify_at _ hr]
  · intro failed goesOn
    refine ⟨?_, fun hno j hm hj => ?_, fun hyes => ⟨?_, ?_, ?_⟩, fun c placed m k b x ho hyes hm hg hreset hx => ?_⟩
    · rw [exec_segmentOpenDone, Device.openDone_bad hf, Device.setOpenMark, Device.failOpenRecord, Device.modHeader,
        Device.modSegment, modify_at _ him]
      dsimp only
      rw [modify_at _ hr]
      rfl
    · exact (if_neg (by simp [hno])).trans (Device.openFor_opens true hm hj)
    · rintro c placed rfl
      exact if_pos hyes
    · rintro k m rfl
      exact if_pos hyes
    · rintro c rfl
      exact if_pos hyes
    · subst ho
      refine (if_pos hyes).trans ?_
      exact Device.endCommit_singleton { failed with flight := none } .failedVerify (by decide) hm hg hreset hx

/-! ## Segments sealed (R26, R33, R35, R115) -/

theorem exec_segmentSealDone (r : MarkResult) (s : State) :
    exec (.segmentSealDone r) s = .next ⟨s.pending, s.dev.sealDone r⟩ := rfl

theorem MarkResult.failed_eq (r : MarkResult) : r.failed = decide (r ≠ .good) := by
  cases r <;> simp [MarkResult.failed]

/-- Settles O52: the segment's record and header, and the owner's next step by the two verifies. -/
theorem sealStepEnds : Obligations.SealStepEnds := by
  intro s i r im res hr him array
  have harray : (s.dev.setSealedMark i res.mark).array = array := by
    rw [Device.setSealedMark, Device.modHeader_at _ him]
    cases res <;> rfl
  have hmarked : s.dev.setSealedMark i res.mark = { s.dev with array := array } := by
    rw [← harray]
    rfl
  refine ⟨fun o retried failed hf => ?_, fun hf => ?_⟩
  · intro sealed opens again
    have hsealed : (s.dev.setSealedMark i res.mark).sealRecord i (failed || res.failed) = sealed := by
      rw [hmarked, Device.sealRecord, Device.modSegment, modify_at _ hr, MarkResult.failed_eq, ← Bool.or_assoc]
    refine ⟨if failed then sealed.retry o retried else sealed.openFor o retried, ?_, fun hone j hj => ?_, fun hend => ?_⟩
    · rw [exec_segmentSealDone, Device.sealDone, hf]
      dsimp only
      rw [hsealed]
    · have hgo : (if failed then sealed.retry o retried else sealed.openFor o retried) = sealed.openFor o again := by
        cases failed with
        | false =>
          rw [show again = retried from Bool.or_false retried]
          rfl
        | true =>
          obtain rfl := hone.resolve_left (by decide)
          rfl
      rw [hgo]
      exact Device.openFor_opens again hj.1 hj.2
    · have hgo : (if failed then sealed.retry o retried else sealed.openFor o retried) =
          sealed.failOwner o (if again then .failedVerify else .storeFull) := by
        cases failed with
        | false =>
          have hno := hend.resolve_left (by simp)
          refine (Device.openFor_refused retried hno).trans ?_
          rw [show again = retried from Bool.or_false retried]
        | true =>
          rw [show again = true from Bool.or_true retried]
          cases retried with
          | true => rfl
          | false => exact Device.openFor_refused true (hend.resolve_left (by simp))
      rw [hgo]
      refine ⟨?_, ?_, ?_⟩
      · rintro c placed rfl
        rfl
      · rintro k m rfl
        rfl
      · rintro c rfl
        rfl
  · rw [exec_segmentSealDone, Device.sealDone, hf]
    dsimp only
    rw [hmarked, Device.modSegment, modify_at _ hr, MarkResult.failed_eq]
    rfl

/-! ## Segments erased and retired (R39 to R42, R58, R126) -/

/-- A verified erase step. -/
theorem Device.endErase_good {d : Device} {i : Nat} {r : SegmentRecord} {im : SegmentImage} (n : Nat)
    (hr : d.segments[i]? = some r) (him : d.array[i]? = some im) : d.endErase i n .good = { d with
      heldSlots := d.heldSlots.filter fun j => j != i
      segments := d.segments.set i
        { r with state := .erased, eraseCount := n, sequence := none, appendPoint := 1, suspect := false }
      array := d.array.set i
        { header := erasedHeader n .whole .absent, frames := List.replicate Config.lastFrame .blank } } := by
  have himage := modify_at (fun _ : SegmentImage =>
    { header := erasedHeader n .whole .absent, frames := List.replicate Config.lastFrame .blank }) him
  have hrecord := modify_at (fun r : SegmentRecord =>
    { r with state := .erased, eraseCount := n, sequence := none, appendPoint := 1, suspect := false }) hr
  rw [← himage, ← hrecord]
  rfl

/-- An image that takes another's place, and the record that becomes RETIRED with it. -/
theorem Device.retireRecord_image {d : Device} {i : Nat} {r : SegmentRecord} {im : SegmentImage}
    (f : SegmentImage → SegmentImage)
    (held : List Nat) (hr : d.segments[i]? = some r) (him : d.array[i]? = some im) :
    Device.retireRecord i { d with heldSlots := held, array := d.array.modify i f } = { d with
      heldSlots := held
      segments := d.segments.set i
        { r with state := .retired, appendPoint := 1, sequence := (f im).header.givenSequence }
      array := d.array.set i (f im) } := by
  have hat : (d.array.set i (f im))[i]? = some (f im) := by
    rw [List.getElem?_set_self (List.getElem?_eq_some_iff.1 him).1]
  rw [Device.retireRecord, Device.modSegment, modify_at f him]
  dsimp only
  rw [modify_at _ hr, hat]
  rfl

/-- An erase step that failed its verify. -/
theorem Device.endErase_bad {d : Device} {i : Nat} {r : SegmentRecord} {im : SegmentImage} (n : Nat) (e m : MarkRead)
    (hr : d.segments[i]? = some r) (him : d.array[i]? = some im) : d.endErase i n (.bad e m) = Device.testWorn { d with
      heldSlots := d.heldSlots.filter fun j => j != i
      segments := d.segments.set i { r with state := .retired, appendPoint := 1, sequence := none }
      array := d.array.set i
        { header := erasedHeader n e m
          frames := if e = .whole then List.replicate Config.lastFrame .blank else im.frames } } := by
  have hretired := Device.retireRecord_image (fun im =>
    { header := erasedHeader n e m, frames := if e = .whole then List.replicate Config.lastFrame .blank else im.frames })
    (d.heldSlots.filter fun j => j != i) hr him
  exact congrArg Device.testWorn hretired

/-- A retire step. -/
theorem Device.endRetire_at {d : Device} {i : Nat} {r : SegmentRecord} {im : SegmentImage} (m : MarkRead)
    (hr : d.segments[i]? = some r) (him : d.array[i]? = some im) : d.endRetire i m = Device.testWorn { d with
      heldSlots := d.heldSlots.filter fun j => j != i
      segments := d.segments.set i
        { r with state := .retired, appendPoint := 1, sequence := im.header.givenSequence }
      array := d.array.set i { im with header := { im.header with retired := m } } } := by
  have hretired := Device.retireRecord_image (fun im => { im with header := { im.header with retired := m } })
    (d.heldSlots.filter fun j => j != i) hr him
  exact congrArg Device.testWorn hretired

theorem Device.testWorn_enough {d : Device} (h : 4 ≤ d.notRetired ∨ d.store ≠ .normal) : d.testWorn = d := by
  unfold Device.testWorn
  split
  · next hfew => exact Device.enterReadOnly_other _ (h.resolve_left (Nat.not_le.2 hfew))
  · rfl

/-- With too few segments left a NORMAL store is READ_ONLY, and the arbiter makes no choice. -/
theorem Device.testWorn_worn {d : Device} (hf : d.notRetired < 4) (hs : d.store = .normal) : d.testWorn.arbiter =
    d.commitQueue.foldl (Device.endCommit .storeFull) { d with store := .readOnly .worn, commitQueue := [] } := by
  have hworn : d.testWorn =
      d.commitQueue.foldl (Device.endCommit .storeFull) { d with store := .readOnly .worn, commitQueue := [] } := by
    rw [Device.testWorn, if_pos hf, Device.enterReadOnly, if_pos hs]
    rfl
  have hstore : d.testWorn.store = .readOnly .worn := by
    rw [Device.testWorn, if_pos hf, Device.enterReadOnly_normal .worn hs]
  rw [← hworn]
  exact Device.arbiter_idle (Device.mayChoose_store (by rw [hstore]; decide))

theorem exec_segmentEraseDone (r : EraseResult) (s : State) :
    exec (.segmentEraseDone r) s = .next ⟨s.pending, s.dev.eraseDone r⟩ := rfl

theorem exec_segmentRetireDone (m : MarkRead) (s : State) :
    exec (.segmentRetireDone m) s = .next ⟨s.pending, s.dev.retireDone m⟩ := rfl

theorem Device.eraseDone_victim {d : Device} {i : Nat} {r : EraseResult} (hf : d.flight = some (.eraseVictim i)) :
    d.eraseDone r = (d.endReclaim.endErase i (((d.segments[i]?).map (·.eraseCount)).getD 0 + 1) r).arbiter := by
  simp only [Device.eraseDone, hf]

theorem Device.eraseDone_fix {d : Device} {i : Nat} {r : EraseResult} (hf : d.flight = some (.eraseFix i)) :
    d.eraseDone r = (d.removeFix.endErase i (((d.segments[i]?).map (·.eraseCount)).getD 0) r).arbiter := by
  simp only [Device.eraseDone, hf]

theorem Device.retireDone_victim {d : Device} {i : Nat} {m : MarkRead} (hf : d.flight = some (.retireVictim i)) :
    d.retireDone m = (d.endReclaim.endRetire i m).arbiter := by
  simp only [Device.retireDone, hf]

theorem Device.retireDone_fix {d : Device} {i : Nat} {m : MarkRead} (hf : d.flight = some (.retireFix i)) :
    d.retireDone m = (d.removeFix.endRetire i m).arbiter := by
  simp only [Device.retireDone, hf]

/-- A step at whose end the store may be WORN. -/
theorem exec_worn {t : Instr} {s : State} {d : Device} (he : exec t s = .next ⟨s.pending, d.testWorn.arbiter⟩)
    (hs : d.store = s.dev.store) (hq : d.commitQueue = s.dev.commitQueue) :
    (4 ≤ d.notRetired ∨ s.dev.store ≠ .normal → exec t s = .next ⟨s.pending, d.arbiter⟩) ∧
    (d.notRetired < 4 → s.dev.store = .normal → exec t s = .next ⟨s.pending,
      s.dev.commitQueue.foldl (Device.endCommit .storeFull) { d with store := .readOnly .worn, commitQueue := [] }⟩) := by
  refine ⟨fun h => ?_, fun hf hn => ?_⟩
  · rw [he, Device.testWorn_enough (hs.symm ▸ h)]
  · rw [he, Device.testWorn_worn hf (hs.trans hn), hq]

/-- Settles O53: what erases and retires, of a victim and of a fix, do to the segment, and the store they leave. -/
theorem eraseAndRetireStepsEnd : Obligations.EraseAndRetireStepsEnd := by
  intro s i r im hr him retired image victimEnds fixEnds becomes retires erases retiresAt
  have hcount : ((s.dev.segments[i]?).map (·.eraseCount)).getD 0 = r.eraseCount := by rw [hr]; rfl
  refine ⟨fun hf => ⟨?_, fun e m => ?_⟩, fun hf => ⟨?_, fun e m => ?_⟩, fun hf mark => ?_, fun hf mark => ?_⟩
  · refine (exec_segmentEraseDone .good s).trans ?_
    rw [Device.eraseDone_victim hf, hcount, Device.endErase_good (d := s.dev.endReclaim) _ hr him]
    rfl
  · refine exec_worn ((exec_segmentEraseDone _ s).trans ?_) rfl rfl
    rw [Device.eraseDone_victim hf, hcount, Device.endErase_bad (d := s.dev.endReclaim) _ e m hr him]
    rfl
  · refine (exec_segmentEraseDone .good s).trans ?_
    rw [Device.eraseDone_fix hf, hcount, Device.endErase_good (d := s.dev.removeFix) _ hr him]
    rfl
  · refine exec_worn ((exec_segmentEraseDone _ s).trans ?_) rfl rfl
    rw [Device.eraseDone_fix hf, hcount, Device.endErase_bad (d := s.dev.removeFix) _ e m hr him]
    rfl
  · refine exec_worn ((exec_segmentRetireDone mark s).trans ?_) rfl rfl
    rw [Device.retireDone_victim hf, Device.endRetire_at (d := s.dev.endReclaim) mark hr him]
    rfl
  · refine exec_worn ((exec_segmentRetireDone mark s).trans ?_) rfl rfl
    rw [Device.retireDone_fix hf, Device.endRetire_at (d := s.dev.removeFix) mark hr him]
    rfl

end Sys2Proof.Machine
end

section
/-! SUPPORT. The arbiter's order of choice: the statement ArbiterChoosesByTheOrder. -/

namespace Sys2Proof.Machine

/-! ## When the arbiter chooses (R113) -/

theorem Device.mayChoose_iff {d : Device} :
    d.mayChoose = true ↔ d.flight = none ∧ d.supply = .good ∧ d.store = .normal := by
  simp [Device.mayChoose, and_assoc]

theorem Device.mayChoose_iff_not {d : Device} :
    d.mayChoose = false ↔ d.flight ≠ none ∨ d.supply = .low ∨ d.store ≠ .normal := by
  rw [← Bool.not_eq_true, Device.mayChoose_iff, not_and_or, not_and_or]
  cases d.supply <;> simp

theorem Device.arbitrate_idle {d : Device} (n : Nat) (h : d.mayChoose = false) : d.arbitrate (n + 1) = d := by
  rw [Device.arbitrate, h]
  rfl

theorem Device.arbitrate_chooses {d : Device} (n : Nat) (h : d.mayChoose = true) :
    d.arbitrate (n + 1) = if d.choose.2 then Device.arbitrate n d.choose.1 else d.choose.1 := by
  rw [Device.arbitrate, if_pos h]

/-! ## Damage marks, fixes and reclaim (R114, R115, R119) -/

theorem Device.markPlaceable_iff {d : Device} : d.markPlaceable = true ↔ d.fits 1 = true ∨ 2 ≤ d.erasedCount := by
  simp [Device.markPlaceable]

theorem Device.lowerOrders_mark {d : Device} {e : Entry} (he : d.directory.find? (·.markPending) = some e)
    (hp : d.markPlaceable = true) : d.lowerOrders = (d.placeItem (.damageMark e.key none), false) := by
  simp only [Device.lowerOrders, he, hp]

theorem Device.lowerOrders_reclaim {d : Device}
    (h : (∀ e ∈ d.directory, e.markPending = false) ∨ d.markPlaceable = false) :
    d.lowerOrders = if !d.fixes.isEmpty || d.wanted then d.reclaimTurn else (d, false) := by
  unfold Device.lowerOrders
  split
  · next e he hp =>
    rcases h with hnone | hno
    · have hpending := List.find?_some he
      rw [hnone e (List.mem_of_find?_eq_some he)] at hpending
      contradiction
    · rw [hno] at hp
      contradiction
  · rfl

theorem Device.wanted_iff {d : Device} : d.wanted = true ↔
    (d.erasedCount < 3 ∧ d.candidates ≠ []) ∨ (∃ r ∈ d.segments, r.state ≠ .retired ∧ r.suspect = true) ∨
      d.reclaim.requested = true ∨ d.reclaim.state = .copying ∨ d.reclaim.state = .erasing := by
  simp [Device.wanted, or_assoc]

theorem Device.startFix_eq (f : Fix) (d : Device) : d.startFix f = { d with flight := some (match f with
    | .sealing i => .sealFix i
    | .erasing i =>
      if (d.segments[i]?).map (·.eraseCount) = some (2 ^ 24 - 1) then .retireFix i else .eraseFix i) } := by
  cases f with
  | sealing i => rfl
  | erasing i =>
    have hlimit : ((d.segments[i]?).map (·.eraseCount)).getD 0 = Config.maxEraseCount ↔
        (d.segments[i]?).map (·.eraseCount) = some (2 ^ 24 - 1) := by
      cases d.segments[i]? <;> simp [Config.maxEraseCount]
    unfold Device.startFix
    dsimp only
    simp only [hlimit]
    split <;> rfl

theorem Device.reclaimTurn_fix {d : Device} {f : Fix} {rest : List Fix} (h : d.fixes = f :: rest) :
    d.reclaimTurn = (d.startFix f, false) := by
  simp only [Device.reclaimTurn, h]

theorem Device.reclaimTurn_noFix {d : Device} (h : d.fixes = []) : d.reclaimTurn = d.controllerTurn := by
  simp only [Device.reclaimTurn, h]

theorem pickBest_none {α : Type} (better : α → α → Bool) (xs : List α) : pickBest better xs = none ↔ xs = [] := by
  cases xs with
  | nil => simp [pickBest]
  | cons x rest =>
    simp only [pickBest, reduceCtorEq, iff_false]
    split
    · simp
    · split <;> simp

/-- Settles O8: when a choice is made, and which, in order. -/
theorem arbiterChoosesByTheOrder : Obligations.ArbiterChoosesByTheOrder := by
  intro d
  refine ⟨fun h => Device.arbiter_idle (Device.mayChoose_iff_not.2 h),
    fun hf hs hn => Device.arbitrate_chooses 63 (Device.mayChoose_iff.2 ⟨hf, hs, hn⟩),
    fun n => ⟨rfl, fun h => Device.arbitrate_idle n (Device.mayChoose_iff_not.2 h),
      fun hf hs hn => Device.arbitrate_chooses n (Device.mayChoose_iff.2 ⟨hf, hs, hn⟩)⟩,
    fun hq => ?_, fun e he hr hpending hlow hroom => ?_, fun hnone => ?_, fun f rest hfix => ?_, fun hfix => ?_⟩
  · rw [Device.choose, hq]
  · exact Device.lowerOrders_mark (find?_lowest hr he hpending hlow) (Device.markPlaceable_iff.2 hroom)
  · intro wanted
    have hturn := Device.lowerOrders_reclaim (hnone.imp_right fun ⟨hfits, hfew⟩ => by
      rw [← Bool.not_eq_true, Device.markPlaceable_iff, hfits]
      simpa using hfew)
    have hasked : (!d.fixes.isEmpty || d.wanted) = true ↔ d.fixes ≠ [] ∨ wanted := by
      rw [Bool.or_eq_true, Device.wanted_iff]
      simp [wanted]
    rw [hturn]
    exact ⟨fun h => if_pos (hasked.2 h), fun hf hw => if_neg fun h => (hasked.1 h).elim (· hf) hw⟩
  · exact (Device.reclaimTurn_fix hfix).trans (congrArg (·, false) (d.startFix_eq f))
  · rw [Device.reclaimTurn_noFix hfix]
    refine ⟨fun hh => ?_, fun hi hc => ?_, fun v hi hv => ?_, fun v hc hv => ?_, fun v r he hv hr => ?_⟩
    · simp only [Device.controllerTurn, hh]
    · simp only [Device.controllerTurn, hi, Device.pickVictim, hc, pickBest, Option.map_none]
    · simp only [Device.controllerTurn, hi, hv]
      rfl
    · simp only [Device.controllerTurn, hc, hv]
    · simp only [Device.controllerTurn, he, hv, Device.startErase, hr, Bool.or_eq_true, beq_iff_eq]
      split <;> rfl

end Sys2Proof.Machine
end

section
/-! SUPPORT. The choice of segments and the placement of items: the statement VersionsArePlacedWhole. -/

namespace Sys2Proof.Machine

/-! ## The best of a list -/

/-- Orders by which a best is chosen: no two are each better than the other, and what is not better than one that is not
better than a third is not better than the third. -/
structure Ranks {α : Type} (better : α → α → Bool) : Prop where
  asymm : ∀ x y, better x y = true → better y x = false
  trans : ∀ x y z, better x y = false → better y z = false → better x z = false

/-- The best stands before all that are as good, and is better than all before it. -/
theorem pickBest_splits {α : Type} {better : α → α → Bool} (hb : Ranks better) {xs : List α} {y : α}
    (h : pickBest better xs = some y) : ∃ before after, xs = before ++ y :: after ∧
      (∀ x ∈ before, better y x = true) ∧ ∀ x ∈ after, better x y = false := by
  induction xs generalizing y with
  | nil => cases h
  | cons x rest ih =>
    rw [pickBest] at h
    cases hr : pickBest better rest with
    | none =>
      rw [hr] at h
      obtain rfl := Option.some.inj h
      rw [(pickBest_none better rest).1 hr]
      exact ⟨[], [], rfl, by simp, by simp⟩
    | some z =>
      rw [hr] at h
      dsimp only at h
      obtain ⟨before, after, rfl, hbefore, hafter⟩ := ih hr
      cases hz : better z x with
      | true =>
        rw [hz] at h
        obtain rfl := Option.some.inj h
        refine ⟨x :: before, after, rfl, fun w hw => ?_, hafter⟩
        rcases List.mem_cons.1 hw with rfl | hw
        · exact hz
        · exact hbefore w hw
      | false =>
        rw [hz] at h
        obtain rfl := Option.some.inj h
        refine ⟨[], _, rfl, by simp, fun w hw => ?_⟩
        rcases List.mem_append.1 hw with hw | hw
        · exact hb.trans w z x (hb.asymm z w (hbefore w hw)) hz
        · rcases List.mem_cons.1 hw with rfl | hw
          · exact hz
          · exact hb.trans w z x (hafter w hw) hz

theorem pickBest_mem {α : Type} {better : α → α → Bool} (hb : Ranks better) {xs : List α} {y : α}
    (h : pickBest better xs = some y) : y ∈ xs ∧ ∀ x ∈ xs, better x y = false := by
  obtain ⟨before, after, rfl, hbefore, hafter⟩ := pickBest_splits hb h
  refine ⟨by simp, fun x hx => ?_⟩
  rcases List.mem_append.1 hx with hx | hx
  · exact hb.asymm y x (hbefore x hx)
  · rcases List.mem_cons.1 hx with rfl | hx
    · cases hxx : better x x with
      | false => rfl
      | true => rw [hb.asymm x x hxx] at hxx; contradiction
    · exact hafter x hx

/-- By a measure, the lower the better. -/
theorem ranks_lower {α β : Type} [LinearOrder β] (f : α → β) : Ranks fun y x => decide (f y < f x) := by
  constructor
  · intro x y h
    exact decide_eq_false (lt_asymm (of_decide_eq_true h))
  · intro x y z hxy hyz
    have hyx := le_of_not_gt (of_decide_eq_false hxy)
    have hzy := le_of_not_gt (of_decide_eq_false hyz)
    exact decide_eq_false (not_lt_of_ge (le_trans hzy hyx))

/-! ## Numbered records -/

theorem Device.mem_segmentsIn {d : Device} {st : SegmentState} {x : SegmentRecord × Nat} :
    x ∈ d.segmentsIn st ↔ d.segments[x.2]? = some x.1 ∧ x.1.state = st := by
  rw [Device.segmentsIn, List.mem_filter, List.mem_zipIdx_iff_getElem?, beq_iff_eq]

/-- A numbered list stands in order of number. -/
theorem zipIdx_rises {α : Type} (xs : List α) : xs.zipIdx.Pairwise fun x y => x.2 < y.2 := by
  rw [← List.pairwise_map (f := Prod.snd) (R := fun x y => x < y), List.zipIdx_map_snd]
  exact List.pairwise_lt_range'

theorem length_filter_zipIdx {α : Type} (test : α → Bool) (xs : List α) :
    (xs.zipIdx.filter fun x => test x.1).length = (xs.filter test).length := by
  conv_rhs => rw [← List.zipIdx_map_fst 0 xs, List.filter_map, List.length_map]
  rfl

theorem Device.pickErased_lowest {d : Device} {i : Nat} (h : d.pickErased = some i) :
    ∃ r, d.segments[i]? = some r ∧ r.state = .erased ∧
      ∀ (j : Nat) (x : SegmentRecord), d.segments[j]? = some x → x.state = .erased →
        r.eraseCount < x.eraseCount ∨ (r.eraseCount = x.eraseCount ∧ i ≤ j) := by
  obtain ⟨⟨r, i⟩, hpick, rfl⟩ := Option.map_eq_some_iff.1 h
  obtain ⟨before, after, hsplit, hbefore, hafter⟩ := pickBest_splits
    (ranks_lower fun x : SegmentRecord × Nat => x.1.eraseCount) hpick
  have hin : (r, i) ∈ d.segmentsIn .erased := by rw [hsplit]; simp
  obtain ⟨hr, hstate⟩ := Device.mem_segmentsIn.1 hin
  have hrises : (before ++ (r, i) :: after).Pairwise fun x y => x.2 < y.2 := by
    rw [← hsplit]
    exact (zipIdx_rises d.segments).filter _
  refine ⟨r, hr, hstate, fun j x hx hxs => ?_⟩
  have hmem : (x, j) ∈ before ++ (r, i) :: after := by
    rw [← hsplit]
    exact Device.mem_segmentsIn.2 ⟨hx, hxs⟩
  rcases List.mem_append.1 hmem with hmem | hmem
  · have hlt := hbefore _ hmem
    exact .inl (by simpa using hlt)
  · rcases List.mem_cons.1 hmem with heq | hmem
    · obtain ⟨rfl, rfl⟩ := Prod.mk.inj heq
      exact .inr ⟨rfl, Nat.le_refl _⟩
    · have hle := hafter _ hmem
      have hij := List.rel_of_pairwise_cons (List.pairwise_append.1 hrises).2.1 hmem
      simp only [decide_eq_false_iff_not] at hle
      dsimp only at hij
      omega

theorem Device.pickErased_none {d : Device} : d.pickErased = none ↔ d.erasedCount = 0 := by
  rw [Device.pickErased, Option.map_eq_none_iff, pickBest_none, Device.erasedCount, List.length_eq_zero_iff]

/-! ## The victim (R120) -/

/-- R120's measure of a victim: suspect ones first, then by dead frames, the most first, then by sequence. -/
def Device.victimRank (d : Device) (x : SegmentRecord × Nat) : Bool ×ₗ (ℕᵒᵈ ×ₗ ℕ) :=
  toLex (!x.1.suspect, toLex (OrderDual.toDual (d.deadFrames x.2), x.1.sequence.getD 0))

theorem Device.victimRank_lt {d : Device} {y x : SegmentRecord × Nat} : d.victimRank y < d.victimRank x ↔
    (y.1.suspect = true ∧ x.1.suspect = false) ∨ (y.1.suspect = x.1.suspect ∧
      (d.deadFrames x.2 < d.deadFrames y.2 ∨
        (d.deadFrames x.2 = d.deadFrames y.2 ∧ y.1.sequence.getD 0 < x.1.sequence.getD 0))) := by
  simp only [Device.victimRank, Prod.Lex.toLex_lt_toLex, OrderDual.toDual_lt_toDual, OrderDual.toDual_inj, Bool.not_inj_iff,
    Bool.lt_iff, Bool.not_eq_false', Bool.not_eq_true', eq_comm (a := d.deadFrames x.2)]

theorem Device.betterVictim_eq (d : Device) : d.betterVictim = fun y x => decide (d.victimRank y < d.victimRank x) := by
  funext y x
  rw [Bool.eq_iff_iff, decide_eq_true_eq, Device.victimRank_lt, Device.betterVictim]
  by_cases hs : y.1.suspect = x.1.suspect
  · by_cases hd : d.deadFrames y.2 = d.deadFrames x.2
    · simp [hs, hd]
    · simp [hs, hd, Ne.symm hd]
  · rw [if_pos (by simpa using hs)]
    cases hy : y.1.suspect <;> cases hx : x.1.suspect <;> simp_all

theorem Device.mem_candidates {d : Device} {v : Nat} {r : SegmentRecord} : (r, v) ∈ d.candidates ↔
    d.segments[v]? = some r ∧ r.state = .sealed ∧ r.pins = 0 ∧ (1 ≤ d.deadFrames v ∨ r.suspect = true) ∧
      (∀ f ∈ d.fixes, f ≠ .sealing v ∧ f ≠ .erasing v) ∧ (1 ≤ d.erasedCount ∨ d.liveFrames v ≤ d.roomAtHand) := by
  have hfix : ∀ f : Fix, ¬ f.segment = v ↔ f ≠ .sealing v ∧ f ≠ .erasing v := by
    intro f
    cases f <;> simp [Fix.segment]
  rw [Device.candidates, List.mem_filter, List.mem_zipIdx_iff_getElem?]
  simp only [Device.isCandidate, Bool.and_eq_true, Bool.or_eq_true, Bool.not_eq_true', beq_iff_eq, decide_eq_true_eq,
    List.any_eq_false, hfix, and_assoc]

theorem Device.candidates_nil {d : Device} : d.candidates = [] ↔ ∀ v r, (r, v) ∉ d.candidates := by
  rw [List.eq_nil_iff_forall_not_mem]
  exact ⟨fun h v r => h (r, v), fun h x => h x.2 x.1⟩

theorem Device.pickVictim_none {d : Device} : d.pickVictim = none ↔ d.candidates = [] := by
  rw [Device.pickVictim, Option.map_eq_none_iff, pickBest_none]

theorem Device.pickVictim_best {d : Device} {v : Nat} (h : d.pickVictim = some v) : ∃ r, (r, v) ∈ d.candidates ∧
    ∀ w x, (x, w) ∈ d.candidates → ¬ d.victimRank (x, w) < d.victimRank (r, v) := by
  obtain ⟨⟨r, v⟩, hpick, rfl⟩ := Option.map_eq_some_iff.1 h
  rw [Device.betterVictim_eq] at hpick
  obtain ⟨hmem, hbest⟩ := pickBest_mem (ranks_lower d.victimRank) hpick
  exact ⟨r, hmem, fun w x hx => of_decide_eq_false (hbest _ hx)⟩

/-! ## Room (R26, R28, R42) -/

theorem Device.active_eq_none {d : Device} : d.active = none ↔ ∀ r ∈ d.segments, r.state ≠ .active := by
  rw [Device.active, Option.map_eq_none_iff, List.head?_eq_none_iff, List.eq_nil_iff_forall_not_mem]
  constructor
  · intro h r hr hs
    obtain ⟨i, hi⟩ := List.mem_iff_getElem?.1 hr
    exact h (r, i) (Device.mem_segmentsIn.2 ⟨hi, hs⟩)
  · intro h x hx
    obtain ⟨hr, hs⟩ := Device.mem_segmentsIn.1 hx
    exact h x.1 (List.mem_of_getElem? hr) hs

theorem Device.active_eq_some {d : Device} {i : Nat} (h : d.active = some i) :
    ∃ r, d.segments[i]? = some r ∧ r.state = .active := by
  obtain ⟨⟨r, i⟩, hhead, rfl⟩ := Option.map_eq_some_iff.1 h
  exact ⟨r, Device.mem_segmentsIn.1 (List.mem_of_head? hhead)⟩

theorem Device.appendPoint_at {d : Device} {i : Nat} {r : SegmentRecord} (h : d.segments[i]? = some r) :
    d.appendPoint i = r.appendPoint := by
  rw [Device.appendPoint, h]
  rfl

theorem Device.fits_iff {d : Device} {n : Nat} : d.fits n = true ↔ ∃ i, d.active = some i ∧ d.appendPoint i + n ≤ 128 := by
  unfold Device.fits
  cases d.active <;> simp

/-- R29: when a segment may be opened for an owner. -/
theorem Device.mayOpen_iff {d : Device} {o : Owner} : d.mayOpen o = true ↔
    1 ≤ d.erasedCount ∧ ((∀ c, o ≠ .copy c) → d.store = .normal → 2 ≤ d.erasedCount) := by
  cases o with
  | copy c => simp [Device.mayOpen]
  | commit | damageMark =>
    by_cases hs : d.store = .normal
    · simp [Device.mayOpen, hs]
      omega
    · simp [Device.mayOpen, hs]

/-- Settles O12: frames, segments and victims chosen, and where an item is placed. -/
theorem versionsArePlacedWhole : Obligations.VersionsArePlacedWhole := by
  refine ⟨fun n hn => ?_, fun d i h => Device.pickErased_lowest h, fun d => ?_, fun d => ?_, fun d o => ?_,
    fun d o retried => ?_, fun d outcome => ⟨fun c placed => rfl, fun k n => rfl, fun c => rfl⟩⟩
  · unfold versionFrames
    split_ifs <;> omega
  · intro candidate
    have hcandidate : ∀ v r, (r, v) ∈ d.candidates ↔ candidate v r := fun v r => Device.mem_candidates
    have hnil : d.candidates = [] ↔ ∀ v r, ¬ candidate v r := by
      rw [Device.candidates_nil]
      simp only [hcandidate]
    refine ⟨Device.pickVictim_none.trans hnil, hnil, fun v hv => ?_⟩
    obtain ⟨r, hr, hbest⟩ := Device.pickVictim_best hv
    refine ⟨r, (hcandidate v r).1 hr, fun w x hx => ?_⟩
    have hnot := hbest w x ((hcandidate w x).2 hx)
    rw [Device.victimRank_lt] at hnot
    dsimp only at hnot
    cases hrs : r.suspect <;> cases hxs : x.suspect <;> simp [hrs, hxs] at hnot ⊢ <;> omega
  · refine ⟨?_, ?_, fun i r hr => Device.appendPoint_at hr, Device.active_eq_none, fun i hi => ?_, fun h => ?_,
      fun n => Device.fits_iff⟩
    · refine (length_filter_zipIdx (fun r => r.state == .erased) d.segments).trans ?_
      rfl
    · exact congrArg List.length (List.filter_congr fun r _ => by cases r.state <;> rfl)
    · obtain ⟨r, hr, hs⟩ := Device.active_eq_some hi
      refine ⟨r, hr, hs, ?_⟩
      rw [Device.roomAtHand, hi, ← Device.appendPoint_at hr]
    · rw [Device.roomAtHand, h]
  · refine ⟨fun i hi hfit => ?_, fun i hi hfull => ?_, fun hnone => ?_⟩
    · simp only [Device.placeItem, hi, Device.fits_iff.2 ⟨i, hi, hfit⟩, if_true]
    · have hno : ¬ d.fits o.frames = true := fun h => by
        obtain ⟨j, hj, hle⟩ := Device.fits_iff.1 h
        obtain rfl := Option.some.inj (hi.symm.trans hj)
        omega
      simp only [Device.placeItem, hi, hno]
      rfl
    · simp only [Device.placeItem, hnone]
  · intro mayOpen
    refine ⟨Device.mayOpen_iff, fun h => ?_, fun h => ?_⟩
    · have hsome : d.pickErased ≠ none := fun hn => by
        have hcount := h.1
        rw [Device.pickErased_none.1 hn] at hcount
        exact absurd hcount (by decide)
      obtain ⟨i, hi⟩ := Option.ne_none_iff_exists'.1 hsome
      exact ⟨i, hi, Device.openFor_opens retried (Device.mayOpen_iff.2 h) hi⟩
    · exact Device.openFor_refused retried fun j hj => h (Device.mayOpen_iff.1 hj.1)

end Sys2Proof.Machine
end

section
/-! SUPPORT. The sequences an owner takes and the frames of its version: the statement ProgrammingBegins. -/

namespace Sys2Proof.Machine

/-! ## What programming begins with (R10, R11, R26) -/

/-- The frames of an owner's version read nothing of the device but the buffers. -/
theorem Device.ownerCells_congr {d e : Device} (h : d.buffers = e.buffers) (o : Owner) :
    d.ownerCells o = e.ownerCells o := by
  have hbuffer : ∀ b, d.buffer b = e.buffer b := fun b => by rw [Device.buffer, Device.buffer, h]
  cases o with
  | commit c placed => simp only [Device.ownerCells, Device.commitCells, Device.memberBytes, hbuffer]
  | damageMark | copy => rfl

theorem Device.beginProgram_eq {d e : Device} {o x : Owner} (retried : Bool) (i : Nat) (hg : d.giveSequence o = (x, e)) :
    d.beginProgram o retried i = { e with
      flight := some (.write x retried (.frameStep ⟨i, d.appendPoint i⟩ ((d.beginProgram o retried i).ownerCells x) 0))
      segments := e.segments.modify i fun r => { r with appendPoint := r.appendPoint + o.frames } } := by
  have hbuffers : (d.beginProgram o retried i).buffers = e.buffers := by
    simp only [Device.beginProgram, hg]
    rfl
  rw [Device.ownerCells_congr hbuffers, Device.beginProgram, hg]
  rfl

theorem Device.advanceSequence_on {d : Device} (h : d.seqCounter ≠ 0xFFFFFFF0 ∨ d.store ≠ .normal) :
    d.advanceSequence = { d with seqCounter := d.seqCounter + 1 } := by
  unfold Device.advanceSequence
  dsimp only
  split
  · next hlast => exact Device.enterReadOnly_other _ (h.resolve_left (fun hne => hne hlast))
  · rfl

theorem Device.advanceSequence_last {d : Device} (h : d.seqCounter = 0xFFFFFFF0) (hs : d.store = .normal) :
    d.advanceSequence = d.commitQueue.foldl (Device.endCommit .storeFull) { d with
      store := .readOnly .spent, seqCounter := 0xFFFFFFF1, commitQueue := [] } := by
  rw [Device.advanceSequence, if_pos h, h, Device.enterReadOnly, if_pos hs]
  rfl

theorem Device.segments_endCommits (o : CommitOutcome) (cs : List CommitRecord) (d : Device) :
    (cs.foldl (Device.endCommit o) d).segments = d.segments :=
  foldl_keeps (·.segments) cs (fun c _ e => by rw [e.endCommit_ends o c]) d

/-! ## The frames of a version (R4 to R6, R100, R101) -/

theorem versionFrames_pos (n : Nat) : 1 ≤ versionFrames n := by
  unfold versionFrames
  omega

theorem versionCells_length (h : VersionHeader) (bytes : List Byte) :
    (versionCells h bytes).length = versionFrames h.length := by
  have hpos := versionFrames_pos h.length
  simp only [versionCells, List.length_cons, List.length_map, List.length_range]
  omega

/-- A further frame of a version. -/
theorem versionCells_more (h : VersionHeader) (bytes : List Byte) {j : Nat} (hj : 1 ≤ j)
    (hlt : j < (versionCells h bytes).length) :
    (versionCells h bytes)[j]? = some (.more ((bytes.drop (48 + 64 * (j - 1))).take 64)) := by
  obtain ⟨i, rfl⟩ := Nat.exists_eq_add_of_le' hj
  rw [versionCells_length] at hlt
  rw [versionCells, List.getElem?_cons_succ, List.getElem?_map, List.getElem?_range (by omega)]
  rfl

theorem Member.header_eq (m : Member) (n g : Nat) : m.header n g =
    { key := m.key
      kind := if m.intent = .value then .value else .tombstone
      length := if m.intent = .value then m.length else 0
      sequence := n
      group := g } := by
  unfold Member.header Member.versionLength
  cases m.intent <;> rfl

theorem Device.memberBytes_eq (d : Device) (m : Member) : d.memberBytes m =
    if m.intent = .value then (d.buffer m.buffer).bytes.take (d.buffer m.buffer).length else [] := by
  unfold Device.memberBytes
  cases m.intent <;> rfl

theorem sealBytes_eq (ms : List Member) : sealBytes (ms.map (·.key)) =
    BitVec.ofNat 8 ms.length :: ms.flatMap fun m => [m.key.extractLsb' 8 8, m.key.extractLsb' 0 8] := by
  rw [sealBytes, List.length_map, List.flatMap_map]
  simp only [keyBytes_extract]

/-- The items of a commit: its members, and after them one frame. -/
theorem itemFrames_member {ms : List Member} {i : Nat} {m : Member} (h : ms[i]? = some m) :
    ((itemFrames ms)[i]?).getD 1 = m.frames := by
  have hlt := (List.getElem?_eq_some_iff.1 h).1
  rw [itemFrames, List.getElem?_append_left (by rw [List.length_map]; exact hlt), List.getElem?_map, h]
  rfl

theorem itemFrames_after {ms : List Member} {i : Nat} (h : ms.length ≤ i) : ((itemFrames ms)[i]?).getD 1 = 1 := by
  rw [itemFrames, List.getElem?_append_right (by rw [List.length_map]; exact h)]
  split
  · rfl
  · cases i - (ms.map Member.frames).length <;> rfl

/-- Settles O13: the three cases of the sequence, and the frames by the owner. -/
theorem programmingBegins : Obligations.ProgrammingBegins := by
  refine ⟨fun d o retried i => ?_, fun d => ?_⟩
  · intro t n segments step keeps takes
    have hkeeps : d.giveSequence o = (o, d) → keeps := fun hg => Device.beginProgram_eq retried i hg
    have htakes : ∀ (x : Owner) (groups : List GroupEntry),
        d.giveSequence o = (x, Device.advanceSequence { d with groups := groups }) → takes x groups := by
      intro x groups hg
      refine ⟨fun hn => ?_, fun hn hs => ?_⟩
      · refine (Device.beginProgram_eq retried i hg).trans ?_
        rw [Device.advanceSequence_on (d := { d with groups := groups }) hn]
      · refine (Device.beginProgram_eq retried i hg).trans ?_
        rw [Device.advanceSequence_last (d := { d with groups := groups }) hn hs, Device.segments_endCommits]
    refine ⟨fun c ho => ?_, fun k m ho => ?_, fun c placed ho hc => ?_, fun k ho => ?_, fun c placed ho hc =>
      ⟨fun hg => ?_, fun g hg => ?_⟩⟩ <;> subst ho
    · exact hkeeps rfl
    · exact hkeeps rfl
    · obtain ⟨m, hm⟩ := Option.ne_none_iff_exists'.1 hc
      exact hkeeps (by simp only [Device.giveSequence, hm])
    · exact htakes _ _ rfl
    · exact htakes _ _ (by simp only [Device.giveSequence, hc, hg, Device.recordSequence]; rfl)
    · exact htakes _ _ (by simp only [Device.giveSequence, hc, hg, Device.recordSequence]; rfl)
  · intro holds
    have hversion : ∀ h bytes, holds (versionCells h bytes) h bytes := fun h bytes =>
      ⟨versionCells_length h bytes, rfl, fun j hj hlt => versionCells_more h bytes hj hlt⟩
    refine ⟨fun c placed n m hn hm => ?_, fun c placed n hn hp => ?_, fun k n => hversion _ _, fun c => rfl, fun m => ?_,
      fun c placed m hm => itemFrames_member hm, fun c placed hp => itemFrames_after hp, fun k n => rfl, fun c => rfl,
      fun o ho => ?_⟩
    · have hcells : d.ownerCells (.commit c placed) =
          versionCells (m.header n (if c.members.length = 1 then 0 else n)) (d.memberBytes m) := by
        simp only [Device.ownerCells, Device.commitCells, hm, hn, Option.getD_some]
      rw [hcells, Member.header_eq, Device.memberBytes_eq]
      exact hversion _ _
    · have hcells : d.ownerCells (.commit c placed) =
          versionCells (sealHeader c.members.length n) (sealBytes (c.members.map (·.key))) := by
        simp only [Device.ownerCells, Device.commitCells, List.getElem?_eq_none hp, hn, Option.getD_some]
      rw [hcells, sealBytes_eq]
      exact hversion _ _
    · unfold Member.frames Member.versionLength
      cases m.intent <;> rfl
    · cases o with
      | copy c => rfl
      | damageMark k n =>
        exact (versionCells_length (markHeader k (n.getD 0)) []).trans (show versionFrames 0 = 1 by decide)
      | commit c placed =>
        show (d.commitCells c placed.length).length = ((itemFrames c.members)[placed.length]?).getD 1
        cases hm : c.members[placed.length]? with
        | some m =>
          simp only [Device.commitCells, hm, versionCells_length, itemFrames_member hm]
          rfl
        | none =>
          have hsize := ho c placed rfl
          rw [itemFrames_after (List.getElem?_eq_none_iff.1 hm)]
          simp only [Device.commitCells, hm, versionCells_length, sealHeader, sealLength, versionFrames]
          omega

end Sys2Proof.Machine
end

section
/-! SUPPORT. The end of several commits in turn, and the fall of the supply: the statement SupplyFallStopsTheEngine. -/

namespace Sys2Proof.Machine

/-! ## The queue is read by none of the ends of commits -/

theorem Device.endMember_queue (c : CommitRecord) (o : CommitOutcome) (q : List CommitRecord) (d : Device) (m : Member) :
    Device.endMember c o { d with commitQueue := q } m = { d.endMember c o m with commitQueue := q } := by
  have hdrop : ∀ x, Device.dropWriter c.port m.handle m.key m.buffer x { d with commitQueue := q } =
      { d.dropWriter c.port m.handle m.key m.buffer x with commitQueue := q } := by
    intro x
    have hclaim : Device.releaseClaim m.key { d with commitQueue := q } =
        { d.releaseClaim m.key with commitQueue := q } := by
      unfold Device.releaseClaim
      change (match d.lookup m.key with | none => _ | some e => _) = _
      cases d.lookup m.key with
      | none => rfl
      | some e => dsimp only; split <;> rfl
    unfold Device.dropWriter
    rw [hclaim]
    rfl
  have hreturn : Device.returnWriter c.port m.handle { d with commitQueue := q } =
      { d.returnWriter c.port m.handle with commitQueue := q } := by
    unfold Device.returnWriter
    change (match d.handle c.port m.handle with | .committing k b x => _ | _ => _) = _
    cases d.handle c.port m.handle <;> rfl
  unfold Device.endMember
  split
  · exact hdrop _
  · change (if o = .denied ∧ mayWrite d.table c.port m.key = false then _ else _) = _
    split
    · exact hdrop _
    · exact hreturn

theorem Device.endCommit_queue (o : CommitOutcome) (q : List CommitRecord) (d : Device) (c : CommitRecord) :
    Device.endCommit o { d with commitQueue := q } c = { d.endCommit o c with commitQueue := q } := by
  have hmembers : ∀ (ms : List Member) (e : Device), ms.foldl (Device.endMember c o) { e with commitQueue := q } =
      { ms.foldl (Device.endMember c o) e with commitQueue := q } := by
    intro ms
    induction ms with
    | nil => exact fun _ => rfl
    | cons m rest ih =>
      intro e
      rw [List.foldl_cons, List.foldl_cons, Device.endMember_queue, ih]
  unfold Device.endCommit
  rw [hmembers]
  generalize c.members.foldl (Device.endMember c o) d = e
  cases c.group <;> cases c.portReset <;> rfl

/-! ## Several commits ended in turn -/

theorem Device.endCommits_ends (o : CommitOutcome) (cs : List CommitRecord) (d : Device) :
    commitEnds d (cs.foldl (Device.endCommit o) d) :=
  commitEnds_foldl _ (Device.endCommit_ends o) cs d

theorem Device.getElem?_endCommits (o : CommitOutcome) (cs : List CommitRecord) (d : Device) (i : Nat) :
    (cs.foldl (Device.endCommit o) d).groups[i]? =
      if ∃ c ∈ cs, c.group = some i then (d.groups[i]?).map fun _ => GroupEntry.free else d.groups[i]? := by
  have hfold := foldl_touches (step := Device.endCommit o) (fun (e : Device) (i : Nat) => e.groups[i]?)
    (Option.map fun _ => GroupEntry.free) (fun (c : CommitRecord) i => c.group = some i) (fun _ _ => True)
    (fun x => by cases x <;> rfl) (fun _ _ _ _ => trivial)
    (fun c _ e i _ => ⟨fun hi => (Device.getElem?_endCommit o e c i).trans (if_pos hi),
      fun hi => (Device.getElem?_endCommit o e c i).trans (if_neg hi)⟩) cs d trivial i
  split
  case isTrue h => exact hfold.1 h
  case isFalse h => exact hfold.2 fun c hc hi => h ⟨c, hc, hi⟩

theorem Device.endCommits_returns {o : CommitOutcome} {cs : List CommitRecord} (d : Device)
    (hr : ∀ c ∈ cs, c.portReset = false) (ho : o ≠ .denied) :
    (cs.foldl (Device.endCommit o) d).buffers = d.buffers ∧ (cs.foldl (Device.endCommit o) d).directory = d.directory :=
  ⟨foldl_keeps (·.buffers) cs (fun c hc e => (e.endCommit_returns (hr c hc) ho).1) d,
    foldl_keeps (·.directory) cs (fun c hc e => (e.endCommit_returns (hr c hc) ho).2) d⟩

/-- A COMMITTING handle, returned to its writer with a deadline. -/
def Handle.returned (deadline : Nat) : Handle → Handle
  | .committing k b x => .writing k b x deadline
  | x => x

/-- A handle, with the deadline of a lease that begins now. -/
def Device.leased (d : Device) (i : PortId × HandleNo) : Handle × Nat := (d.handle i.1 i.2, d.deadline i.1)

theorem Device.leased_congr {d e : Device} {i : PortId × HandleNo} (hp : d.port i.1 = e.port i.1) (hn : d.now = e.now) :
    d.leased i = e.leased i := by
  simp only [Device.leased, Device.handle, Device.deadline, hp, hn]

theorem Device.leased_returnWriter (d : Device) (p : PortId) (h : HandleNo) (i : PortId × HandleNo) :
    (i = (p, h) → (d.returnWriter p h).leased i = ((d.leased i).1.returned (d.leased i).2, (d.leased i).2)) ∧
      (i ≠ (p, h) → (d.returnWriter p h).leased i = d.leased i) := by
  have hdeadline := Device.deadline_congr (d.returnWriter_clears p h)
  refine ⟨fun hi => ?_, fun hi => ?_⟩
  · subst hi
    refine Prod.ext ?_ hdeadline
    show (d.returnWriter p h).handle p h = (d.handle p h).returned (d.deadline p)
    cases hx : d.handle p h with
    | committing k b x => rw [Device.returnWriter_committing hx, Device.handle_setHandle_same]; rfl
    | free | reading | writing | expired | revoked => rw [Device.returnWriter, hx]; exact hx
  · obtain ⟨q, j⟩ := i
    by_cases hq : q = p
    · subst hq
      refine Prod.ext (Device.handle_returnWriter_other d q fun hj => hi (congrArg (q, ·) hj)) hdeadline
    · refine Device.leased_congr (portClears_port_other (d.returnWriter_clears p h) hq) ?_
      rw [Device.returnWriter_frame]

/-- The writers of a commit that returns them, by port and handle. -/
def CommitRecord.writes (c : CommitRecord) (i : PortId × HandleNo) : Prop := i.1 = c.port ∧ ∃ m ∈ c.members, m.handle = i.2

theorem Device.leased_endCommit {c : CommitRecord} {o : CommitOutcome} (hr : c.portReset = false) (ho : o ≠ .denied)
    (d : Device) (i : PortId × HandleNo) :
    (c.writes i → (d.endCommit o c).leased i = ((d.leased i).1.returned (d.leased i).2, (d.leased i).2)) ∧
      (¬ c.writes i → (d.endCommit o c).leased i = d.leased i) := by
  have hfold := foldl_touches (step := Device.endMember c o) Device.leased (fun x => (x.1.returned x.2, x.2))
    (fun m i => i = (c.port, m.handle)) (fun _ _ => True)
    (fun x => by rcases x with ⟨_ | _, _⟩ <;> rfl) (fun _ _ _ _ => trivial)
    (fun m _ e i _ => by
      rw [Device.endMember_returns hr fun h => ho h.1]
      exact Device.leased_returnWriter e c.port m.handle i) c.members d trivial i
  have hsame : (d.endCommit o c).leased i = (c.members.foldl (Device.endMember c o) d).leased i := by
    refine Prod.ext (Device.handle_endCommit o d c i.1 i.2) ?_
    rw [Device.endCommit_told hr, Device.freeGroup_frame]
    obtain ⟨q, j⟩ := i
    by_cases hq : q = c.port
    · subst hq
      show Device.deadline _ c.port = Device.deadline _ c.port
      rw [Device.deadline, Device.port_modPort_same]
      rfl
    · show Device.deadline _ q = Device.deadline _ q
      rw [Device.deadline, Device.port_modPort_other _ _ hq]
      rfl
  rw [hsame]
  refine ⟨fun ⟨hp, m, hm, hmj⟩ => hfold.1 ⟨m, hm, Prod.ext hp hmj.symm⟩, fun hno => hfold.2 fun m hm hi => hno ?_⟩
  rw [hi]
  exact ⟨rfl, m, hm, rfl⟩

theorem Device.handle_endCommits {cs : List CommitRecord} {o : CommitOutcome} (hr : ∀ c ∈ cs, c.portReset = false)
    (ho : o ≠ .denied) (d : Device) (p : PortId) (h : HandleNo) :
    ((∃ c ∈ cs, c.writes (p, h)) → (cs.foldl (Device.endCommit o) d).handle p h = (d.handle p h).returned (d.deadline p)) ∧
      ((∀ c ∈ cs, ¬ c.writes (p, h)) → (cs.foldl (Device.endCommit o) d).handle p h = d.handle p h) := by
  have hfold := foldl_touches (step := Device.endCommit o) Device.leased (fun x => (x.1.returned x.2, x.2))
    CommitRecord.writes (fun rest _ => ∀ c ∈ rest, c.portReset = false) (fun x => by rcases x with ⟨_ | _, _⟩ <;> rfl)
    (fun c rest _ h x hx => h x (List.mem_cons_of_mem c hx))
    (fun c _ e i h => Device.leased_endCommit (h c List.mem_cons_self) ho e i) cs d hr (p, h)
  exact ⟨fun hany => congrArg Prod.fst (hfold.1 hany), fun hno => congrArg Prod.fst (hfold.2 hno)⟩

/-- A port after several commits have ended: its COMMIT_DONEs, in order, and its handles. -/
theorem Device.port_endCommits {cs : List CommitRecord} (o : CommitOutcome) (hr : ∀ c ∈ cs, c.portReset = false)
    (d : Device) (p : PortId) : (cs.foldl (Device.endCommit o) d).port p = { d.port p with
      handles := ((cs.foldl (Device.endCommit o) d).port p).handles
      notices := (d.port p).notices ++
        (cs.filter fun c => c.port == p).map fun (c : CommitRecord) => Notice.commitDone c.ticket o none
      reserved := (d.port p).reserved - (cs.filter fun c => c.port == p).length } := by
  induction cs generalizing d with
  | nil => simp
  | cons c rest ih =>
    have hrest := ih (fun x hx => hr x (List.mem_cons_of_mem c hx)) (d.endCommit o c)
    rw [List.foldl_cons]
    generalize ((rest.foldl (Device.endCommit o) (d.endCommit o c)).port p) = q at hrest ⊢
    rw [hrest]
    by_cases hp : c.port = p
    · subst hp
      rw [Device.port_endCommit_told (hr c List.mem_cons_self), List.filter_cons_of_pos (by simp)]
      simp [Nat.sub_sub, Nat.add_comm]
    · rw [Device.port_endCommit_other o d c (Ne.symm hp), List.filter_cons_of_neg (by simpa using hp)]

/-- A notice is offered to a port as to any other that differs in its handles alone. -/
theorem Port.offer_keeps (n : Notice) {q r : Port} (h : r = { q with handles := r.handles }) :
    r.offer n = { q.offer n with handles := (r.offer n).handles } := by
  rw [Port.offer_handles, ← Port.offer_with_handles, ← h]

/-! ## The fall of the supply (R31, R106, R158) -/

theorem Device.leaveFrame_frame (l : Loc) (cells : List Cell) (n : Nat) (left : FrameLeft) (d : Device) :
    d.leaveFrame l cells n left = { d with array := (d.leaveFrame l cells n left).array } := by
  cases left <;> rfl

/-- A unit cut short changes the array alone, and then the segment table alone. -/
theorem Device.cutArray_frame (cut : Cut) (d : Device) : d.cutArray cut = { d with array := (d.cutArray cut).array } := by
  unfold Device.cutArray
  split
  case h_4 => exact Device.leaveFrame_frame ..
  all_goals rfl

theorem Device.cutTable_frame (d : Device) : d.cutTable = { d with segments := d.cutTable.segments } := by
  unfold Device.cutTable
  split <;> rfl

theorem Device.cutTable_congr {d e : Device} (hf : d.flight = e.flight) (hs : d.segments = e.segments) :
    d.cutTable.segments = e.cutTable.segments := by
  unfold Device.cutTable
  rw [hf]
  split <;> simp only [Device.sealRecord, Device.failOpenRecord, Device.modSegment, hs]

/-- What a unit cut short leaves, when the supply has just fallen. -/
theorem Device.cut_eq (cut : Cut) (d : Device) : (Device.cutArray cut { d with supply := .low }).cutTable =
    { d with supply := .low, array := (d.cutArray cut).array, segments := d.cutTable.segments } := by
  have harray : Device.cutArray cut { d with supply := .low } = { d.cutArray cut with supply := .low } := by
    unfold Device.cutArray
    dsimp only
    split
    case h_4 => cases cut.left <;> rfl
    all_goals rfl
  rw [harray, Device.cutTable_frame,
    Device.cutTable_congr (e := d) (by rw [Device.cutArray_frame]) (by rw [Device.cutArray_frame]),
    Device.cutArray_frame]

/-- The commits that a fall ends: the running one, then those queued. -/
def Device.accepted (d : Device) : List CommitRecord := d.running.toList ++ d.commitQueue

theorem Device.endRunning_endQueue (d : Device) : Device.endQueue .failedSupply d.endRunning =
    d.accepted.foldl (Device.endCommit .failedSupply) { d with flight := none, commitQueue := [] } := by
  unfold Device.endRunning Device.accepted Device.endQueue
  cases d.running with
  | none => rfl
  | some c =>
    have hqueue : ((d.setFlight none).endCommit .failedSupply c).commitQueue = d.commitQueue := by
      rw [Device.endCommit_ends]
      rfl
    dsimp only
    rw [hqueue, ← Device.endCommit_queue]
    rfl

theorem Device.fall_engine {d : Device} (cut : Cut) (hs : d.supply = .good) (hm : d.store ≠ .mounting) : d.fall cut =
    (d.accepted.foldl (Device.endCommit .failedSupply) { d with
      supply := .low, flight := none, commitQueue := []
      segments := d.cutTable.segments, array := (d.cutArray cut).array }).mapPorts fun _ q => q.offer (.supply .low) := by
  rw [Device.fall, if_neg (by simp [hs])]
  dsimp only
  rw [if_neg hm, Device.stopEngine, Device.cut_eq, Device.endRunning_endQueue]
  rfl

/-- Settles O5: the engine's stop, and the commits' ends by the lemmas about several of them. -/
theorem supplyFallStopsTheEngine : Obligations.SupplyFallStopsTheEngine := by
  unfold Obligations.SupplyFallStopsTheEngine
  intro cut s hs hm running ended endedOn
  have hended : s.dev.accepted = ended := by
    show s.dev.running.toList ++ s.dev.commitQueue = running ++ s.dev.commitQueue
    congr 1
    show s.dev.running.toList = match s.dev.flight with
      | some (.write (.commit c _) _ _) => [c]
      | _ => []
    unfold Device.running
    rcases s.dev.flight with _ | ⟨_ | _ | _, _, _⟩ | _ <;> rfl
  have hfall := Device.fall_engine cut hs hm
  rw [hended] at hfall
  generalize hstopped : ({ s.dev with supply := .low, flight := none, commitQueue := []
                                      segments := s.dev.cutTable.segments
                                      array := (s.dev.cutArray cut).array } : Device) = stopped at hfall
  have hsame : ∀ p, stopped.port p = s.dev.port p := fun p => by rw [← hstopped]; rfl
  have hends := Device.endCommits_ends .failedSupply ended stopped
  refine ⟨⟨s.pending, s.dev.fall cut⟩, rfl, rfl, ?_, ?_, fun i => ?_, fun hr => ⟨?_, ?_, fun p h => ?_, fun p => ?_⟩⟩
  · dsimp only
    rw [hfall]
    generalize ended.foldl (Device.endCommit .failedSupply) stopped = e at hends ⊢
    rw [hends, ← hstopped]
    rfl
  · exact hfall
  · dsimp only
    rw [hfall]
    refine (Device.getElem?_endCommits .failedSupply ended stopped i).trans ?_
    rw [← hstopped]
  · dsimp only
    rw [hfall]
    refine (Device.endCommits_returns stopped hr (by decide)).1.trans ?_
    rw [← hstopped]
  · dsimp only
    rw [hfall]
    refine (Device.endCommits_returns stopped hr (by decide)).2.trans ?_
    rw [← hstopped]
  · dsimp only
    have hhandle : (Device.mapPorts (fun _ q => q.offer (.supply .low))
        (ended.foldl (Device.endCommit .failedSupply) stopped)).handle p h =
        (ended.foldl (Device.endCommit .failedSupply) stopped).handle p h := by
      rw [Device.handle, Device.port_mapPorts, Port.offer_handles]
      rfl
    have hbefore : stopped.handle p h = s.dev.handle p h := by rw [Device.handle, hsame]; rfl
    have hdeadline : stopped.deadline p = s.dev.now + 2 ^ (s.dev.port p).leaseExp := by
      rw [Device.deadline, hsame, ← hstopped]
    obtain ⟨hreturned, hkept⟩ := Device.handle_endCommits hr (by decide : CommitOutcome.failedSupply ≠ .denied) stopped p h
    have hin : (∃ c ∈ ended, c.writes (p, h)) ↔ ∃ c ∈ endedOn p, ∃ m ∈ c.members, m.handle = h := by
      simp only [endedOn, List.mem_filter, beq_iff_eq, CommitRecord.writes, and_assoc, eq_comm (a := p)]
    rw [hfall, hhandle]
    rw [hbefore, hdeadline] at hreturned
    rw [hbefore] at hkept
    by_cases hany : ∃ c ∈ ended, c.writes (p, h)
    · rw [hreturned hany]
      cases s.dev.handle p h with
      | committing k b x => exact (if_pos (hin.1 hany)).symm
      | free | reading | writing | expired | revoked => rfl
    · rw [hkept fun c hc hw => hany ⟨c, hc, hw⟩]
      cases s.dev.handle p h with
      | committing k b x => exact (if_neg fun hc => hany (hin.2 hc)).symm
      | free | reading | writing | expired | revoked => rfl
  · dsimp only
    have hport := Device.port_endCommits .failedSupply hr stopped p
    rw [hsame] at hport
    rw [hfall, Device.port_mapPorts]
    exact Port.offer_keeps _ hport

end Sys2Proof.Machine
end

section
/-! SUPPORT. The access table: what its replacement takes away, the seven conditions on a table, and its decoding: the
statement AccessTableTakesEffect. -/

namespace Sys2Proof.Machine

/-! ## The writers that a new table revokes (R152) -/

/-- What a WRITING handle loses under a table that withdraws its right: its claim and its buffer. -/
def lostBy (table : Option AccessTable) (p : PortId) : Handle → Option (Key × BufferNo)
  | .writing k b _ _ => if mayWrite table p k then none else some (k, b)
  | _ => none

theorem Device.revokeIfLost_lost {d : Device} {p : PortId} {h : HandleNo} {k : Key} {b : BufferNo}
    (hl : lostBy d.table p (d.handle p h) = some (k, b)) : d.revokeIfLost p h =
      (d.dropWriter p h k b (.revoked k)).modPort p fun q => q.offer (.handleRevoked h k) := by
  unfold Device.revokeIfLost
  cases hx : d.handle p h with
  | writing k' b' c t =>
    rw [hx] at hl
    simp only [lostBy] at hl
    split at hl
    · contradiction
    · next hw =>
      obtain ⟨rfl, rfl⟩ := Prod.mk.inj (Option.some.inj hl)
      exact if_neg hw
  | free | reading | committing | expired | revoked => rw [hx] at hl; contradiction

theorem Device.revokeIfLost_none {d : Device} {p : PortId} {h : HandleNo} (hl : lostBy d.table p (d.handle p h) = none) :
    d.revokeIfLost p h = d := by
  unfold Device.revokeIfLost
  cases hx : d.handle p h with
  | writing k b c t =>
    rw [hx] at hl
    simp only [lostBy] at hl
    split at hl
    · next hw => exact if_pos hw
    · contradiction
  | free | reading | committing | expired | revoked => rfl

/-- The handles in the order of their revocation. -/
def handlesInOrder : List (PortId × HandleNo) := PortId.all.flatMap fun p => Four.all.map (p, ·)

theorem mem_handlesInOrder (i : PortId × HandleNo) : i ∈ handlesInOrder := by
  obtain ⟨p, h⟩ := i
  cases p <;> cases h <;> decide

theorem handlesInOrder_nodup : handlesInOrder.Nodup := by decide

/-- One step of the revocation. -/
def Device.revokeAt (d : Device) (i : PortId × HandleNo) : Device := d.revokeIfLost i.1 i.2

theorem Device.revokePorts_eq (d : Device) :
    PortId.all.foldl Device.revokePort d = handlesInOrder.foldl Device.revokeAt d := by
  rw [handlesInOrder, List.foldl_flatMap]
  simp only [List.foldl_map]
  rfl

theorem Device.revokeAt_frame (d : Device) (i : PortId × HandleNo) : d.revokeAt i = { d with
    ports := (d.revokeAt i).ports, buffers := (d.revokeAt i).buffers, directory := (d.revokeAt i).directory } := by
  unfold Device.revokeAt
  cases hl : lostBy d.table i.1 (d.handle i.1 i.2) with
  | none => rw [Device.revokeIfLost_none hl]
  | some x =>
    rw [Device.revokeIfLost_lost hl, Device.dropWriter_frame]
    rfl

/-- What is known before the steps that are left: the table in force, and the handles they look at. -/
def Device.unrevoked (d : Device) (rest : List (PortId × HandleNo)) (e : Device) : Prop :=
  e.table = d.table ∧ rest.Nodup ∧ ∀ i ∈ rest, e.handle i.1 i.2 = d.handle i.1 i.2

/-- What a handle loses under the table in force. -/
def Device.loses (d : Device) (i : PortId × HandleNo) : Option (Key × BufferNo) := lostBy d.table i.1 (d.handle i.1 i.2)

theorem Device.handle_offer (d : Device) (p : PortId) (n : Notice) (q : PortId) (h : HandleNo) :
    (d.modPort p fun r => r.offer n).handle q h = d.handle q h := by
  by_cases hq : q = p
  · subst hq
    rw [Device.handle, Device.port_modPort_same, Port.offer_handles]
    rfl
  · rw [Device.handle, Device.port_modPort_other _ _ hq]
    rfl

theorem Device.handle_revokeAt_other (d : Device) {i j : PortId × HandleNo} (h : j ≠ i) :
    (d.revokeAt i).handle j.1 j.2 = d.handle j.1 j.2 := by
  unfold Device.revokeAt
  cases hl : lostBy d.table i.1 (d.handle i.1 i.2) with
  | none => rw [Device.revokeIfLost_none hl]
  | some x =>
    rw [Device.revokeIfLost_lost hl, Device.handle_offer]
    by_cases hp : j.1 = i.1
    · rw [hp]
      exact Device.handle_dropWriter_other _ _ _ _ _ fun hj => h (Prod.ext hp hj)
    · have hports := portClears_port_other (d.dropWriter_clears i.1 i.2 x.1 x.2 (.revoked x.1)) hp
      rw [Device.handle, hports]
      rfl

theorem Device.unrevoked_step {d e : Device} {i : PortId × HandleNo} {rest : List (PortId × HandleNo)}
    (h : d.unrevoked (i :: rest) e) : d.unrevoked rest (e.revokeAt i) := by
  obtain ⟨htable, hnodup, hhandles⟩ := h
  obtain ⟨hout, hrest⟩ := List.nodup_cons.1 hnodup
  refine ⟨by rw [Device.revokeAt_frame, htable], hrest, fun j hj => ?_⟩
  rw [e.handle_revokeAt_other fun hji => hout (by rw [← hji]; exact hj), hhandles j (List.mem_cons_of_mem i hj)]

theorem Device.loses_unrevoked {d e : Device} {i : PortId × HandleNo} {rest : List (PortId × HandleNo)}
    (h : d.unrevoked (i :: rest) e) : lostBy e.table i.1 (e.handle i.1 i.2) = d.loses i := by
  obtain ⟨htable, _, hhandles⟩ := h
  rw [htable, hhandles i List.mem_cons_self, Device.loses]

/-- The device after the revocation of every writer without its right. -/
def Device.revokedAll (d : Device) : Device := handlesInOrder.foldl Device.revokeAt d

theorem Device.revokedAll_start (d : Device) : d.unrevoked handlesInOrder d := ⟨rfl, handlesInOrder_nodup, fun _ _ => rfl⟩

theorem Device.handle_revokedAll (d : Device) (i : PortId × HandleNo) :
    d.revokedAll.handle i.1 i.2 = match d.loses i with
      | some (k, _) => .revoked k
      | none => d.handle i.1 i.2 := by
  have hplaces := foldl_places (step := Device.revokeAt) (fun e (i : PortId × HandleNo) => e.handle i.1 i.2) id
    (fun i => match d.loses i with | some (k, _) => .revoked k | none => d.handle i.1 i.2) d.unrevoked
    (fun _ _ _ h => Device.unrevoked_step h) (fun i rest e h => ⟨?_, fun j hj => e.handle_revokeAt_other hj⟩)
    handlesInOrder (by rw [List.map_id]; exact handlesInOrder_nodup) d d.revokedAll_start
  · exact hplaces.1 i (mem_handlesInOrder i)
  · have hl := Device.loses_unrevoked h
    have hsame := h.2.2 i List.mem_cons_self
    dsimp only [id]
    unfold Device.revokeAt
    cases hx : d.loses i with
    | none =>
      rw [Device.revokeIfLost_none (hl.trans hx)]
      exact hsame
    | some x => rw [Device.revokeIfLost_lost (hl.trans hx), Device.handle_offer, Device.handle_dropWriter_same]

theorem Device.buffer_revokedAll (d : Device) (b : BufferNo) :
    ((∃ i k, d.loses i = some (k, b)) → d.revokedAll.buffer b = Buffer.cleared) ∧
      ((∀ i k, d.loses i ≠ some (k, b)) → d.revokedAll.buffer b = d.buffer b) := by
  have hfold := foldl_touches (step := Device.revokeAt) Device.buffer (fun _ => Buffer.cleared)
    (fun i b => ∃ k, d.loses i = some (k, b)) d.unrevoked (fun _ => rfl) (fun _ _ _ h => Device.unrevoked_step h)
    (fun i rest e b h => ?_) handlesInOrder d d.revokedAll_start b
  · exact ⟨fun ⟨i, k, hl⟩ => hfold.1 ⟨i, mem_handlesInOrder i, k, hl⟩, fun hno => hfold.2 fun i _ ⟨k, hl⟩ => hno i k hl⟩
  · have hl := Device.loses_unrevoked h
    unfold Device.revokeAt
    cases hx : d.loses i with
    | none =>
      rw [Device.revokeIfLost_none (hl.trans hx)]
      exact ⟨fun ⟨k, hk⟩ => absurd hk (by simp), fun _ => rfl⟩
    | some x =>
      rw [Device.revokeIfLost_lost (hl.trans hx)]
      show (_ → (e.dropWriter i.1 i.2 x.1 x.2 (.revoked x.1)).buffer b = _) ∧
        (_ → (e.dropWriter i.1 i.2 x.1 x.2 (.revoked x.1)).buffer b = _)
      rw [Device.buffer_dropWriter]
      refine ⟨fun ⟨k, hk⟩ => if_pos ?_, fun hno => if_neg fun hb => hno ⟨x.1, ?_⟩⟩
      · rw [Option.some.inj hk]
      · rw [hb]

theorem Device.lookup_revokedAll (d : Device) (k : Key) :
    ((∃ i b, d.loses i = some (k, b)) → d.revokedAll.lookup k = (d.lookup k).bind Entry.released) ∧
      ((∀ i b, d.loses i ≠ some (k, b)) → d.revokedAll.lookup k = d.lookup k) := by
  have hfold := foldl_touches (step := Device.revokeAt) Device.lookup (·.bind Entry.released)
    (fun i k => ∃ b, d.loses i = some (k, b)) d.unrevoked Entry.released_released (fun _ _ _ h => Device.unrevoked_step h)
    (fun i rest e k h => ?_) handlesInOrder d d.revokedAll_start k
  · exact ⟨fun ⟨i, b, hl⟩ => hfold.1 ⟨i, mem_handlesInOrder i, b, hl⟩, fun hno => hfold.2 fun i _ ⟨b, hl⟩ => hno i b hl⟩
  · have hl := Device.loses_unrevoked h
    unfold Device.revokeAt
    cases hx : d.loses i with
    | none =>
      rw [Device.revokeIfLost_none (hl.trans hx)]
      exact ⟨fun ⟨b, hb⟩ => absurd hb (by simp), fun _ => rfl⟩
    | some x =>
      rw [Device.revokeIfLost_lost (hl.trans hx)]
      show (_ → (e.dropWriter i.1 i.2 x.1 x.2 (.revoked x.1)).lookup k = _) ∧
        (_ → (e.dropWriter i.1 i.2 x.1 x.2 (.revoked x.1)).lookup k = _)
      rw [Device.lookup_dropWriter]
      refine ⟨fun ⟨b, hb⟩ => if_pos ?_, fun hno => if_neg fun hk => hno ⟨x.2, ?_⟩⟩
      · rw [Option.some.inj hb]
      · rw [hk]

/-- The notices of a port's revocations, in order of handle number. -/
def Device.tellRevoked (d : Device) (p : PortId) (q : Port) (i : PortId × HandleNo) : Port :=
  if i.1 = p then
    match d.loses i with
    | some (k, _) => q.offer (.handleRevoked i.2 k)
    | none => q
  else q

theorem Device.tellRevoked_handles (d : Device) (p : PortId) (q : Port) (x : Quad Handle) (i : PortId × HandleNo) :
    d.tellRevoked p { q with handles := x } i = { d.tellRevoked p q i with handles := x } := by
  unfold Device.tellRevoked
  split
  · cases d.loses i with
    | none => rfl
    | some y => exact Port.offer_with_handles ..
  · rfl

theorem Device.port_revokeAt {d e : Device} {i : PortId × HandleNo} {rest : List (PortId × HandleNo)}
    (h : d.unrevoked (i :: rest) e) (p : PortId) : (e.revokeAt i).port p =
      { d.tellRevoked p (e.port p) i with handles := ((e.revokeAt i).port p).handles } := by
  have hl := Device.loses_unrevoked h
  unfold Device.revokeAt Device.tellRevoked
  cases hx : d.loses i with
  | none =>
    rw [Device.revokeIfLost_none (hl.trans hx)]
    split <;> rfl
  | some x =>
    rw [Device.revokeIfLost_lost (hl.trans hx)]
    by_cases hp : i.1 = p
    · subst hp
      rw [if_pos rfl, Device.port_modPort_same]
      exact Port.offer_keeps _ (portClears_port_same (e.dropWriter_clears ..))
    · rw [if_neg hp, Device.port_modPort_other _ _ (Ne.symm hp),
        portClears_port_other (e.dropWriter_clears ..) (Ne.symm hp)]

theorem Device.port_revokedAll (d : Device) (p : PortId) : d.revokedAll.port p =
    { handlesInOrder.foldl (d.tellRevoked p) (d.port p) with handles := (d.revokedAll.port p).handles } := by
  have hlist : ∀ (rest : List (PortId × HandleNo)) (e : Device) (q : Port), d.unrevoked rest e →
      e.port p = { q with handles := (e.port p).handles } → (rest.foldl Device.revokeAt e).port p =
        { rest.foldl (d.tellRevoked p) q with handles := ((rest.foldl Device.revokeAt e).port p).handles } := by
    intro rest
    induction rest with
    | nil => exact fun e q _ hq => hq
    | cons i rest ih =>
      intro e q he hq
      refine ih (e.revokeAt i) (d.tellRevoked p q i) (Device.unrevoked_step he) ?_
      have hstep := Device.port_revokeAt he p
      rw [hq, Device.tellRevoked_handles] at hstep
      exact hstep
  exact hlist handlesInOrder d (d.port p) d.revokedAll_start rfl

end Sys2Proof.Machine
end

section
/-! SUPPORT. R148's conditions on a table, its decoding, and its taking effect: the statement AccessTableTakesEffect. -/

namespace Sys2Proof.Machine

/-! ## The bytes of a table (R147, R148, R183) -/

/-- No bit from `n` on is set. -/
def plainBits (n : Nat) (b : Byte) : Prop := ∀ i, n ≤ i → b.getLsbD i = false

theorem reservedClear_iff (n : Nat) (b : Byte) : reservedClear n b = true ↔ plainBits n b := by
  rw [reservedClear, decide_eq_true_eq]
  constructor
  · intro h i hi
    exact Nat.testBit_lt_two_pow (Nat.lt_of_lt_of_le h (Nat.pow_le_pow_right (by decide) hi))
  · exact fun h => Nat.lt_pow_two_of_testBit _ h

/-- A mask of plain low bits is not zero exactly when one of them is set. -/
theorem mask_ne_zero {n : Nat} {b : Byte} (h : plainBits n b) : b ≠ 0x00 ↔ ∃ i, i < n ∧ b.getLsbD i = true := by
  constructor
  · intro hb
    by_contra hno
    refine hb (BitVec.eq_of_getLsbD_eq fun i _ => ?_)
    show _ = (0#8).getLsbD i
    rw [BitVec.getLsbD_zero]
    by_cases hi : i < n
    · exact Bool.eq_false_iff.2 fun hset => hno ⟨i, hi, hset⟩
    · exact h i (Nat.le_of_not_lt hi)
  · rintro ⟨i, _, hset⟩ hzero
    have hclear : b.getLsbD i = false := by
      rw [hzero]
      exact BitVec.getLsbD_zero
    exact Bool.false_ne_true (hclear.symm.trans hset)

/-- Whether a zone includes a key. -/
def Zone.includes (z : Zone) (k : Key) : Prop := z.first ≤ k ∧ k ≤ z.last

theorem zonesApart_iff {x y : Zone} (hx : x.first ≤ x.last) (hy : y.first ≤ y.last) :
    zonesApart x y = true ↔ ∀ k, ¬ (x.includes k ∧ y.includes k) := by
  simp only [zonesApart, Bool.or_eq_true, decide_eq_true_eq, Zone.includes, BitVec.lt_def, BitVec.le_def] at hx hy ⊢
  constructor
  · rintro h k ⟨⟨h1, h2⟩, h3, h4⟩
    omega
  · intro h
    by_contra hno
    by_cases hle : x.first.toNat ≤ y.first.toNat
    · exact h y.first ⟨⟨hle, by omega⟩, Nat.le_refl _, hy⟩
    · exact h x.first ⟨⟨Nat.le_refl _, hx⟩, by omega, by omega⟩

theorem allApart_iff (zs : List Zone) : allApart zs = true ↔ zs.Pairwise fun x y => zonesApart x y = true := by
  induction zs with
  | nil => simp [allApart]
  | cons z rest ih => simp [allApart, ih]

theorem zonesApart_comm (x y : Zone) : zonesApart x y = zonesApart y x := by
  rw [zonesApart, zonesApart, Bool.or_comm]

/-- Zones by number, each apart from every later one: any two. -/
theorem allApart_range {n : Nat} {f : Nat → Zone} (hf : ∀ i, i < n → (f i).first ≤ (f i).last) :
    allApart ((List.range n).map f) = true ↔
      ∀ i j, i < n → j < n → i ≠ j → ∀ k, ¬ ((f i).includes k ∧ (f j).includes k) := by
  rw [allApart_iff, List.pairwise_map, List.pairwise_iff_getElem]
  simp only [List.length_range, List.getElem_range]
  constructor
  · intro h i j hi hj hne
    rcases Nat.lt_or_gt_of_ne hne with hlt | hlt
    · exact (zonesApart_iff (hf i hi) (hf j hj)).1 (h i j hi hj hlt)
    · exact (zonesApart_iff (hf i hi) (hf j hj)).1 (by rw [zonesApart_comm]; exact h j i hj hi hlt)
  · exact fun h i j hi hj hlt => (zonesApart_iff (hf i hi) (hf j hj)).2 (h i j hi hj (Nat.ne_of_lt hlt))

theorem one_le_first_iff (z : Zone) : 0x0001#16 ≤ z.first ↔ ¬ z.includes 0x0000#16 := by
  simp only [Zone.includes, BitVec.le_def, BitVec.toNat_ofNat]
  omega

theorem decodeZone_eq (v : List Byte) (i : Nat) : decodeZone v i =
    { first := byteAt v (8 + 8 * i) ++ byteAt v (9 + 8 * i)
      last := byteAt v (10 + 8 * i) ++ byteAt v (11 + 8 * i)
      rights := ⟨decodeRights (byteAt v (12 + 8 * i)), decodeRights (byteAt v (13 + 8 * i)),
        decodeRights (byteAt v (14 + 8 * i)), decodeRights (byteAt v (15 + 8 * i))⟩ } := by
  have hplace : ∀ j, 8 + 8 * i + j = (8 + j) + 8 * i := fun j => by omega
  have hrights : ∀ j, 8 + 4 + 8 * i + j = (12 + j) + 8 * i := fun j => by omega
  simp only [decodeZone, decodeFourRights, keyOf_append, hplace, hrights]

/-- The conditions, on the bytes and on the zones that they decode to. -/
theorem validTable_iff (v : List Byte) : validTable v = true ↔
    (8 ≤ v.length ∧ byteAt v 0 = 0x01) ∧ ((byteAt v 1).toNat ≤ 8 ∧ v.length = 8 + 8 * (byteAt v 1).toNat) ∧
    (byteAt v 7 = 0x00 ∧ (∀ i, 2 ≤ i → i ≤ 5 → plainBits 3 (byteAt v i)) ∧ plainBits 4 (byteAt v 6) ∧
      ∀ i j, i < (byteAt v 1).toNat → 12 ≤ j → j ≤ 15 → plainBits 3 (byteAt v (j + 8 * i))) ∧
    (∀ i, i < (byteAt v 1).toNat → (decodeZone v i).first ≤ (decodeZone v i).last) ∧
    (∀ i, i < (byteAt v 1).toNat → ¬ (decodeZone v i).includes 0x0000#16) ∧
    (∀ i j, i < (byteAt v 1).toNat → j < (byteAt v 1).toNat → i ≠ j → ∀ k,
      ¬ ((decodeZone v i).includes k ∧ (decodeZone v j).includes k)) ∧
    ∃ i, i < 4 ∧ (byteAt v 6).getLsbD i = true := by
  have hplace : ∀ i j, 8 + 8 * i + j = (8 + j) + 8 * i := fun i j => by omega
  simp only [validTable, Bool.and_eq_true, decide_eq_true_eq, beq_iff_eq, bne_iff_ne, List.all_eq_true, List.mem_map,
    List.mem_range, forall_exists_index, and_imp, forall_apply_eq_imp_iff₂, reservedClear_iff, one_le_first_iff, and_assoc,
    hplace]
  constructor
  · rintro ⟨hlen, hform, hn, hsize, hend, hmask, hports, hzones, horder, hkey, hapart, hany⟩
    refine ⟨hlen, hform, hn, hsize, hend, fun i hlo hhi => hports i ?_, hmask, fun i j hi hlo hhi => ?_, horder, hkey,
      (allApart_range horder).1 hapart, (mask_ne_zero hmask).1 hany⟩
    · simp only [List.mem_cons, List.not_mem_nil, or_false]
      omega
    · obtain ⟨k, rfl⟩ := Nat.exists_eq_add_of_le (Nat.le_trans (by decide : 8 ≤ 12) hlo)
      refine hzones i hi k ?_
      simp only [List.mem_cons, List.not_mem_nil, or_false]
      omega
  · rintro ⟨hlen, hform, hn, hsize, hend, hports, hmask, hzones, horder, hkey, hapart, hany⟩
    refine ⟨hlen, hform, hn, hsize, hend, hmask, fun i hi => ?_, fun i hi j hj => ?_, horder, hkey,
      (allApart_range horder).2 hapart, (mask_ne_zero hmask).2 hany⟩
    · simp only [List.mem_cons, List.not_mem_nil, or_false] at hi
      exact hports i (by omega) (by omega)
    · simp only [List.mem_cons, List.not_mem_nil, or_false] at hj
      exact hzones i (8 + j) hi (by omega) (by omega)

/-! ## A table takes effect (R151 to R153) -/

theorem Device.revokedAll_frame (d : Device) : d.revokedAll = { d with
    ports := d.revokedAll.ports, buffers := d.revokedAll.buffers, directory := d.revokedAll.directory } := by
  have hkept := foldl_keeps (fun e : Device => { e with ports := d.ports, buffers := d.buffers, directory := d.directory })
    handlesInOrder (step := Device.revokeAt) (fun i _ e => by rw [Device.revokeAt_frame]) d
  calc d.revokedAll = { { d.revokedAll with ports := d.ports, buffers := d.buffers, directory := d.directory } with
        ports := d.revokedAll.ports, buffers := d.revokedAll.buffers, directory := d.revokedAll.directory } := rfl
    _ = _ := by
      rw [show { d.revokedAll with ports := d.ports, buffers := d.buffers, directory := d.directory } = d from hkept]

/-- The device with a table just decoded, before it takes effect on handles and watches. -/
def Device.withTable (d : Device) (t : AccessTable) : Device := { d with table := some t, tableInvalid := false }

theorem Device.installTable_eq (d : Device) (t : AccessTable) : d.installTable t =
    (d.withTable t).revokedAll.mapPorts fun p q => { q with watch := q.watch.filter fun k => mayWatch (some t) p k } := by
  have htable : (d.withTable t).revokedAll.table = some t := by
    rw [Device.revokedAll_frame]
    rfl
  rw [Device.installTable, Device.revokePorts_eq, Device.pruneWatches]
  show Device.mapPorts (fun p q => { q with
    watch := q.watch.filter fun k => mayWatch (d.withTable t).revokedAll.table p k })
    (d.withTable t).revokedAll = _
  rw [htable]

theorem Device.tellRevoked_watch (d : Device) (p : PortId) (is : List (PortId × HandleNo)) (q : Port) :
    (is.foldl (d.tellRevoked p) q).watch = q.watch := by
  induction is generalizing q with
  | nil => rfl
  | cons i rest ih =>
    rw [List.foldl_cons, ih, Device.tellRevoked]
    split
    · cases d.loses i with
      | none => rfl
      | some x => exact Port.offer_watch ..
    · rfl

/-- The notices of a port, of its own handles alone. -/
theorem Device.tellRevoked_order (d : Device) (p : PortId) (q : Port) : handlesInOrder.foldl (d.tellRevoked p) q =
    Four.all.foldl (fun q h => match d.loses (p, h) with
      | some (k, _) => q.offer (.handleRevoked h k)
      | none => q) q := by
  have hown : handlesInOrder.filter (fun i => decide (i.1 = p)) = Four.all.map (p, ·) := by
    cases p <;> decide
  have hfilter := List.foldl_filter (p := fun i : PortId × HandleNo => decide (i.1 = p))
    (f := fun q i => match d.loses i with | some (k, _) => q.offer (.handleRevoked i.2 k) | none => q)
    (l := handlesInOrder) (init := q)
  rw [hown, List.foldl_map] at hfilter
  refine Eq.trans ?_ hfilter.symm
  congr 1
  funext q i
  by_cases hi : i.1 = p
  · exact (if_pos hi).trans (if_pos (decide_eq_true hi)).symm
  · exact (if_neg hi).trans (if_neg (by simpa using hi)).symm

/-- Settles O46: the revocations by the lemmas about all of them, and the conditions and the places of the bytes. -/
theorem accessTableTakesEffect : Obligations.AccessTableTakesEffect := by
  refine ⟨fun d => rfl, fun d v => rfl, fun d v => ?_, fun v => ?_⟩
  · intro new d' lost
    have hnew : d' = (d.withTable (decodeTable v)).revokedAll.mapPorts fun p q =>
      { q with watch := q.watch.filter fun k => mayWatch new p k } := d.installTable_eq (decodeTable v)
    have hlost : ∀ p h, (d.withTable (decodeTable v)).loses (p, h) = lost p (d.handle p h) := by
      intro p h
      show lostBy new p (d.handle p h) = _
      cases d.handle p h <;> rfl
    have hhandle : ∀ p h, d'.handle p h = (d.withTable (decodeTable v)).revokedAll.handle p h := fun p h => by
      rw [hnew, Device.handle, Device.port_mapPorts]
      rfl
    have hbuffer : ∀ b, d'.buffer b = (d.withTable (decodeTable v)).revokedAll.buffer b := fun b => by rw [hnew]; rfl
    have hlookup : ∀ k, d'.lookup k = (d.withTable (decodeTable v)).revokedAll.lookup k := fun k => by rw [hnew]; rfl
    refine ⟨?_, fun p h => ⟨fun k b hl => ?_, fun hl => ?_⟩, fun p => ?_, fun b => ⟨fun hb => ?_, fun hb => ?_⟩,
      fun k => ⟨fun hk => ?_, fun hk => ?_⟩⟩
    · have hframe := (d.withTable (decodeTable v)).revokedAll_frame
      rw [hnew]
      generalize (d.withTable (decodeTable v)).revokedAll = r at hframe
      rw [hframe]
      rfl
    · rw [hhandle, (d.withTable (decodeTable v)).handle_revokedAll (p, h), hlost, hl]
    · rw [hhandle, (d.withTable (decodeTable v)).handle_revokedAll (p, h), hlost, hl]
      rfl
    · have hport := (d.withTable (decodeTable v)).port_revokedAll p
      have hwatch := (congrArg Port.watch hport).trans (Device.tellRevoked_watch _ p handlesInOrder _)
      have htold : (fun (q : Port) h => match (d.withTable (decodeTable v)).loses (p, h) with
          | some (k, _) => q.offer (.handleRevoked h k)
          | none => q) = fun q h => match lost p (d.handle p h) with
          | some (k, _) => q.offer (.handleRevoked h k)
          | none => q := by
        funext q h
        rw [hlost]
      rw [Device.tellRevoked_order, htold] at hport
      have hnow : d'.port p = { (d.withTable (decodeTable v)).revokedAll.port p with
          watch := ((d.withTable (decodeTable v)).revokedAll.port p).watch.filter fun k => mayWatch new p k } := by
        rw [hnew, Device.port_mapPorts]
      rw [hnow, hwatch]
      exact congrArg (fun q : Port => { q with watch := (d.port p).watch.filter fun k => mayWatch new p k }) hport
    · rw [hbuffer]
      obtain ⟨p, h, k, hl⟩ := hb
      exact ((d.withTable (decodeTable v)).buffer_revokedAll b).1 ⟨(p, h), k, (hlost p h).trans hl⟩
    · rw [hbuffer]
      exact ((d.withTable (decodeTable v)).buffer_revokedAll b).2 fun i k hl => hb i.1 i.2 k ((hlost i.1 i.2).symm.trans hl)
    · rw [hlookup]
      obtain ⟨p, h, b, hl⟩ := hk
      exact ((d.withTable (decodeTable v)).lookup_revokedAll k).1 ⟨(p, h), b, (hlost p h).trans hl⟩
    · rw [hlookup]
      exact ((d.withTable (decodeTable v)).lookup_revokedAll k).2 fun i b hl => hk i.1 i.2 b ((hlost i.1 i.2).symm.trans hl)
  · intro at_ n first last includes plain rights
    have hfirst : ∀ i, (decodeZone v i).first = first i := fun i => by rw [decodeZone_eq]; rfl
    have hlast : ∀ i, (decodeZone v i).last = last i := fun i => by rw [decodeZone_eq]; rfl
    refine ⟨?_, ?_⟩
    · have hvalid := validTable_iff v
      simp only [Zone.includes, hfirst, hlast] at hvalid
      exact hvalid
    · have hzones : decodeZone v = _ := funext (decodeZone_eq v)
      rw [decodeTable, hzones]
      rfl

end Sys2Proof.Machine
end

section
/-! SUPPORT. The switch of a commit: the statements SingletonSwitch and GroupSwitch. -/

namespace Sys2Proof.Machine

/-! ## The commit mark (R7) -/

theorem Device.cell_programMark (d : Device) (l at_ : Loc) : (d.programMark l).cell at_ =
    if at_.seg = l.seg ∧ at_.frame - 1 = l.frame - 1 then (d.cell at_).withMark true else d.cell at_ := by
  unfold Device.cell Device.programMark Device.modCell
  dsimp only
  rw [List.getElem?_modify]
  by_cases hs : l.seg = at_.seg
  · cases d.array[at_.seg]? with
    | none => simp [Cell.withMark]
    | some im =>
      by_cases hf : l.frame - 1 = at_.frame - 1
      · cases hc : im.frames[at_.frame - 1]? <;> simp [hs, hf, hc, SegmentImage.modFrame, Cell.withMark]
      · simp [hs, hf, Ne.symm hf, SegmentImage.modFrame]
  · simp [hs, Ne.symm hs]

theorem Device.markDone_item {d : Device} {o : Owner} {retried : Bool} {l : Loc} {cells : List Cell}
    (hf : d.flight = some (.write o retried (.markStep l cells))) :
    d.markDone true = ((d.programMark l).finishItem o l).arbiter := by
  simp only [Device.markDone, hf, if_true]

/-! ## The entries (R50) -/

theorem Entry.switched_eq (n : Nat) (m : Member) (l : Loc) (e : Entry) : Entry.switched n m l e =
    { key := e.key
      state := if m.intent = .value then .live else .gone
      location := some l
      length := if m.intent = .value then m.length else 0
      sequence := some n
      residue := if e.state = .live ∨ e.state = .gone ∨ (e.state = .damaged ∧ e.markPending = false)
        then e.residue + 1 else e.residue
      claim := none
      pins := e.pins
      markPending := false } := by
  have hstale : e.leavesStale = true ↔ e.state = .live ∨ e.state = .gone ∨
      (e.state = .damaged ∧ e.markPending = false) := by
    unfold Entry.leavesStale
    cases e.state <;> simp
  unfold Entry.switched Member.versionLength
  simp only [hstale]
  cases m.intent <;> rfl

theorem Device.lookup_modEntry (k : Key) (f : Entry → Entry) (d : Device) :
    (d.modEntry k f).lookup k = (d.lookup k).map fun e => { f e with key := k } := by
  cases hl : d.lookup k with
  | some e => exact Device.lookup_modEntry_same f hl
  | none =>
    unfold Device.lookup at hl
    show (d.directory.map (Entry.changeAt k f)).find? _ = none
    rw [List.find?_eq_none] at hl ⊢
    intro x hx
    obtain ⟨e, he, rfl⟩ := List.mem_map.1 hx
    have hne : ¬ e.key = k := fun hk => hl e he (by simp [hk])
    simp [Entry.changeAt, hne]

theorem Device.lookup_switchMembers (n : Nat) {xs : List (Member × Loc)} (hn : (xs.map fun x => x.1.key).Nodup)
    (d : Device) :
    (∀ x ∈ xs, (xs.foldl (Device.switchMember n) d).lookup x.1.key =
      (d.lookup x.1.key).map fun e => { Entry.switched n x.1 x.2 e with key := x.1.key }) ∧
    ∀ k, k ∉ xs.map (fun x => x.1.key) → (xs.foldl (Device.switchMember n) d).lookup k = d.lookup k := by
  refine foldl_places Device.lookup (fun x => x.1.key)
    (fun x => (d.lookup x.1.key).map fun e => { Entry.switched n x.1 x.2 e with key := x.1.key })
    (fun rest e => (rest.map fun x => x.1.key).Nodup ∧ ∀ x ∈ rest, e.lookup x.1.key = d.lookup x.1.key)
    (fun x rest e ⟨hnr, he⟩ => ?_)
    (fun x rest e ⟨_, he⟩ => ⟨?_, fun k hk => Device.lookup_modEntry_other _ hk⟩) xs hn d ⟨hn, fun _ _ => rfl⟩
  · obtain ⟨hout, hrest⟩ := List.nodup_cons.1 hnr
    refine ⟨hrest, fun y hy => ?_⟩
    have hne : y.1.key ≠ x.1.key := fun hk => hout (List.mem_map.2 ⟨y, hy, hk⟩)
    exact (Device.lookup_modEntry_other _ hne).trans (he y (List.mem_cons_of_mem x hy))
  · rw [← he x List.mem_cons_self]
    exact Device.lookup_modEntry ..

/-! ## The parts of the switch (R50, R51, R104) -/

/-- The switch of a commit, but for the access table. -/
def Device.switchCommit (c : CommitRecord) (places : List Loc) (d : Device) : Device :=
  ((c.members.foldl (Device.releaseMember c.port)
    ((c.members.zip places).foldl (Device.switchMember (c.sequence.getD 0)) d)).keepGroup
      c places).deliverSwitch c (c.sequence.getD 0)

theorem Device.finishCommit_eq (c : CommitRecord) (places : List Loc) (d : Device) :
    d.finishCommit c places = (d.switchCommit c places).replaceTable (d.accessMember c) := rfl

theorem Device.keepGroup_frame (c : CommitRecord) (places : List Loc) (d : Device) :
    d.keepGroup c places = { d with groups := (d.keepGroup c places).groups } := by
  unfold Device.keepGroup
  split <;> rfl

theorem Device.groups_keepGroup {d e : Device} (c : CommitRecord) (places : List Loc) (h : d.groups = e.groups) :
    (d.keepGroup c places).groups = (e.keepGroup c places).groups := by
  unfold Device.keepGroup
  split
  · exact congrArg (fun gs : List GroupEntry => gs.set _ _) h
  · exact h

theorem Device.switchMembers_frame (n : Nat) (xs : List (Member × Loc)) (d : Device) :
    xs.foldl (Device.switchMember n) d = { d with directory := (xs.foldl (Device.switchMember n) d).directory } := by
  induction xs generalizing d with
  | nil => rfl
  | cons x rest ih =>
    rw [List.foldl_cons, ih]
    rfl

theorem Device.releaseMembers_frame (p : PortId) (ms : List Member) (d : Device) : ms.foldl (Device.releaseMember p) d =
    { d with
      ports := (ms.foldl (Device.releaseMember p) d).ports
      buffers := (ms.foldl (Device.releaseMember p) d).buffers } := by
  induction ms generalizing d with
  | nil => rfl
  | cons m rest ih =>
    rw [List.foldl_cons, ih]
    rfl

theorem Device.releaseMembers_clears (p : PortId) (ms : List Member) (d : Device) :
    portClears p d (ms.foldl (Device.releaseMember p) d) :=
  portClears_foldl _ _ (fun (m : Member) _ d => portClears_trans (e := d.freeBuffer m.buffer) (by cases p <;> rfl)
    (Device.setHandle_clears ..)) d

theorem Device.handle_releaseMembers (p : PortId) (ms : List Member) (d : Device) (h : HandleNo) :
    (ms.foldl (Device.releaseMember p) d).handle p h = if h ∈ ms.map (·.handle) then .free else d.handle p h := by
  have hfold := foldl_touches (step := Device.releaseMember p) (fun e h => e.handle p h) (fun _ => .free)
    (fun m h => m.handle = h) (fun _ _ => True) (fun _ => rfl) (fun _ _ _ _ => trivial)
    (fun m _ e h _ => ⟨fun hm => by rw [← hm]; exact Device.handle_setHandle_same .., fun hm =>
      Device.handle_setHandle_other _ _ _ (Ne.symm hm)⟩) ms d trivial h
  split
  case isTrue hh =>
    obtain ⟨m, hm, hmh⟩ := List.mem_map.1 hh
    exact hfold.1 ⟨m, hm, hmh⟩
  case isFalse hh => exact hfold.2 fun m hm hmh => hh (List.mem_map.2 ⟨m, hm, hmh⟩)

theorem Device.buffer_releaseMembers (p : PortId) (ms : List Member) (d : Device) (b : BufferNo) :
    (ms.foldl (Device.releaseMember p) d).buffer b = if b ∈ ms.map (·.buffer) then Buffer.cleared else d.buffer b := by
  have hstep : ∀ (m : Member) (e : Device) (b : BufferNo),
      (e.releaseMember p m).buffer b = if b = m.buffer then Buffer.cleared else e.buffer b := fun m e b => Quad.get_set ..
  have hfold := foldl_touches (step := Device.releaseMember p) Device.buffer (fun _ => Buffer.cleared)
    (fun m b => m.buffer = b) (fun _ _ => True) (fun _ => rfl) (fun _ _ _ _ => trivial)
    (fun m _ e b _ => ⟨fun hm => by rw [hstep, if_pos hm.symm],
        fun hm => by rw [hstep, if_neg (Ne.symm hm)]⟩) ms d trivial b
  split
  case isTrue hb =>
    obtain ⟨m, hm, hmb⟩ := List.mem_map.1 hb
    exact hfold.1 ⟨m, hm, hmb⟩
  case isFalse hb => exact hfold.2 fun m hm hmb => hb (List.mem_map.2 ⟨m, hm, hmb⟩)

/-! ## Notices of a switch (R104, R136) -/

/-- The change notices of a switch, offered to a port for the members it watches. -/
def Port.toldOf (n : Nat) (ms : List Member) (q : Port) : Port :=
  ms.foldl (fun r m =>
    if m.key ∈ q.watch then r.offer (if m.intent = .value then .changed m.key n m.length else .removed m.key n) else r) q

theorem Port.offerWatched_cons (k : Key) (n : Notice) (cs : List (Key × Notice)) (q : Port) :
    q.offerWatched ((k, n) :: cs) = Port.offerWatched cs (if k ∈ q.watch then q.offer n else q) := by
  rw [Port.offerWatched, List.foldl_cons]
  by_cases hk : k ∈ q.watch
  · rw [if_pos hk, if_pos (List.contains_iff_mem.2 hk), Port.offerWatched]
  · rw [if_neg hk, if_neg fun h => hk (List.contains_iff_mem.1 h), Port.offerWatched]

theorem Port.offerWatched_notices (n : Nat) (ms : List Member) (q : Port) :
    q.offerWatched (ms.map (Member.notice n)) = q.toldOf n ms := by
  have hlist : ∀ (ms : List Member) (r : Port), r.watch = q.watch → r.offerWatched (ms.map (Member.notice n)) =
      ms.foldl (fun r m =>
        if m.key ∈ q.watch then r.offer (if m.intent = .value then .changed m.key n m.length else .removed m.key n)
        else r) r := by
    intro ms
    induction ms with
    | nil => exact fun _ _ => rfl
    | cons m rest ih =>
      intro r hr
      have hnotice : Member.notice n m =
          (m.key, if m.intent = .value then .changed m.key n m.length else .removed m.key n) := by
        unfold Member.notice
        cases m.intent <;> rfl
      rw [List.foldl_cons, ← ih]
      · rw [List.map_cons, hnotice, Port.offerWatched_cons, hr]
      · split
        · rw [Port.offer_watch, hr]
        · exact hr
  exact hlist ms q rfl

theorem Port.offerWatched_with_handles (cs : List (Key × Notice)) (q : Port) (x : Quad Handle) :
    Port.offerWatched cs { q with handles := x } = { q.offerWatched cs with handles := x } := by
  induction cs generalizing q with
  | nil => rfl
  | cons c rest ih =>
    rw [Port.offerWatched_cons, Port.offerWatched_cons, ← ih]
    dsimp only
    split
    · rw [Port.offer_with_handles]
    · rfl

theorem Port.offerWatched_handles (cs : List (Key × Notice)) (q : Port) : (q.offerWatched cs).handles = q.handles := by
  have hsame := congrArg Port.handles (Port.offerWatched_with_handles cs q q.handles)
  exact hsame

/-- The switch's notices at a port that is not told COMMIT_DONE. -/
theorem Device.port_deliverSwitch_told {d : Device} {c : CommitRecord} (n : Nat) {p : PortId}
    (h : ¬ (p = c.port ∧ c.portReset = false)) :
    (d.deliverSwitch c n).port p = (d.port p).toldOf n c.members := by
  rw [Device.deliverSwitch, Device.port_mapPorts, if_neg h, Port.offerWatched_notices]

theorem Device.port_deliverSwitch_done {d : Device} {c : CommitRecord} (n : Nat) (h : c.portReset = false) :
    (d.deliverSwitch c n).port c.port = (d.port c.port).placeDone (.commitDone c.ticket .done (some n)) := by
  rw [Device.deliverSwitch, Device.port_mapPorts, if_pos ⟨rfl, h⟩]

/-! ## The switch as a whole -/

theorem Device.lookup_switchCommit (c : CommitRecord) (places : List Loc) (d : Device) (k : Key) :
    (d.switchCommit c places).lookup k =
      ((c.members.zip places).foldl (Device.switchMember (c.sequence.getD 0)) d).lookup k := by
  refine Device.lookup_congr ?_ k
  unfold Device.switchCommit
  generalize (c.members.zip places).foldl (Device.switchMember (c.sequence.getD 0)) d = e
  show (Device.keepGroup c places (c.members.foldl (Device.releaseMember c.port) e)).directory = _
  rw [Device.keepGroup_frame, Device.releaseMembers_frame]

/-- The ports before the notices of the switch. -/
theorem Device.port_keepGroup (c : CommitRecord) (places : List Loc) (d : Device) (p : PortId) :
    (d.keepGroup c places).port p = d.port p := by
  rw [Device.keepGroup_frame]
  rfl

theorem Device.port_switchMembers (n : Nat) (xs : List (Member × Loc)) (d : Device) (p : PortId) :
    (xs.foldl (Device.switchMember n) d).port p = d.port p := by
  rw [Device.switchMembers_frame]
  rfl

theorem Device.handle_switchCommit (c : CommitRecord) (places : List Loc) (d : Device) (h : HandleNo) :
    (d.switchCommit c places).handle c.port h =
      if h ∈ c.members.map (·.handle) then .free else d.handle c.port h := by
  have hkept : ∀ q : Port, ∀ n : Notice, (q.placeDone n).handles = q.handles := fun _ _ => rfl
  have hbefore : (d.switchCommit c places).handle c.port h =
      (c.members.foldl (Device.releaseMember c.port)
        ((c.members.zip places).foldl (Device.switchMember (c.sequence.getD 0)) d)).handle c.port h := by
    unfold Device.switchCommit Device.handle
    rw [Device.deliverSwitch, Device.port_mapPorts]
    split
    · rw [hkept, Device.port_keepGroup]
    · rw [Port.offerWatched_handles, Device.port_keepGroup]
  rw [hbefore, Device.handle_releaseMembers, Device.handle, Device.port_switchMembers]
  rfl

theorem Device.buffer_switchCommit (c : CommitRecord) (places : List Loc) (d : Device) (b : BufferNo) :
    (d.switchCommit c places).buffer b = if b ∈ c.members.map (·.buffer) then Buffer.cleared else d.buffer b := by
  have hbefore : (d.switchCommit c places).buffer b =
      (c.members.foldl (Device.releaseMember c.port)
        ((c.members.zip places).foldl (Device.switchMember (c.sequence.getD 0)) d)).buffer b := by
    unfold Device.switchCommit
    rw [Device.keepGroup_frame]
    rfl
  rw [hbefore, Device.buffer_releaseMembers, Device.switchMembers_frame]
  rfl

/-- Another port than the committing one is told of the changes it watches. -/
theorem Device.port_switchCommit_other (c : CommitRecord) (places : List Loc) (d : Device) {q : PortId} (hq : q ≠ c.port) :
    (d.switchCommit c places).port q = (d.port q).toldOf (c.sequence.getD 0) c.members := by
  unfold Device.switchCommit
  rw [Device.port_deliverSwitch_told _ fun h => hq h.1, Device.port_keepGroup,
    portClears_port_other (Device.releaseMembers_clears ..) hq, Device.port_switchMembers]

theorem Port.toldOf_with_handles (n : Nat) (ms : List Member) (q : Port) (x : Quad Handle) :
    ({ q with handles := x } : Port).toldOf n ms = { q.toldOf n ms with handles := x } := by
  rw [← Port.offerWatched_notices, Port.offerWatched_with_handles, Port.offerWatched_notices]

/-- The committing port, after a reset: as another port, but for its handles. -/
theorem Device.port_switchCommit_reset {c : CommitRecord} (h : c.portReset = true) (places : List Loc) (d : Device) :
    (d.switchCommit c places).port c.port = { (d.port c.port).toldOf (c.sequence.getD 0) c.members with
      handles := ((d.switchCommit c places).port c.port).handles } := by
  unfold Device.switchCommit
  rw [Device.port_deliverSwitch_told _ fun hr => Bool.false_ne_true (hr.2.symm.trans h), Device.port_keepGroup,
    portClears_port_same (Device.releaseMembers_clears ..), Port.toldOf_with_handles, Device.port_switchMembers]

/-- The committing port, not reset: COMMIT_DONE takes its reserved slot. -/
theorem Device.port_switchCommit_done {c : CommitRecord} (h : c.portReset = false) (places : List Loc) (d : Device) :
    (d.switchCommit c places).port c.port = { d.port c.port with
      handles := ((d.switchCommit c places).port c.port).handles
      notices := (d.port c.port).notices ++ [.commitDone c.ticket .done (some (c.sequence.getD 0))]
      reserved := (d.port c.port).reserved - 1 } := by
  unfold Device.switchCommit
  rw [Device.port_deliverSwitch_done _ h, Device.port_keepGroup,
    portClears_port_same (Device.releaseMembers_clears ..), Device.port_switchMembers]
  rfl

theorem Device.switchCommit_frame (c : CommitRecord) (places : List Loc) (d : Device) : d.switchCommit c places = { d with
    directory := (d.switchCommit c places).directory
    ports := (d.switchCommit c places).ports
    buffers := (d.switchCommit c places).buffers
    groups := (d.keepGroup c places).groups } := by
  have hentries := Device.switchMembers_frame (c.sequence.getD 0) (c.members.zip places) d
  unfold Device.switchCommit
  generalize (c.members.zip places).foldl (Device.switchMember (c.sequence.getD 0)) d = e at hentries ⊢
  have hreleased := Device.releaseMembers_frame c.port c.members e
  generalize c.members.foldl (Device.releaseMember c.port) e = f at hreleased ⊢
  have hgroups : (f.keepGroup c places).groups = (d.keepGroup c places).groups :=
    Device.groups_keepGroup c places (by rw [hreleased, hentries])
  have hkept := f.keepGroup_frame c places
  rw [hgroups] at hkept
  generalize f.keepGroup c places = g at hkept ⊢
  rw [hkept, hreleased, hentries]
  rfl

theorem Device.cell_switchCommit (c : CommitRecord) (places : List Loc) (d : Device) (l : Loc) :
    (d.switchCommit c places).cell l = d.cell l := by
  rw [Device.switchCommit_frame]
  rfl

/-- The items of a group: its members and its seal. -/
theorem length_itemFrames {ms : List Member} (h : 2 ≤ ms.length) : (itemFrames ms).length = ms.length + 1 := by
  rw [itemFrames, List.length_append, List.length_map, if_neg (by omega)]
  rfl

/-- What the commit writes to key 0000h, if that key is a member of it. -/
theorem Device.accessMember_none {d : Device} {c : CommitRecord} (h : ∀ m ∈ c.members, m.key ≠ 0x0000#16) :
    d.accessMember c = none := by
  rw [Device.accessMember, List.find?_eq_none.2 fun m hm hk => h m hm (beq_iff_eq.1 hk)]
  rfl

theorem Device.accessMember_some {d : Device} {c : CommitRecord} {m : Member} (hn : (c.members.map (·.key)).Nodup)
    (hm : m ∈ c.members) (hk : m.key = 0x0000#16) :
    d.accessMember c = some (m.intent, (d.buffer m.buffer).bytes.take (d.buffer m.buffer).length) := by
  have hfind : (c.members.find? fun x => x.key == accessKey) = some m := by
    cases hf : c.members.find? fun x => x.key == accessKey with
    | none => exact absurd (beq_iff_eq.2 hk) (List.find?_eq_none.1 hf m hm)
    | some x =>
      have hx : x.key = 0x0000#16 := beq_iff_eq.1 (List.find?_some (p := fun x : Member => x.key == accessKey) hf)
      rw [List.inj_on_of_nodup_map hn (List.mem_of_find?_eq_some hf) hm (hx.trans hk.symm)]
  rw [Device.accessMember, hfind]
  rfl

/-- Settles O48: the switch of one member. -/
theorem singletonSwitch : Obligations.SingletonSwitch := by
  unfold Obligations.SingletonSwitch
  intro s c m retried l cells n e hf hms hg hn hl written told
  have hplaces : c.members.zip [l] = [(m, l)] := by rw [hms]; rfl
  have hmembers : (s.dev.programMark l).finishItem (.commit c []) l =
      ((s.dev.programMark l).setFlight none).finishCommit c [l] := by
    rw [Device.finishItem]
    refine if_neg ?_
    simp [itemFrames, hms]
  have hwritten : ((s.dev.programMark l).setFlight none).accessMember c = written := by
    by_cases hk : m.key = 0x0000#16
    · rw [Device.accessMember_some (m := m) (by rw [hms]; simp) (by rw [hms]; simp) hk]
      exact (if_pos hk).symm
    · rw [Device.accessMember_none (by rw [hms]; simpa using hk)]
      exact (if_neg hk).symm
  have hseq : c.sequence.getD 0 = n := by rw [hn]; rfl
  have hgroups : (((s.dev.programMark l).setFlight none).keepGroup c [l]).groups = s.dev.groups := by
    rw [Device.keepGroup, hg]
    rfl
  have hentries := Device.lookup_switchMembers n (xs := [(m, l)]) (by simp) ((s.dev.programMark l).setFlight none)
  refine ⟨((s.dev.programMark l).setFlight none).switchCommit c [l], ?_, ?_, ?_, fun k hk => ?_, fun at_ hat => ?_,
    fun f hcell => ?_, fun h => ?_, fun hr => ?_, fun hr => ?_, fun q hq => ?_⟩
  · rw [exec_commitMarkDone, Device.markDone_item hf, hmembers, Device.finishCommit_eq, hwritten]
  · have hbuffers : (((s.dev.programMark l).setFlight none).switchCommit c [l]).buffers =
        s.dev.buffers.set m.buffer Buffer.cleared := by
      unfold Device.switchCommit
      rw [Device.keepGroup_frame, hms]
      rfl
    have hframe := ((s.dev.programMark l).setFlight none).switchCommit_frame c [l]
    rw [hgroups, hbuffers] at hframe
    exact hframe
  · rw [Device.lookup_switchCommit, hplaces, hseq, hentries.1 (m, l) (by simp)]
    show (s.dev.lookup m.key).map _ = _
    rw [hl, Option.map_some, Entry.switched_eq]
  · rw [Device.lookup_switchCommit, hplaces, hseq, hentries.2 k (by simpa using hk)]
    rfl
  · refine (Device.cell_switchCommit ..).trans ((s.dev.cell_programMark l at_).trans (if_neg fun h => ?_))
    exact hat.elim (fun hs => hs h.1) fun hf => hf h.2
  · refine (Device.cell_switchCommit ..).trans ((s.dev.cell_programMark l l).trans ?_)
    rw [if_pos ⟨rfl, rfl⟩, hcell]
    rfl
  · rw [Device.handle_switchCommit, hms]
    simp only [List.map_cons, List.map_nil, List.mem_singleton]
    rfl
  · rw [Device.port_switchCommit_done hr, hseq]
    rfl
  · rw [Device.port_switchCommit_reset hr, hseq, hms]
    rfl
  · rw [Device.port_switchCommit_other _ _ _ hq, hseq, hms]
    rfl

/-- Settles O49: the members that are not the last item, and the switch of them all at the seal. -/
theorem groupSwitch : Obligations.GroupSwitch := by
  refine ⟨fun s c placed retried l cells hf hsize hp => ?_, ?_⟩
  · have hmore : placed.length + 1 < (itemFrames c.members).length := by
      rw [length_itemFrames hsize]
      omega
    rw [exec_commitMarkDone, Device.markDone_item hf, Device.finishItem, if_pos hmore]
    rfl
  · intro s c placed retried l cells n i written hf hsize hp hg hn hnodup hwritten told
    have hseq : c.sequence.getD 0 = n := by rw [hn]; rfl
    have hzip : c.members.zip (placed ++ [l]) = c.members.zip placed := by
      rw [← List.append_nil c.members, List.zip_append (by rw [hp]), List.zip_nil_left, List.append_nil, List.append_nil]
    have hmembers : (s.dev.programMark l).finishItem (.commit c placed) l =
        ((s.dev.programMark l).setFlight none).finishCommit c (placed ++ [l]) := by
      rw [Device.finishItem]
      refine if_neg ?_
      rw [length_itemFrames hsize]
      omega
    have haccess : ((s.dev.programMark l).setFlight none).accessMember c = written := by
      rcases hwritten with ⟨hnone, rfl⟩ | ⟨m, hm, hk, rfl⟩
      · exact Device.accessMember_none hnone
      · exact Device.accessMember_some hnodup hm hk
    have hgroups : (((s.dev.programMark l).setFlight none).keepGroup c (placed ++ [l])).groups =
        s.dev.groups.set i (.kept n l c.members.length) := by
      have hat : (placed ++ [l])[c.members.length]? = some l := by rw [← hp, List.getElem?_concat_length]
      simp only [Device.keepGroup, hg, hat, hseq]
      rfl
    have hkeys : ((c.members.zip placed).map fun x => x.1.key) = c.members.map (·.key) := by
      have hfst := List.map_fst_zip (l₁ := c.members) (l₂ := placed) (Nat.le_of_eq hp.symm)
      conv_rhs => rw [← hfst, List.map_map]
      rfl
    have hentries := Device.lookup_switchMembers n (xs := c.members.zip placed) (by rw [hkeys]; exact hnodup)
      ((s.dev.programMark l).setFlight none)
    refine ⟨((s.dev.programMark l).setFlight none).switchCommit c (placed ++ [l]), ?_, ?_, fun x hx e hl => ?_,
      fun k hk => ?_, fun h => ?_, fun b => ?_, fun hr => ?_, fun hr => ?_, fun q hq => ?_⟩
    · rw [exec_commitMarkDone, Device.markDone_item hf, hmembers, Device.finishCommit_eq, haccess]
    · have hframe := ((s.dev.programMark l).setFlight none).switchCommit_frame c (placed ++ [l])
      rw [hgroups] at hframe
      exact hframe
    · rw [Device.lookup_switchCommit, hzip, hseq, hentries.1 x hx]
      show (s.dev.lookup x.1.key).map _ = _
      rw [hl, Option.map_some, Entry.switched_eq]
    · rw [Device.lookup_switchCommit, hzip, hseq, hentries.2 k (by rw [hkeys]; exact hk)]
      rfl
    · rw [Device.handle_switchCommit]
      rfl
    · rw [Device.buffer_switchCommit]
      rfl
    · rw [Device.port_switchCommit_done hr, hseq]
      rfl
    · rw [Device.port_switchCommit_reset hr, hseq]
      rfl
    · rw [Device.port_switchCommit_other _ _ _ hq, hseq]
      rfl

end Sys2Proof.Machine
end

section
/-! SUPPORT. Damage found at several keys, and the switch of a damage mark and of a copy: the statement
MarkAndCopySwitch. -/

namespace Sys2Proof.Machine

/-! ## Damage found (R59, R60, R137, R151) -/

/-- An entry whose damage is known: nothing more is told of it. -/
def Entry.known (e : Entry) : Prop := e.state = .damaged ∧ e.markPending = true

/-- The entry after damage is found. -/
def Entry.damagedNow (e : Entry) : Entry := { e with state := .damaged, markPending := true }

theorem Entry.damagedNow_known {e : Entry} (h : e.known) : e.damagedNow = e := by
  obtain ⟨hs, hm⟩ := h
  rw [Entry.damagedNow, ← hs, ← hm]

theorem Device.detectDamage_known {d : Device} {k : Key} {e : Entry} (h : d.lookup k = some e) (hk : e.known) :
    d.detectDamage k = d := by
  unfold Device.detectDamage
  rw [h]
  exact if_pos hk

theorem Device.detectDamage_absent {d : Device} {k : Key} (h : d.lookup k = none) : d.detectDamage k = d := by
  unfold Device.detectDamage
  rw [h]

/-- What changes when damage is found that was not known. -/
theorem Device.detectDamage_fields {d : Device} {k : Key} {e : Entry} (h : d.lookup k = some e) (hk : ¬ e.known) :
    (d.detectDamage k).directory = d.directory.map (Entry.changeAt k Entry.damagedNow) ∧
    (∀ p, (d.detectDamage k).port p = if k ∈ (d.port p).watch then (d.port p).offer (.damaged k) else d.port p) ∧
    (d.detectDamage k).table = (if k = 0x0000#16 then none else d.table) ∧
    (d.detectDamage k).tableInvalid = (if k = 0x0000#16 then false else d.tableInvalid) := by
  have hports : ∀ p, (d.detectDamage k).port p =
      ((d.modEntry k Entry.damagedNow).mapPorts fun _ q => if k ∈ q.watch then q.offer (.damaged k) else q).port p := by
    intro p
    rw [Device.detectDamage_new h hk]
    dsimp only
    split <;> rfl
  refine ⟨?_, fun p => ?_, ?_, ?_⟩
  · rw [Device.detectDamage_new h hk]
    dsimp only
    split <;> rfl
  · rw [hports, Device.port_mapPorts]
    rfl
  · rw [Device.detectDamage_new h hk]
    dsimp only
    split <;> rfl
  · rw [Device.detectDamage_new h hk]
    dsimp only
    split <;> rfl

theorem Device.detectDamage_frame (k : Key) (d : Device) : d.detectDamage k = { d with
    directory := (d.detectDamage k).directory
    ports := (d.detectDamage k).ports
    table := (d.detectDamage k).table
    tableInvalid := (d.detectDamage k).tableInvalid } := by
  unfold Device.detectDamage
  split
  · rfl
  · split
    · rfl
    · dsimp only
      split <;> rfl

theorem Device.lookup_detectDamage_other (d : Device) {j k : Key} (h : j ≠ k) :
    (d.detectDamage k).lookup j = d.lookup j := by
  cases hl : d.lookup k with
  | none => rw [Device.detectDamage_absent hl]
  | some e =>
    by_cases hk : e.known
    · rw [Device.detectDamage_known hl hk]
    · exact (Device.lookup_congr (d.detectDamage_fields hl hk).1 j).trans (Device.lookup_modEntry_other Entry.damagedNow h)

theorem Device.watch_detectDamage (d : Device) (k : Key) (p : PortId) :
    ((d.detectDamage k).port p).watch = (d.port p).watch := by
  cases hl : d.lookup k with
  | none => rw [Device.detectDamage_absent hl]
  | some e =>
    by_cases hk : e.known
    · rw [Device.detectDamage_known hl hk]
    · rw [(d.detectDamage_fields hl hk).2.1]
      split
      · exact Port.offer_watch ..
      · rfl

/-! ## Entries found by their keys -/

theorem Device.lookup_of_mem {d : Device} (hr : d.keysRise) {e : Entry} (he : e ∈ d.directory) : d.lookup e.key = some e :=
  find?_lowest hr he (by simp) fun x _ hx => by
    rw [beq_iff_eq.1 hx]
    exact BitVec.le_refl _

theorem keys_nodup {es : List Entry} (h : es.Pairwise fun x y => x.key < y.key) : (es.map (·.key)).Nodup := by
  rw [List.nodup_iff_pairwise_ne, List.pairwise_map]
  exact h.imp fun hlt heq => by
    rw [heq] at hlt
    exact BitVec.lt_irrefl _ hlt

theorem Device.detectDamage_directory {d : Device} (hr : d.keysRise) (k : Key) :
    (d.detectDamage k).directory = d.directory.map (Entry.changeAt k Entry.damagedNow) := by
  have hsame : (∀ e ∈ d.directory, e.key = k → e.damagedNow = e) →
      d.directory.map (Entry.changeAt k Entry.damagedNow) = d.directory := by
    intro h
    refine (List.map_congr_left fun e he => ?_).trans (List.map_id _)
    by_cases hk : e.key = k
    · rw [Entry.changeAt, if_pos hk, h e he hk]
      rfl
    · exact if_neg hk
  cases hl : d.lookup k with
  | none =>
    rw [Device.detectDamage_absent hl, hsame fun e he hk => ?_]
    rw [← hk, Device.lookup_of_mem hr he] at hl
    cases hl
  | some e =>
    by_cases hk : e.known
    · rw [Device.detectDamage_known hl hk, hsame fun x hx hxk => ?_]
      rw [← hxk, Device.lookup_of_mem hr hx] at hl
      rw [Option.some.inj hl]
      exact Entry.damagedNow_known hk
    · exact (d.detectDamage_fields hl hk).1

/-! ## Damage found at several keys, in order (R124) -/

theorem Entry.changeAt_damagedNow_key (k : Key) (e : Entry) : (e.changeAt k Entry.damagedNow).key = e.key := by
  unfold Entry.changeAt
  split <;> rfl

theorem Device.keysRise_detectDamage {d : Device} (hr : d.keysRise) (k : Key) : (d.detectDamage k).keysRise := by
  unfold Device.keysRise
  rw [Device.detectDamage_directory hr, List.pairwise_map]
  refine List.Pairwise.imp (fun {x y} hxy => ?_) hr
  rw [Entry.changeAt_damagedNow_key, Entry.changeAt_damagedNow_key]
  exact hxy

/-- Damage found at each key of a list, in order. -/
def Device.damageAt (ks : List Key) (d : Device) : Device := ks.foldl (fun d k => d.detectDamage k) d

theorem Device.damageAt_directory (ks : List Key) {d : Device} (hr : d.keysRise) :
    (d.damageAt ks).directory = d.directory.map fun e => if e.key ∈ ks then e.damagedNow else e := by
  induction ks generalizing d with
  | nil => simp [Device.damageAt]
  | cons k rest ih =>
    refine (ih (Device.keysRise_detectDamage hr k)).trans ?_
    rw [Device.detectDamage_directory hr, List.map_map]
    refine List.map_congr_left fun e _ => ?_
    simp only [Function.comp_apply, Entry.changeAt_damagedNow_key, List.mem_cons]
    unfold Entry.changeAt
    by_cases hk : e.key = k
    · rw [if_pos hk, if_pos (Or.inl hk)]
      split <;> rfl
    · simp [hk]

/-- What is known of the entries that are left. -/
def Device.stand (es : List Entry) (d : Device) : Prop := (es.map (·.key)).Nodup ∧ ∀ e ∈ es, d.lookup e.key = some e

theorem Device.stand_step {e : Entry} {rest : List Entry} {d : Device} (h : Device.stand (e :: rest) d) :
    Device.stand rest (d.detectDamage e.key) := by
  obtain ⟨hn, hl⟩ := h
  obtain ⟨hout, hrest⟩ := List.nodup_cons.1 hn
  refine ⟨hrest, fun x hx => ?_⟩
  have hne : x.key ≠ e.key := fun hk => hout (List.mem_map.2 ⟨x, hx, hk⟩)
  rw [d.lookup_detectDamage_other hne, hl x (List.mem_cons_of_mem e hx)]

/-- Whether a port is told of an entry's damage. -/
def Entry.newsFor (q : Port) (e : Entry) : Prop := ¬ e.known ∧ e.key ∈ q.watch

theorem Device.port_damageAt {es : List Entry} {d : Device} (h : Device.stand es d) (p : PortId) (test : Entry → Bool)
    (ht : ∀ e, test e = true ↔ e.newsFor (d.port p)) : (d.damageAt (es.map (·.key))).port p =
      (es.filter test).foldl (fun q e => q.offer (.damaged e.key)) (d.port p) := by
  induction es generalizing d with
  | nil => rfl
  | cons e rest ih =>
    have hwatch := d.watch_detectDamage e.key p
    have hrest := ih (Device.stand_step h) fun x => (ht x).trans (by simp only [Entry.newsFor, hwatch])
    refine hrest.trans ?_
    have he := h.2 e List.mem_cons_self
    by_cases hk : e.known
    · rw [Device.detectDamage_known he hk, List.filter_cons_of_neg fun hx => ((ht e).1 hx).1 hk]
    · rw [(d.detectDamage_fields he hk).2.1]
      by_cases hw : e.key ∈ (d.port p).watch
      · rw [if_pos hw, List.filter_cons_of_pos ((ht e).2 ⟨hk, hw⟩), List.foldl_cons]
      · rw [if_neg hw, List.filter_cons_of_neg fun hx => hw ((ht e).1 hx).2]

/-- The access table after damage at several keys. -/
theorem Device.table_damageAt {es : List Entry} {d : Device} (h : Device.stand es d) :
    ((∃ e ∈ es, e.key = 0x0000#16 ∧ ¬ e.known) → (d.damageAt (es.map (·.key))).table = none ∧
      (d.damageAt (es.map (·.key))).tableInvalid = false) ∧
    ((∀ e ∈ es, ¬ (e.key = 0x0000#16 ∧ ¬ e.known)) → (d.damageAt (es.map (·.key))).table = d.table ∧
      (d.damageAt (es.map (·.key))).tableInvalid = d.tableInvalid) := by
  have hfold := foldl_touches (step := fun d (e : Entry) => d.detectDamage e.key)
    (fun d (_ : Unit) => (d.table, d.tableInvalid)) (fun _ => (none, false))
    (fun e _ => e.key = 0x0000#16 ∧ ¬ e.known) Device.stand (fun _ => rfl) (fun _ _ _ h => Device.stand_step h)
    (fun e rest d _ h => ?_) es d h ()
  · rw [Device.damageAt, List.foldl_map]
    exact ⟨fun hany => Prod.mk.inj (hfold.1 hany), fun hno => Prod.mk.inj (hfold.2 hno)⟩
  · have he := h.2 e List.mem_cons_self
    by_cases hk : e.known
    · rw [Device.detectDamage_known he hk]
      exact ⟨fun hx => absurd hk hx.2, fun _ => rfl⟩
    · obtain ⟨_, _, htable, hinvalid⟩ := d.detectDamage_fields he hk
      rw [htable, hinvalid]
      refine ⟨fun hx => ?_, fun hx => ?_⟩
      · rw [if_pos hx.1, if_pos hx.1]
      · have hne : e.key ≠ 0x0000#16 := fun hkey => hx ⟨hkey, hk⟩
        rw [if_neg hne, if_neg hne]

theorem Device.damageAt_frame (ks : List Key) (d : Device) : d.damageAt ks = { d with
    directory := (d.damageAt ks).directory
    ports := (d.damageAt ks).ports
    table := (d.damageAt ks).table
    tableInvalid := (d.damageAt ks).tableInvalid } := by
  induction ks generalizing d with
  | nil => rfl
  | cons k rest ih =>
    have hstep := d.detectDamage_frame k
    have hrest := ih (d.detectDamage k)
    have hsame : d.damageAt (k :: rest) = (d.detectDamage k).damageAt rest := rfl
    rw [hsame]
    generalize (d.detectDamage k).damageAt rest = t at hrest ⊢
    rw [hrest, hstep]

/-! ## The copy's switch (R53, R123, R124) -/

theorem Device.logCopied_frame (c : Copy) (d : Device) : d.logCopied c =
    { d with reclaim := { d.reclaim with log := (d.logCopied c).reclaim.log } } := by
  unfold Device.logCopied
  split <;> rfl

/-- What the switch of a copy changes. -/
theorem Device.copySwitch_frame (c : Copy) (l : Loc) (d : Device) : d.copySwitch c l = { d.passOriginal c with
    directory := (d.copySwitch c l).directory
    ports := (d.copySwitch c l).ports
    groups := (d.copySwitch c l).groups
    table := (d.copySwitch c l).table
    tableInvalid := (d.copySwitch c l).tableInvalid
    reclaim := { (d.passOriginal c).reclaim with log := (d.copySwitch c l).reclaim.log } } := by
  unfold Device.copySwitch
  dsimp only
  generalize d.passOriginal c = e
  cases c.target with
  | entry k =>
    dsimp only
    split
    · rw [Device.logCopied_frame]
      rfl
    · rw [Device.detectDamage_frame]
      rfl
  | groupSeal i =>
    dsimp only
    split
    · split
      · rfl
      · rw [show ∀ s d, Device.damageGroup s d = d.damageAt ((d.directory.filter fun e => e.sequence == some s).map (·.key))
          from fun _ _ => rfl, Device.damageAt_frame]
        rfl
    all_goals rfl

theorem inRangeFirst_first (f : First) (frame : Nat) : inRangeFirst (.first f) frame =
    if f.header.length ≤ 496 ∧ (f.header.key ≠ 0xFFFF#16 ∨ f.header.kind = .groupSeal) ∧
      frame + versionFrames f.header.length ≤ 128 then some f else none := by
  have hrange : headerInRange f.header frame = true ↔ f.header.length ≤ 496 ∧
      (f.header.key ≠ 0xFFFF#16 ∨ f.header.kind = .groupSeal) ∧ frame + versionFrames f.header.length ≤ 128 := by
    simp [headerInRange, and_assoc, Config.maxLength, Config.lastFrame]
  show (some f).filter (fun f => headerInRange f.header frame) = _
  rw [Option.filter_some]
  simp only [hrange]

/-- The log after the switch of a copy with a good check of a key's version. -/
theorem Device.log_logCopied {c : Copy} {f : First} (d : Device) (h : c.cells.head? = some (.first f)) :
    (d.logCopied c).reclaim.log = d.reclaim.log ++
      if f.header.length ≤ 496 ∧ (f.header.key ≠ 0xFFFF#16 ∨ f.header.kind = .groupSeal) ∧
        c.source.frame + versionFrames f.header.length ≤ 128 then
        [{ location := c.source, key := f.header.key, sequence := f.header.sequence, group := f.header.group
           tombstone := false }]
      else [] := by
  unfold Device.logCopied
  rw [h, Option.getD_some, inRangeFirst_first]
  split
  · next x hx =>
    split at hx
    · next hin =>
      obtain rfl := Option.some.inj hx
      rw [if_pos hin]
      rfl
    · contradiction
  · next hx =>
    split at hx
    · contradiction
    · next hout => rw [if_neg hout, List.append_nil]

/-- The copy of a key's version, its location moved. -/
def Device.moveEntry (k : Key) (c : Copy) (l : Loc) (d : Device) : Device :=
  (d.passOriginal c).modEntry k fun e => { e with location := some l }

/-- The copy of a KEPT group's seal, its location moved. -/
def Device.moveSeal (i : Nat) (g : GroupEntry) (c : Copy) (d : Device) : Device := (d.passOriginal c).setGroup i g

theorem Device.moveSeal_fields (i : Nat) (g : GroupEntry) (c : Copy) (d : Device) :
    (d.moveSeal i g c).directory = d.directory ∧ (∀ p, (d.moveSeal i g c).port p = d.port p) ∧
      (d.moveSeal i g c).table = d.table ∧ (d.moveSeal i g c).tableInvalid = d.tableInvalid :=
  ⟨rfl, fun _ => rfl, rfl, rfl⟩

theorem Device.copySwitch_entry {c : Copy} {k : Key} (l : Loc) (d : Device) (h : c.target = .entry k) :
    d.copySwitch c l = if c.checkGood then (d.moveEntry k c l).logCopied c else (d.moveEntry k c l).detectDamage k := by
  simp only [Device.copySwitch, h]
  rfl

theorem Device.copySwitch_seal {c : Copy} {i n g : Nat} {at_ : Loc} (l : Loc) (d : Device) (h : c.target = .groupSeal i)
    (hg : d.groups[i]? = some (.kept g at_ n)) : d.copySwitch c l =
      if c.checkGood then d.moveSeal i (.kept g l n) c
      else (d.moveSeal i (.kept g l n) c).damageAt
        ((d.directory.filter fun e => e.sequence == some g).map (·.key)) := by
  have hpassed : (d.passOriginal c).groups[i]? = some (.kept g at_ n) := hg
  simp only [Device.copySwitch, h, hpassed]
  rfl

theorem Device.log_copySwitch_seal {c : Copy} {i : Nat} (l : Loc) (d : Device) (h : c.target = .groupSeal i) :
    (d.copySwitch c l).reclaim.log = d.reclaim.log := by
  cases hg : d.groups[i]? with
  | none =>
    have hpassed : (d.passOriginal c).groups[i]? = none := hg
    simp only [Device.copySwitch, h, hpassed]
    rfl
  | some x =>
    cases x with
    | kept g at_ n =>
      rw [Device.copySwitch_seal l d h hg]
      split
      · rfl
      · rw [Device.damageAt_frame]
        rfl
    | free | reserved =>
      have hpassed : (d.passOriginal c).groups[i]? = _ := hg
      simp only [Device.copySwitch, h, hpassed]
      rfl

/-- The switch of a copy of a key's version. -/
theorem Device.copySwitch_entry_effect {c : Copy} {k : Key} {e : Entry} (l : Loc) (d : Device) (ht : c.target = .entry k)
    (hl : d.lookup k = some e) :
    (d.copySwitch c l).groups = d.groups ∧ (∀ j, j ≠ k → (d.copySwitch c l).lookup j = d.lookup j) ∧
    (c.checkGood = true ∨ e.known → (d.copySwitch c l).lookup k = some { e with key := k, location := some l } ∧
      (d.copySwitch c l).ports = d.ports ∧ (d.copySwitch c l).table = d.table ∧
      (d.copySwitch c l).tableInvalid = d.tableInvalid) ∧
    (¬ (c.checkGood = true ∨ e.known) →
      (d.copySwitch c l).lookup k = some { e with key := k, location := some l, state := .damaged, markPending := true } ∧
      (∀ p, (d.copySwitch c l).port p = if k ∈ (d.port p).watch then (d.port p).offer (.damaged k) else d.port p) ∧
      (d.copySwitch c l).table = (if k = 0x0000#16 then none else d.table) ∧
      (d.copySwitch c l).tableInvalid = (if k = 0x0000#16 then false else d.tableInvalid)) := by
  have hmoved : (d.moveEntry k c l).lookup k = some { e with key := k, location := some l } :=
    Device.lookup_modEntry_same (d := d.passOriginal c) _ hl
  have hother : ∀ j, j ≠ k → (d.moveEntry k c l).lookup j = d.lookup j :=
    fun j hj => Device.lookup_modEntry_other (d := d.passOriginal c) _ hj
  have hports : (d.moveEntry k c l).ports = d.ports := rfl
  have htable : (d.moveEntry k c l).table = d.table := rfl
  have hinvalid : (d.moveEntry k c l).tableInvalid = d.tableInvalid := rfl
  have hgroups : (d.moveEntry k c l).groups = d.groups := rfl
  rw [Device.copySwitch_entry l _ ht]
  generalize d.moveEntry k c l = moved at hmoved hother hports htable hinvalid hgroups ⊢
  cases hg : c.checkGood with
  | true =>
    rw [if_pos rfl, Device.logCopied_frame]
    exact ⟨hgroups, hother, fun _ => ⟨hmoved, hports, htable, hinvalid⟩, fun hno => absurd (.inl rfl) hno⟩
  | false =>
    rw [if_neg Bool.false_ne_true]
    by_cases hk : e.known
    · rw [Device.detectDamage_known hmoved hk]
      exact ⟨hgroups, hother, fun _ => ⟨hmoved, hports, htable, hinvalid⟩, fun hno => absurd (.inr hk) hno⟩
    · obtain ⟨hdirectory, htold, hnone, hvalid⟩ := Device.detectDamage_fields hmoved hk
      have hbefore : ∀ p, moved.port p = d.port p := fun p => congrArg (fun x : PerPort Port => x.get p) hports
      rw [htable] at hnone
      rw [hinvalid] at hvalid
      simp only [hbefore] at htold
      refine ⟨by rw [Device.detectDamage_frame]; exact hgroups, fun j hj => ?_, fun hseen => ?_, fun _ =>
        ⟨?_, htold, hnone, hvalid⟩⟩
      · rw [Device.lookup_detectDamage_other _ hj, hother j hj]
      · exact hseen.elim (fun hyes => absurd hyes Bool.false_ne_true) fun hyes => absurd hyes hk
      · exact (Device.lookup_congr hdirectory k).trans (Device.lookup_modEntry_same Entry.damagedNow hmoved)

/-- The switch of a copy with a good check of a KEPT group's seal. -/
theorem Device.copySwitch_seal_good {c : Copy} {i n g : Nat} {at_ : Loc} (l : Loc) (d : Device)
    (ht : c.target = .groupSeal i)
    (hgroup : d.groups[i]? = some (.kept g at_ n)) (hg : c.checkGood = true) :
    (d.copySwitch c l).directory = d.directory ∧ (d.copySwitch c l).ports = d.ports ∧
      (d.copySwitch c l).table = d.table ∧ (d.copySwitch c l).tableInvalid = d.tableInvalid := by
  rw [Device.copySwitch_seal l d ht hgroup, if_pos hg]
  exact ⟨rfl, rfl, rfl, rfl⟩

theorem Device.groups_copySwitch_seal {c : Copy} {i n g : Nat} {at_ : Loc} (l : Loc) (d : Device)
    (ht : c.target = .groupSeal i) (hgroup : d.groups[i]? = some (.kept g at_ n)) :
    (d.copySwitch c l).groups = d.groups.set i (.kept g l n) := by
  rw [Device.copySwitch_seal l d ht hgroup]
  split
  · rfl
  · rw [Device.damageAt_frame]
    rfl

/-- The entries of a group, whose damage is found when its seal fails its check. -/
def Device.entriesOf (g : Nat) (d : Device) : List Entry := d.directory.filter fun e => e.sequence == some g

theorem Device.mem_entriesOf {d : Device} {g : Nat} {e : Entry} :
    e ∈ d.entriesOf g ↔ e ∈ d.directory ∧ e.sequence = some g := by
  rw [Device.entriesOf, List.mem_filter, beq_iff_eq]

/-- Damage found at every entry of a group. -/
theorem Device.damageAt_entriesOf (g : Nat) {d : Device} (hr : d.keysRise) :
    (d.damageAt ((d.entriesOf g).map (·.key))).directory = d.directory.map (fun e =>
      if e.sequence = some g then { e with state := .damaged, markPending := true } else e) ∧
    (∀ p, (d.damageAt ((d.entriesOf g).map (·.key))).port p = (d.directory.filter fun e => decide (e.sequence = some g ∧
        ¬ (e.state = .damaged ∧ e.markPending = true) ∧ e.key ∈ (d.port p).watch)).foldl
      (fun q e => q.offer (.damaged e.key)) (d.port p)) ∧
    ((∀ e ∈ d.directory, e.key = 0x0000#16 → e.sequence = some g → e.state = .damaged ∧ e.markPending = true) →
      (d.damageAt ((d.entriesOf g).map (·.key))).table = d.table ∧
      (d.damageAt ((d.entriesOf g).map (·.key))).tableInvalid = d.tableInvalid) ∧
    ((∃ e ∈ d.directory, e.key = 0x0000#16 ∧ e.sequence = some g ∧ ¬ (e.state = .damaged ∧ e.markPending = true)) →
      (d.damageAt ((d.entriesOf g).map (·.key))).table = none ∧
      (d.damageAt ((d.entriesOf g).map (·.key))).tableInvalid = false) := by
  have hstand : Device.stand (d.entriesOf g) d :=
    ⟨keys_nodup (hr.filter _), fun e he => Device.lookup_of_mem hr (Device.mem_entriesOf.1 he).1⟩
  obtain ⟨hnone, hkept⟩ := Device.table_damageAt hstand
  refine ⟨?_, fun p => ?_, fun hknown => hkept fun e he hx => ?_, fun ⟨e, he, hk, hs, hx⟩ =>
    hnone ⟨e, Device.mem_entriesOf.2 ⟨he, hs⟩, hk, hx⟩⟩
  · rw [Device.damageAt_directory _ hr]
    refine List.map_congr_left fun e he => if_congr ?_ rfl rfl
    rw [List.mem_map]
    refine ⟨fun ⟨x, hx, hxk⟩ => ?_, fun hs => ⟨e, Device.mem_entriesOf.2 ⟨he, hs⟩, rfl⟩⟩
    obtain ⟨hxin, hxs⟩ := Device.mem_entriesOf.1 hx
    have hsame := Device.lookup_of_mem hr hxin
    rw [hxk, Device.lookup_of_mem hr he] at hsame
    rw [Option.some.inj hsame]
    exact hxs
  · rw [Device.port_damageAt hstand p (fun e => decide (¬ (e.state = .damaged ∧ e.markPending = true) ∧
      e.key ∈ (d.port p).watch)) fun e => by rw [decide_eq_true_eq]; rfl, Device.entriesOf, List.filter_filter]
    refine congrArg (List.foldl _ _) (List.filter_congr fun e _ => ?_)
    rw [Bool.eq_iff_iff, Bool.and_eq_true, decide_eq_true_eq, decide_eq_true_eq, beq_iff_eq]
    exact ⟨fun ⟨⟨hnew, hw⟩, hs⟩ => ⟨hs, hnew, hw⟩, fun ⟨hs, hnew, hw⟩ => ⟨⟨hnew, hw⟩, hs⟩⟩
  · obtain ⟨hin, hs⟩ := Device.mem_entriesOf.1 he
    exact hx.2 (hknown e hin hx.1 hs)

theorem Device.copySwitch_seal_bad {c : Copy} {i n g : Nat} {at_ : Loc} (l : Loc) (d : Device)
    (ht : c.target = .groupSeal i)
    (hgroup : d.groups[i]? = some (.kept g at_ n)) (hg : c.checkGood = false) : d.copySwitch c l =
      (d.moveSeal i (.kept g l n) c).damageAt (((d.moveSeal i (.kept g l n) c).entriesOf g).map (·.key)) := by
  rw [Device.copySwitch_seal l d ht hgroup, if_neg (by rw [hg]; decide)]
  rfl

/-- Settles O50: the mark, and the copy by its target and its check. -/
theorem markAndCopySwitch : Obligations.MarkAndCopySwitch := by
  intro s retried l cells
  refine ⟨fun n k e hl hf => ?_, fun c hf => ?_⟩
  · refine ⟨((s.dev.programMark l).setFlight none).switchMark k n l, ?_, ?_, ?_, fun j hj => ?_, fun p => ?_⟩
    · rw [exec_commitMarkDone, Device.markDone_item hf]
      rfl
    · rfl
    · exact Device.lookup_modEntry_same (d := (s.dev.programMark l).setFlight none) _ hl
    · exact Device.lookup_modEntry_other (d := (s.dev.programMark l).setFlight none) _ hj
    · unfold Device.switchMark
      rw [Device.offerWatchers_eq, Device.port_mapPorts]
      rfl
  · intro passed inRange
    have hlookup : ∀ j, ((s.dev.programMark l).setFlight none).lookup j = s.dev.lookup j := fun _ => rfl
    have hport : ∀ p, ((s.dev.programMark l).setFlight none).port p = s.dev.port p := fun _ => rfl
    have hports : ((s.dev.programMark l).setFlight none).ports = s.dev.ports := rfl
    have htable : ((s.dev.programMark l).setFlight none).table = s.dev.table := rfl
    have hinvalid : ((s.dev.programMark l).setFlight none).tableInvalid = s.dev.tableInvalid := rfl
    have hgroups : ((s.dev.programMark l).setFlight none).groups = s.dev.groups := rfl
    have hdirectory : ((s.dev.programMark l).setFlight none).directory = s.dev.directory := rfl
    refine ⟨((s.dev.programMark l).setFlight none).copySwitch c l, ?_,
      ((s.dev.programMark l).setFlight none).copySwitch_frame c l, fun k f ht hc => ?_, fun k ht hg => ?_,
      fun i ht => Device.log_copySwitch_seal l _ ht, fun k e ht hl => ?_, fun i n at_ g ht hgroup => ?_⟩
    · rw [exec_commitMarkDone, Device.markDone_item hf]
      rfl
    · rw [Device.copySwitch_entry l _ ht]
      cases hg : c.checkGood with
      | true =>
        rw [if_pos rfl, Device.log_logCopied _ hc]
        simp only [true_and]
        rfl
      | false =>
        rw [if_neg Bool.false_ne_true, Device.detectDamage_frame]
        simp only [Bool.false_eq_true, false_and, if_false, List.append_nil]
        rfl
    · rw [Device.copySwitch_entry l _ ht, hg, if_neg Bool.false_ne_true, Device.detectDamage_frame]
      rfl
    · have heffect := Device.copySwitch_entry_effect l ((s.dev.programMark l).setFlight none) ht ((hlookup k).trans hl)
      simp only [hlookup, hport, hports, htable, hinvalid, hgroups] at heffect
      exact heffect
    · have hset := Device.groups_copySwitch_seal l ((s.dev.programMark l).setFlight none) ht hgroup
      have hgood := Device.copySwitch_seal_good l ((s.dev.programMark l).setFlight none) ht hgroup
      have hbad := Device.copySwitch_seal_bad l ((s.dev.programMark l).setFlight none) ht hgroup
      simp only [hgroups] at hset
      simp only [hdirectory, hports, htable, hinvalid] at hgood
      refine ⟨hset, hgood, fun hg hr => ?_⟩
      have hentries := Device.damageAt_entriesOf g
        (d := ((s.dev.programMark l).setFlight none).moveSeal i (.kept g l n) c) hr
      rw [← hbad hg] at hentries
      simp only [Device.moveSeal_fields, hdirectory, hport, htable, hinvalid] at hentries
      exact hentries

end Sys2Proof.Machine
end

section
/-! SUPPORT. Mount's own erase, and the abandonment of a victim: the statements MountEraseGivesTheAssignedCount and
AbandonedVictimStandsAgain. -/

namespace Sys2Proof.Machine

/-! ## The end of mount's own erase (R169) -/

theorem exec_mountEraseDone (r : EraseResult) (s : State) :
    exec (.mountEraseDone r) s = .next ⟨s.pending, s.dev.mountErased r⟩ := rfl

theorem Device.mountErased_good {d : Device} {i : Nat} {w : MountWork} (h : d.mount = .erasing i w) : d.mountErased .good =
    (((d.eraseImage i (((d.segments[i]?).map (·.eraseCount)).getD 0) .good).fill w.tables).eraseRecord i
      (((d.segments[i]?).map (·.eraseCount)).getD 0)).mountEnd { w with unclean := w.unclean.filter fun j => j != i } := by
  simp only [Device.mountErased, h]
  rfl

theorem Device.mountErased_bad {d : Device} {i : Nat} {w : MountWork} (e m : MarkRead) (h : d.mount = .erasing i w) :
    d.mountErased (.bad e m) =
      (((d.eraseImage i (((d.segments[i]?).map (·.eraseCount)).getD 0) (.bad e m)).fill w.tables).retireRecord i).mountEnd
        { w with unclean := w.unclean.filter fun j => j != i } := by
  simp only [Device.mountErased, h]
  rfl

/-- Settles O18: the segment's record and image by the verify. -/
theorem mountEraseGivesTheAssignedCount : Obligations.MountEraseGivesTheAssignedCount := by
  intro s i w r im hm hr him header ends
  have hcount : ((s.dev.segments[i]?).map (·.eraseCount)).getD 0 = r.eraseCount := by rw [hr]; rfl
  refine ⟨?_, fun erased retired => ?_⟩
  · refine (exec_mountEraseDone .good s).trans ?_
    rw [Device.mountErased_good hm, hcount, Device.eraseImage, Device.eraseRecord, Device.modSegment, modify_at _ him]
    show Host.Outcome.next (State.mk s.pending (Device.mountEnd _ { s.dev with
      directory := _, segments := s.dev.segments.modify i _, seqCounter := _, segCounter := _, array := _ })) = _
    rw [modify_at _ hr]
    rfl
  · refine (exec_mountEraseDone _ s).trans ?_
    have himage := Device.retireRecord_image (d := s.dev.fill w.tables) (i := i) (r := r) (im := im) (fun im =>
      { header := erasedHeader r.eraseCount erased retired
        frames := if erased = .whole then List.replicate Config.lastFrame .blank else im.frames }) s.dev.heldSlots hr him
    rw [Device.mountErased_bad erased retired hm, hcount]
    exact congrArg (fun d : Device => Host.Outcome.next (State.mk s.pending
      (d.mountEnd { w with unclean := w.unclean.filter fun j => j != i }))) himage

/-! ## The abandonment of a victim (R55, R127, R128) -/

theorem countPassed_eq (log : List Passed) (k : Key) (l : Option Loc) :
    countPassed log k l = (log.filter fun x => decide (x.key = k ∧ some x.location ≠ l)).length := by
  refine congrArg List.length (List.filter_congr fun x _ => ?_)
  rw [Bool.eq_iff_iff]
  simp

/-- The entry given back in place of a tombstone that the walk dropped. -/
def Passed.entry (log : List Passed) (x : Passed) : Entry :=
  { key := x.key, state := .gone, location := some x.location, length := 0, sequence := some x.sequence
    residue := countPassed log x.key (some x.location), claim := none, pins := 0, markPending := false }

/-- Whether a logged version asks for an entry: a tombstone of whose key another version was counted out. -/
def Passed.asks (log : List Passed) (x : Passed) : Bool :=
  x.tombstone && decide (0 < countPassed log x.key (some x.location))

theorem Device.giveBack_adds {v : Nat} {log : List Passed} {d : Device} {x : Passed} (hx : x.asks log = true)
    (hl : d.lookup x.key = none) :
    d.giveBack v log x = { d with heldSlots := d.heldSlots.erase v }.addEntry (x.entry log) := by
  rw [Passed.asks, Bool.and_eq_true] at hx
  unfold Device.giveBack
  dsimp only
  rw [hl, hx.1, hx.2]
  rfl

theorem Device.giveBack_keeps {v : Nat} {log : List Passed} {d : Device} {x : Passed}
    (h : x.asks log = false ∨ d.lookup x.key ≠ none) : d.giveBack v log x = d := by
  unfold Device.giveBack
  refine if_neg fun hc => ?_
  rw [Bool.and_eq_true, Bool.and_eq_true, Option.isNone_iff_eq_none] at hc
  obtain ⟨⟨htomb, hnone⟩, hothers⟩ := hc
  rcases h with h | h
  · rw [Passed.asks, htomb, hothers] at h
    contradiction
  · exact h hnone

/-- What the entries given back change: the directory grows, in place of held slots of the victim. -/
structure GivenBack (v : Nat) (d t : Device) : Prop where
  frame : t = { d with directory := t.directory, heldSlots := t.heldSlots }
  grows : d.directory.length ≤ t.directory.length
  slots : t.heldSlots.count v = d.heldSlots.count v - (t.directory.length - d.directory.length)
  others : ∀ j, j ≠ v → t.heldSlots.count j = d.heldSlots.count j

theorem length_insertEntry (e : Entry) (es : List Entry) : (insertEntry e es).length = es.length + 1 := by
  induction es with
  | nil => rfl
  | cons x rest ih =>
    unfold insertEntry
    split
    · rfl
    · rw [List.length_cons, ih, List.length_cons]

theorem Device.giveBack_given (v : Nat) (log : List Passed) (d : Device) (x : Passed) :
    GivenBack v d (d.giveBack v log x) := by
  by_cases h : x.asks log = false ∨ d.lookup x.key ≠ none
  · rw [Device.giveBack_keeps h]
    exact ⟨rfl, Nat.le_refl _, by simp, fun _ _ => rfl⟩
  · obtain ⟨hx, hl⟩ := not_or.1 h
    rw [Device.giveBack_adds (by simpa using hx) (not_not.1 hl)]
    have hsize : (insertEntry (x.entry log) d.directory).length = d.directory.length + 1 := length_insertEntry ..
    refine ⟨rfl, ?_, ?_, fun j hj => List.count_erase_of_ne hj⟩
    · show d.directory.length ≤ (insertEntry (x.entry log) d.directory).length
      omega
    · show (d.heldSlots.erase v).count v = _ - ((insertEntry (x.entry log) d.directory).length - _)
      rw [List.count_erase_self, hsize, Nat.add_sub_cancel_left]

theorem GivenBack.trans {v : Nat} {d e t : Device} (h : GivenBack v d e) (g : GivenBack v e t) : GivenBack v d t := by
  refine ⟨?_, Nat.le_trans h.grows g.grows, ?_, fun j hj => (g.others j hj).trans (h.others j hj)⟩
  · have hframe := g.frame
    rw [h.frame] at hframe
    exact hframe
  · rw [g.slots, h.slots]
    have h1 := h.grows
    have h2 := g.grows
    omega

theorem Device.giveBacks_given (v : Nat) (log xs : List Passed) (d : Device) :
    GivenBack v d (xs.foldl (Device.giveBack v log) d) := by
  induction xs generalizing d with
  | nil => exact ⟨rfl, Nat.le_refl _, by simp, fun _ _ => rfl⟩
  | cons x rest ih => exact (d.giveBack_given v log x).trans (ih _)

/-- An entry put in leaves the other keys' entries. -/
theorem Device.lookup_addEntry_other {d : Device} {e : Entry} {k : Key} (h : k ≠ e.key) :
    (d.addEntry e).lookup k = d.lookup k := by
  show (insertEntry e d.directory).find? _ = d.directory.find? _
  have hne : ¬ (e.key == k) = true := by simpa using Ne.symm h
  generalize d.directory = es
  induction es with
  | nil => exact List.find?_cons_of_neg hne
  | cons a l ih =>
    unfold insertEntry
    split
    · exact List.find?_cons_of_neg hne
    · rw [List.find?_cons, List.find?_cons, ih]

/-- The entries after all that is given back: those before, and for a key without one the first that asks. -/
theorem Device.lookup_giveBacks (v : Nat) (log xs : List Passed) (d : Device) (k : Key) :
    (xs.foldl (Device.giveBack v log) d).lookup k = (d.lookup k).or
      ((xs.find? fun x => decide (x.key = k) && x.asks log).map (Passed.entry log)) := by
  induction xs generalizing d with
  | nil => simp
  | cons x rest ih =>
    rw [List.foldl_cons, ih, List.find?_cons]
    by_cases h : x.asks log = false ∨ d.lookup x.key ≠ none
    · rw [Device.giveBack_keeps h]
      by_cases hk : x.key = k
      · rcases h with h | h
        · rw [h, Bool.and_false]
        · obtain ⟨e, he⟩ := Option.ne_none_iff_exists'.1 h
          rw [← hk, he]
          rfl
      · rw [decide_eq_false hk, Bool.false_and]
    · obtain ⟨hx, hl⟩ := not_or.1 h
      rw [Bool.not_eq_false] at hx
      rw [Device.giveBack_adds hx (not_not.1 hl)]
      by_cases hk : x.key = k
      · subst hk
        have hin : (Device.addEntry (x.entry log) { d with heldSlots := d.heldSlots.erase v }).lookup x.key = _ :=
          Device.lookup_addEntry (e := x.entry log) (not_not.1 hl)
        rw [hin, not_not.1 hl, decide_eq_true rfl, hx]
        rfl
      · rw [Device.lookup_addEntry_other (e := x.entry log) (Ne.symm hk), decide_eq_false hk, Bool.false_and]
        rfl

/-- A search by a test that agrees on the list. -/
theorem find?_congr_mem {α : Type} {xs : List α} {p q : α → Bool} (h : ∀ x ∈ xs, p x = q x) : xs.find? p = xs.find? q := by
  induction xs with
  | nil => rfl
  | cons x rest ih =>
    rw [List.find?_cons, List.find?_cons, h x List.mem_cons_self, ih fun y hy => h y (List.mem_cons_of_mem x hy)]

/-- The residue of every entry, restored. -/
theorem lookup_restored (log : List Passed) (d : Device) (k : Key) :
    (d.directory.map (Entry.restored log)).find? (fun e => e.key == k) = (d.lookup k).map (Entry.restored log) := by
  rw [List.find?_map]
  rfl

theorem GroupEntry.restored_eq (log : List Passed) : GroupEntry.restored log = fun g => match g with
    | .kept s l n => .kept s l (n + (log.filter fun x => decide (x.group = s)).length)
    | x => x := by
  funext g
  cases g with
  | kept s l n => rfl
  | free | reserved => rfl

theorem Device.abandonVictim_victim {d : Device} {v : Nat} (h : d.reclaim.victim = some v) : d.abandonVictim =
    (d.reclaim.log.foldl (Device.giveBack v d.reclaim.log) { d with
      directory := d.directory.map (Entry.restored d.reclaim.log)
      groups := d.groups.map (GroupEntry.restored d.reclaim.log)
      reclaim := Reclaim.cleared }).modSegment v fun r => { r with state := .sealed } := by
  simp only [Device.abandonVictim, h]

/-- Settles O11: the counts given back, and the entries of dropped tombstones. -/
theorem abandonedVictimStandsAgain : Obligations.AbandonedVictimStandsAgain := by
  intro d v hv log elsewhere t
  have helsewhere : ∀ k l, countPassed log k l = elsewhere k l := countPassed_eq log
  let r : Device := { d with
    directory := d.directory.map (Entry.restored log)
    groups := d.groups.map (GroupEntry.restored log)
    reclaim := Reclaim.cleared }
  have ht : t = (log.foldl (Device.giveBack v log) r).modSegment v fun r => { r with state := .sealed } :=
    Device.abandonVictim_victim hv
  obtain ⟨hframe, hgrows, hslots, hothers⟩ := Device.giveBacks_given v log log r
  have hlookup : ∀ k, t.lookup k = ((d.lookup k).map (Entry.restored log)).or
      ((log.find? fun x => decide (x.key = k) && x.asks log).map (Passed.entry log)) := by
    intro k
    rw [ht, ← lookup_restored]
    exact Device.lookup_giveBacks v log log r k
  have hsize : r.directory.length = d.directory.length := List.length_map _
  rw [hsize] at hgrows hslots
  refine ⟨?_, fun k e hl => ?_, fun k hl => ?_, ?_, ?_, fun j hj => ?_⟩
  · rw [ht]
    generalize log.foldl (Device.giveBack v log) r = f at hframe
    rw [hframe]
    exact congrArg (fun g => ({ d with
      directory := f.directory
      heldSlots := f.heldSlots
      segments := d.segments.modify v fun r => { r with state := .sealed }
      groups := d.groups.map g
      reclaim := Reclaim.cleared } : Device)) (GroupEntry.restored_eq log)
  · rw [hlookup, hl, ← helsewhere]
    have hk := Device.lookup_key hl
    rw [← hk]
    rfl
  · have hasks : ∀ x ∈ log, (decide (x.key = k) && x.asks log) =
        (x.tombstone && decide (x.key = k ∧ 0 < elsewhere k (some x.location))) := by
      intro x _
      rw [Bool.eq_iff_iff, Passed.asks, Bool.and_eq_true, Bool.and_eq_true, Bool.and_eq_true, decide_eq_true_eq,
        decide_eq_true_eq, decide_eq_true_eq, helsewhere]
      exact ⟨fun ⟨hk, htomb, hmore⟩ => ⟨htomb, hk, hk ▸ hmore⟩, fun ⟨htomb, hk, hmore⟩ => ⟨hk, htomb, hk.symm ▸ hmore⟩⟩
    rw [hlookup, hl, find?_congr_mem hasks]
    show Option.map (Passed.entry log) _ = _
    cases hf : log.find? fun x => x.tombstone && decide (x.key = k ∧ 0 < elsewhere k (some x.location)) with
    | none => rfl
    | some x =>
      have hk : x.key = k := by
        have htest := List.find?_some hf
        simp only [Bool.and_eq_true, decide_eq_true_eq] at htest
        exact htest.2.1
      rw [Option.map_some, Option.map_some, Passed.entry, helsewhere, hk]
  · rw [ht]
    exact hgrows
  · rw [ht]
    exact hslots
  · rw [ht]
    exact hothers j hj

end Sys2Proof.Machine
end

section
/-! SUPPORT. Highest and lowest of some numbers, the classes of segments, and mount at the end of the scan: the statement
MountScanEndsMount. -/

namespace Sys2Proof.Machine

/-! ## The highest of some numbers -/

theorem foldl_max_spec (xs : List Nat) (a : Nat) :
    (a ≤ xs.foldl max a ∧ ∀ x ∈ xs, x ≤ xs.foldl max a) ∧ (xs.foldl max a = a ∨ xs.foldl max a ∈ xs) := by
  induction xs generalizing a with
  | nil => simp
  | cons y rest ih =>
    obtain ⟨⟨hstart, hrest⟩, hreached⟩ := ih (max a y)
    rw [List.foldl_cons]
    refine ⟨⟨by omega, fun x hx => ?_⟩, ?_⟩
    · rcases List.mem_cons.1 hx with rfl | hx
      · omega
      · exact hrest x hx
    · rcases hreached with h | h
      · rcases Nat.le_total a y with hle | hle
        · exact .inr (List.mem_cons.2 (.inl (h.trans (Nat.max_eq_right hle))))
        · exact .inl (h.trans (Nat.max_eq_left hle))
      · exact .inr (List.mem_cons_of_mem y h)

theorem le_highestOf {xs : List Nat} {x : Nat} (h : x ∈ xs) : x ≤ highestOf xs := (foldl_max_spec xs 0).1.2 x h

theorem highestOf_mem (xs : List Nat) : highestOf xs = 0 ∨ highestOf xs ∈ xs := (foldl_max_spec xs 0).2

theorem le_highestOf_iff {xs : List Nat} {n : Nat} (hn : 0 < n) : n ≤ highestOf xs ↔ ∃ x ∈ xs, n ≤ x := by
  constructor
  · intro h
    rcases highestOf_mem xs with h0 | hmem
    · omega
    · exact ⟨_, hmem, h⟩
  · rintro ⟨x, hx, hle⟩
    exact Nat.le_trans hle (le_highestOf hx)

/-! ## Segments by class (R163) -/

theorem Device.mem_imagesIn {d : Device} {c : SegmentClass} {x : Numbered} :
    x ∈ d.imagesIn c ↔ d.array[x.2]? = some x.1 ∧ x.1.classify = c := by
  rw [Device.imagesIn, List.mem_filter, Device.images, List.mem_zipIdx_iff_getElem?, beq_iff_eq]

/-- The numbers of the segments of a class. -/
theorem Device.mem_numbersIn {d : Device} {c : SegmentClass} {i : Nat} :
    i ∈ (d.imagesIn c).map (·.2) ↔ ∃ im, d.array[i]? = some im ∧ im.classify = c := by
  rw [List.mem_map]
  constructor
  · rintro ⟨x, hx, rfl⟩
    exact ⟨x.1, Device.mem_imagesIn.1 hx⟩
  · rintro ⟨im, him⟩
    exact ⟨(im, i), Device.mem_imagesIn.2 him, rfl⟩

theorem Device.numbersIn_rise (d : Device) (c : SegmentClass) : ((d.imagesIn c).map (·.2)).Pairwise (· < ·) := by
  rw [List.pairwise_map]
  exact (zipIdx_rises d.array).filter _

/-- The record that mount makes of a segment. -/
theorem Device.getElem?_fillSegments {d : Device} {i : Nat} {im : SegmentImage} (h : d.array[i]? = some im) :
    d.fillSegments.segments[i]? = some (mountRecord d.keptCandidate d.assignedCount (im, i)) := by
  show (d.images.map _)[i]? = _
  rw [List.getElem?_map, Device.images, List.getElem?_zipIdx, h, Nat.zero_add]
  rfl

/-- An ACTIVE candidate that is not kept is SEALED. -/
theorem mountRecord_sealed {kept : Option Nat} {n i : Nat} {im : SegmentImage} (h : im.classify = .candidate) :
    (mountRecord kept n (im, i)).state = .sealed ↔ kept ≠ some i := by
  unfold mountRecord
  rw [h]
  dsimp only
  split
  · next hk => simp [hk]
  · next hk => simp [hk]

theorem Device.mem_sealFixes {d : Device} {i : Nat} : i ∈ d.mountWork.sealFixes ↔
    (∃ im, d.array[i]? = some im ∧ im.classify = .candidate) ∧
      ∀ r, d.fillSegments.segments[i]? = some r → r.state = .sealed := by
  show i ∈ ((d.imagesIn .candidate).map (·.2)).filter _ ↔ _
  rw [List.mem_filter, Device.mem_numbersIn, bne_iff_ne]
  refine and_congr_right fun ⟨im, him, hclass⟩ => ?_
  rw [Device.getElem?_fillSegments him, ← mountRecord_sealed (n := d.assignedCount) hclass]
  exact ⟨fun h r hr => Option.some.inj hr ▸ h, fun h => h _ rfl⟩

/-! ## The end of the scan (R169, R170) -/

theorem exec_mountScanDone (s : State) : exec .mountScanDone s = .next ⟨s.pending, s.dev.scanDone⟩ := rfl

theorem Device.scanDone_erases {d : Device} {i : Nat} (hm : d.mount = .scanning)
    (h : d.fillSegments.ownErase d.mountWork = some i) :
    d.scanDone = { d.fillSegments with mount := .erasing i d.mountWork } := by
  simp only [Device.scanDone, hm, h]

theorem Device.scanDone_ends {d : Device} (hm : d.mount = .scanning) (h : d.fillSegments.ownErase d.mountWork = none) :
    d.scanDone = (d.fillSegments.fill d.mountWork.tables).mountEnd d.mountWork := by
  simp only [Device.scanDone, hm, h]

/-- The device at the end of mount, before the access table is looked for. -/
def Device.mountedTables (w : MountWork) (d : Device) : Device := { d with
  store := d.mountStore w
  fixes := w.sealFixes.map Fix.sealing ++ w.unclean.map Fix.erasing
  mount := .off }

/-- The device at the end of mount, before the arbiter's choice. -/
def Device.mounted (w : MountWork) (d : Device) : Device := (d.mountedTables w).mountTable.announce

theorem Device.announce_frame (d : Device) : d.announce = { d with ports := d.announce.ports } := by
  unfold Device.announce
  dsimp only
  split <;> rfl

theorem Device.port_announce (d : Device) (p : PortId) : d.announce.port p =
    if d.supply = .low then Port.offer (.supply .low) { d.port p with notices := (d.port p).notices ++ [.started d.cause] }
    else { d.port p with notices := (d.port p).notices ++ [.started d.cause] } := by
  unfold Device.announce
  dsimp only
  split
  · rw [Device.offerAll, Device.port_mapPorts, Device.port_mapPorts]
  · rw [Device.port_mapPorts]

theorem Device.mountTable_none {d : Device} (h : d.storedTable = none) :
    d.mountTable = { d with table := none, tableInvalid := false } := by
  rw [Device.mountTable, h]

theorem Device.mountTable_some {d : Device} {v : List Byte} (h : d.storedTable = some v) : d.mountTable =
    if validTable v then { d with table := some (decodeTable v), tableInvalid := false }
    else { d with table := none, tableInvalid := true } := by
  rw [Device.mountTable, h]

theorem Device.mounted_frame (w : MountWork) (d : Device) : d.mounted w = { d with
    mount := .off
    store := d.mountStore w
    fixes := w.sealFixes.map Fix.sealing ++ w.unclean.map Fix.erasing
    table := (d.mounted w).table
    tableInvalid := (d.mounted w).tableInvalid
    ports := (d.mounted w).ports } := by
  unfold Device.mounted
  rw [Device.announce_frame, Device.mountTable_frame]
  rfl

theorem Device.table_mounted (w : MountWork) (d : Device) : (d.mounted w).table = (d.mountedTables w).mountTable.table := by
  unfold Device.mounted
  rw [Device.announce_frame]

theorem Device.tableInvalid_mounted (w : MountWork) (d : Device) :
    (d.mounted w).tableInvalid = (d.mountedTables w).mountTable.tableInvalid := by
  unfold Device.mounted
  rw [Device.announce_frame]

theorem Device.storedTable_none {d : Device} (h : ∀ e, d.lookup 0x0000#16 = some e → e.state ≠ .live) :
    d.storedTable = none := by
  unfold Device.storedTable
  cases hl : d.lookup accessKey with
  | none => rfl
  | some e =>
    have hlive := h e hl
    dsimp only
    split
    · next hs _ => exact absurd hs hlive
    · rfl

theorem Device.storedTable_live {d : Device} {e : Entry} {l : Loc} (h : d.lookup 0x0000#16 = some e) (hs : e.state = .live)
    (hl : e.location = some l) : d.storedTable = some ((List.range e.length).map (d.valueByte l)) := by
  have hfind : d.lookup accessKey = some e := h
  simp only [Device.storedTable, hfind, hs, hl, Device.valueBytes, Nat.zero_add]

/-- The first of a list in rising order is the lowest. -/
theorem head?_lowest {xs : List Nat} (h : xs.Pairwise (· < ·)) {i : Nat} (hi : xs.head? = some i) :
    i ∈ xs ∧ ∀ j ∈ xs, i ≤ j := by
  cases xs with
  | nil => cases hi
  | cons x rest =>
    obtain rfl := Option.some.inj hi
    refine ⟨List.mem_cons_self, fun j hj => ?_⟩
    rcases List.mem_cons.1 hj with rfl | hj
    · exact Nat.le_refl _
    · exact Nat.le_of_lt (List.rel_of_pairwise_cons h hj)

/-- Settles O17: what the scan leaves, whether mount erases a segment itself, and the end of mount. -/
theorem mountScanEndsMount : Obligations.MountScanEndsMount := by
  refine ⟨fun s hm => ?_, fun d w => ?_⟩
  · intro w scanned filled isA ownErase
    have hunclean : ∀ i, i ∈ w.unclean ↔ isA .unclean i := fun i => Device.mem_numbersIn
    have hrise : w.unclean.Pairwise (· < ·) := s.dev.numbersIn_rise .unclean
    have hown : s.dev.fillSegments.ownErase w =
        if scanned.erasedCount = 0 ∧ w.spent = false ∧ 4 ≤ scanned.notRetired ∧ s.dev.supply = .good then w.unclean.head?
        else none := rfl
    refine ⟨rfl, ?_, fun i => Device.mem_sealFixes, hunclean, (s.dev.numbersIn_rise .candidate).filter _, hrise,
      fun ⟨he, ⟨j, hj⟩, hspent, hnot, hsupply⟩ => ?_, fun hno => ?_⟩
    · show decide (0xFFFFFFF0 < 1 + highestOf (s.dev.scan.map fun f => f.header.sequence)) = true ↔ _
      rw [decide_eq_true_eq, Nat.add_comm, Nat.lt_succ_iff, le_highestOf_iff (by decide)]
      simp only [List.mem_map, exists_exists_and_eq_and]
    · rw [if_pos ⟨he, hspent, hnot, hsupply⟩] at hown
      obtain ⟨i, hi⟩ : ∃ i, w.unclean.head? = some i := by
        cases hu : w.unclean with
        | nil => exact absurd ((hunclean j).2 hj) (by simp [hu])
        | cons i rest => exact ⟨i, rfl⟩
      obtain ⟨hmem, hlowest⟩ := head?_lowest hrise hi
      refine ⟨i, (hunclean i).1 hmem, fun j hj => hlowest j ((hunclean j).2 hj), ?_⟩
      rw [exec_mountScanDone, Device.scanDone_erases hm (hown.trans hi)]
      rfl
    · have hnone : s.dev.fillSegments.ownErase w = none := by
        rw [hown]
        split
        · next h =>
          obtain ⟨he, hspent, hnot, hsupply⟩ := h
          rw [List.head?_eq_none_iff, List.eq_nil_iff_forall_not_mem]
          exact fun i hi => hno ⟨he, ⟨i, (hunclean i).1 hi⟩, hspent, hnot, hsupply⟩
        · rfl
      rw [exec_mountScanDone, Device.scanDone_ends hm hnone]
      rfl
  · have hstore : (d.mounted w).store = d.mountStore w := by rw [Device.mounted_frame]
    have hframe := d.mounted_frame w
    rw [← hstore] at hframe
    refine ⟨d.mounted w, rfl, hframe, fun h => ?_, fun h hs => ?_, fun h hs he hu => ?_, fun h hs hany => ?_, fun h => ?_,
      fun e l hl hs hloc => ?_, fun p => ?_⟩
    · rw [hstore, Device.mountStore, if_pos h]
    · rw [hstore, Device.mountStore, if_neg (Nat.not_lt.2 h), if_pos hs]
    · rw [hstore, Device.mountStore, if_neg (Nat.not_lt.2 h), if_neg (by simp [hs]), if_pos ⟨he, hu⟩]
    · rw [hstore, Device.mountStore, if_neg (Nat.not_lt.2 h), if_neg (by simp [hs]), if_neg fun hno => ?_]
      rcases hany with hany | hany
      · omega
      · exact hany hno.2
    · have hnone := Device.mountTable_none (d := d.mountedTables w) (Device.storedTable_none h)
      rw [Device.table_mounted, Device.tableInvalid_mounted, hnone]
      exact ⟨rfl, rfl⟩
    · intro value
      have hsome := Device.mountTable_some (d := d.mountedTables w) (Device.storedTable_live hl hs hloc)
      rw [Device.table_mounted, Device.tableInvalid_mounted]
      refine ⟨fun hv => ?_, fun hv => ?_⟩
      · rw [hsome.trans (if_pos hv)]
        exact ⟨rfl, rfl⟩
      · rw [hsome.trans (if_neg (Bool.not_eq_true _ ▸ hv))]
        exact ⟨rfl, rfl⟩
    · have hport : (d.mountedTables w).mountTable.port p = d.port p := by rw [Device.mountTable_frame]; rfl
      have hsupply : (d.mountedTables w).mountTable.supply = d.supply := by rw [Device.mountTable_frame]; rfl
      have hcause : (d.mountedTables w).mountTable.cause = d.cause := by rw [Device.mountTable_frame]; rfl
      have hannounced := Device.port_announce (d.mountedTables w).mountTable p
      rw [hport, hsupply, hcause] at hannounced
      exact hannounced

end Sys2Proof.Machine
end

section
/-! SUPPORT. The figures of the tables, and the record of STORE_INFO: the statement StoreInfoReports. -/

namespace Sys2Proof.Machine

/-! ## Sums over a part of a list -/

theorem sum_filter_map {α : Type} (test : α → Bool) (f : α → Nat) (xs : List α) :
    ((xs.filter test).map f).sum = (xs.map fun x => if test x = true then f x else 0).sum := by
  induction xs with
  | nil => rfl
  | cons x rest ih =>
    rw [List.filter_cons, List.map_cons, List.sum_cons, ← ih]
    split
    · rw [List.map_cons, List.sum_cons]
    · rw [Nat.zero_add]

theorem length_filter_sum {α : Type} (test : α → Bool) (xs : List α) :
    (xs.filter test).length = (xs.map fun x => if test x = true then 1 else 0).sum := by
  rw [← sum_filter_map test (fun _ => 1), List.map_const', List.sum_replicate, smul_eq_mul, Nat.mul_one]

/-! ## The lowest of some numbers -/

theorem foldl_min_spec (xs : List Nat) (a : Nat) :
    (xs.foldl min a ≤ a ∧ ∀ x ∈ xs, xs.foldl min a ≤ x) ∧ (xs.foldl min a = a ∨ xs.foldl min a ∈ xs) := by
  induction xs generalizing a with
  | nil => simp
  | cons y rest ih =>
    obtain ⟨⟨hstart, hrest⟩, hreached⟩ := ih (min a y)
    rw [List.foldl_cons]
    refine ⟨⟨by omega, fun x hx => ?_⟩, ?_⟩
    · rcases List.mem_cons.1 hx with rfl | hx
      · omega
      · exact hrest x hx
    · rcases hreached with h | h
      · rcases Nat.le_total a y with hle | hle
        · exact .inl (h.trans (Nat.min_eq_left hle))
        · exact .inr (List.mem_cons.2 (.inl (h.trans (Nat.min_eq_right hle))))
      · exact .inr (List.mem_cons_of_mem y h)

theorem lowestOf_le {xs : List Nat} {x : Nat} (h : x ∈ xs) : lowestOf xs ≤ x := by
  cases xs with
  | nil => cases h
  | cons y rest =>
    rcases List.mem_cons.1 h with rfl | h
    · exact (foldl_min_spec rest x).1.1
    · exact (foldl_min_spec rest y).1.2 x h

theorem lowestOf_mem {xs : List Nat} (h : xs ≠ []) : lowestOf xs ∈ xs := by
  cases xs with
  | nil => exact absurd rfl h
  | cons y rest =>
    rcases (foldl_min_spec rest y).2 with heq | hin
    · exact List.mem_cons.2 (.inl heq)
    · exact List.mem_cons_of_mem y hin

/-! ## Live, dead and free frames (R27, R28) -/

/-- The location of a group's seal. -/
def GroupEntry.sealLoc : GroupEntry → Option Loc
  | .kept _ l _ => some l
  | _ => none

/-- The keys that the seals of KEPT groups list. -/
def Device.listedKeys (d : Device) : List Key := d.groups.flatMap fun g => g.sealLoc.elim [] d.sealKeysAt

theorem Device.keptLists_iff {d : Device} {k : Key} : d.keptLists k = true ↔ k ∈ d.listedKeys := by
  rw [Device.keptLists, List.any_eq_true, Device.listedKeys, List.mem_flatMap]
  refine exists_congr fun g => and_congr_right fun _ => ?_
  cases g with
  | kept s l n => exact List.contains_iff_mem
  | free | reserved => simp [GroupEntry.sealLoc]

theorem Device.tombstoneNeeded_iff {d : Device} {e : Entry} : d.tombstoneNeeded e = true ↔
    0 < e.residue ∨ e.claim ≠ none ∨ 0 < e.pins ∨ e.key ∈ d.listedKeys := by
  rw [Device.tombstoneNeeded, Bool.or_eq_true, Bool.or_eq_true, Bool.or_eq_true, Device.keptLists_iff, decide_eq_true_eq,
    decide_eq_true_eq, Option.isSome_iff_ne_none, or_assoc, or_assoc]

theorem Device.entryLive_iff {d : Device} {e : Entry} : d.entryLive e = true ↔ e.state = .live ∨ e.state = .damaged ∨
    (e.state = .gone ∧ (0 < e.residue ∨ e.claim ≠ none ∨ 0 < e.pins ∨ e.key ∈ d.listedKeys)) := by
  unfold Device.entryLive
  cases e.state with
  | pending | live | damaged => simp
  | gone => simpa using Device.tombstoneNeeded_iff

theorem Device.entryLiveIn_eq (d : Device) (i : Nat) (e : Entry) : d.entryLiveIn i e =
    if e.location.map (·.seg) = some i ∧ d.entryLive e = true then versionFrames e.length else 0 := by
  unfold Device.entryLiveIn
  cases e.location with
  | none => simp
  | some l => simp

theorem GroupEntry.liveIn_eq (i : Nat) (g : GroupEntry) : g.liveIn i = if g.sealLoc.map (·.seg) = some i then 1 else 0 := by
  cases g with
  | kept s l n => simp [GroupEntry.liveIn, GroupEntry.sealLoc]
  | free | reserved => simp [GroupEntry.liveIn, GroupEntry.sealLoc]

/-- The live frames of a segment, by its entries and its seals. -/
theorem Device.liveFrames_eq (d : Device) (i : Nat) : d.liveFrames i =
    ((d.liveEntries.filter fun e => decide (e.location.map (·.seg) = some i ∧ (e.state = .live ∨ e.state = .damaged ∨
      (e.state = .gone ∧ (0 < e.residue ∨ e.claim ≠ none ∨ 0 < e.pins ∨ e.key ∈ d.listedKeys))))).map
        fun e => versionFrames e.length).sum +
    (d.groups.filter fun g => decide (g.sealLoc.map (·.seg) = some i)).length := by
  rw [sum_filter_map, length_filter_sum, Device.liveFrames]
  congr 2
  · refine List.map_congr_left fun e _ => ?_
    simp only [Device.entryLiveIn_eq, Device.entryLive_iff, decide_eq_true_eq]
  · refine List.map_congr_left fun g _ => ?_
    simp only [GroupEntry.liveIn_eq, decide_eq_true_eq]

theorem Device.length_segmentsIn (d : Device) (st : SegmentState) :
    (d.segmentsIn st).length = (d.segments.filter fun r => decide (r.state = st)).length := by
  refine (length_filter_zipIdx (fun r : SegmentRecord => r.state == st) d.segments).trans
    (congrArg List.length (List.filter_congr fun r _ => ?_))
  rw [Bool.eq_iff_iff, beq_iff_eq, decide_eq_true_eq]

/-- The figures of R28, by the segments' records. -/
theorem Device.freeFrames_active {d : Device} {i : Nat} {r : SegmentRecord} (hr : d.segments[i]? = some r)
    (ha : r.state = .active)
    (hone : ∀ (j : Nat) (x : SegmentRecord), d.segments[j]? = some x → x.state = .active → j = i) :
    d.freeFrames = 128 - r.appendPoint + 127 * (d.erasedCount - 1) := by
  have hactive : d.active = some i := by
    cases h : d.active with
    | none => exact absurd ha (Device.active_eq_none.1 h r (List.mem_of_getElem? hr))
    | some j =>
      obtain ⟨x, hx, hstate⟩ := Device.active_eq_some h
      rw [hone j x hx hstate]
  rw [Device.freeFrames, Device.roomAtHand, hactive]
  exact congrArg (fun n => 128 - n + 127 * (d.erasedCount - 1)) (Device.appendPoint_at hr)

theorem Device.freeFrames_none {d : Device} (h : ∀ r ∈ d.segments, r.state ≠ .active) :
    d.freeFrames = 127 * (d.erasedCount - 1) := by
  rw [Device.freeFrames, Device.roomAtHand, Device.active_eq_none.2 h]
  exact Nat.zero_add _

theorem Device.deadTotal_eq (d : Device) : d.deadTotal =
    (d.segments.zipIdx.map fun x => if x.1.state = .retired then 0 else d.deadFrames x.2).sum := by
  rw [Device.deadTotal, sum_filter_map]
  refine congrArg List.sum (List.map_congr_left fun x _ => ?_)
  by_cases h : x.1.state = .retired <;> simp [h]

theorem Device.reclaimable_eq (d : Device) : d.reclaimable =
    (d.segments.zipIdx.map fun x => if x.1.state = .sealed ∧ x.1.pins = 0 then d.deadFrames x.2 else 0).sum := by
  rw [Device.reclaimable, Device.segmentsIn, List.filter_filter, sum_filter_map]
  refine congrArg List.sum (List.map_congr_left fun x _ => ?_)
  simp [and_comm]

/-! ## The record's fields (R181) -/

theorem Device.storeInfo_countRequest (d : Device) (p : PortId) : (d.countRequest p).storeInfo p = d.storeInfo p := by
  have hhandles : (d.countRequest p).handleInfo p = d.handleInfo p := by
    simp only [Device.handleInfo, Device.handle_countRequest]
  rw [Device.storeInfo, hhandles]
  rfl

theorem Device.infoFlags_eq (d : Device) : d.infoFlags = (if d.reclaim.requested = true then 1 else 0) +
    (if d.tableInvalid = true then 2 else 0) + (if d.headWaits = true then 4 else 0) := by
  unfold Device.infoFlags
  cases d.reclaim.requested <;> cases d.tableInvalid <;> cases d.headWaits <;> rfl

theorem Device.groupsUsed_eq (d : Device) : d.groupsUsed = (d.groups.filter fun g => decide (g ≠ .free)).length := by
  refine congrArg List.length (List.filter_congr fun g _ => ?_)
  cases g with
  | free => rfl
  | reserved | kept => simp [GroupEntry.isFree]

theorem Device.freeBuffers_eq (d : Device) :
    d.buffers.countIf Buffer.isFree = (Four.all.filter fun b => (d.buffer b).owner.isNone).length := rfl

theorem Device.handleInfo_eq (d : Device) (p : PortId) : d.handleInfo p =
    (d.handle p .n1).info ++ (d.handle p .n2).info ++ (d.handle p .n3).info ++ (d.handle p .n4).info := by
  simp [Device.handleInfo, Four.all]

theorem Device.headWaits_iff {d : Device} :
    d.headWaits = true ↔ ∃ c rest, d.commitQueue = c :: rest ∧ c.state = .waitingSpace := by
  unfold Device.headWaits
  cases d.commitQueue with
  | nil => simp
  | cons c rest => simp

/-- The lowest erase count, over the segments that are not RETIRED. -/
def Device.lowestErases (d : Device) : Nat :=
  lowestOf ((d.segments.filter fun r => r.state != .retired).map (·.eraseCount))

/-- The highest erase count, over all segments. -/
def Device.highestErases (d : Device) : Nat := highestOf (d.segments.map (·.eraseCount))

theorem Device.erases_bounds {d : Device} {r : SegmentRecord} (hr : r ∈ d.segments) :
    (r.state ≠ .retired → d.lowestErases ≤ r.eraseCount) ∧ r.eraseCount ≤ d.highestErases :=
  ⟨fun hs => lowestOf_le (List.mem_map_of_mem (List.mem_filter.2 ⟨hr, by simpa using hs⟩)),
    le_highestOf (List.mem_map_of_mem hr)⟩

theorem Device.lowestErases_reached (d : Device) :
    (∃ r ∈ d.segments, r.state ≠ .retired ∧ r.eraseCount = d.lowestErases) ∨
      d.lowestErases = 0 ∧ ∀ r ∈ d.segments, r.state = .retired := by
  by_cases h : (d.segments.filter fun r => r.state != .retired) = []
  · refine .inr ⟨by rw [Device.lowestErases, h]; rfl, fun r hr => ?_⟩
    simpa using List.filter_eq_nil_iff.1 h r hr
  · obtain ⟨r, hr, heq⟩ := List.mem_map.1 (lowestOf_mem (List.map_eq_nil_iff.not.2 h))
    obtain ⟨hr, hs⟩ := List.mem_filter.1 hr
    exact .inl ⟨r, hr, by simpa using hs, heq⟩

theorem Device.highestErases_reached (d : Device) :
    (∃ r ∈ d.segments, r.eraseCount = d.highestErases) ∨ d.highestErases = 0 ∧ d.segments = [] := by
  rcases highestOf_mem (d.segments.map (·.eraseCount)) with h0 | hmem
  · cases hs : d.segments with
    | nil => exact .inr ⟨h0, rfl⟩
    | cons r rest =>
      have hle := (Device.erases_bounds (d := d) (r := r) (by rw [hs]; exact List.mem_cons_self)).2
      exact .inl ⟨r, List.mem_cons_self, Nat.le_antisymm hle (h0.trans_le (Nat.zero_le _))⟩
  · obtain ⟨r, hr, heq⟩ := List.mem_map.1 hmem
    exact .inl ⟨r, hr, heq⟩

/-- Settles O23: the figures by sums over the tables, and the record's fields one by one. -/
theorem storeInfoReports : Obligations.StoreInfoReports := by
  refine ⟨fun d => ?_, fun p s ht => ?_⟩
  · intro entries sealOf listed erased
    have hentries : entries = d.liveEntries := by
      simp only [entries, Device.liveEntries]
      cases d.mount <;> rfl
    have hseal : sealOf = GroupEntry.sealLoc := by
      funext g
      cases g <;> rfl
    have hlisted : listed = d.listedKeys := by simp only [listed, hseal, Device.listedKeys]
    have herased : erased = d.erasedCount := (d.length_segmentsIn .erased).symm
    rw [hentries, hseal, hlisted, herased]
    refine ⟨d.liveFrames_eq, fun i r hr => ?_, fun i r hr => Device.freeFrames_active hr, Device.freeFrames_none,
      d.deadTotal_eq, d.reclaimable_eq⟩
    rw [Device.deadFrames, hr]
    rfl
  · intro count state reason cause handle flags three
    have hstate : state = s.dev.store.code := by
      simp only [state]
      cases s.dev.store <;> rfl
    have hreason : reason = s.dev.store.reasonCode := by
      simp only [reason]
      rcases s.dev.store with _ | _ | r
      · rfl
      · rfl
      · cases r <;> rfl
    have hcause : cause = causeCode s.dev.cause := by
      simp only [cause]
      cases s.dev.cause <;> rfl
    have hhandle : ∀ h, handle h = (s.dev.handle p h).info := by
      intro h
      simp only [handle]
      cases s.dev.handle p h <;> rfl
    have hcount : ∀ st, count st = byteOf (s.dev.segmentsIn st).length := fun st => by
      rw [Device.length_segmentsIn]
      rfl
    have hsupply : (if s.dev.supply = .low then 1 else 0 : Byte) = supplyCode s.dev.supply := by
      cases s.dev.supply <;> rfl
    refine ⟨s.dev.lowestErases, s.dev.highestErases, ?_, fun r hr => Device.erases_bounds hr,
      s.dev.lowestErases_reached, s.dev.highestErases_reached, Device.headWaits_iff⟩
    show Host.Outcome.next (State.mk s.pending
      (s.dev.request p 0x02 (some ()) true fun _ d => (d, ok (d.storeInfo p)))) = _
    rw [Device.request_ruled _ _ _ _ ht (.inl rfl), ok, Device.reply_counted, Device.storeInfo_countRequest]
    refine congrArg (fun bytes => Host.Outcome.next (State.mk s.pending (s.dev.answered p 0x02 .ok bytes))) ?_
    have hflags : flags = s.dev.infoFlags := (Device.infoFlags_eq s.dev).symm
    rw [Device.storeInfo, Device.segmentInfo, Device.handleInfo_eq, Device.groupsUsed_eq, Device.freeBuffers_eq, hstate,
      hreason, hcause, hflags, hsupply]
    simp only [hcount, hhandle]
    simp only [List.append_assoc, List.cons_append, List.nil_append]
    cases s.dev.reclaim.state <;> rfl

end Sys2Proof.Machine
end

section
/-! SUPPORT. Headers as the walk and mount read them, and the directory that mount builds: the statement
MountBuildsTheDirectory. -/

namespace Sys2Proof.Machine

/-! ## A frame read as a version header (R121, R165) -/

theorem headerInRange_iff {h : VersionHeader} {frame : Nat} : headerInRange h frame = true ↔
    h.length ≤ 496 ∧ (h.key ≠ 0xFFFF#16 ∨ h.kind = .groupSeal) ∧ frame + versionFrames h.length ≤ 128 := by
  simp [headerInRange, and_assoc, Config.maxLength, Config.lastFrame]

theorem headerInRange_false_iff {h : VersionHeader} {frame : Nat} : headerInRange h frame = false ↔
    496 < h.length ∨ (h.key = 0xFFFF#16 ∧ h.kind ≠ .groupSeal) ∨ 128 < frame + versionFrames h.length := by
  rw [← Bool.not_eq_true, headerInRange_iff, Classical.not_and_iff_not_or_not, Classical.not_and_iff_not_or_not, not_or,
    not_not, Nat.not_le, Nat.not_le]

theorem Device.readHeader_none {d : Device} {l : Loc} (h : (d.cell l).asFirst = none) :
    d.readHeader l = .blank ∨ d.readHeader l = .malformed := by
  unfold Device.readHeader inRangeFirst
  rw [h, Option.filter_none]
  split
  · exact .inl rfl
  · exact .inr rfl

theorem Device.readHeader_some {d : Device} {l : Loc} {f : First} (h : (d.cell l).asFirst = some f) :
    d.readHeader l =
      if headerInRange f.header l.frame = true then .whole f.header f.committed (d.checkGood l) else .malformed := by
  have hblank : (d.cell l).isBlank = false := by
    cases hc : d.cell l with
    | blank => rw [hc] at h; cases h
    | first | more | malformed => rfl
  unfold Device.readHeader inRangeFirst
  rw [hblank, h, Option.filter_some]
  cases headerInRange f.header l.frame <;> rfl

/-- The versions that the scan of a segment finds from a frame on, step by step. -/
theorem Device.scanFrames_past {d : Device} {i fuel pos : Nat} (h : 127 < pos) : d.scanFrames i (fuel + 1) pos = [] := by
  rw [Device.scanFrames, if_pos h]

theorem Device.scanFrames_passes {d : Device} {i fuel pos : Nat} (hp : pos ≤ 127)
    (h : ∀ x m, d.mountHeader ⟨i, pos⟩ ≠ .whole x m true) :
    d.scanFrames i (fuel + 1) pos = d.scanFrames i fuel (pos + 1) := by
  rw [Device.scanFrames, if_neg (Nat.not_lt.2 hp)]
  cases hm : d.mountHeader ⟨i, pos⟩ with
  | blank | malformed => rfl
  | whole x m good =>
    cases good with
    | false => rfl
    | true => exact absurd hm (h x m)

theorem Device.scanFrames_takes {d : Device} {i fuel pos : Nat} {x : VersionHeader} {m : Bool} (hp : pos ≤ 127)
    (h : d.mountHeader ⟨i, pos⟩ = .whole x m true) : d.scanFrames i (fuel + 1) pos =
      { location := ⟨i, pos⟩, header := x, committed := m } :: d.scanFrames i fuel (pos + versionFrames x.length) := by
  rw [Device.scanFrames, if_neg (Nat.not_lt.2 hp), h]

theorem Device.mountHeader_none {d : Device} {l : Loc} (h : (d.cell l).asFirst = none) (x : VersionHeader) (m : Bool) :
    d.mountHeader l ≠ .whole x m true := by
  unfold Device.mountHeader
  rcases Device.readHeader_none h with hr | hr <;> rw [hr] <;> exact fun h => nomatch h

/-- What mount takes of a frame that holds a header. -/
theorem Device.mountHeader_some {d : Device} {l : Loc} {f : First} (h : (d.cell l).asFirst = some f) :
    d.mountHeader l = if headerInRange f.header l.frame = true ∧
        ¬ ((f.header.kind = .tombstone ∨ f.header.kind = .damageMark) ∧ f.header.length ≠ 0)
      then .whole f.header f.committed (d.checkGood l) else .malformed := by
  unfold Device.mountHeader
  rw [Device.readHeader_some h]
  by_cases hr : headerInRange f.header l.frame = true
  · simp only [hr, if_true, true_and]
    split <;> simp_all
  · rw [if_neg hr, if_neg fun hboth => hr hboth.1]

/-! ## The scan (R165) -/

theorem Device.mem_scan {d : Device} {x : Found} : x ∈ d.scan ↔
    ∃ i im, d.array[i]? = some im ∧ (im.classify = .sealed ∨ im.classify = .candidate) ∧ x ∈ d.scanFrames i 128 1 := by
  rw [Device.scan, List.mem_flatMap]
  constructor
  · rintro ⟨⟨im, i⟩, hmem, hx⟩
    obtain ⟨him, hclass⟩ := List.mem_filter.1 hmem
    exact ⟨i, im, List.mem_zipIdx_iff_getElem?.1 him, by simpa using hclass, hx⟩
  · rintro ⟨i, im, him, hclass, hx⟩
    exact ⟨(im, i), List.mem_filter.2 ⟨List.mem_zipIdx_iff_getElem?.2 him, by simpa using hclass⟩, hx⟩

theorem lt_mountSeqCounter {found : List Found} {f : Found} (h : f ∈ found) :
    f.header.sequence < mountSeqCounter found := by
  rw [mountSeqCounter, Nat.add_comm]
  exact Nat.lt_succ_of_le (le_highestOf (List.mem_map_of_mem h))

theorem mountSeqCounter_reached (found : List Found) :
    mountSeqCounter found = 1 ∨ ∃ f ∈ found, mountSeqCounter found = f.header.sequence + 1 := by
  rw [mountSeqCounter]
  rcases highestOf_mem (found.map fun f => f.header.sequence) with h | h
  · exact .inl (by rw [h])
  · obtain ⟨f, hf, heq⟩ := List.mem_map.1 h
    exact .inr ⟨f, hf, by rw [← heq, Nat.add_comm]⟩

/-! ## Complete versions and lost members (R8, R166) -/

/-- A complete seal of the scan. -/
def completeSeal (found : List Found) (x : Found) : Prop := x ∈ found ∧ x.header.kind = .groupSeal ∧ x.committed = true

theorem mem_completeSeals {found : List Found} {x : Found} : x ∈ completeSeals found ↔ completeSeal found x := by
  simp [completeSeals, completeSeal]

theorem Device.mem_sealsFound {d : Device} {found : List Found} {s : SealFound} : s ∈ d.sealsFound found ↔
    ∃ x, completeSeal found x ∧ s = ⟨x.location, x.header.sequence, d.sealKeysAt x.location⟩ := by
  simp only [Device.sealsFound, List.mem_map, mem_completeSeals, eq_comm]

/-- The complete versions of the scan. -/
def Device.completeOf (d : Device) (found : List Found) : List Found := found.filter (Found.complete (d.sealsFound found))

theorem Device.mem_completeOf {d : Device} {found : List Found} {f : Found} : f ∈ d.completeOf found ↔
    f ∈ found ∧ f.header.kind ≠ .groupSeal ∧ f.committed = true ∧ (f.header.group = 0 ∨
      ∃ x, completeSeal found x ∧ x.header.sequence = f.header.group ∧ f.header.key ∈ d.sealKeysAt x.location) := by
  have hseals : ((d.sealsFound found).any fun s => s.sequence == f.header.group && s.keys.contains f.header.key) = true ↔
      ∃ x, completeSeal found x ∧ x.header.sequence = f.header.group ∧ f.header.key ∈ d.sealKeysAt x.location := by
    rw [List.any_eq_true]
    constructor
    · rintro ⟨s, hs, htest⟩
      obtain ⟨x, hx, rfl⟩ := Device.mem_sealsFound.1 hs
      exact ⟨x, hx, by simpa using htest⟩
    · rintro ⟨x, hx, htest⟩
      exact ⟨_, Device.mem_sealsFound.2 ⟨x, hx, rfl⟩, by simpa using htest⟩
  rw [Device.completeOf, List.mem_filter, Found.complete, Bool.and_eq_true, Bool.and_eq_true, Bool.or_eq_true, hseals,
    bne_iff_ne, beq_iff_eq, and_assoc]

/-- A member that a complete seal lists and that the scan has lost. -/
def Device.lostMember (d : Device) (found : List Found) (k : Key) : Prop :=
  ∃ x, completeSeal found x ∧ k ∈ d.sealKeysAt x.location ∧
    (∃ f ∈ d.completeOf found, f.header.group = x.header.sequence ∧ f.header.group ≠ 0) ∧
    ∀ f ∈ versionsOf (d.completeOf found) k,
      f.header.group ≠ x.header.sequence ∧ f.header.sequence ≤ x.header.sequence

theorem isLost_iff {complete : List Found} {g : Nat} {k : Key} : isLost complete g k = true ↔
    (∃ f ∈ complete, f.header.group = g ∧ f.header.group ≠ 0) ∧
    ∀ f ∈ versionsOf complete k, f.header.group ≠ g ∧ f.header.sequence ≤ g := by
  have hmembers : (membersOf complete g).isEmpty = false ↔ ∃ f ∈ complete, f.header.group = g ∧ f.header.group ≠ 0 := by
    rw [List.isEmpty_eq_false_iff_exists_mem]
    simp [membersOf]
  rw [isLost, Bool.and_eq_true, Bool.and_eq_true, Bool.not_eq_true', hmembers, Bool.not_eq_true', Bool.not_eq_true',
    List.any_eq_false, List.any_eq_false, and_assoc, ← forall₂_and]
  simp

theorem Device.mem_lostKeys {d : Device} {found : List Found} {k : Key} :
    k ∈ lostKeys (d.sealsFound found) (d.completeOf found) ↔ d.lostMember found k := by
  rw [lostKeys, mem_onceEach, List.mem_flatMap]
  constructor
  · rintro ⟨s, hs, hk⟩
    obtain ⟨x, hx, rfl⟩ := Device.mem_sealsFound.1 hs
    obtain ⟨hlisted, hlost⟩ := List.mem_filter.1 hk
    exact ⟨x, hx, hlisted, isLost_iff.1 hlost⟩
  · rintro ⟨x, hx, hlisted, hlost⟩
    exact ⟨_, Device.mem_sealsFound.2 ⟨x, hx, rfl⟩, List.mem_filter.2 ⟨hlisted, isLost_iff.2 hlost⟩⟩

/-! ## The current version of a key (R9) -/

/-- By a measure, the higher the better. -/
theorem ranks_higher {α β : Type} [LinearOrder β] (f : α → β) : Ranks fun y x => decide (f x < f y) :=
  ranks_lower (β := βᵒᵈ) f

/-- What R9 prefers by: the sequence, then the segment's sequence. -/
def Device.recency (d : Device) (f : Found) : ℕ ×ₗ ℕ := toLex (f.header.sequence, d.headerSequence f.location.seg)

theorem Device.recency_lt {d : Device} {x y : Found} : d.recency x < d.recency y ↔
    x.header.sequence < y.header.sequence ∨ (x.header.sequence = y.header.sequence ∧
      d.headerSequence x.location.seg < d.headerSequence y.location.seg) := by
  rw [Device.recency, Device.recency, Prod.Lex.toLex_lt_toLex]

theorem Device.newer_eq (d : Device) : d.newer = fun y x => decide (d.recency x < d.recency y) := by
  funext y x
  rw [Bool.eq_iff_iff, decide_eq_true_eq, Device.recency_lt]
  simp only [Device.newer, Bool.or_eq_true, Bool.and_eq_true, decide_eq_true_eq, beq_iff_eq,
      eq_comm (a := y.header.sequence)]

theorem Device.newer_ranks (d : Device) : Ranks d.newer := d.newer_eq ▸ ranks_higher d.recency

/-- The current version of a key is the newest. -/
theorem Device.currentOf_spec {d : Device} {complete : List Found} {k : Key} {f : Found}
    (h : d.currentOf complete k = some f) :
    f ∈ versionsOf complete k ∧ ∀ x ∈ versionsOf complete k, ¬ d.recency f < d.recency x := by
  obtain ⟨hmem, hbest⟩ := pickBest_mem d.newer_ranks h
  refine ⟨hmem, fun x hx => ?_⟩
  have hnot := hbest x hx
  rw [Device.newer_eq] at hnot
  exact of_decide_eq_false hnot

theorem Device.currentOf_newest {d : Device} {complete : List Found} {k : Key} {f : Found}
    (hf : f ∈ versionsOf complete k) (h : ∀ x ∈ versionsOf complete k, x ≠ f → d.recency x < d.recency f) :
    d.currentOf complete k = some f := by
  cases hc : d.currentOf complete k with
  | none =>
    rw [(pickBest_none _ _).1 hc] at hf
    exact absurd hf List.not_mem_nil
  | some g =>
    obtain ⟨hg, hbest⟩ := Device.currentOf_spec hc
    by_cases heq : g = f
    · rw [heq]
    · exact absurd (h g hg heq) (hbest f hf)

/-! ## The directory that mount builds (R167) -/

/-- Of entries in rising order of key, the first `n` hold an entry, or all of them are below it. -/
theorem lookup_take {es : List Entry} (hr : es.Pairwise fun x y => x.key < y.key) {e : Entry} (he : e ∈ es) (n : Nat) :
    (es.take n).find? (fun x => x.key == e.key) = some e ∨
      ((es.take n).find? (fun x => x.key == e.key) = none ∧ (es.take n).length = n ∧ ∀ x ∈ es.take n, x.key < e.key) := by
  have hsplit := List.take_append_drop n es
  rw [← hsplit] at hr
  obtain ⟨hfirst, -, hbelow⟩ := List.pairwise_append.1 hr
  rw [← hsplit] at he
  rcases List.mem_append.1 he with hin | hout
  · refine .inl (find?_lowest hfirst hin (by simp) fun x _ hx => ?_)
    rw [beq_iff_eq.1 hx]
    exact BitVec.le_refl _
  · have hall : ∀ x ∈ es.take n, x.key < e.key := fun x hx => hbelow x hx e hout
    refine .inr ⟨List.find?_eq_none.2 fun x hx heq => ?_, ?_, hall⟩
    · have hlt := hall x hx
      rw [beq_iff_eq.1 heq] at hlt
      exact BitVec.lt_irrefl _ hlt
    · have hlen := List.length_pos_of_mem hout
      rw [List.length_drop] at hlen
      exact List.length_take_of_le (by omega)

/-- All entries that mount makes, in order of key, before the limit of 1024. -/
def Device.mountEntries (d : Device) (complete : List Found) (lost : List Key) : List Entry :=
  ((onceEach (complete.map (·.header.key) ++ lost)).filterMap (d.mountEntry complete lost)).foldr insertEntry []

theorem Device.mem_mountEntries {d : Device} {complete : List Found} {lost : List Key} {e : Entry} :
    e ∈ d.mountEntries complete lost ↔
      (e.key ∈ complete.map (·.header.key) ∨ e.key ∈ lost) ∧ d.mountEntry complete lost e.key = some e := by
  rw [Device.mountEntries, mem_insertEntries, List.mem_filterMap]
  simp only [mem_onceEach, List.mem_append]
  constructor
  · rintro ⟨k, hk, he⟩
    obtain rfl := Device.mountEntry_key he
    exact ⟨hk, he⟩
  · rintro ⟨hk, he⟩
    exact ⟨e.key, hk, he⟩

theorem Device.mountEntries_rise (d : Device) (complete : List Found) (lost : List Key) :
    (d.mountEntries complete lost).Pairwise fun x y => x.key < y.key := by
  refine insertEntries_rise _ ?_
  rw [List.nodup_iff_pairwise_ne, List.pairwise_map]
  refine (List.nodup_iff_pairwise_ne.1 (onceEach_nodup _)).filterMap _ fun k k' hne e he e' he' => ?_
  rwa [Device.mountEntry_key he, Device.mountEntry_key he']

/-- The directory holds the entry that mount makes for a key, or it is full of lower keys. -/
theorem Device.mountDirectory_made {d : Device} {complete : List Found} {lost : List Key} {k : Key} {e : Entry}
    (hk : k ∈ complete.map (·.header.key) ∨ k ∈ lost) (he : d.mountEntry complete lost k = some e) :
    (d.mountDirectory complete lost).find? (fun x => x.key == k) = some e ∨
      ((d.mountDirectory complete lost).find? (fun x => x.key == k) = none ∧
        (d.mountDirectory complete lost).length = 1024 ∧ ∀ x ∈ d.mountDirectory complete lost, x.key < k) := by
  obtain rfl := Device.mountEntry_key he
  exact lookup_take (d.mountEntries_rise complete lost) (Device.mem_mountEntries.2 ⟨hk, he⟩) 1024

theorem Device.mountDirectory_none {d : Device} {complete : List Found} {lost : List Key} {k : Key}
    (h : d.mountEntry complete lost k = none) : (d.mountDirectory complete lost).find? (fun x => x.key == k) = none := by
  refine List.find?_eq_none.2 fun x hx heq => ?_
  have hmade := (Device.mem_mountEntries.1 (List.mem_of_mem_take hx)).2
  rw [beq_iff_eq.1 heq, h] at hmade
  cases hmade

theorem Device.mountEntry_lost {d : Device} {complete : List Found} {lost : List Key} {k : Key} (h : k ∈ lost) :
    d.mountEntry complete lost k = some
      { key := k, state := .damaged, location := none, length := 0, sequence := none,
        residue := (versionsOf complete k).length, claim := none, pins := 0, markPending := true } := by
  rw [Device.mountEntry, if_pos (List.contains_iff_mem.2 h)]

theorem Device.mountEntry_kept {d : Device} {complete : List Found} {lost : List Key} {k : Key} (h : k ∉ lost) :
    d.mountEntry complete lost k = (d.currentOf complete k).map fun f =>
      { key := k, state := Kind.entryState f.header.kind, location := some f.location, length := f.header.length,
        sequence := some f.header.sequence, residue := (versionsOf complete k).length - 1, claim := none, pins := 0,
        markPending := false } := by
  rw [Device.mountEntry, if_neg fun hc => h (List.contains_iff_mem.1 hc)]

/-- Settles O15: the scan frame by frame; then the directory, by the newest complete version of each key and the members
that a seal lists and the scan has lost. -/
theorem mountBuildsTheDirectory : Obligations.MountBuildsTheDirectory := by
  unfold Obligations.MountBuildsTheDirectory
  intro asFirst
  have hfirst : asFirst = Cell.asFirst := by
    funext c
    cases c <;> rfl
  clear_value asFirst
  subst hfirst
  refine ⟨fun d i pos fuel => ⟨Device.scanFrames_past,
    fun hp => ⟨fun hnone => ?_, fun f hf => ⟨fun hpass => ?_, fun hpass => ?_⟩⟩⟩,
    fun read => ?_⟩
  · exact Device.scanFrames_passes hp (Device.mountHeader_none hnone)
  · refine Device.scanFrames_passes hp fun x m hx => ?_
    rw [Device.mountHeader_some hf] at hx
    split at hx
    · next hok =>
      obtain ⟨hrange, hlength⟩ := hok
      obtain ⟨hlen, hkey, hend⟩ := headerInRange_iff.1 hrange
      have hgood : d.checkGood ⟨i, pos⟩ = true := (HeaderRead.whole.inj hx).2.2
      rcases hpass with h | ⟨hk, hkind⟩ | h | h | h
      · omega
      · exact hkey.elim (absurd hk) (absurd · hkind)
      · exact absurd hend (Nat.not_le.2 h)
      · exact hlength h
      · rw [h] at hgood
        cases hgood
    · cases hx
  · simp only [not_or] at hpass
    obtain ⟨hlen, hkey, hend, hlength, hgood⟩ := hpass
    have hkeyOk : f.header.key ≠ 0xFFFF#16 ∨ f.header.kind = .groupSeal := by
      by_cases hkind : f.header.kind = .groupSeal
      · exact .inr hkind
      · exact .inl fun hk => hkey ⟨hk, hkind⟩
    refine Device.scanFrames_takes hp ?_
    rw [Device.mountHeader_some hf,
      if_pos ⟨headerInRange_iff.2 ⟨Nat.not_lt.1 hlen, hkeyOk, Nat.not_lt.1 hend⟩, hlength⟩, (Bool.not_eq_false _).mp hgood]
  · intro d found complete seals listed versions lost made
    have hlost : ∀ k, k ∈ lostKeys (read.sealsFound found) complete ↔ lost k := fun k => Device.mem_lostKeys
    refine ⟨fun x => Device.mem_scan, fun f hf => lt_mountSeqCounter hf, mountSeqCounter_reached found,
      fun f => Device.mem_completeOf, read.buildTables_rises, List.length_take_le _ _, rfl,
      fun k => ⟨fun hk => ?_, fun hk hnone => ?_, fun f hf hk hnewest => ?_⟩⟩
    · have hin := (hlost k).2 hk
      exact Device.mountDirectory_made (.inr hin) (Device.mountEntry_lost hin)
    · refine Device.mountDirectory_none ?_
      rw [Device.mountEntry_kept fun hin => hk ((hlost k).1 hin), Option.map_eq_none_iff]
      exact (pickBest_none _ _).2 hnone
    · have hcurrent : read.currentOf complete k = some f :=
        Device.currentOf_newest hf fun x hx hne => Device.recency_lt.2 (hnewest x hx hne)
      have hkey : k ∈ complete.map (·.header.key) := by
        obtain ⟨hin, heq⟩ := List.mem_filter.1 hf
        exact beq_iff_eq.1 heq ▸ List.mem_map_of_mem hin
      have hentry := Device.mountEntry_kept (d := read) (complete := complete) fun hin => hk ((hlost k).1 hin)
      rw [hcurrent, Option.map_some] at hentry
      have hmade := Device.mountDirectory_made (.inl hkey) hentry
      revert hmade
      cases f.header.kind <;> exact id

end Sys2Proof.Machine
end

section
/-! SUPPORT. The group table and the segment table that mount builds: the statement MountBuildsGroupsAndSegments. -/

namespace Sys2Proof.Machine

/-! ## A list in order -/

theorem mem_insertBy {α : Type} {before : α → α → Bool} {x y : α} {xs : List α} :
    y ∈ insertBy before x xs ↔ y = x ∨ y ∈ xs := by
  induction xs with
  | nil => simp [insertBy]
  | cons z rest ih =>
    rw [insertBy]
    split
    · rw [List.mem_cons]
    · rw [List.mem_cons, ih, List.mem_cons, or_left_comm]

theorem mem_sortBy {α : Type} {before : α → α → Bool} {y : α} {xs : List α} : y ∈ sortBy before xs ↔ y ∈ xs := by
  induction xs with
  | nil => rfl
  | cons x rest ih => rw [sortBy, List.foldr_cons, mem_insertBy, List.mem_cons, ← ih, sortBy]

theorem insertBy_ordered {α : Type} {before : α → α → Bool} (hb : Ranks before) (x : α) {xs : List α}
    (h : xs.Pairwise fun y z => before z y = false) : (insertBy before x xs).Pairwise fun y z => before z y = false := by
  induction xs with
  | nil => exact List.pairwise_singleton _ x
  | cons y rest ih =>
    obtain ⟨hfirst, hrest⟩ := List.pairwise_cons.1 h
    rw [insertBy]
    split
    · next hxy =>
      have hyx := hb.asymm x y hxy
      refine List.pairwise_cons.2 ⟨fun z hz => ?_, h⟩
      rcases List.mem_cons.1 hz with rfl | hz
      · exact hyx
      · exact hb.trans z y x (hfirst z hz) hyx
    · next hxy =>
      refine List.pairwise_cons.2 ⟨fun z hz => ?_, ih hrest⟩
      rcases mem_insertBy.1 hz with rfl | hz
      · exact (Bool.not_eq_true _).mp hxy
      · exact hfirst z hz

theorem sortBy_ordered {α : Type} {before : α → α → Bool} (hb : Ranks before) (xs : List α) :
    (sortBy before xs).Pairwise fun y z => before z y = false := by
  induction xs with
  | nil => exact List.Pairwise.nil
  | cons x rest ih => exact insertBy_ordered hb x ih

/-- Of the first `n` in order, none comes after one that is left out; and one is left out only of more than `n`. -/
theorem mem_take_sortBy {α : Type} {before : α → α → Bool} (hb : Ranks before) {xs : List α} {x : α} (hx : x ∈ xs)
    (n : Nat) :
    x ∈ (sortBy before xs).take n ∨ (((sortBy before xs).take n).length = n ∧
      ∀ y ∈ (sortBy before xs).take n, before x y = false) := by
  have hsplit := List.take_append_drop n (sortBy before xs)
  have hin := mem_sortBy (before := before).2 hx
  have hordered := sortBy_ordered hb xs
  rw [← hsplit] at hin hordered
  rcases List.mem_append.1 hin with hin | hout
  · exact .inl hin
  · have hlen := List.length_pos_of_mem hout
    rw [List.length_drop] at hlen
    exact .inr ⟨List.length_take_of_le (by omega), fun y hy => (List.pairwise_append.1 hordered).2.2 y hy x hout⟩

/-! ## Current members of groups (R166) -/

theorem Device.recency_le {d : Device} {x y : Found} : d.recency x ≤ d.recency y ↔
    x.header.sequence < y.header.sequence ∨ (x.header.sequence = y.header.sequence ∧
      d.headerSequence x.location.seg ≤ d.headerSequence y.location.seg) := by
  rw [Device.recency, Device.recency, Prod.Lex.toLex_le_toLex]

theorem mem_versionsOf {complete : List Found} {k : Key} {x : Found} :
    x ∈ versionsOf complete k ↔ x ∈ complete ∧ x.header.key = k := by
  rw [versionsOf, List.mem_filter, beq_iff_eq]

theorem mem_membersOf {complete : List Found} {g : Nat} {x : Found} :
    x ∈ membersOf complete g ↔ x ∈ complete ∧ x.header.group = g ∧ x.header.group ≠ 0 := by
  rw [membersOf, List.mem_filter, Bool.and_eq_true, beq_iff_eq, bne_iff_ne]

theorem Device.hasCurrent_iff {d : Device} {complete : List Found} {g : Nat} : d.hasCurrent complete g = true ↔
    ∃ f ∈ membersOf complete g, d.currentOf complete f.header.key = some f := by
  simp [Device.hasCurrent]

theorem Device.hasCurrent_newest {d : Device} {complete : List Found} {g : Nat} {f : Found} (hf : f ∈ membersOf complete g)
    (h : ∀ x ∈ complete, x.header.key = f.header.key → x ≠ f → d.recency x < d.recency f) :
    d.hasCurrent complete g = true := by
  refine Device.hasCurrent_iff.2 ⟨f, hf,
    Device.currentOf_newest (mem_versionsOf.2 ⟨(mem_membersOf.1 hf).1, rfl⟩) fun x hx => ?_⟩
  obtain ⟨hin, hk⟩ := mem_versionsOf.1 hx
  exact h x hin hk

theorem Device.newest_of_hasCurrent {d : Device} {complete : List Found} {g : Nat} (h : d.hasCurrent complete g = true) :
    ∃ f ∈ membersOf complete g, ∀ x ∈ complete, x.header.key = f.header.key → d.recency x ≤ d.recency f := by
  obtain ⟨f, hf, hcurrent⟩ := Device.hasCurrent_iff.1 h
  exact ⟨f, hf, fun x hx hk => not_lt.1 ((Device.currentOf_spec hcurrent).2 x (mem_versionsOf.2 ⟨hx, hk⟩))⟩

/-! ## The groups that are kept (R166) -/

/-- What groups are kept by: those with a current member first, then by sequence. -/
def Device.groupRank (d : Device) (complete : List Found) (g : Nat) : ℕ ×ₗ ℕ :=
  toLex (if d.hasCurrent complete g = true then 1 else 0, g)

theorem Device.groupRank_lt {d : Device} {complete : List Found} {x y : Nat} :
    d.groupRank complete x < d.groupRank complete y ↔
      (d.hasCurrent complete y = true ∧ d.hasCurrent complete x = false) ∨
        (d.hasCurrent complete y = d.hasCurrent complete x ∧ x < y) := by
  rw [Device.groupRank, Device.groupRank, Prod.Lex.toLex_lt_toLex]
  cases d.hasCurrent complete x <;> cases d.hasCurrent complete y <;> simp

/-- The groups that qualify: a complete seal has the sequence, and a complete version is its member. -/
def qualifies (seals : List SealFound) (complete : List Found) (g : Nat) : Prop :=
  (∃ s ∈ seals, s.sequence = g) ∧ membersOf complete g ≠ []

/-- The qualifying groups in order. -/
theorem Device.keptGroups_eq (d : Device) (seals : List SealFound) (complete : List Found) :
    d.keptGroups seals complete =
      (sortBy (fun x y => decide (d.groupRank complete y < d.groupRank complete x))
        ((onceEach (seals.map (·.sequence))).filter fun g => !(membersOf complete g).isEmpty)).take 32 := by
  have hbefore : (fun x y => if d.hasCurrent complete x != d.hasCurrent complete y then d.hasCurrent complete x
      else decide (y < x)) = fun x y => decide (d.groupRank complete y < d.groupRank complete x) := by
    funext x y
    rw [Bool.eq_iff_iff, decide_eq_true_eq, Device.groupRank_lt]
    cases d.hasCurrent complete x <;> cases d.hasCurrent complete y <;> simp
  rw [Device.keptGroups, hbefore]

theorem mem_qualifying {seals : List SealFound} {complete : List Found} {g : Nat} :
    g ∈ ((onceEach (seals.map (·.sequence))).filter fun g => !(membersOf complete g).isEmpty) ↔
      qualifies seals complete g := by
  rw [List.mem_filter, mem_onceEach, List.mem_map, Bool.not_eq_true', List.isEmpty_eq_false_iff, qualifies]

theorem Device.qualifies_of_kept {d : Device} {seals : List SealFound} {complete : List Found} {g : Nat}
    (h : g ∈ d.keptGroups seals complete) : qualifies seals complete g := by
  rw [Device.keptGroups_eq] at h
  exact mem_qualifying.1 (mem_sortBy.1 (List.mem_of_mem_take h))

/-- A qualifying group is kept, or 32 that rank above it are. -/
theorem Device.kept_or_full {d : Device} {seals : List SealFound} {complete : List Found} {g : Nat}
    (h : qualifies seals complete g) : g ∈ d.keptGroups seals complete ∨
      ((d.keptGroups seals complete).length = 32 ∧
        ∀ x ∈ d.keptGroups seals complete, d.groupRank complete g < d.groupRank complete x) := by
  by_cases hin : g ∈ d.keptGroups seals complete
  · exact .inl hin
  · rw [Device.keptGroups_eq] at hin ⊢
    obtain ⟨hlen, hall⟩ := (mem_take_sortBy (ranks_higher (d.groupRank complete)) (mem_qualifying.2 h) 32).resolve_left hin
    refine .inr ⟨hlen, fun x hx => lt_of_le_of_ne (not_lt.1 (of_decide_eq_false (hall x hx))) fun heq => hin ?_⟩
    have hsame : g = x := (Prod.mk.inj (toLex.injective heq)).2
    rwa [hsame]

/-- The place of a group's seal is its copy in the segment of highest sequence. -/
theorem Device.sealPlace_spec {d : Device} {seals : List SealFound} {g : Nat} {s : SealFound}
    (h : d.sealPlace seals g = some s) : (s ∈ seals ∧ s.sequence = g) ∧
      ∀ x ∈ seals, x.sequence = g → d.headerSequence x.location.seg ≤ d.headerSequence s.location.seg := by
  obtain ⟨hmem, hbest⟩ := pickBest_mem (ranks_higher fun s : SealFound => d.headerSequence s.location.seg) h
  obtain ⟨hin, hg⟩ := List.mem_filter.1 hmem
  exact ⟨⟨hin, beq_iff_eq.1 hg⟩, fun x hx hxg =>
    not_lt.1 (of_decide_eq_false (hbest x (List.mem_filter.2 ⟨hx, beq_iff_eq.2 hxg⟩)))⟩

theorem Device.sealPlace_exists {d : Device} {seals : List SealFound} {g : Nat} (h : ∃ s ∈ seals, s.sequence = g) :
    ∃ s, d.sealPlace seals g = some s := by
  refine Option.ne_none_iff_exists'.1 fun hnone => ?_
  obtain ⟨s, hs, hg⟩ := h
  exact List.filter_eq_nil_iff.1 ((pickBest_none _ _).1 hnone) s hs (beq_iff_eq.2 hg)

/-- The KEPT entries that mount makes. -/
def Device.keptEntries (d : Device) (seals : List SealFound) (complete : List Found) : List GroupEntry :=
  (d.keptGroups seals complete).filterMap fun g =>
    (d.sealPlace seals g).map fun s => GroupEntry.kept g s.location (membersOf complete g).length

theorem Device.mem_keptEntries {d : Device} {seals : List SealFound} {complete : List Found} {y : GroupEntry} :
    y ∈ d.keptEntries seals complete ↔ ∃ g ∈ d.keptGroups seals complete, ∃ s, d.sealPlace seals g = some s ∧
      y = .kept g s.location (membersOf complete g).length := by
  simp [Device.keptEntries, List.mem_filterMap, eq_comm]

theorem Device.keptEntries_length (d : Device) (seals : List SealFound) (complete : List Found) :
    (d.keptEntries seals complete).length = (d.keptGroups seals complete).length := by
  refine List.filterMap_length_eq_length.2 fun g hg => ?_
  obtain ⟨s, hs⟩ := d.sealPlace_exists (Device.qualifies_of_kept hg).1
  rw [hs]
  rfl

theorem Device.mountGroups_eq (d : Device) (seals : List SealFound) (complete : List Found) :
    d.mountGroups seals complete = d.keptEntries seals complete ++
      List.replicate (32 - (d.keptGroups seals complete).length) .free := by
  rw [← d.keptEntries_length seals complete]
  rfl

theorem Device.mem_mountGroups {d : Device} {seals : List SealFound} {complete : List Found} {y : GroupEntry}
    (h : y ∈ d.mountGroups seals complete) : y = .free ∨ ∃ g ∈ d.keptGroups seals complete, ∃ s,
      d.sealPlace seals g = some s ∧ y = .kept g s.location (membersOf complete g).length := by
  rw [Device.mountGroups_eq, List.mem_append] at h
  rcases h with h | h
  · exact .inr (Device.mem_keptEntries.1 h)
  · exact .inl (List.eq_of_mem_replicate h)

/-- A qualifying group has an entry, or each of the 32 entries is of a group that ranks above it. -/
theorem Device.mountGroups_keeps {d : Device} {seals : List SealFound} {complete : List Found} {g : Nat}
    (h : qualifies seals complete g) : (∃ l n, GroupEntry.kept g l n ∈ d.mountGroups seals complete) ∨
      ∀ y ∈ d.mountGroups seals complete, ∃ g' l n, y = .kept g' l n ∧
          d.groupRank complete g < d.groupRank complete g' := by
  rcases Device.kept_or_full (d := d) h with hin | ⟨hlen, hall⟩
  · obtain ⟨s, hs⟩ := d.sealPlace_exists h.1
    refine .inl ⟨s.location, (membersOf complete g).length, ?_⟩
    rw [Device.mountGroups_eq]
    exact List.mem_append_left _ (Device.mem_keptEntries.2 ⟨g, hin, s, hs, rfl⟩)
  · refine .inr fun y hy => ?_
    rw [Device.mountGroups_eq, hlen] at hy
    obtain ⟨g', hg', s, -, rfl⟩ := Device.mem_keptEntries.1 ((List.mem_append.1 hy).resolve_right fun h => nomatch h)
    exact ⟨g', _, _, rfl, hall g' hg'⟩

/-! ## The segment table (R164, R168) -/

/-- The frames of a segment up to the last that does not read blank, and the blank ones past it. -/
theorem blanks_at_end (frames : List Cell) : ∃ used blanks, frames = used ++ blanks ∧ appendFrom frames = used.length + 1 ∧
    (∀ c ∈ blanks, c = .blank) ∧ ∀ c, used.getLast? = some c → c ≠ .blank := by
  refine ⟨(frames.reverse.dropWhile Cell.isBlank).reverse, (frames.reverse.takeWhile Cell.isBlank).reverse, ?_, ?_,
    fun c hc => ?_, fun c hc => ?_⟩
  · rw [← List.reverse_append, List.takeWhile_append_dropWhile, List.reverse_reverse]
  · rw [appendFrom, List.length_reverse, Nat.add_comm]
  · exact (Cell.isBlank_iff c).1 (List.mem_takeWhile_imp (List.mem_reverse.1 hc))
  · rw [List.getLast?_reverse] at hc
    have hhead := List.head?_dropWhile_not Cell.isBlank frames.reverse
    rw [hc] at hhead
    have hnot : c.isBlank = false := hhead
    exact fun hblank => Bool.false_ne_true (hnot.symm.trans ((Cell.isBlank_iff c).2 hblank))

/-- The append point is one above the last frame that does not read blank. -/
theorem appendFrom_spec (frames : List Cell) : ∃ n, appendFrom frames = n + 1 ∧ (∀ c ∈ frames.drop n, c = .blank) ∧
    (n = 0 ∨ ∃ c, frames[n - 1]? = some c ∧ c ≠ .blank) := by
  obtain ⟨used, blanks, rfl, hpoint, hblanks, hlast⟩ := blanks_at_end frames
  refine ⟨used.length, hpoint, by rwa [List.drop_left], ?_⟩
  rcases Nat.eq_zero_or_pos used.length with h0 | hpos
  · exact .inl h0
  · have hin : used.length - 1 < used.length := by omega
    refine .inr ⟨used[used.length - 1], ?_, hlast _ ?_⟩
    · rw [List.getElem?_append_left hin, List.getElem?_eq_getElem hin]
    · rw [List.getLast?_eq_getElem?, List.getElem?_eq_getElem hin]

/-- The ACTIVE candidate that mount keeps. -/
theorem Device.keptCandidate_spec {d : Device} {i : Nat} (h : d.keptCandidate = some i) :
    ∃ im, d.array[i]? = some im ∧ im.classify = .candidate ∧
      ∀ (j : Nat) (x : SegmentImage), d.array[j]? = some x → x.classify = .candidate →
        x.header.sequence < im.header.sequence ∨ (x.header.sequence = im.header.sequence ∧ i ≤ j) := by
  obtain ⟨⟨im, i'⟩, hpick, rfl⟩ := Option.map_eq_some_iff.1 h
  obtain ⟨before, after, hsplit, hbefore, hafter⟩ :=
    pickBest_splits (ranks_higher fun x : Numbered => x.1.header.sequence) hpick
  have hin : (im, i') ∈ d.imagesIn .candidate := by rw [hsplit]; simp
  obtain ⟨him, hclass⟩ := Device.mem_imagesIn.1 hin
  have hrise : (d.imagesIn .candidate).Pairwise fun x y => x.2 < y.2 := (zipIdx_rises d.array).filter _
  rw [hsplit] at hrise
  refine ⟨im, him, hclass, fun j x hx hxc => ?_⟩
  have hx' : (x, j) ∈ d.imagesIn .candidate := Device.mem_imagesIn.2 ⟨hx, hxc⟩
  rw [hsplit, List.mem_append, List.mem_cons] at hx'
  rcases hx' with hx' | heq | hx'
  · exact .inl (of_decide_eq_true (hbefore _ hx'))
  · obtain ⟨rfl, rfl⟩ := Prod.mk.inj heq
    exact .inr ⟨rfl, Nat.le_refl _⟩
  · have hlt := (List.pairwise_cons.1 (List.pairwise_append.1 hrise).2.1).1 _ hx'
    have hle := not_lt.1 (of_decide_eq_false (hafter _ hx'))
    rcases Nat.lt_or_eq_of_le hle with h | h
    · exact .inl h
    · exact .inr ⟨h, Nat.le_of_lt hlt⟩

theorem Device.keptCandidate_iff {d : Device} {i : Nat} {im : SegmentImage} (him : d.array[i]? = some im)
    (hc : im.classify = .candidate) : d.keptCandidate = some i ↔
      ∀ (j : Nat) (x : SegmentImage), d.array[j]? = some x → x.classify = .candidate →
        x.header.sequence < im.header.sequence ∨ (x.header.sequence = im.header.sequence ∧ i ≤ j) := by
  constructor
  · intro h
    obtain ⟨im', him', -, hall⟩ := Device.keptCandidate_spec h
    obtain rfl := Option.some.inj (him.symm.trans him')
    exact hall
  · intro hall
    cases hk : d.keptCandidate with
    | none =>
      have hnone := (pickBest_none _ _).1 (Option.map_eq_none_iff.1 hk)
      have hin : (im, i) ∈ d.imagesIn .candidate := Device.mem_imagesIn.2 ⟨him, hc⟩
      rw [hnone] at hin
      cases hin
    | some i' =>
      obtain ⟨im', him', hc', hall'⟩ := Device.keptCandidate_spec hk
      have h1 := hall i' im' him' hc'
      have h2 := hall' i im him hc
      rw [show i' = i by omega]

/-- The record that mount makes of a segment, by its class. -/
theorem mountRecord_eq (kept : Option Nat) (assigned : Nat) (im : SegmentImage) (i : Nat) :
    (im.classify = .erased → mountRecord kept assigned (im, i) = ⟨.erased, im.header.eraseCount, none, 1, 0, false⟩) ∧
    (im.classify = .sealed →
      mountRecord kept assigned (im, i) = ⟨.sealed, im.header.eraseCount, some im.header.sequence, 128, 0, false⟩) ∧
    (im.classify = .candidate → kept = some i → mountRecord kept assigned (im, i) =
      ⟨.active, im.header.eraseCount, some im.header.sequence, appendFrom im.frames, 0, false⟩) ∧
    (im.classify = .candidate → kept ≠ some i →
      mountRecord kept assigned (im, i) = ⟨.sealed, im.header.eraseCount, some im.header.sequence, 128, 0, false⟩) ∧
    (im.classify = .unclean → mountRecord kept assigned (im, i) = ⟨.sealed, assigned, none, 128, 0, false⟩) ∧
    (im.classify = .retired → mountRecord kept assigned (im, i) =
      ⟨.retired, if im.header.erased = .whole then im.header.eraseCount else assigned,
        if im.header.opened = .whole then some im.header.sequence else none, 1, 0, false⟩) := by
  refine ⟨fun h => ?_, fun h => ?_, fun h hk => ?_, fun h hk => ?_, fun h => ?_, fun h => ?_⟩ <;>
    simp only [mountRecord, h, SegmentHeader.givenSequence]
  · exact if_pos hk
  · exact if_neg hk

/-- Settles O16: the groups by their rank, their seals by the segments' sequences, and the records by class. -/
theorem mountBuildsGroupsAndSegments : Obligations.MountBuildsGroupsAndSegments := by
  intro read
  refine ⟨read.assignedCount, ?_⟩
  intro d found complete seals members current
  have hseals : ∀ s, s ∈ read.sealsFound found ↔
      ∃ x, completeSeal found x ∧ s = ⟨x.location, x.header.sequence, read.sealKeysAt x.location⟩ :=
    fun s => Device.mem_sealsFound
  refine ⟨read.fillSegments_groups_length, fun i im him => by rw [Device.headerSequence, him]; rfl,
    fun g f hf hnewest => Device.hasCurrent_newest hf fun x hx hk hne => Device.recency_lt.2 (hnewest x hx hk hne),
    fun g hg => ?_, fun y hy => ?_, fun g hg hseal => ?_, fun im him he => ?_, ?_, fun im him ho => ?_, ?_, ?_,
    fun i im him => ?_⟩
  · obtain ⟨f, hf, hnewest⟩ := Device.newest_of_hasCurrent hg
    exact ⟨f, hf, fun x hx hk => Device.recency_le.1 (hnewest x hx hk)⟩
  · refine (Device.mem_mountGroups hy).imp_right fun ⟨g, hg, s, hs, hkept⟩ => ?_
    obtain ⟨⟨hin, hsg⟩, hbest⟩ := Device.sealPlace_spec hs
    obtain ⟨x, ⟨hx, hkind, hcommitted⟩, rfl⟩ := (hseals s).1 hin
    refine ⟨g, _, _, hkept, (Device.qualifies_of_kept hg).2, rfl, ⟨x, ⟨hx, hkind, hcommitted, hsg⟩, rfl⟩,
      fun x' ⟨hx', hkind', hcommitted', hg'⟩ => ?_⟩
    exact hbest _ ((hseals _).2 ⟨x', ⟨hx', hkind', hcommitted'⟩, rfl⟩) hg'
  · obtain ⟨x, hx, hkind, hcommitted, hxg⟩ := hseal
    have hq : qualifies (read.sealsFound found) complete g :=
      ⟨⟨_, (hseals _).2 ⟨x, ⟨hx, hkind, hcommitted⟩, rfl⟩, hxg⟩, hg⟩
    refine (Device.mountGroups_keeps (d := read) hq).imp_right fun hall y hy => ?_
    obtain ⟨g', l, n, hy, hrank⟩ := hall y hy
    refine ⟨g', l, n, hy, (Device.groupRank_lt.1 hrank)⟩
  · exact le_highestOf (List.mem_map_of_mem (List.mem_filter.2 ⟨him, beq_iff_eq.2 he⟩))
  · refine (highestOf_mem _).imp_right fun h => ?_
    obtain ⟨im, him, heq⟩ := List.mem_map.1 h
    obtain ⟨him, he⟩ := List.mem_filter.1 him
    exact ⟨im, him, beq_iff_eq.1 he, heq⟩
  · show im.header.sequence < 1 + highestOf _
    rw [Nat.add_comm]
    exact Nat.lt_succ_of_le (le_highestOf (List.mem_map_of_mem (List.mem_filter.2 ⟨him, beq_iff_eq.2 ho⟩)))
  · show 1 + highestOf _ = 1 ∨ ∃ im ∈ _, _ ∧ 1 + highestOf _ = _
    rcases highestOf_mem ((read.array.filter fun im => im.header.opened == .whole).map fun im => im.header.sequence)
      with h | h
    · exact .inl (congrArg (1 + ·) h)
    · obtain ⟨im, him, heq⟩ := List.mem_map.1 h
      obtain ⟨him, ho⟩ := List.mem_filter.1 him
      exact .inr ⟨im, him, beq_iff_eq.1 ho, by rw [← heq, Nat.add_comm]⟩
  · show (read.images.map _).length = _
    rw [List.length_map, Device.images, List.length_zipIdx]
  · intro h record kept
    have hrecord : d.segments[i]? = some (mountRecord read.keptCandidate read.assignedCount (im, i)) :=
      Device.getElem?_fillSegments him
    obtain ⟨herased, hsealed, hkept, hcandidate, hunclean, hretired⟩ :=
      mountRecord_eq read.keptCandidate read.assignedCount im i
    refine ⟨fun hc => hrecord.trans (congrArg some (herased hc)), fun hc => hrecord.trans (congrArg some (hsealed hc)),
      fun hc hk => ?_, fun hc hk => ?_, fun hc => hrecord.trans (congrArg some (hunclean hc)),
      fun hc => hrecord.trans (congrArg some (hretired hc))⟩
    · obtain ⟨n, hn, hblank, hlast⟩ := appendFrom_spec im.frames
      refine ⟨n, ?_, hblank, hlast⟩
      show d.segments[i]? = _
      rw [hrecord, hkept hc ((Device.keptCandidate_iff him hc).2 hk), hn]
    · exact hrecord.trans (congrArg some (hcandidate hc fun hs => hk ((Device.keptCandidate_iff him hc).1 hs)))

end Sys2Proof.Machine
end

section
/-! SUPPORT. The reclaim walk, by its decisions and frame by frame: the statement WalkDecidesByTheTable. -/

namespace Sys2Proof.Machine

/-! ## The group table by location and by sequence -/

theorem Device.mem_listedKeys {d : Device} {k : Key} : k ∈ d.listedKeys ↔
    ∃ s l n, GroupEntry.kept s l n ∈ d.groups ∧ k ∈ d.sealKeysAt l := by
  rw [Device.listedKeys, List.mem_flatMap]
  constructor
  · rintro ⟨g, hg, hk⟩
    cases g with
    | kept s l n => exact ⟨s, l, n, hg, hk⟩
    | free | reserved => exact absurd hk List.not_mem_nil
  · rintro ⟨s, l, n, hg, hk⟩
    exact ⟨_, hg, hk⟩

theorem Device.keptSequence_iff {d : Device} {g : Nat} :
    d.keptSequence g = true ↔ ∃ l n, GroupEntry.kept g l n ∈ d.groups := by
  rw [Device.keptSequence, List.any_eq_true]
  constructor
  · rintro ⟨x, hx, htest⟩
    cases x with
    | kept s l n =>
      obtain rfl := beq_iff_eq.1 htest
      exact ⟨l, n, hx⟩
    | free | reserved => cases htest
  · rintro ⟨l, n, hx⟩
    exact ⟨_, hx, beq_self_eq_true g⟩

/-- The first KEPT entry whose seal lies at a location. -/
theorem Device.keptAt_first {d : Device} {l : Loc} {i s n : Nat} (h : d.groups[i]? = some (.kept s l n))
    (hfirst : ∀ (j s' n' : Nat), j < i → d.groups[j]? ≠ some (.kept s' l n')) : d.keptAt l = some i := by
  rw [Device.keptAt, List.findIdx?_eq_some_iff_getElem]
  obtain ⟨hi, hx⟩ := List.getElem?_eq_some_iff.1 h
  refine ⟨hi, by rw [hx]; exact beq_self_eq_true l, fun j hj htest => ?_⟩
  have hget := List.getElem?_eq_getElem (hj.trans hi)
  cases hg : d.groups[j] with
  | kept s' l' n' =>
    rw [hg] at htest hget
    obtain rfl := beq_iff_eq.1 htest
    exact hfirst j s' n' hj hget
  | free | reserved =>
    rw [hg] at htest
    cases htest

theorem Device.keptAt_none {d : Device} {l : Loc} (h : ∀ s n, GroupEntry.kept s l n ∉ d.groups) : d.keptAt l = none := by
  rw [Device.keptAt, List.findIdx?_eq_none_iff]
  intro x hx
  cases x with
  | kept s l' n => exact beq_eq_false_iff_ne.2 fun heq => h s n (heq ▸ hx)
  | free | reserved => rfl

/-! ## The decision (R122) -/

theorem Device.decideCurrent_gone {d : Device} {e : Entry} (h : e.state = .gone) :
    d.decideCurrent e = if d.tombstoneNeeded e = true then .copy (.entry e.key) else .dropTombstone := by
  rw [Device.decideCurrent, h]

theorem Device.decideVersion_seal {d : Device} {l : Loc} {h : VersionHeader} (c : Bool) (hk : h.kind = .groupSeal) :
    d.decideVersion l h c = (d.keptAt l).elim .skip fun i => .copy (.groupSeal i) := by
  rw [Device.decideVersion, if_pos hk]
  cases d.keptAt l <;> rfl

theorem Device.decideVersion_absent {d : Device} {l : Loc} {h : VersionHeader} (c : Bool) (hk : h.kind ≠ .groupSeal)
    (hl : d.lookup h.key = none) : d.decideVersion l h c = .skip := by
  rw [Device.decideVersion, if_neg hk, hl]

theorem Device.decideVersion_current {d : Device} {l : Loc} {h : VersionHeader} {e : Entry} (c : Bool)
    (hk : h.kind ≠ .groupSeal) (hl : d.lookup h.key = some e) (he : e.location = some l) :
    d.decideVersion l h c = d.decideCurrent e := by
  rw [Device.decideVersion, if_neg hk, hl]
  exact if_pos he

theorem Device.decideVersion_stale {d : Device} {l : Loc} {h : VersionHeader} {e : Entry} (hk : h.kind ≠ .groupSeal)
    (hl : d.lookup h.key = some e) (he : e.location ≠ some l)
    (hg : h.group = 0 ∨ ∃ l n, GroupEntry.kept h.group l n ∈ d.groups) : d.decideVersion l h true = .dropStale := by
  rw [Device.decideVersion, if_neg hk, hl]
  refine (if_neg he).trans (if_pos ?_)
  rwa [Bool.true_and, Bool.or_eq_true, beq_iff_eq, Device.keptSequence_iff]

theorem Device.decideVersion_skip {d : Device} {l : Loc} {h : VersionHeader} {e : Entry} {c : Bool}
    (hk : h.kind ≠ .groupSeal) (hl : d.lookup h.key = some e) (he : e.location ≠ some l)
    (hg : c = false ∨ (h.group ≠ 0 ∧ ¬ ∃ l n, GroupEntry.kept h.group l n ∈ d.groups)) :
    d.decideVersion l h c = .skip := by
  rw [Device.decideVersion, if_neg hk, hl]
  refine (if_neg he).trans (if_neg ?_)
  rw [Bool.and_eq_true, Bool.or_eq_true, beq_iff_eq, Device.keptSequence_iff]
  rintro ⟨hc, h0 | hin⟩
  · exact hg.elim (fun hf => Bool.false_ne_true (hf.symm.trans hc)) fun hn => hn.1 h0
  · exact hg.elim (fun hf => Bool.false_ne_true (hf.symm.trans hc)) fun hn => hn.2 hin

/-! ## Drops and copies -/

theorem copiedFirst_some {c : Cell} {f : First} (h : c.asFirst = some f) :
    copiedFirst c = .first { f with committed := false } := by
  rw [copiedFirst, h]

theorem copiedFirst_none {c : Cell} (h : c.asFirst = none) : copiedFirst c = c := by
  rw [copiedFirst, h]

/-- The frames of a copy: the first one's commit mark is blank, the others are as they read. -/
theorem Device.makeCopy_cells (d : Device) (t : CopyTarget) (l : Loc) (n : Nat) (good : Bool) :
    (d.makeCopy t l (n + 1) good).cells =
      copiedFirst (d.cell l) :: (List.range n).map fun i => d.cell ⟨l.seg, l.frame + (i + 1)⟩ := by
  rw [Device.makeCopy, List.range_succ_eq_map, List.map_cons, List.map_map]
  rfl

theorem Device.dropStale_good (d : Device) (l : Loc) (h : VersionHeader) : d.dropStale l h true = { d with
    directory := (d.modEntry h.key fun e => { e with residue := e.residue - 1 }).directory
    groups := if h.group = 0 then d.groups else d.groups.map (GroupEntry.loseMember h.group)
    reclaim := { d.reclaim with log := d.reclaim.log ++
      [{ location := l, key := h.key, sequence := h.sequence, group := h.group, tombstone := false }] } } := by
  rw [Device.dropStale, if_pos rfl]
  dsimp only
  by_cases hg : h.group = 0
  · rw [if_pos hg, if_pos hg]
    rfl
  · rw [if_neg hg, if_neg hg]
    rfl

/-- What R117 does to the group table, for a group field of 0 too. -/
theorem loseMembers_eq {group : Nat} {f : GroupEntry → GroupEntry} (gs : List GroupEntry)
    (hkept : ∀ s l n, f (.kept s l n) =
      if group ≠ 0 ∧ s = group then (if n ≤ 1 then .free else .kept s l (n - 1)) else .kept s l n)
    (hfree : f .free = .free) (hreserved : ∀ s, f (.reserved s) = .reserved s) :
    (if group = 0 then gs else gs.map (GroupEntry.loseMember group)) = gs.map f := by
  by_cases hg : group = 0
  · rw [if_pos hg]
    refine ((List.map_congr_left fun g _ => ?_).trans (List.map_id gs)).symm
    cases g with
    | kept s l n => exact (hkept s l n).trans (if_neg fun h => h.1 hg)
    | free => exact hfree
    | reserved s => exact hreserved s
  · rw [if_neg hg]
    refine List.map_congr_left fun g _ => ?_
    cases g with
    | kept s l n =>
      rw [hkept, GroupEntry.loseMember]
      simp only [ne_eq, hg, not_false_eq_true, true_and]
    | free => exact hfree.symm
    | reserved s => exact (hreserved s).symm

/-! ## One frame of the walk (R121) -/

theorem Device.walk_passes {d : Device} {v pos : Nat} (fuel : Nat) (hp : pos ≤ 127)
    (h : d.readHeader ⟨v, pos⟩ = .blank ∨ d.readHeader ⟨v, pos⟩ = .malformed) :
    Device.walk v (fuel + 1) pos d = Device.walk v fuel (pos + 1) d := by
  rw [Device.walk, if_neg (Nat.not_lt.2 hp)]
  rcases h with h | h <;> rw [h]

/-- What the walk makes of a version by the decision for it. -/
theorem Device.walk_decides {d : Device} {v pos : Nat} {h : VersionHeader} {c good : Bool} (fuel : Nat) (hp : pos ≤ 127)
    (hr : d.readHeader ⟨v, pos⟩ = .whole h c good) :
    (d.decideVersion ⟨v, pos⟩ h c = .skip →
      Device.walk v (fuel + 1) pos d = Device.walk v fuel (pos + versionFrames h.length) d) ∧
    (d.decideVersion ⟨v, pos⟩ h c = .dropTombstone → Device.walk v (fuel + 1) pos d =
      Device.walk v fuel (pos + versionFrames h.length) (d.dropTombstone ⟨v, pos⟩ h.key h.sequence)) ∧
    (d.decideVersion ⟨v, pos⟩ h c = .dropStale → Device.walk v (fuel + 1) pos d =
      Device.walk v fuel (pos + versionFrames h.length) (d.dropStale ⟨v, pos⟩ h good)) ∧
    ∀ t, d.decideVersion ⟨v, pos⟩ h c = .copy t → Device.walk v (fuel + 1) pos d =
      (d.setPosition pos, some (d.makeCopy t ⟨v, pos⟩ (versionFrames h.length) good)) := by
  refine ⟨fun hd => ?_, fun hd => ?_, fun hd => ?_, fun t hd => ?_⟩ <;>
    simp only [Device.walk, Config.lastFrame, Nat.not_lt.2 hp, if_false, hr, hd]

/-! ## The end of the walk (R121) -/

/-- The locations that an entry or a KEPT entry's seal names in a segment. -/
theorem Device.mem_namedIn {d : Device} {v : Nat} {l : Loc} : l ∈ d.namedIn v ↔ l.seg = v ∧
    ((∃ e ∈ d.directory, e.location = some l) ∨ ∃ s n, GroupEntry.kept s l n ∈ d.groups) := by
  have hseal : l ∈ d.groups.filterMap GroupEntry.sealLocation ↔ ∃ s n, GroupEntry.kept s l n ∈ d.groups := by
    rw [List.mem_filterMap]
    constructor
    · rintro ⟨g, hg, hl⟩
      cases g with
      | kept s l' n =>
        obtain rfl := Option.some.inj hl
        exact ⟨s, n, hg⟩
      | free | reserved => cases hl
    · rintro ⟨s, n, hg⟩
      exact ⟨_, hg, rfl⟩
  rw [Device.namedIn, List.mem_filter, List.mem_append, hseal, List.mem_filterMap, beq_iff_eq, and_comm]

/-- The first leftover in order of frame. -/
theorem Device.firstNamed {d : Device} {v : Nat} {l : Loc} (h : l ∈ d.namedIn v)
    (hlow : ∀ x ∈ d.namedIn v, x ≠ l → l.frame < x.frame) :
    pickBest (fun y x : Loc => decide (y.frame < x.frame)) (d.namedIn v) = some l := by
  cases hp : pickBest (fun y x : Loc => decide (y.frame < x.frame)) (d.namedIn v) with
  | none =>
    rw [(pickBest_none _ _).1 hp] at h
    cases h
  | some x =>
    obtain ⟨hx, hbest⟩ := pickBest_mem (ranks_lower fun l : Loc => l.frame) hp
    by_cases heq : x = l
    · rw [heq]
    · exact absurd (hlow x hx heq) (of_decide_eq_false (hbest l h))

theorem Device.leftover_none {d : Device} {v : Nat} (h : ∀ l, l ∉ d.namedIn v) : d.leftover v = none := by
  rw [Device.leftover, List.eq_nil_iff_forall_not_mem.2 h]
  rfl

theorem Device.leftover_entry {d : Device} {v : Nat} {l : Loc} {e : Entry} (h : l ∈ d.namedIn v)
    (hlow : ∀ x ∈ d.namedIn v, x ≠ l → l.frame < x.frame)
    (he : d.directory.find? (fun e => e.location == some l) = some e) :
    d.leftover v = some (l, d.decideCurrent e, versionFrames e.length) := by
  rw [Device.leftover, Device.firstNamed h hlow]
  dsimp only
  rw [he]

theorem Device.leftover_seal {d : Device} {v i : Nat} {l : Loc} (h : l ∈ d.namedIn v)
    (hlow : ∀ x ∈ d.namedIn v, x ≠ l → l.frame < x.frame) (he : ∀ e ∈ d.directory, e.location ≠ some l)
    (hk : d.keptAt l = some i) : d.leftover v = some (l, .copy (.groupSeal i), d.sealFramesAt l) := by
  have hnone : d.directory.find? (fun e => e.location == some l) = none :=
    List.find?_eq_none.2 fun e hin heq => he e hin (beq_iff_eq.1 heq)
  rw [Device.leftover, Device.firstNamed h hlow]
  dsimp only
  rw [hnone, hk]
  rfl

theorem find?_only {es : List Entry} {l : Loc} {e : Entry} (he : e ∈ es) (hl : e.location = some l)
    (honly : ∀ x ∈ es, x.location = some l → x = e) : es.find? (fun e => e.location == some l) = some e := by
  cases hf : es.find? (fun e => e.location == some l) with
  | none => exact absurd (beq_iff_eq.2 hl) (List.find?_eq_none.1 hf e he)
  | some x =>
    have hx := List.find?_some hf
    rw [honly x (List.mem_of_find?_eq_some hf) (beq_iff_eq.1 hx)]

theorem Device.walk_end_none {d : Device} {v pos : Nat} (fuel : Nat) (hp : 127 < pos) (h : d.leftover v = none) :
    Device.walk v (fuel + 1) pos d = (d.setPosition 128, none) := by
  rw [Device.walk, if_pos hp, h]

theorem Device.walk_end_copy {d : Device} {v pos n : Nat} {l : Loc} {t : CopyTarget} (fuel : Nat) (hp : 127 < pos)
    (h : d.leftover v = some (l, .copy t, n)) :
    Device.walk v (fuel + 1) pos d = (d.setPosition 128, some (d.makeCopy t l n (d.checkGood l))) := by
  rw [Device.walk, if_pos hp, h]

theorem Device.walk_end_drop {d : Device} {v pos n : Nat} {l : Loc} (fuel : Nat) (hp : 127 < pos)
    (h : d.leftover v = some (l, .dropTombstone, n)) : Device.walk v (fuel + 1) pos d =
      Device.walk v fuel pos (d.dropTombstone l (d.sequenceAt l).1 (d.sequenceAt l).2) := by
  rw [Device.walk, if_pos hp, h]

theorem Device.sealFramesAt_some {d : Device} {l : Loc} {f : First} (h : (d.cell l).asFirst = some f)
    (hr : headerInRange f.header l.frame = true) : d.sealFramesAt l = versionFrames f.header.length := by
  rw [Device.sealFramesAt, inRangeFirst, h, Option.filter_some, if_pos hr]

theorem Device.sealFramesAt_one {d : Device} {l : Loc}
    (h : ∀ f, (d.cell l).asFirst = some f → headerInRange f.header l.frame = false) : d.sealFramesAt l = 1 := by
  rw [Device.sealFramesAt, inRangeFirst]
  cases hf : (d.cell l).asFirst with
  | none => rfl
  | some f =>
    rw [Option.filter_some, h f hf]
    rfl

/-! ## A turn in COPYING (R121, R123, R125, R127) -/

theorem Device.walkTurn_ends {d : Device} {v pos : Nat} (hpos : d.reclaim.position = some pos)
    (h : (Device.walk v 300 pos d).2 = none) : d.walkTurn v = ((Device.walk v 300 pos d).1.endWalk v, true) := by
  rw [Device.walkTurn, walkFuel, hpos, Option.getD_some, h]

theorem Device.walkTurn_copies {d : Device} {v pos : Nat} {c : Copy} (hpos : d.reclaim.position = some pos)
    (h : (Device.walk v 300 pos d).2 = some c) : d.walkTurn v = (Device.walk v 300 pos d).1.startCopy c := by
  rw [Device.walkTurn, walkFuel, hpos, Option.getD_some, h]

theorem Device.endWalk_eq (d : Device) (v : Nat) : d.endWalk v = { d with reclaim := { d.reclaim with
    position := none
    state := if 0 < ((d.segments[v]?).map (·.pins)).getD 0 then .holding else .erasing } } := by
  simp only [Device.endWalk, decide_eq_true_eq]

theorem Device.startCopy_cases (c : Copy) (d : Device) :
    (d.fits c.cells.length = true ∨ 1 ≤ d.erasedCount → d.startCopy c = (d.placeItem (.copy c), false)) ∧
    (d.fits c.cells.length = false → d.erasedCount = 0 → d.startCopy c = (d.abandonVictim, true)) := by
  refine ⟨fun h => if_pos (by simpa using h), fun hf he => if_neg ?_⟩
  rw [hf, he]
  exact Bool.false_ne_true

/-! ## The statement, part by part -/

/-- The decision for a whole header, row by row. -/
theorem Device.decideVersion_rows (d : Device) (l : Loc) (h : VersionHeader) (c : Bool) :
    (h.kind = .groupSeal →
      (∀ (i s n : Nat), d.groups[i]? = some (.kept s l n) →
        (∀ (j s' n' : Nat), j < i → d.groups[j]? ≠ some (.kept s' l n')) → d.decideVersion l h c = .copy (.groupSeal i)) ∧
      ((∀ s n, GroupEntry.kept s l n ∉ d.groups) → d.decideVersion l h c = .skip)) ∧
    (h.kind ≠ .groupSeal →
      (d.lookup h.key = none → d.decideVersion l h c = .skip) ∧
      ∀ e, d.lookup h.key = some e →
        (e.location = some l → d.decideVersion l h c = d.decideCurrent e) ∧
        (e.location ≠ some l →
          (c = true → (h.group = 0 ∨ ∃ at_ n, GroupEntry.kept h.group at_ n ∈ d.groups) →
            d.decideVersion l h c = .dropStale) ∧
          (c = false ∨ (h.group ≠ 0 ∧ ¬ ∃ at_ n, GroupEntry.kept h.group at_ n ∈ d.groups) →
            d.decideVersion l h c = .skip))) := by
  refine ⟨fun hk => ⟨fun i s n hi hfirst => ?_, fun hnone => ?_⟩, fun hk => ⟨Device.decideVersion_absent c hk,
    fun e hl => ⟨Device.decideVersion_current c hk hl, fun he => ⟨fun hc hg => ?_, Device.decideVersion_skip hk hl he⟩⟩⟩⟩
  · rw [Device.decideVersion_seal c hk, Device.keptAt_first hi hfirst]
    rfl
  · rw [Device.decideVersion_seal c hk, Device.keptAt_none hnone]
    rfl
  · rw [hc]
    exact Device.decideVersion_stale hk hl he hg

/-- What the walk reads at a frame, and what it makes of it. -/
theorem Device.walk_frame (d : Device) {v pos : Nat} (fuel : Nat) (hp : pos ≤ 127) :
    ((d.cell ⟨v, pos⟩).asFirst = none → Device.walk v (fuel + 1) pos d = Device.walk v fuel (pos + 1) d) ∧
    ∀ f, (d.cell ⟨v, pos⟩).asFirst = some f →
      (headerInRange f.header pos = false → Device.walk v (fuel + 1) pos d = Device.walk v fuel (pos + 1) d) ∧
      (headerInRange f.header pos = true →
        d.readHeader ⟨v, pos⟩ = .whole f.header f.committed (d.checkGood ⟨v, pos⟩)) := by
  refine ⟨fun h => Device.walk_passes fuel hp (Device.readHeader_none h), fun f hf => ⟨fun hr => ?_, fun hr => ?_⟩⟩
  · refine Device.walk_passes fuel hp (.inr ?_)
    rw [Device.readHeader_some hf, if_neg (by rw [hr]; exact Bool.false_ne_true)]
  · rw [Device.readHeader_some hf, if_pos hr]

theorem Device.makeCopy_whole {d : Device} {l : Loc} {f : First} (t : CopyTarget) (good : Bool)
    (h : (d.cell l).asFirst = some f) : d.makeCopy t l (versionFrames f.header.length) good =
      { target := t
        source := l
        cells := .first { f with committed := false } ::
          (List.range (versionFrames f.header.length - 1)).map fun i => d.cell ⟨l.seg, l.frame + (i + 1)⟩
        checkGood := good } := by
  obtain ⟨n, hn⟩ := Nat.exists_eq_succ_of_ne_zero (Nat.ne_of_gt (versionFrames_pos f.header.length))
  have hcells := d.makeCopy_cells t l n good
  rw [copiedFirst_some h] at hcells
  rw [hn]
  exact congrArg (fun cells => (⟨t, l, cells, good⟩ : Copy)) hcells

theorem Device.makeCopy_frames (d : Device) (t : CopyTarget) (l : Loc) (n : Nat) (good : Bool) :
    (d.makeCopy t l n good).cells.length = n ∧
    (∀ f, 1 ≤ n → (d.cell l).asFirst = some f →
      (d.makeCopy t l n good).cells[0]? = some (.first { f with committed := false })) ∧
    (1 ≤ n → (d.cell l).asFirst = none → (d.makeCopy t l n good).cells[0]? = some (d.cell l)) ∧
    (∀ j, 1 ≤ j → j < n → (d.makeCopy t l n good).cells[j]? = some (d.cell ⟨l.seg, l.frame + j⟩)) := by
  cases n with
  | zero => exact ⟨rfl, fun f h => absurd h (by omega), fun h => absurd h (by omega), fun j h1 h => absurd h (by omega)⟩
  | succ n =>
    rw [Device.makeCopy_cells]
    refine ⟨by simp, fun f _ hf => by rw [copiedFirst_some hf]; rfl, fun _ hnone => by rw [copiedFirst_none hnone]; rfl,
      fun j h1 hj => ?_⟩
    obtain ⟨m, rfl⟩ := Nat.exists_eq_succ_of_ne_zero (Nat.ne_of_gt h1)
    rw [Nat.succ_eq_add_one, List.getElem?_cons_succ, List.getElem?_map, List.getElem?_range (by omega)]
    rfl

/-- Settles O10: each row of the decision, each step of the walk, and its end, from the lemmas about them. -/
theorem walkDecidesByTheTable : Obligations.WalkDecidesByTheTable := by
  unfold Obligations.WalkDecidesByTheTable
  intro asFirst
  have hfirst : asFirst = Cell.asFirst := by
    funext c
    cases c <;> rfl
  clear_value asFirst
  subst hfirst
  refine ⟨fun d e => ?_, Device.decideVersion_rows, fun d t l n good v pos => ?_, fun d v pos fuel hp => ?_,
    fun d l k n h => ?_, fun d v pos fuel hp => ?_, fun d v pos hpos => ?_⟩
  · intro needed
    have hneeded : d.tombstoneNeeded e = true ↔ needed := by rw [Device.tombstoneNeeded_iff, Device.mem_listedKeys]
    refine ⟨fun h => ?_, fun hg hn => ?_, fun hg hn => ?_⟩
    · rcases h with h | h <;> rw [Device.decideCurrent, h]
    · rw [Device.decideCurrent_gone hg, if_pos (hneeded.2 hn)]
    · rw [Device.decideCurrent_gone hg, if_neg fun h => hn (hneeded.1 h)]
  · obtain ⟨hlength, hfirst, hother, hrest⟩ := d.makeCopy_frames t l n good
    exact ⟨rfl, rfl, rfl, hlength, hfirst, hother, hrest, rfl⟩
  · intro walkFrom here outOfRange
    obtain ⟨hnone, hsome⟩ := d.walk_frame fuel hp
    refine ⟨hnone, fun f hf => ?_⟩
    intro decision next
    obtain ⟨hout, hin⟩ := hsome f hf
    refine ⟨fun hr => hout (headerInRange_false_iff.2 hr), fun hr => ?_⟩
    have hrange : headerInRange f.header pos = true :=
      (Bool.not_eq_false _).mp fun h => hr (headerInRange_false_iff.1 h)
    obtain ⟨hskip, htombstone, hstale, hcopy⟩ := Device.walk_decides fuel hp (hin hrange)
    refine ⟨hskip, htombstone, hstale, fun target hd => (hcopy target hd).trans ?_⟩
    rw [Device.makeCopy_whole target _ hf]
    rfl
  · refine ⟨rfl, rfl, (d.dropStale_good l h).trans ?_⟩
    congr 1
    exact loseMembers_eq d.groups (fun _ _ _ => rfl) rfl fun _ => rfl
  · intro here at128 named
    refine ⟨fun hnone => Device.walk_end_none fuel hp (Device.leftover_none fun l hl => hnone l (Device.mem_namedIn.1 hl)),
      fun l hl hlow => ?_⟩
    have hin : l ∈ d.namedIn v := Device.mem_namedIn.2 hl
    have hlow' : ∀ x ∈ d.namedIn v, x ≠ l → l.frame < x.frame := fun x hx => hlow x (Device.mem_namedIn.1 hx)
    refine ⟨fun e he hloc honly => ?_, fun i s n hno hi hfirst => ?_⟩
    · have hfind := find?_only he hloc honly
      have hleft := Device.leftover_entry hin hlow' hfind
      refine ⟨fun hd => ?_, fun hd => ?_⟩
      · rw [hd] at hleft
        exact Device.walk_end_copy fuel hp hleft
      · rw [hd] at hleft
        refine (Device.walk_end_drop fuel hp hleft).trans ?_
        rw [Device.sequenceAt, hfind]
    · intro inRange copied
      have hleft := Device.leftover_seal hin hlow' hno (Device.keptAt_first hi hfirst)
      have hend := Device.walk_end_copy fuel hp hleft
      refine ⟨fun f hf hr => ?_, fun hr => ?_⟩
      · rw [Device.sealFramesAt_some hf (headerInRange_iff.2 hr)] at hend
        exact hend
      · rw [Device.sealFramesAt_one fun f hf => (Bool.not_eq_true _).mp fun h => hr f hf (headerInRange_iff.1 h)] at hend
        exact hend
  · intro r
    refine ⟨fun hr => (Device.walkTurn_ends hpos hr).trans ?_, fun c hc => ?_⟩
    · rw [Device.endWalk_eq]
    · obtain ⟨hroom, hfull⟩ := Device.startCopy_cases c r.1
      exact ⟨fun h => (Device.walkTurn_copies hpos hc).trans (hroom h),
        fun hf he => (Device.walkTurn_copies hpos hc).trans (hfull hf he)⟩

end Sys2Proof.Machine
end
